-- ==== Sys2Proof/Word.lean ====
section
/-! DEFINITION. Word.lean: the word types of the part (R3, R4) and the plainest arithmetic on them, together with the
type of sparse maps in one canonical form. -/

namespace Sys2Proof

/-- A 32-bit word (R4). -/
abbrev Word := BitVec 32
/-- A 64-bit register, address or control word. -/
abbrev DWord := BitVec 64
/-- A byte. -/
abbrev Byte := BitVec 8
/-- The number of a record word, w0 to w15 (R22). -/
abbrev Reg := BitVec 4

/-- A sparse map from natural numbers: pairs with strictly rising keys. Operations stand in Machine/Sparse.lean. -/
abbrev SMap (β : Type) := List (Nat × β)

/-- A set of natural numbers: strictly rising. Operations stand in Machine/Sparse.lean. -/
abbrev NSet := List Nat

/-- The 64-bit value of a pair of words, the low word first (R3). -/
def pair64 (lo hi : Word) : DWord := hi ++ lo

/-- The low word of a 64-bit value. -/
def lo32 (x : DWord) : Word := x.extractLsb' 0 32

/-- The high word of a 64-bit value. -/
def hi32 (x : DWord) : Word := x.extractLsb' 32 32

end Sys2Proof
end

