-- ==== Sys2Proof/Syntax.lean ====
section
/-! DEFINITION. Syntax.lean: the instructions of the part, one constructor of `Instr` per row of the opcode table. The
first 151 are element operations (02_opcode_map, R53 to R64); the rest are the router operators (R29), the commands of
the configuration stream (R13 to R18), the nodes of the task graph (R37) and the events of the units that act on their
own (95_what_each_step_holds). -/

namespace Sys2Proof

/-- Operand length of the T0 tail (R23). -/
inductive Len where
  | one | four | eight | sixteen
  deriving DecidableEq, Repr

/-- Lane view of the T0 tail (R23): 32-, 16- and 8-bit lanes. -/
inductive Lane where
  | l32 | l16 | l8
  deriving DecidableEq, Repr

/-- Round codes of the T0 tail (R23): five fixed modes, stochastic, and the mode of the region's launch. -/
inductive Round where
  | rne | rtz | rdn | rup | rna | stochastic | region
  deriving DecidableEq, Repr

/-- Spaces of the T2 tail (R25). -/
inductive Space where
  | ownTile | regionTile | global | peer
  deriving DecidableEq, Repr

/-- Synchronisation codes of the T2 tail (R25): plain, .w, .c, .f, .tc, .tf, .n, .s. -/
inductive Sync where
  | plain | w | c | f | tc | tf | n | s
  deriving DecidableEq, Repr

/-- Scopes (R9). -/
inductive Scope where
  | cell | region | die | dev | sys
  deriving DecidableEq, Repr

/-- Access sizes of the T2 tail (R25): 1, 2, 8 and 16 words. -/
inductive Size where
  | word | pair | half | vector
  deriving DecidableEq, Repr

/-- Cache hints of the T2 tail (R25). -/
inductive Hint where
  | dflt | stream | keep | bypass
  deriving DecidableEq, Repr

/-- Ordering codes of atomics, cas and fence (R64). -/
inductive Order where
  | relaxed | acq | rel | ar
  deriving DecidableEq, Repr

/-- Element formats (R57); code 15 is reserved. -/
inductive Fmt where
  | fp32 | fp16 | bf16 | e5m2 | e4m3 | e3m2 | e2m3 | e2m1 | s8 | n8 | s4 | n4 | s2 | t2 | e8m0
  deriving DecidableEq, Repr

/-- The floating types of scalar arithmetic, codes 0 to 2 of R57. -/
inductive FTy where
  | f32 | f16 | bf16
  deriving DecidableEq, Repr

/-- setp conditions (R58). -/
inductive Cond where
  | eq | ne | lt | le | gt | ge | ltu | leu | gtu | geu | test
  deriving DecidableEq, Repr

/-- fcmp conditions (R60, R271). -/
inductive FCond where
  | eq | lt | le | un | ne | ge | gt | ord
  deriving DecidableEq, Repr

/-- fsgn forms (R270). -/
inductive SgnForm where
  | copy | neg | xor
  deriving DecidableEq, Repr

/-- acc operations (R58, R85). -/
inductive AccOp where
  | add | min | max | fadd | fmax
  deriving DecidableEq, Repr

/-- rdid selectors (R58, R93). -/
inductive IdSel where
  | cell | rcell | die | space | level
  deriving DecidableEq, Repr

/-- movk sources (R58): k0 to k3 and acc. -/
inductive KSel where
  | k0 | k1 | k2 | k3 | acc
  deriving DecidableEq, Repr

/-- emit modes (R79) with their block ids. -/
inductive EmitMode where
  /-- mode 0: blk becomes the block -/
  | target (b : BitVec 8)
  /-- mode 1: blk is kept -/
  | keep
  /-- mode 2: by P, the first block or the second -/
  | pred (b f : BitVec 8)
  deriving DecidableEq, Repr

/-- Operations of vred and vscan (R61). The floating ones carry their type. -/
inductive RedOp where
  | add | min | max | and | or | xor | minu | maxu
  | fadd (t : FTy) (r : Round) | fmin (t : FTy) | fmax (t : FTy)
  deriving DecidableEq, Repr

/-- Forms of vshuf (R61). -/
inductive ShufForm where
  | index | rev | lo | hi
  deriving DecidableEq, Repr

/-- A lane-wise operation of three words (R59). -/
structure Lanewise where
  d : Reg
  a : Reg
  b : Reg
  len : Len
  lane : Lane
  sat : Bool
  deriving DecidableEq, Repr

/-- A lane-wise operation of one operand (R59). -/
structure Lanewise1 where
  d : Reg
  a : Reg
  len : Len
  lane : Lane
  sat : Bool
  deriving DecidableEq, Repr

/-- An operation with a 20-bit immediate (R24, R99). -/
structure ImmOp where
  d : Reg
  a : Reg
  imm : BitVec 20
  deriving DecidableEq, Repr

/-- A shift by an immediate (R59, R99). -/
structure ShiftOp where
  d : Reg
  a : Reg
  n : BitVec 5
  deriving DecidableEq, Repr

/-- A bit-field operation (R59, R100): the field's lowest bit and its width minus 1. -/
structure FieldOp where
  d : Reg
  a : Reg
  lsb : BitVec 5
  widthM1 : BitVec 5
  deriving DecidableEq, Repr

/-- Three record words. -/
structure Reg3 where
  d : Reg
  a : Reg
  b : Reg
  deriving DecidableEq, Repr

/-- A floating operation of one, two or three operands (R60). Its lane view is the width of its type. -/
structure FloatOp where
  ty : FTy
  d : Reg
  a : Reg
  b : Reg
  c : Reg
  len : Len
  round : Round
  sat : Bool
  deriving DecidableEq, Repr

/-- A vector-structure operation (R61). -/
structure VecOp where
  d : Reg
  a : Reg
  b : Reg
  c : Reg
  len : Len
  lane : Lane
  deriving DecidableEq, Repr

/-- A memory operation's address fields (R25, R63). `shift` is the index shift v: 0 to 7, or 15 for no index. -/
structure MemRef where
  shift : BitVec 4
  a : Reg
  base : BitVec 4
  space : Space
  scope : Scope
  size : Size
  hint : Hint
  imm8 : BitVec 8
  deriving DecidableEq, Repr

/-- A firing operation of a matrix tile (R62). -/
structure FireOp where
  fmt : Fmt
  d : BitVec 2
  a : BitVec 3
  b : BitVec 3
  deriving DecidableEq, Repr

/-- The shape word of a tile register, bits [19:0] of R285. -/
abbrev Shape := BitVec 20

/-- A task-graph node's fields beside its KIND (R37). -/
structure Node where
  scope : Scope
  join : Bool
  iter : BitVec 20
  val : Word
  next : DWord
  alt : DWord
  arg : DWord
  deriving DecidableEq, Repr

/-- Where a launch to be accepted stands (R354, R358, R359). -/
inductive LaunchSource where
  /-- run node of host queue q -/
  | host (q : Nat)
  /-- the head of the peer queue of a die -/
  | peer (d : Nat)
  deriving DecidableEq, Repr

/-- What an access of a peer part, or of the host, does at a slice of this part (R375, R380). -/
inductive OutsideOp where
  /-- a plain read of n words -/
  | read (n : Nat)
  /-- a .w read: waits until the words are full -/
  | readW (n : Nat)
  /-- a .c read: waits, and leaves the words empty -/
  | readC (n : Nat)
  /-- a .tc read: .c where the words are full, without waiting -/
  | readTc (n : Nat)
  /-- a plain write -/
  | write (ws : List Word)
  /-- a .s write, a release at sys -/
  | writeS (ws : List Word)
  /-- a .f write: waits until the words are empty -/
  | writeF (ws : List Word)
  /-- a .tf write: .f where the words are empty, without waiting -/
  | writeTf (ws : List Word)
  /-- an atomic, by its opcode, on one or two words -/
  | atomic (opcode : BitVec 8) (pair : Bool) (x : DWord) (o : Order)
  /-- compare and swap -/
  | swap (pair : Bool) (expected new : DWord) (o : Order)
  /-- data written and words set empty, relaxed -/
  | writeEmpty (ws : List Word)
  deriving DecidableEq, Repr

/-- The instructions: one constructor per row of the opcode table. -/
inductive Instr where
  -- record control and system (R58)
  | nop
  | movi (d : Reg) (imm : BitVec 20)
  | movhi (d : Reg) (imm : BitVec 20)
  | movk (d : Reg) (k : KSel)
  | mov (d a : Reg) (len : Len)
  | setb (n : BitVec 4) (a : Reg)
  | setbw (n : BitVec 4) (a : Reg) (hi : Bool)
  | call (back : BitVec 8)
  | ret
  | retTrap
  | emit (mask : BitVec 4) (mode : EmitMode)
  | fork (target : BitVec 8)
  | drop
  | retire
  | sel (d a b : Reg) (len : Len)
  | setp (cond : Cond) (a : Reg) (operand : Sum (BitVec 20) Reg)
  | clrp
  | setbud (imm : BitVec 4)
  | getrcw (d : Reg)
  | setord (a : Reg)
  | eos
  | yield
  | trap (imm : BitVec 20)
  | brk (imm : BitVec 20)
  | launch (m : MemRef)
  | rdclk (d : Reg)
  | rdid (d : Reg) (s : IdSel)
  | zip (d b : Reg) (len : Len)
  | split (d a : Reg) (len : Len)
  | acc (op : AccOp) (a : Reg) (round : Round)
  | accget (d : Reg) (clear : Bool)
  | cnt (levels : BitVec 2)
  | cfg (d b : Reg) (m : MemRef)
  -- integer and address (R59)
  | add (o : Lanewise)
  | sub (o : Lanewise)
  | addi (o : ImmOp)
  | mul (o : Lanewise)
  | mulh (o : Lanewise) (unsigned : Bool)
  | mad (o : Lanewise) (c : Reg)
  | and (o : Lanewise)
  | or (o : Lanewise)
  | xor (o : Lanewise)
  | andi (o : ImmOp)
  | ori (o : ImmOp)
  | xori (o : ImmOp)
  | shl (o : Lanewise)
  | shr (o : Lanewise)
  | sar (o : Lanewise)
  | shli (o : ShiftOp)
  | shri (o : ShiftOp)
  | sari (o : ShiftOp)
  | rot (o : Lanewise)
  | clz (o : Lanewise1)
  | ctz (o : Lanewise1)
  | popc (o : Lanewise1)
  | min (o : Lanewise) (unsigned : Bool)
  | max (o : Lanewise) (unsigned : Bool)
  | abs (o : Lanewise1)
  | bfx (o : FieldOp) (signed : Bool)
  | bfi (o : FieldOp)
  | hash (o : Reg3) (mix : Bool)
  | lea (o : Reg3) (shift : BitVec 3)
  | add64 (o : Reg3)
  | sub64 (o : Reg3)
  | shl64 (o : Reg3)
  | chk (a b : Reg) (signed : Bool)
  -- floating point (R60)
  | fadd (o : FloatOp)
  | fsub (o : FloatOp)
  | fmul (o : FloatOp)
  | ffma (o : FloatOp)
  | fmin (o : FloatOp)
  | fmax (o : FloatOp)
  | fsgn (o : FloatOp) (form : SgnForm)
  | fcmp (o : FloatOp) (cond : FCond)
  | fcvt (d a : Reg) (dst src : Fmt) (len : Len) (round : Round) (sat : Bool)
  | frcp (o : FloatOp)
  | frsq (o : FloatOp)
  | fsqrt (o : FloatOp)
  | fexp2 (o : FloatOp)
  | flog2 (o : FloatOp)
  | fsin (o : FloatOp)
  | fcos (o : FloatOp)
  | fint (o : FloatOp)
  | f2i (o : FloatOp)
  | i2f (o : FloatOp)
  | fscale (o : FloatOp)
  | fclass (o : FloatOp)
  -- vector structure (R61)
  | vred (op : RedOp) (o : VecOp)
  | vscan (op : RedOp) (o : VecOp)
  | vbcast (o : VecOp)
  | vshuf (form : ShufForm) (o : VecOp)
  | vsel (o : VecOp)
  | vdot (fmt : Fmt) (o : VecOp) (round : Round)
  | vpack (fmt : Fmt) (d a : Reg) (round : Round) (sat : Bool)
  | vunpack (fmt : Fmt) (d a : Reg)
  | vamax (ty : FTy) (o : VecOp)
  | vquant (fmt : Fmt) (d a b : Reg) (round : Round) (sat : Bool)
  | vmxd (fmt : Fmt) (d a : Reg) (bf16 : Bool)
  -- matrix (R62)
  | mtcfg (t : BitVec 3) (shape : Shape)
  | tload (target : BitVec 4) (mask : Bool) (readers : BitVec 12) (port : BitVec 2)
  | mma (o : FireOp)
  | mmap (o : FireOp)
  | msca (o : FireOp) (v : BitVec 2) (k : BitVec 2)
  | mzero (c : BitVec 2)
  | mdrain (c : BitVec 2) (fmt : Fmt)
  | mrel (t : BitVec 3)
  -- memory, synchronisation and engines (R63)
  | ld (d : Reg) (sync : Sync) (m : MemRef)
  | st (d : Reg) (sync : Sync) (m : MemRef)
  | ldv (d : Reg) (sync : Sync) (m : MemRef)
  | ldvN (d b : Reg) (m : MemRef)
  | stv (d : Reg) (sync : Sync) (m : MemRef)
  | stvN (d b : Reg) (m : MemRef)
  | atomAdd (d b : Reg) (o : Order) (m : MemRef)
  | atomSub (d b : Reg) (o : Order) (m : MemRef)
  | atomMin (d b : Reg) (o : Order) (m : MemRef)
  | atomMax (d b : Reg) (o : Order) (m : MemRef)
  | atomAnd (d b : Reg) (o : Order) (m : MemRef)
  | atomOr (d b : Reg) (o : Order) (m : MemRef)
  | atomXor (d b : Reg) (o : Order) (m : MemRef)
  | atomSwap (d b : Reg) (o : Order) (m : MemRef)
  | atomIncw (d b : Reg) (o : Order) (m : MemRef)
  | atomFaddF32 (d b : Reg) (o : Order) (m : MemRef)
  | atomFaddBf16x2 (d b : Reg) (o : Order) (m : MemRef)
  | atomFmax (d b : Reg) (o : Order) (m : MemRef)
  | cas (d b : Reg) (o : Order) (m : MemRef)
  | feSet (full : Bool) (m : MemRef)
  | feGet (d : Reg) (m : MemRef)
  | dropN (b : Reg) (m : MemRef)
  | pref (m : MemRef)
  | fence (o : Order) (scope : Scope)
  | gather (sync : Sync) (m : MemRef)
  | scatter (sync : Sync) (m : MemRef)
  | src (sync : Sync) (m : MemRef)
  | sink (sync : Sync) (m : MemRef)
  | fifoPush (bank : BitVec 4)
  | fifoPop (bank : BitVec 4)
  | reorder (bank : BitVec 4) (pdrop : Bool)
  | copy (m : MemRef)
  | binApp (m : MemRef)
  | binRpl (m : MemRef)
  | pageMap (m : MemRef)
  | pageUnmap (m : MemRef)
  | pageShare (m : MemRef)
  | pageProt (m : MemRef)
  | spaceRetire (m : MemRef)
  | tlbInv (m : MemRef)
  | faultResume (m : MemRef)
  | faultFail (m : MemRef)
  -- router operators (R29)
  | steer (inv : Bool)
  | merge
  | carry (l : BitVec 8)
  -- the configuration stream (R15 to R18)
  | fieldWrite (cell : BitVec 6) (unit : BitVec 4) (field : BitVec 4) (value : BitVec 16)
  | routeHead (cell : BitVec 6) (unit : BitVec 4) (port net heading : BitVec 2) (turns : BitVec 12)
  | routeContinuation (turns : BitVec 26)
  | page (px : BitVec 4) (py : BitVec 3)
  | begin
  | commit
  | checksum (sum : BitVec 24)
  | preload (cell : BitVec 6) (bank : BitVec 4) (row : BitVec 11) (countM1 : BitVec 5)
  -- launches (R354 to R359, R380)
  | launchAccept (source : LaunchSource)
  | launchPlace
  | childQueueMove
  | peerLaunchPacket (die : Nat) (record : List Word) (tag : DWord)
  | peerAccess (space : BitVec 12) (va : DWord) (op : OutsideOp)
  | hqStartWrite (n : BitVec 2) (v : DWord)
  | hqTailWrite (n : BitVec 2) (v : DWord)
  -- task-graph nodes (R37, R38)
  | walkRun (n : Node)
  | walkWait (n : Node)
  | walkCond (n : Node)
  | walkLoop (n : Node)
  | walkSignal (n : Node)
  | walkEnd (n : Node)
  -- homes, waiting and links
  | tileRequestServe (inst x y k : Nat)
  | sliceRequestServe (sl k : Nat)
  | accessComplete (inst x y unit id : Nat)
  | sliceLineFill (sl k : Nat)
  | translationWalk (die k : Nat)
  | parkTimeout (home granule : Nat)
  | unparkWalk (home granule : Nat)
  | laggardEvent (sl k : Nat)
  | quotaWaiterFill (sl k : Nat)
  | fillRetry (sl k : Nat)
  | engineWaiterRetry (sl k : Nat)
  | sideLogEnter (die k : Nat)
  | linkResend (sl k : Nat) (dead : Bool)
  -- the region controller
  | trapReport (inst k : Nat)
  | handlerDeliver (inst : Nat)
  | haltIdleSpan (inst : Nat)
  | regionEnd (inst : Nat)
  -- matrix tiles
  | firingBegin (inst x y : Nat)
  | firingComplete (inst x y : Nat)
  | operandPortFill (inst x y port : Nat)
  | mzeroAct (inst x y : Nat)
  | mdrainAct (inst x y : Nat)
  -- engines
  | copyStart (page : Nat)
  | copyUnit (page : Nat)
  | kelpieAppend (die : Nat)
  | kelpieReplay (die : Nat)
  | spaceRetireRun (k : Nat)
  | cowService (die : Nat)
  | freeFrameTake (die : Nat)
  | freeFrameReturn (die : Nat)
  | tableBlockReturn (die : Nat)
  | frpush (die : Nat) (frame : BitVec 24)
  | writeBackRange (die : Nat)
  | domainSwitch (die : Nat)
  | domainSwitchWalk (die : Nat)
  | domainSwitchReplay (die : Nat)
  | catchRetry (die k : Nat)
  -- the scheduler
  | quantumEnd
  | yieldDivert (inst x y unit port : Nat)
  | preemptSave (inst : Nat)
  | preemptAbandon (inst : Nat)
  | restore (inst : Nat)
  | kill (done : DWord)
  -- the platform
  | warmReset
  | coldReset
  | featureOn (v : DWord)
  | attestationReport (v : DWord)
  | apertureRead (offset : BitVec 14) (bytes8 : Bool)
  | apertureWritePlain (offset : BitVec 14) (bytes8 : Bool) (v : DWord)
  | apertureWriteS (offset : BitVec 14) (bytes8 : Bool) (v : DWord)
  | apertureWriteEmpty (offset : BitVec 14) (bytes8 : Bool) (v : DWord)
  | histogramClear (die u : Nat)
  | histogramSample (die u : Nat) (source : BitVec 8) (space : BitVec 12) (v : Word)
  | powerLevelUpdate
  | registerWrite (offset : BitVec 16) (v : DWord)
  | stepRecordArrival (inst x y : Nat)
  deriving DecidableEq, Repr

end Sys2Proof
end

