-- ==== Sys2Proof/WellFormed.lean ====
section
/-! DEFINITION. WellFormed.lean: which terms of `Instr` are instructions of the part. Each check of an element
operation stands with the most significant bit of the field that offends when it fails, since R67 reports that bit's
field. The checks are those of 02_opcode_map (R58 to R63) and of the chapters its rows name. -/

namespace Sys2Proof

/-- A check: whether it holds, and the most significant bit of the 48-bit word that offends when it does not. -/
abbrev Check := Bool × Nat

/-- Bit 39: field v. -/
def bitV : Nat := 39
/-- Bit 35: field d. -/
def bitD : Nat := 35
/-- Bit 31: field a. -/
def bitA : Nat := 31
/-- Bit 27: field b. -/
def bitB : Nat := 27
/-- Bit 23: field c of T0, base of T2, block of T3. -/
def bitC : Nat := 23

/-- Words of a length code (R23). -/
def Len.words : Len → Nat
  | .one => 1 | .four => 4 | .eight => 8 | .sixteen => 16

/-- Bits of a lane (R23). -/
def Lane.bits : Lane → Nat
  | .l32 => 32 | .l16 => 16 | .l8 => 8

/-- Words of an access size (R25). -/
def Size.words : Size → Nat
  | .word => 1 | .pair => 2 | .half => 8 | .vector => 16

/-- Width in bits of an element format (R57). -/
def Fmt.width : Fmt → Nat
  | .fp32 => 32 | .fp16 => 16 | .bf16 => 16 | .e5m2 => 8 | .e4m3 => 8 | .e3m2 => 6 | .e2m3 => 6 | .e2m1 => 4
  | .s8 => 8 | .n8 => 8 | .s4 => 4 | .n4 => 4 | .s2 => 2 | .t2 => 2 | .e8m0 => 8

/-- The code of an element format (R57). -/
def Fmt.code : Fmt → BitVec 4
  | .fp32 => 0 | .fp16 => 1 | .bf16 => 2 | .e5m2 => 3 | .e4m3 => 4 | .e3m2 => 5 | .e2m3 => 6 | .e2m1 => 7
  | .s8 => 8 | .n8 => 9 | .s4 => 10 | .n4 => 11 | .s2 => 12 | .t2 => 13 | .e8m0 => 14

/-- The format of a floating type. -/
def FTy.fmt : FTy → Fmt
  | .f32 => .fp32 | .f16 => .fp16 | .bf16 => .bf16

/-- The lane view of a floating type (R60). -/
def FTy.lane : FTy → Lane
  | .f32 => .l32 | .f16 => .l16 | .bf16 => .l16

/-- The lane view of a vdot format (R61). -/
def Fmt.lane (f : Fmt) : Lane := if f.width = 32 then .l32 else if f.width = 16 then .l16 else .l8

/-- A vector operand begins at a multiple of its length (R23). -/
def aligned (l : Len) (r : Reg) : Bool := r.toNat % l.words == 0

/-- Words that n results of a width fill (R267). -/
def destWords (n width : Nat) : Nat := (n * width + 31) / 32

/-- The least power of two not below n, for n up to 32 (R267). -/
def powerAbove (n : Nat) : Nat :=
  if n ≤ 1 then 1 else if n ≤ 2 then 2 else if n ≤ 4 then 4 else if n ≤ 8 then 8 else if n ≤ 16 then 16 else 32

/-- The destination rule for results of another width (R267). -/
def destOk (n width : Nat) (d : Reg) : Bool :=
  d.toNat % powerAbove (destWords n width) == 0 && d.toNat + destWords n width ≤ 16

/-- The number of source elements of an fcvt (R274). -/
def fcvtCount (src : Fmt) (len : Len) : Nat :=
  if src.width = 32 ∨ src.width = 16 ∨ src.width = 8 then len.words * 32 / src.width else len.words * 4

/-- A format that fcvt reads and writes: codes 0 to 7 and 14 (R60). -/
def Fmt.isFloatOrScale (f : Fmt) : Bool := f.code.toNat ≤ 7 || f.code.toNat == 14

/-- Whether a format code lies in a range. -/
def Fmt.within (f : Fmt) (lo hi : Nat) : Bool := decide (lo ≤ f.code.toNat) && decide (f.code.toNat ≤ hi)

/-- Rows of a shape word (R285). -/
def Shape.rows (s : Shape) : Nat := (s.extractLsb' 9 7).toNat + 1
/-- Columns of a shape word (R285). -/
def Shape.cols (s : Shape) : Nat := (s.extractLsb' 0 9).toNat + 1
/-- The format code of a shape word (R285). -/
def Shape.fmtCode (s : Shape) : BitVec 4 := s.extractLsb' 16 4

/-- The width of a format code; 15 is reserved and has none. -/
def codeWidth (c : BitVec 4) : Nat :=
  match c.toNat with
  | 0 => 32 | 1 => 16 | 2 => 16 | 3 => 8 | 4 => 8 | 5 => 6 | 6 => 6 | 7 => 4
  | 8 => 8 | 9 => 8 | 10 => 4 | 11 => 4 | 12 => 2 | 13 => 2 | 14 => 8 | _ => 0

/-- A shape a tile register can take: a format of 0 to 13 and at most 131,072 bits (R62). -/
def Shape.ok (s : Shape) : Bool :=
  decide (s.fmtCode.toNat ≤ 13) && decide (s.rows * s.cols * codeWidth s.fmtCode ≤ 131072)

/-- Checks of a lane-wise operation of three operands; `sat` says whether the row accepts sa. -/
def Lanewise.checks (o : Lanewise) (sat : Bool) : List Check :=
  [(aligned o.len o.d, bitD), (aligned o.len o.a, bitA), (aligned o.len o.b, bitB), (sat || !o.sat, 12)]

/-- Checks of a lane-wise operation of one operand. -/
def Lanewise1.checks (o : Lanewise1) (sat : Bool) : List Check :=
  [(aligned o.len o.d, bitD), (aligned o.len o.a, bitA), (sat || !o.sat, 12)]

/-- Checks of a bit-field operation: the field lies within the word (R59). -/
def FieldOp.checks (o : FieldOp) : List Check :=
  [(decide (o.lsb.toNat + o.widthM1.toNat + 1 ≤ 32), 13)]

/-- Checks shared by the floating operations: how many operands the row has (1, 2 or 3), and whether it takes a round
code and sa (R60). `placed` marks f2i, whose destination R267 places. -/
def FloatOp.checks (o : FloatOp) (operands : Nat) (round sat : Bool) (placed : Bool := false) : List Check :=
  [(if placed then destOk (o.len.words * 32 / o.ty.fmt.width) 32 o.d else aligned o.len o.d, bitD),
   (aligned o.len o.a, bitA),
   (if operands ≥ 2 then aligned o.len o.b else o.b == 0, bitB),
   (if operands ≥ 3 then aligned o.len o.c else o.c == 0, bitC),
   (round || o.round == .rne, 15), (sat || !o.sat, 12)]

/-- A vector operation takes 4, 8 or 16 words (R61). -/
def lenVec (l : Len) : Check := (!(l == .one), 19)

/-- The lane view of a reduction: free for the integer operations, that of the type for the floating ones (R61). -/
def RedOp.laneOk (op : RedOp) (l : Lane) : Bool :=
  match op with
  | .fadd t _ | .fmin t | .fmax t => l == t.lane
  | _ => true

/-- The index shift of a memory operation (R25, R106). -/
def MemRef.shiftOk (m : MemRef) : Bool :=
  match m.space with
  | .ownTile | .regionTile => m.shift == 0 || m.shift == 15
  | .global | .peer => decide (m.shift.toNat ≤ 7) || m.shift == 15

/-- Checks of the address fields of a memory operation (R25, R63, R106): the spaces and sizes its row accepts, whether
it takes a scope and an index word. -/
def MemRef.checks (m : MemRef) (spaces : Space → Bool) (sizes : Size → Bool) (scope : Bool) (index : Bool := true) :
    List Check :=
  [(m.shiftOk, bitV), (m.a == 0 || (index && m.shift != 15), bitA),
   (m.base == 0 || m.space == .global || m.space == .peer, bitC),
   (spaces m.space, 19), (sizes m.size, 11), (scope || m.scope == .cell, 14)]

/-- Every space. -/
def anySpace : Space → Bool := fun _ => true
/-- The tile spaces and global space. -/
def tileOrGlobal : Space → Bool
  | .peer => false | _ => true
/-- Region-tile and global space. -/
def regionOrGlobal : Space → Bool
  | .regionTile => true | .global => true | _ => false
/-- Global space. -/
def globalOnly : Space → Bool
  | .global => true | _ => false
/-- Word and pair. -/
def wordOrPair : Size → Bool
  | .word => true | .pair => true | _ => false
/-- Half vector and vector. -/
def halfOrVector : Size → Bool
  | .half => true | .vector => true | _ => false
/-- Word only. -/
def wordOnly : Size → Bool
  | .word => true | _ => false
/-- Vector only. -/
def vectorOnly : Size → Bool
  | .vector => true | _ => false
/-- Every size. -/
def anySize : Size → Bool := fun _ => true

/-- A register that begins an access of the size (R109). -/
def regFor (s : Size) (r : Reg) : Bool := r.toNat % s.words == 0

/-- Checks of an atomic (R63, R121): `pair` says whether the row takes a pair. A pair's operand is two words, so b is at
most 14. -/
def atomChecks (d b : Reg) (m : MemRef) (pair : Bool) : List Check :=
  m.checks anySpace (if pair then wordOrPair else wordOnly) true ++
    [(regFor m.size d, bitD), (m.size == .word || decide (b.toNat ≤ 14), bitB)]

/-- The hint of a row that takes none is zero (R55): its instruction's syntax in chapter 04 lists no hint. -/
def noHint (m : MemRef) : Check := (m.hint == .dflt, 9)

/-- Checks of an engine or page operation (R63). -/
def engineChecks (m : MemRef) : List Check := m.checks globalOnly vectorOnly true ++ [noHint m]

/-- Checks of a firing (R62): the formats it accepts, and two different registers. -/
def FireOp.checks (o : FireOp) (lo : Nat) : List Check := [(o.fmt.within lo 13, bitV), (o.a != o.b, bitA)]

/-- A canonical address (R108). -/
def canonical (a : DWord) : Bool := a.extractLsb' 52 12 == 0

/-- Checks of a task-graph node by kind (R37, R38): which fields may be non-zero, and how its ARG is aligned. -/
def Node.checks (n : Node) (join iter val alt : Bool) (argAlign : Nat) : List Check :=
  [(join || !n.join, 0), (iter || n.iter == 0, 0), (val || n.val == 0, 0), (alt || n.alt == 0, 0),
   (canonical n.arg, 0), (n.arg.toNat % argAlign == 0, 0)]

/-- The checks of an instruction. -/
def Instr.checks : Instr → List Check
  | .mov d a len => [(aligned len d, bitD), (aligned len a, bitA)]
  | .setb _ a => [(a.toNat % 2 == 0, bitA)]
  | .call back => [(back != 0, bitC)]
  | .emit mask _ => [(mask != 0, 15)]
  | .sel d a b len => [(aligned len d, bitD), (aligned len a, bitA), (aligned len b, bitB)]
  | .getrcw d => [(d.toNat % 2 == 0, bitD)]
  | .rdclk d => [(d.toNat % 2 == 0, bitD)]
  | .launch m => m.checks globalOnly vectorOnly true ++ [noHint m]
  | .zip d b len => [(aligned len d, bitD), (aligned len b, bitB)]
  | .split d a len => [(aligned len d, bitD), (aligned len a, bitA)]
  | .acc op _ round => [(op == .fadd || round == .rne, 15)]
  | .cnt levels => [(levels != 0, 3)]
  | .cfg d _ m => (d.toNat % 2 == 0, bitD) :: noHint m :: m.checks globalOnly wordOnly true
  | .add o | .sub o | .mul o => o.checks true
  | .mulh o _ => o.checks false
  | .mad o c => (aligned o.len c, bitC) :: o.checks true
  | .and o | .or o | .xor o | .shl o | .shr o | .sar o | .rot o => o.checks false
  | .min o _ | .max o _ => o.checks false
  | .clz o | .ctz o | .popc o => o.checks false
  | .abs o => o.checks true
  | .bfx o _ => o.checks
  | .bfi o => o.checks
  | .add64 o | .sub64 o => [(o.d.toNat % 2 == 0, bitD), (o.a.toNat % 2 == 0, bitA), (o.b.toNat % 2 == 0, bitB)]
  | .shl64 o => [(o.d.toNat % 2 == 0, bitD), (o.a.toNat % 2 == 0, bitA)]
  | .fadd o | .fsub o | .fmul o => o.checks 2 true false
  | .ffma o => o.checks 3 true false
  | .fmin o | .fmax o => o.checks 2 false false
  | .fsgn o _ => o.checks 2 false false
  | .fcmp o _ => o.checks 2 false false
  | .fcvt d a dst source len _ _ =>
      [(dst.isFloatOrScale && dst != source, bitV), (source.isFloatOrScale, bitC),
       (!source.isFloatOrScale || destOk (fcvtCount source len) dst.width d, bitD), (aligned len a, bitA)]
  | .frcp o | .fsqrt o | .fint o | .i2f o => o.checks 1 true false
  | .frsq o | .fexp2 o | .flog2 o | .fsin o | .fcos o | .fclass o => o.checks 1 false false
  | .f2i o => o.checks 1 true true true
  | .fscale o => o.checks 2 true true
  | .vred op o => [lenVec o.len, (op.laneOk o.lane, 17), (aligned o.len o.a, bitA), (o.b == 0, bitB), (o.c == 0, bitC)]
  | .vscan op o =>
      [lenVec o.len, (op.laneOk o.lane, 17), (aligned o.len o.d, bitD), (aligned o.len o.a, bitA), (o.b == 0, bitB),
       (o.c == 0, bitC)]
  | .vbcast o => [lenVec o.len, (aligned o.len o.d, bitD), (o.b == 0, bitB), (o.c == 0, bitC)]
  | .vshuf form o =>
      [lenVec o.len, (aligned o.len o.d, bitD), (aligned o.len o.a, bitA),
       (if form == .rev then o.b == 0 else aligned o.len o.b, bitB), (o.c == 0, bitC)]
  | .vsel o =>
      [lenVec o.len, (aligned o.len o.d, bitD), (aligned o.len o.a, bitA), (aligned o.len o.b, bitB),
       (aligned o.len o.c, bitC)]
  | .vdot fmt o round =>
      [lenVec o.len, (fmt.within 0 2 || fmt == .s8 || fmt == .n8, bitV), (o.lane == fmt.lane, 17),
       (aligned o.len o.a, bitA), (aligned o.len o.b, bitB), (o.c == 0, bitC), (fmt.within 0 2 || round == .rne, 15)]
  | .vpack fmt d a _ _ => [(fmt.within 1 13, bitV), (destOk 16 fmt.width d, bitD), (a == 0, bitA)]
  | .vunpack fmt d a => [(fmt.within 1 13, bitV), (d == 0, bitD), (a == 0, bitA)]
  | .vamax ty o =>
      [lenVec o.len, (o.lane == ty.lane, 17), (aligned o.len o.a, bitA), (o.b == 0, bitB), (o.c == 0, bitC)]
  | .vquant fmt d a b _ _ =>
      [(fmt.within 3 13, bitV), (destOk 16 fmt.width d, bitD), (a == 0, bitA),
       (decide (b.toNat < d.toNat) || decide (d.toNat + destWords 16 fmt.width ≤ b.toNat), bitB)]
  | .vmxd fmt d a _ => [(fmt.within 3 8, bitV), (d == 0, bitD), (a == 0, bitA)]
  | .mtcfg _ shape => [(shape == 0 || Shape.ok shape, 23)]
  | .tload target _ readers _ => [(decide (target.toNat ≤ 11), bitD), (readers != 0, 23)]
  | .mma o | .mmap o => o.checks 0
  | .msca o _ _ => o.checks 3
  | .mdrain _ fmt => [(fmt.within 0 4, bitV)]
  | .ld d sync m =>
      m.checks anySpace wordOrPair true ++
        [(sync == .plain || sync == .w || sync == .c || sync == .tc, 17), (regFor m.size d, bitD)]
  | .st d sync m =>
      m.checks anySpace wordOrPair true ++
        [(sync == .plain || sync == .f || sync == .tf || sync == .s, 17), (regFor m.size d, bitD)]
  | .ldv d sync m =>
      m.checks anySpace halfOrVector true ++
        [(sync == .plain || sync == .w || sync == .c || sync == .tc, 17), (regFor m.size d, bitD)]
  | .ldvN d _ m => m.checks tileOrGlobal vectorOnly true ++ [(d == 0, bitD)]
  | .stv d sync m =>
      m.checks anySpace halfOrVector true ++
        [(sync == .plain || sync == .f || sync == .tf || sync == .s, 17), (regFor m.size d, bitD)]
  | .stvN d _ m => m.checks tileOrGlobal vectorOnly true ++ [(d == 0, bitD)]
  | .atomAdd d b _ m | .atomSub d b _ m | .atomMin d b _ m | .atomMax d b _ m | .atomAnd d b _ m | .atomOr d b _ m
  | .atomXor d b _ m | .atomSwap d b _ m => atomChecks d b m true
  | .atomIncw d b _ m | .atomFaddF32 d b _ m | .atomFaddBf16x2 d b _ m | .atomFmax d b _ m => atomChecks d b m false
  | .cas d b _ m =>
      m.checks anySpace wordOrPair true ++
        [(regFor m.size d, bitD),
         (if m.size == .word then decide (b.toNat ≤ 14) else decide (b.toNat ≤ 12) && b.toNat % 2 == 0, bitB)]
  | .feSet _ m => m.checks tileOrGlobal anySize true ++ [noHint m]
  | .feGet _ m => m.checks tileOrGlobal anySize false ++ [noHint m]
  | .dropN _ m => m.checks tileOrGlobal vectorOnly true ++ [noHint m]
  | .pref m => m.checks globalOnly wordOnly false
  | .fence o _ => [(o != .relaxed, 17)]
  | .gather sync m =>
      m.checks regionOrGlobal vectorOnly true false ++ [noHint m, (sync == .plain || sync == .w, 17)]
  | .scatter sync m =>
      m.checks regionOrGlobal vectorOnly true false ++ [noHint m, (sync == .plain || sync == .s, 17)]
  | .src sync m =>
      m.checks tileOrGlobal anySize true ++
        [(m.shift == 15, bitV), noHint m, (sync == .plain || sync == .w || sync == .c, 17)]
  | .sink sync m =>
      m.checks tileOrGlobal anySize true ++
        [(m.shift == 15, bitV), noHint m, (sync == .plain || sync == .f || sync == .s, 17)]
  | .copy m | .binApp m | .binRpl m | .pageMap m | .pageUnmap m | .pageShare m | .pageProt m | .spaceRetire m
  | .tlbInv m | .faultResume m | .faultFail m => engineChecks m
  | .carry l => [(decide (3 ≤ l.toNat), 7)]
  | .walkRun n => n.checks true false false false 64
  | .walkWait n => n.checks false false false false 4
  | .walkCond n => n.checks false false true true 4
  | .walkLoop n =>
      n.checks false true true true 4 ++ [(decide (n.val.toNat ≤ 0xFFFFF), 0), (n.alt != 0, 0)]
  | .walkSignal n => n.checks false false true false 4
  | .walkEnd n => n.checks false false false false 4 ++ [(n.arg == 0, 0)]
  | _ => []

/-- A well-formed instruction: every check of it holds. -/
def Instr.wf (i : Instr) : Bool := i.checks.all (·.1)

end Sys2Proof
end

