-- ==== Sys2Proof/Decode.lean ====
section
/-! DEFINITION. Decode.lean: the encodings of the part. First the element operation (R22 to R26, R53 to R65), then the
router slot (R29), the commands of the configuration stream (R13 to R18) and the task-graph node (R37); each with its
encoder, written from the same tables. A reserved encoding is rejected with the most significant bit that offends. -/

namespace Sys2Proof

/-! ### Codes -/

/-- Length codes (R23). -/
def Len.code : Len → BitVec 2
  | .one => 0 | .four => 1 | .eight => 2 | .sixteen => 3
/-- The length of a code. -/
def Len.ofCode (c : BitVec 2) : Len :=
  if c = 0 then .one else if c = 1 then .four else if c = 2 then .eight else .sixteen

/-- Lane codes (R23); 3 is reserved. -/
def Lane.code : Lane → BitVec 2
  | .l32 => 0 | .l16 => 1 | .l8 => 2
/-- The lane view of a code; the row checks that it is not 3. -/
def Lane.ofCode (c : BitVec 2) : Lane := if c = 1 then .l16 else if c = 2 then .l8 else .l32

/-- Round codes (R23); 7 is reserved. -/
def Round.code : Round → BitVec 3
  | .rne => 0 | .rtz => 1 | .rdn => 2 | .rup => 3 | .rna => 4 | .stochastic => 5 | .region => 6
/-- The round mode of a code; the row checks that it is not 7. -/
def Round.ofCode (c : BitVec 3) : Round :=
  if c = 1 then .rtz else if c = 2 then .rdn else if c = 3 then .rup else if c = 4 then .rna
  else if c = 5 then .stochastic else if c = 6 then .region else .rne

/-- Space codes (R25). -/
def Space.code : Space → BitVec 2
  | .ownTile => 0 | .regionTile => 1 | .global => 2 | .peer => 3
/-- The space of a code. -/
def Space.ofCode (c : BitVec 2) : Space :=
  if c = 0 then .ownTile else if c = 1 then .regionTile else if c = 2 then .global else .peer

/-- Synchronisation codes (R25). -/
def Sync.code : Sync → BitVec 3
  | .plain => 0 | .w => 1 | .c => 2 | .f => 3 | .tc => 4 | .tf => 5 | .n => 6 | .s => 7
/-- The synchronisation form of a code. -/
def Sync.ofCode (c : BitVec 3) : Sync :=
  if c = 0 then .plain else if c = 1 then .w else if c = 2 then .c else if c = 3 then .f
  else if c = 4 then .tc else if c = 5 then .tf else if c = 6 then .n else .s

/-- Scope codes (R9); 5 to 7 are reserved. -/
def Scope.code : Scope → BitVec 3
  | .cell => 0 | .region => 1 | .die => 2 | .dev => 3 | .sys => 4
/-- The scope of a code; the row checks that it is at most 4. -/
def Scope.ofCode (c : BitVec 3) : Scope :=
  if c = 1 then .region else if c = 2 then .die else if c = 3 then .dev else if c = 4 then .sys else .cell

/-- Size codes (R25). -/
def Size.code : Size → BitVec 2
  | .word => 0 | .pair => 1 | .half => 2 | .vector => 3
/-- The size of a code. -/
def Size.ofCode (c : BitVec 2) : Size :=
  if c = 0 then .word else if c = 1 then .pair else if c = 2 then .half else .vector

/-- Hint codes (R25). -/
def Hint.code : Hint → BitVec 2
  | .dflt => 0 | .stream => 1 | .keep => 2 | .bypass => 3
/-- The hint of a code. -/
def Hint.ofCode (c : BitVec 2) : Hint :=
  if c = 0 then .dflt else if c = 1 then .stream else if c = 2 then .keep else .bypass

/-- Ordering codes (R64); 4 to 7 are reserved. -/
def Order.code : Order → BitVec 3
  | .relaxed => 0 | .acq => 1 | .rel => 2 | .ar => 3
/-- The ordering of a code; the row checks that it is at most 3. -/
def Order.ofCode (c : BitVec 3) : Order :=
  if c = 1 then .acq else if c = 2 then .rel else if c = 3 then .ar else .relaxed

/-- The format of a code (R57); the row checks that it is not 15. -/
def Fmt.ofCode (c : BitVec 4) : Fmt :=
  match c.toNat with
  | 0 => .fp32 | 1 => .fp16 | 2 => .bf16 | 3 => .e5m2 | 4 => .e4m3 | 5 => .e3m2 | 6 => .e2m3 | 7 => .e2m1
  | 8 => .s8 | 9 => .n8 | 10 => .s4 | 11 => .n4 | 12 => .s2 | 13 => .t2 | _ => .e8m0

/-- Type codes (R57): 0 to 2. -/
def FTy.code : FTy → BitVec 4
  | .f32 => 0 | .f16 => 1 | .bf16 => 2
/-- The type of a code; the row checks that it is at most 2. -/
def FTy.ofCode (c : BitVec 4) : FTy := if c = 1 then .f16 else if c = 2 then .bf16 else .f32

/-- Condition codes of setp (R58). -/
def Cond.code : Cond → BitVec 4
  | .eq => 0 | .ne => 1 | .lt => 2 | .le => 3 | .gt => 4 | .ge => 5 | .ltu => 6 | .leu => 7 | .gtu => 8 | .geu => 9
  | .test => 10
/-- The condition of a code; the row checks that it is at most 10. -/
def Cond.ofCode (c : BitVec 4) : Cond :=
  match c.toNat with
  | 0 => .eq | 1 => .ne | 2 => .lt | 3 => .le | 4 => .gt | 5 => .ge | 6 => .ltu | 7 => .leu | 8 => .gtu | 9 => .geu
  | _ => .test

/-- Condition codes of fcmp (R60). -/
def FCond.code : FCond → BitVec 4
  | .eq => 0 | .lt => 1 | .le => 2 | .un => 3 | .ne => 4 | .ge => 5 | .gt => 6 | .ord => 7
/-- The condition of a code; the row checks that it is at most 7. -/
def FCond.ofCode (c : BitVec 4) : FCond :=
  match c.toNat with
  | 0 => .eq | 1 => .lt | 2 => .le | 3 => .un | 4 => .ne | 5 => .ge | 6 => .gt | _ => .ord

/-- fsgn codes (R60). -/
def SgnForm.code : SgnForm → BitVec 4
  | .copy => 0 | .neg => 1 | .xor => 2
/-- The form of a code; the row checks that it is at most 2. -/
def SgnForm.ofCode (c : BitVec 4) : SgnForm := if c = 0 then .copy else if c = 1 then .neg else .xor

/-- acc codes (R58). -/
def AccOp.code : AccOp → BitVec 4
  | .add => 0 | .min => 1 | .max => 2 | .fadd => 3 | .fmax => 4
/-- The operation of a code; the row checks that it is at most 4. -/
def AccOp.ofCode (c : BitVec 4) : AccOp :=
  if c = 0 then .add else if c = 1 then .min else if c = 2 then .max else if c = 3 then .fadd else .fmax

/-- rdid codes (R58). -/
def IdSel.code : IdSel → BitVec 4
  | .cell => 0 | .rcell => 1 | .die => 2 | .space => 3 | .level => 4
/-- The selector of a code; the row checks that it is at most 4. -/
def IdSel.ofCode (c : BitVec 4) : IdSel :=
  if c = 0 then .cell else if c = 1 then .rcell else if c = 2 then .die else if c = 3 then .space else .level

/-- movk codes (R58). -/
def KSel.code : KSel → BitVec 4
  | .k0 => 0 | .k1 => 1 | .k2 => 2 | .k3 => 3 | .acc => 4
/-- The source of a code; the row checks that it is at most 4. -/
def KSel.ofCode (c : BitVec 4) : KSel :=
  if c = 0 then .k0 else if c = 1 then .k1 else if c = 2 then .k2 else if c = 3 then .k3 else .acc

/-- vshuf codes (R61). -/
def ShufForm.code : ShufForm → BitVec 4
  | .index => 0 | .rev => 1 | .lo => 2 | .hi => 3
/-- The form of a code; the row checks that it is at most 3. -/
def ShufForm.ofCode (c : BitVec 4) : ShufForm :=
  if c = 0 then .index else if c = 1 then .rev else if c = 2 then .lo else .hi

/-- vred and vscan codes (R61). -/
def RedOp.code : RedOp → BitVec 4
  | .add => 0 | .min => 1 | .max => 2 | .and => 3 | .or => 4 | .xor => 5 | .minu => 6 | .maxu => 7
  | .fadd _ _ => 8 | .fmin _ => 9 | .fmax _ => 10
/-- Field c of vred and vscan: the type of a floating operation (R61). -/
def RedOp.typeCode : RedOp → BitVec 4
  | .fadd t _ | .fmin t | .fmax t => t.code
  | _ => 0
/-- The round field of vred and vscan (R61). -/
def RedOp.round : RedOp → Round
  | .fadd _ r => r
  | _ => .rne
/-- The operation of a code, with its type and round mode; the row checks that the code is at most 10. -/
def RedOp.ofCode (v c : BitVec 4) (r : Round) : RedOp :=
  match v.toNat with
  | 0 => .add | 1 => .min | 2 => .max | 3 => .and | 4 => .or | 5 => .xor | 6 => .minu | 7 => .maxu
  | 8 => .fadd (FTy.ofCode c) r | 9 => .fmin (FTy.ofCode c) | _ => .fmax (FTy.ofCode c)

/-! ### The fields of an element operation -/

/-- The fields of the 48-bit operation (R22). -/
structure Fields where
  op : BitVec 8
  v : BitVec 4
  d : BitVec 4
  a : BitVec 4
  b : BitVec 4
  tail : BitVec 24
  deriving DecidableEq, Repr

/-- The word of the fields (R22). -/
def Fields.pack (f : Fields) : BitVec 48 := f.op ++ f.v ++ f.d ++ f.a ++ f.b ++ f.tail

/-- The fields of a word (R22). -/
def Fields.unpack (w : BitVec 48) : Fields :=
  { op := w.extractLsb' 40 8, v := w.extractLsb' 36 4, d := w.extractLsb' 32 4, a := w.extractLsb' 28 4,
    b := w.extractLsb' 24 4, tail := w.extractLsb' 0 24 }

/-- The T0 tail (R23). -/
structure T0 where
  c : BitVec 4
  len : BitVec 2
  lane : BitVec 2
  round : BitVec 3
  sat : BitVec 1
  rest : BitVec 12
  deriving DecidableEq, Repr
/-- The tail's bits. -/
def T0.pack (t : T0) : BitVec 24 := t.c ++ t.len ++ t.lane ++ t.round ++ t.sat ++ t.rest
/-- The tail of the bits. -/
def T0.unpack (t : BitVec 24) : T0 :=
  { c := t.extractLsb' 20 4, len := t.extractLsb' 18 2, lane := t.extractLsb' 16 2, round := t.extractLsb' 13 3,
    sat := t.extractLsb' 12 1, rest := t.extractLsb' 0 12 }

/-- The T1 tail (R24). -/
structure T1 where
  imm : BitVec 20
  sub : BitVec 4
  deriving DecidableEq, Repr
/-- The tail's bits. -/
def T1.pack (t : T1) : BitVec 24 := t.imm ++ t.sub
/-- The tail of the bits. -/
def T1.unpack (t : BitVec 24) : T1 := { imm := t.extractLsb' 4 20, sub := t.extractLsb' 0 4 }

/-- The T2 tail (R25). -/
structure T2 where
  base : BitVec 4
  space : BitVec 2
  sync : BitVec 3
  scope : BitVec 3
  size : BitVec 2
  hint : BitVec 2
  imm8 : BitVec 8
  deriving DecidableEq, Repr
/-- The tail's bits. -/
def T2.pack (t : T2) : BitVec 24 := t.base ++ t.space ++ t.sync ++ t.scope ++ t.size ++ t.hint ++ t.imm8
/-- The tail of the bits. -/
def T2.unpack (t : BitVec 24) : T2 :=
  { base := t.extractLsb' 20 4, space := t.extractLsb' 18 2, sync := t.extractLsb' 15 3, scope := t.extractLsb' 12 3,
    size := t.extractLsb' 10 2, hint := t.extractLsb' 8 2, imm8 := t.extractLsb' 0 8 }

/-- The T3 tail (R26). -/
structure T3 where
  block : BitVec 8
  mask : BitVec 4
  imm : BitVec 12
  deriving DecidableEq, Repr
/-- The tail's bits. -/
def T3.pack (t : T3) : BitVec 24 := t.block ++ t.mask ++ t.imm
/-- The tail of the bits. -/
def T3.unpack (t : BitVec 24) : T3 :=
  { block := t.extractLsb' 16 8, mask := t.extractLsb' 12 4, imm := t.extractLsb' 0 12 }

/-! ### Checks of the fields -/

/-- A row of the opcode map: the checks of the bits and the instruction they give. -/
abbrev Row := List Check × Instr

/-- A value that must be zero, standing from bit `low`: its highest set bit offends (R67). -/
def zeroBits {n : Nat} (x : BitVec n) (low : Nat) : Check := (x == 0, low + x.toNat.log2)

/-- Field v must not exceed a code. -/
def vMax (f : Fields) (n : Nat) : Check := (decide (f.v.toNat ≤ n), bitV)
/-- Field v must be zero. -/
def vZero (f : Fields) : Check := (f.v == 0, bitV)
/-- Field d must be zero. -/
def dZero (f : Fields) : Check := (f.d == 0, bitD)
/-- Field a must be zero. -/
def aZero (f : Fields) : Check := (f.a == 0, bitA)
/-- Field b must be zero. -/
def bZero (f : Fields) : Check := (f.b == 0, bitB)

/-- A Z tail (R55). -/
def rowZ (f : Fields) (cs : List Check) (i : Instr) : Row := (zeroBits f.tail 0 :: cs, i)

/-- The checks of a T0 tail that every row makes: codes that are not reserved, and bits [11:0] zero. -/
def t0Checks (t : T0) : List Check := [(t.lane != 3, 17), (t.round != 7, 15), zeroBits t.rest 0]

/-- A T0 row of the integer group: no c, no rounding (R59). -/
def rowLanewise (f : Fields) (vmax : Nat) (i : Lanewise → Instr) : Row :=
  let t := T0.unpack f.tail
  (vMax f vmax :: (t.c == 0, bitC) :: (t.round == 0, 15) :: t0Checks t,
    i { d := f.d, a := f.a, b := f.b, len := Len.ofCode t.len, lane := Lane.ofCode t.lane, sat := t.sat == 1 })

/-- A T0 row of the integer group with one operand (R59). -/
def rowLanewise1 (f : Fields) (i : Lanewise1 → Instr) : Row :=
  let t := T0.unpack f.tail
  (vZero f :: bZero f :: (t.c == 0, bitC) :: (t.round == 0, 15) :: t0Checks t,
    i { d := f.d, a := f.a, len := Len.ofCode t.len, lane := Lane.ofCode t.lane, sat := t.sat == 1 })

/-- A scalar T0 row: length one word, 32-bit lanes, nothing else in the tail (R59). -/
def rowScalar (f : Fields) (vmax : Nat) (i : Instr) : Row := (vMax f vmax :: [zeroBits f.tail 0], i)

/-- A T0 row of mov, sel, zip and split: a length and no lane view (R58). -/
def rowMove (f : Fields) (cs : List Check) (i : Len → Instr) : Row :=
  let t := T0.unpack f.tail
  (vZero f :: (t.c == 0, bitC) :: (t.lane == 0, 17) :: (t.round == 0, 15) :: (t.sat == 0, 12) :: t0Checks t ++ cs,
    i (Len.ofCode t.len))

/-- A T1 row (R24): sub-operation at most a code. -/
def rowT1 (f : Fields) (subMax : Nat) (cs : List Check) (i : T1 → Instr) : Row :=
  let t := T1.unpack f.tail
  ((decide (t.sub.toNat ≤ subMax), 3) :: cs, i t)

/-- A T0 row of the floating group (R60): lane view equal to the width of the type. -/
def rowFloat (f : Fields) (c : T0 → List Check) (i : T0 → FloatOp → Instr) (keepC : Bool := true) : Row :=
  let t := T0.unpack f.tail
  let ty := FTy.ofCode f.v
  (vMax f 2 :: (t.lane == ty.lane.code, 17) :: t0Checks t ++ c t,
    i t { ty := ty, d := f.d, a := f.a, b := f.b, c := if keepC then t.c else 0, len := Len.ofCode t.len,
          round := Round.ofCode t.round, sat := t.sat == 1 })

/-- A T0 row of the vector group (R61). -/
def rowVec (f : Fields) (c : T0 → List Check) (i : T0 → VecOp → Instr) (keepC : Bool := true) : Row :=
  let t := T0.unpack f.tail
  ((t.sat == 0, 12) :: t0Checks t ++ c t,
    i t { d := f.d, a := f.a, b := f.b, c := if keepC then t.c else 0, len := Len.ofCode t.len,
          lane := Lane.ofCode t.lane })

/-- The rounding field is zero. -/
def noRound (t : T0) : Check := (t.round == 0, 15)

/-- A 16-word row of the vector group with 32-bit lanes (R61). -/
def rowVec16 (f : Fields) (c : T0 → List Check) (i : T0 → Instr) : Row :=
  let t := T0.unpack f.tail
  (vMax f 14 :: (t.len == 3, 19) :: (t.lane == 0, 17) :: t0Checks t ++ c t, i t)

/-- The address fields of a T2 tail. -/
def memOf (f : Fields) (t : T2) : MemRef :=
  { shift := f.v, a := f.a, base := t.base, space := Space.ofCode t.space, scope := Scope.ofCode t.scope,
    size := Size.ofCode t.size, hint := Hint.ofCode t.hint, imm8 := t.imm8 }

/-- A T2 row (R25, R63). -/
def rowT2 (f : Fields) (c : T2 → List Check) (i : T2 → MemRef → Instr) : Row :=
  let t := T2.unpack f.tail
  ((decide (t.scope.toNat ≤ 4), 14) :: c t, i t (memOf f t))

/-- The bit that offends where a sync code, which lies across fields 0 and 1, is none of those that a row accepts: the field's highest, of
field 1. DESIGN CHOICE: log 21. -/
def syncBit : Nat := 17

/-- A T2 row whose sync field must be zero: its highest set bit offends. -/
def rowEngine (f : Fields) (i : MemRef → Instr) : Row :=
  rowT2 f (fun t => [dZero f, bZero f, zeroBits t.sync 15]) (fun _ m => i m)

/-- A T2 row of an atomic or cas: the sync field is an ordering code (R64). -/
def rowAtomic (f : Fields) (i : Order → MemRef → Instr) : Row :=
  rowT2 f (fun t => [(decide (t.sync.toNat ≤ 3), syncBit)]) (fun t m => i (Order.ofCode t.sync) m)

/-- A bank-naming row (R132): own tile, vector, no sync, scope or hint, v 15, the bank in imm8. -/
def rowBank (f : Fields) (cs : List Check) (i : BitVec 4 → Instr) : Row :=
  let t := T2.unpack f.tail
  ((f.v == 15, bitV) :: dZero f :: aZero f :: (t.base == 0, bitC) :: (t.space == 0, 19) :: zeroBits t.sync 15 ::
    (t.scope == 0, 14) :: (t.size == 3, 11) :: (t.hint == 0, 9) :: zeroBits (t.imm8.extractLsb' 4 4) 4 :: cs,
    i (t.imm8.extractLsb' 0 4))

/-! ### The rows of the opcode map -/

/-- Opcodes 0x00 to 0x1F (R58). -/
def rowControl (f : Fields) : Option Row :=
  match f.op.toNat with
  | 0x00 => some (rowZ f [vZero f, dZero f, aZero f, bZero f] .nop)
  | 0x01 => some (rowT1 f 0 [vZero f, aZero f, bZero f] fun t => .movi f.d t.imm)
  | 0x02 => some (rowT1 f 0 [vZero f, aZero f, bZero f] fun t => .movhi f.d t.imm)
  | 0x03 => some (rowZ f [vMax f 4, aZero f, bZero f] (.movk f.d (KSel.ofCode f.v)))
  | 0x04 => some (rowMove f [bZero f] fun l => .mov f.d f.a l)
  | 0x05 => some (rowZ f [vZero f, bZero f] (.setb f.d f.a))
  | 0x06 => some (rowZ f [vMax f 1, bZero f] (.setbw f.d f.a (f.v == 1)))
  | 0x07 =>
      let t := T3.unpack f.tail
      some ([vZero f, dZero f, aZero f, bZero f, zeroBits t.mask 12, zeroBits t.imm 0], .call t.block)
  | 0x08 => some (rowZ f [vMax f 1, dZero f, aZero f, bZero f] (if f.v = 1 then .retTrap else .ret))
  | 0x09 =>
      let t := T3.unpack f.tail
      let second : BitVec 8 := t.imm.extractLsb' 4 8
      let mode : BitVec 2 := t.imm.extractLsb' 0 2
      some ([vZero f, dZero f, aZero f, bZero f, (t.imm.extractLsb' 2 2 == 0 && mode != 3, 11),
             (mode == 2 || second == 0, 11), (mode != 1 || t.block == 0, bitC)],
        .emit t.mask (if mode = 0 then .target t.block else if mode = 1 then .keep else .pred t.block second))
  | 0x0A =>
      let t := T3.unpack f.tail
      some ([vZero f, dZero f, aZero f, bZero f, zeroBits t.mask 12, zeroBits t.imm 0], .fork t.block)
  | 0x0B => some (rowZ f [vZero f, dZero f, aZero f, bZero f] .drop)
  | 0x0C => some (rowZ f [vZero f, dZero f, aZero f, bZero f] .retire)
  | 0x0D => some (rowMove f [] fun l => .sel f.d f.a f.b l)
  | 0x0E =>
      some (rowT1 f 10 [vMax f 1, dZero f, (f.v == 1 || f.b == 0, bitB),
          if f.v = 1 then zeroBits (T1.unpack f.tail).imm 4 else (true, 0)] fun t =>
        .setp (Cond.ofCode t.sub) f.a (if f.v = 1 then .inr f.b else .inl t.imm))
  | 0x0F => some (rowZ f [vZero f, dZero f, aZero f, bZero f] .clrp)
  | 0x10 =>
      some (rowT1 f 0 [vZero f, dZero f, aZero f, bZero f, zeroBits ((T1.unpack f.tail).imm.extractLsb' 4 16) 8] fun t =>
        .setbud (t.imm.extractLsb' 0 4))
  | 0x11 => some (rowZ f [vZero f, aZero f, bZero f] (.getrcw f.d))
  | 0x12 => some (rowZ f [vZero f, dZero f, bZero f] (.setord f.a))
  | 0x13 => some (rowZ f [vZero f, dZero f, aZero f, bZero f] .eos)
  | 0x14 => some (rowZ f [vZero f, dZero f, aZero f, bZero f] .yield)
  | 0x15 => some (rowT1 f 0 [vZero f, dZero f, aZero f, bZero f] fun t => .trap t.imm)
  | 0x16 => some (rowT1 f 0 [vZero f, dZero f, aZero f, bZero f] fun t => .brk t.imm)
  | 0x17 => some (rowEngine f .launch)
  | 0x18 => some (rowZ f [vZero f, aZero f, bZero f] (.rdclk f.d))
  | 0x19 =>
      some (rowT1 f 4 [vZero f, aZero f, bZero f, zeroBits (T1.unpack f.tail).imm 4] fun t =>
        .rdid f.d (IdSel.ofCode t.sub))
  | 0x1A => some (rowMove f [aZero f] fun l => .zip f.d f.b l)
  | 0x1B => some (rowMove f [bZero f] fun l => .split f.d f.a l)
  | 0x1C =>
      let t := T0.unpack f.tail
      some (vMax f 4 :: dZero f :: bZero f :: (t.c == 0, bitC) :: (t.len == 0, 19) :: (t.lane == 0, 17) ::
        (t.sat == 0, 12) :: t0Checks t, .acc (AccOp.ofCode f.v) f.a (Round.ofCode t.round))
  | 0x1D => some (rowZ f [vMax f 1, aZero f, bZero f] (.accget f.d (f.v == 1)))
  | 0x1E =>
      some (rowT1 f 3 [vZero f, dZero f, aZero f, bZero f, zeroBits (T1.unpack f.tail).imm 4] fun t =>
        .cnt (t.sub.extractLsb' 0 2))
  | 0x1F => some (rowT2 f (fun t => [zeroBits t.sync 15]) fun _ m => .cfg f.d f.b m)
  | _ => none

/-- Opcodes 0x20 to 0x3E (R59). -/
def rowInteger (f : Fields) : Option Row :=
  let imm (i : ImmOp → Instr) : Row :=
    rowT1 f 0 [vZero f, bZero f] fun t => i { d := f.d, a := f.a, imm := t.imm }
  let r3 : Reg3 := { d := f.d, a := f.a, b := f.b }
  let field (sub : Nat) (i : T1 → FieldOp → Instr) : Row :=
    rowT1 f sub [vZero f, bZero f, zeroBits ((T1.unpack f.tail).imm.extractLsb' 10 10) 14] fun t =>
      i t { d := f.d, a := f.a, lsb := t.imm.extractLsb' 5 5, widthM1 := t.imm.extractLsb' 0 5 }
  match f.op.toNat with
  | 0x20 => some (rowLanewise f 0 .add)
  | 0x21 => some (rowLanewise f 0 .sub)
  | 0x22 => some (imm .addi)
  | 0x23 => some (rowLanewise f 0 .mul)
  | 0x24 => some (rowLanewise f 1 fun o => .mulh o (f.v == 1))
  | 0x25 =>
      let t := T0.unpack f.tail
      some (vZero f :: noRound t :: t0Checks t,
        .mad { d := f.d, a := f.a, b := f.b, len := Len.ofCode t.len, lane := Lane.ofCode t.lane, sat := t.sat == 1 } t.c)
  | 0x26 => some (rowLanewise f 0 .and)
  | 0x27 => some (rowLanewise f 0 .or)
  | 0x28 => some (rowLanewise f 0 .xor)
  | 0x29 => some (imm .andi)
  | 0x2A => some (imm .ori)
  | 0x2B => some (imm .xori)
  | 0x2C => some (rowLanewise f 0 .shl)
  | 0x2D => some (rowLanewise f 0 .shr)
  | 0x2E => some (rowLanewise f 0 .sar)
  | 0x2F =>
      some (rowT1 f 2 [vZero f, bZero f, zeroBits ((T1.unpack f.tail).imm.extractLsb' 5 15) 9] fun t =>
        let o : ShiftOp := { d := f.d, a := f.a, n := t.imm.extractLsb' 0 5 }
        if t.sub = 0 then .shli o else if t.sub = 1 then .shri o else .sari o)
  | 0x30 => some (rowLanewise f 0 .rot)
  | 0x31 => some (rowLanewise1 f .clz)
  | 0x32 => some (rowLanewise1 f .ctz)
  | 0x33 => some (rowLanewise1 f .popc)
  | 0x34 => some (rowLanewise f 1 fun o => .min o (f.v == 1))
  | 0x35 => some (rowLanewise f 1 fun o => .max o (f.v == 1))
  | 0x36 => some (rowLanewise1 f .abs)
  | 0x37 => some (field 1 fun t o => .bfx o (t.sub == 1))
  | 0x38 => some (field 0 fun _ o => .bfi o)
  | 0x39 => some (rowScalar f 1 (.hash r3 (f.v == 1)))
  | 0x3A => some (rowScalar f 7 (.lea r3 (f.v.extractLsb' 0 3)))
  | 0x3B => some (rowScalar f 0 (.add64 r3))
  | 0x3C => some (rowScalar f 0 (.sub64 r3))
  | 0x3D => some (rowScalar f 0 (.shl64 r3))
  | 0x3E => some (dZero f :: (rowScalar f 1 .nop).1, .chk f.a f.b (f.v == 1))
  | _ => none

/-- Opcodes 0x40 to 0x54 (R60). -/
def rowFloating (f : Fields) : Option Row :=
  let plain (i : FloatOp → Instr) : Row := rowFloat f (fun _ => []) fun _ o => i o
  match f.op.toNat with
  | 0x40 => some (plain .fadd)
  | 0x41 => some (plain .fsub)
  | 0x42 => some (plain .fmul)
  | 0x43 => some (plain .ffma)
  | 0x44 => some (plain .fmin)
  | 0x45 => some (plain .fmax)
  | 0x46 =>
      some (rowFloat f (fun t => [(decide (t.c.toNat ≤ 2), bitC)]) (fun t o => .fsgn o (SgnForm.ofCode t.c)) false)
  | 0x47 =>
      some (rowFloat f (fun t => [(decide (t.c.toNat ≤ 7), bitC)]) (fun t o => .fcmp o (FCond.ofCode t.c)) false)
  | 0x48 =>
      let t := T0.unpack f.tail
      -- a reserved source code fails by itself: nothing else of the row is held against it
      let source := if t.c = 15 then .s8 else Fmt.ofCode t.c
      let view : BitVec 2 := if source.width = 32 then 0 else if source.width = 16 then 1 else 2
      some (vMax f 14 :: (decide (t.c.toNat ≤ 14), bitC) :: bZero f :: (t.lane == view, 17) :: t0Checks t,
        .fcvt f.d f.a (Fmt.ofCode f.v) source (Len.ofCode t.len) (Round.ofCode t.round) (t.sat == 1))
  | 0x49 => some (plain .frcp)
  | 0x4A => some (plain .frsq)
  | 0x4B => some (plain .fsqrt)
  | 0x4C => some (plain .fexp2)
  | 0x4D => some (plain .flog2)
  | 0x4E => some (plain .fsin)
  | 0x4F => some (plain .fcos)
  | 0x50 => some (plain .fint)
  | 0x51 => some (plain .f2i)
  | 0x52 => some (plain .i2f)
  | 0x53 => some (plain .fscale)
  | 0x54 => some (plain .fclass)
  | _ => none

/-- Opcodes 0x60 to 0x6A (R61). -/
def rowVector (f : Fields) : Option Row :=
  let reduction (i : RedOp → VecOp → Instr) : Row :=
    rowVec f (fun t => [vMax f 10, (if 8 ≤ f.v.toNat then decide (t.c.toNat ≤ 2) else t.c == 0, bitC),
        (f.v == 8 || t.round == 0, 15)])
      (fun t o => i (RedOp.ofCode f.v t.c (Round.ofCode t.round)) o) false
  match f.op.toNat with
  | 0x60 => some (reduction .vred)
  | 0x61 => some (reduction .vscan)
  | 0x62 => some (rowVec f (fun t => [vZero f, noRound t]) fun _ o => .vbcast o)
  | 0x63 => some (rowVec f (fun t => [vMax f 3, noRound t]) fun _ o => .vshuf (ShufForm.ofCode f.v) o)
  | 0x64 => some (rowVec f (fun t => [vZero f, noRound t]) fun _ o => .vsel o)
  | 0x65 => some (rowVec f (fun _ => [vMax f 14]) fun t o => .vdot (Fmt.ofCode f.v) o (Round.ofCode t.round))
  | 0x66 =>
      some (rowVec16 f (fun t => [bZero f, (t.c == 0, bitC)]) fun t =>
        .vpack (Fmt.ofCode f.v) f.d f.a (Round.ofCode t.round) (t.sat == 1))
  | 0x67 =>
      some (rowVec16 f (fun t => [bZero f, (t.c == 0, bitC), noRound t, (t.sat == 0, 12)]) fun _ =>
        .vunpack (Fmt.ofCode f.v) f.d f.a)
  | 0x68 => some (rowVec f (fun t => [vMax f 2, noRound t]) fun _ o => .vamax (FTy.ofCode f.v) o)
  | 0x69 =>
      some (rowVec16 f (fun t => [(t.c == 0, bitC)]) fun t =>
        .vquant (Fmt.ofCode f.v) f.d f.a f.b (Round.ofCode t.round) (t.sat == 1))
  | 0x6A =>
      some (rowVec16 f (fun t => [bZero f, (t.c == 0 || t.c == 2, bitC), noRound t, (t.sat == 0, 12)]) fun t =>
        .vmxd (Fmt.ofCode f.v) f.d f.a (t.c == 2))
  | _ => none

/-- Opcodes 0x70 to 0x77 (R62). -/
def rowMatrix (f : Fields) : Option Row :=
  let fire (cs : T1 → List Check) (i : FireOp → T1 → Instr) : Row :=
    rowT1 f 0 ([vMax f 14, (decide (f.d.toNat ≤ 3), bitD), (decide (f.a.toNat ≤ 7), bitA),
        (decide (f.b.toNat ≤ 7), bitB)] ++ cs (T1.unpack f.tail)) fun t =>
      i { fmt := Fmt.ofCode f.v, d := f.d.extractLsb' 0 2, a := f.a.extractLsb' 0 3, b := f.b.extractLsb' 0 3 } t
  let cTile (vmax : Nat) (i : BitVec 2 → Instr) : Row :=
    rowT1 f 0 [vMax f vmax, (decide (f.d.toNat ≤ 3), bitD), aZero f, bZero f, zeroBits (T1.unpack f.tail).imm 4] fun _ =>
      i (f.d.extractLsb' 0 2)
  match f.op.toNat with
  | 0x70 =>
      some (rowT1 f 0 [vZero f, (decide (f.d.toNat ≤ 7), bitD), aZero f, bZero f] fun t => .mtcfg (f.d.extractLsb' 0 3) t.imm)
  | 0x71 =>
      some (rowT1 f 0 [vMax f 1, aZero f, bZero f, zeroBits ((T1.unpack f.tail).imm.extractLsb' 2 6) 6] fun t =>
        .tload f.d (f.v == 1) (t.imm.extractLsb' 8 12) (t.imm.extractLsb' 0 2))
  | 0x72 => some (fire (fun t => [zeroBits t.imm 4]) fun o _ => .mma o)
  | 0x73 => some (fire (fun t => [zeroBits t.imm 4]) fun o _ => .mmap o)
  | 0x74 =>
      some (fire (fun t => [zeroBits (t.imm.extractLsb' 4 16) 8]) fun o t =>
        .msca o (t.imm.extractLsb' 0 2) (t.imm.extractLsb' 2 2))
  | 0x75 => some (cTile 0 .mzero)
  | 0x76 => some (cTile 14 fun c => .mdrain c (Fmt.ofCode f.v))
  | 0x77 =>
      some (rowT1 f 0 [vZero f, (decide (f.d.toNat ≤ 7), bitD), aZero f, bZero f, zeroBits (T1.unpack f.tail).imm 4] fun _ =>
        .mrel (f.d.extractLsb' 0 3))
  | _ => none

/-- Opcodes 0x80 to 0x9F (R63). -/
def rowMemory (f : Fields) : Option Row :=
  match f.op.toNat with
  | 0x80 => some (rowT2 f (fun _ => [bZero f]) fun t m => .ld f.d (Sync.ofCode t.sync) m)
  | 0x81 => some (rowT2 f (fun _ => [bZero f]) fun t m => .st f.d (Sync.ofCode t.sync) m)
  | 0x82 =>
      some (rowT2 f (fun t => [(t.sync == 6 || f.b == 0, bitB)]) fun t m =>
        if t.sync = 6 then .ldvN f.d f.b m else .ldv f.d (Sync.ofCode t.sync) m)
  | 0x83 =>
      some (rowT2 f (fun t => [(t.sync == 6 || f.b == 0, bitB)]) fun t m =>
        if t.sync = 6 then .stvN f.d f.b m else .stv f.d (Sync.ofCode t.sync) m)
  | 0x84 => some (rowAtomic f (.atomAdd f.d f.b))
  | 0x85 => some (rowAtomic f (.atomSub f.d f.b))
  | 0x86 => some (rowAtomic f (.atomMin f.d f.b))
  | 0x87 => some (rowAtomic f (.atomMax f.d f.b))
  | 0x88 => some (rowAtomic f (.atomAnd f.d f.b))
  | 0x89 => some (rowAtomic f (.atomOr f.d f.b))
  | 0x8A => some (rowAtomic f (.atomXor f.d f.b))
  | 0x8B => some (rowAtomic f (.atomSwap f.d f.b))
  | 0x8C => some (rowAtomic f (.atomIncw f.d f.b))
  | 0x8D => some (rowAtomic f (.atomFaddF32 f.d f.b))
  | 0x8E => some (rowAtomic f (.atomFaddBf16x2 f.d f.b))
  | 0x8F => some (rowAtomic f (.atomFmax f.d f.b))
  | 0x90 => some (rowAtomic f (.cas f.d f.b))
  | 0x91 =>
      some (rowT2 f (fun t => [dZero f, (decide (f.b.toNat ≤ 1), bitB), zeroBits t.sync 15]) fun _ m => .feSet (f.b == 1) m)
  | 0x92 => some (rowT2 f (fun t => [bZero f, zeroBits t.sync 15]) fun _ m => .feGet f.d m)
  | 0x93 => some (rowT2 f (fun t => [dZero f, zeroBits t.sync 15]) fun _ m => .dropN f.b m)
  | 0x94 => some (rowEngine f .pref)
  | 0x95 =>
      let t := T2.unpack f.tail
      some ([vZero f, dZero f, aZero f, bZero f, (t.base == 0, bitC), (t.space == 0, 19),
             (decide (t.sync.toNat ≤ 3), syncBit), (decide (t.scope.toNat ≤ 4), 14), (t.size == 0, 11), (t.hint == 0, 9),
             zeroBits t.imm8 0], .fence (Order.ofCode t.sync) (Scope.ofCode t.scope))
  | 0x96 => some (rowT2 f (fun _ => [dZero f, bZero f]) fun t m => .gather (Sync.ofCode t.sync) m)
  | 0x97 => some (rowT2 f (fun _ => [dZero f, bZero f]) fun t m => .scatter (Sync.ofCode t.sync) m)
  | 0x98 => some (rowT2 f (fun _ => [dZero f, bZero f]) fun t m => .src (Sync.ofCode t.sync) m)
  | 0x99 => some (rowT2 f (fun _ => [dZero f, bZero f]) fun t m => .sink (Sync.ofCode t.sync) m)
  | 0x9A => some (rowBank f [bZero f] .fifoPush)
  | 0x9B => some (rowBank f [bZero f] .fifoPop)
  | 0x9C => some (rowBank f [(decide (f.b.toNat ≤ 1), bitB)] fun n => .reorder n (f.b == 1))
  | 0x9D => some (rowEngine f .copy)
  | 0x9E => some (rowEngine f .binApp)
  | 0x9F => some (rowEngine f .binRpl)
  | _ => none

/-- Opcodes 0xB0 to 0xB7 (R63). -/
def rowPrivileged (f : Fields) : Option Row :=
  match f.op.toNat with
  | 0xB0 => some (rowEngine f .pageMap)
  | 0xB1 => some (rowEngine f .pageUnmap)
  | 0xB2 => some (rowEngine f .pageShare)
  | 0xB3 => some (rowEngine f .pageProt)
  | 0xB4 => some (rowEngine f .spaceRetire)
  | 0xB5 => some (rowEngine f .tlbInv)
  | 0xB6 => some (rowEngine f .faultResume)
  | 0xB7 => some (rowEngine f .faultFail)
  | _ => none

/-- The row of an operation by its opcode's high digits (R53); none where the slot is reserved (R65). -/
def rowOf (f : Fields) : Option Row :=
  match f.op.toNat / 32 with
  | 0 => rowControl f
  | 1 => rowInteger f
  | 2 => rowFloating f
  | 3 => if f.op.toNat < 0x70 then rowVector f else rowMatrix f
  | 4 => rowMemory f
  | 5 => rowPrivileged f
  | _ => none

/-- The highest bit that offends among the checks that fail (R67). -/
def worstBit : List Check → Option Nat
  | [] => none
  | (ok, bit) :: cs =>
      match ok, worstBit cs with
      | true, r => r
      | false, none => some bit
      | false, some b => some (max bit b)

/-- The operation that a 48-bit word encodes, or the most significant bit that offends (R65, R67). A reserved opcode
offends at bit 47. -/
def decodeOp (w : BitVec 48) : Except Nat Instr :=
  match rowOf (Fields.unpack w) with
  | none => .error 47
  | some (cs, i) =>
      match worstBit (cs ++ i.checks) with
      | none => .ok i
      | some b => .error b

/-! ### The encoder of element operations -/

/-- The bits of a flag. -/
def flag1 (b : Bool) : BitVec 1 := if b then 1 else 0

/-- The T0 tail of a lane-wise operation. -/
def lanewiseTail (c : BitVec 4) (len : Len) (lane : Lane) (sat : Bool) : BitVec 24 :=
  T0.pack { c := c, len := len.code, lane := lane.code, round := 0, sat := flag1 sat, rest := 0 }

/-- The T0 tail of an operation with a length only. -/
def lenTail (len : Len) : BitVec 24 := lanewiseTail 0 len .l32 false

/-- The fields of a lane-wise operation. -/
def Lanewise.fields (op : BitVec 8) (v : BitVec 4) (o : Lanewise) (c : BitVec 4 := 0) : Fields :=
  { op := op, v := v, d := o.d, a := o.a, b := o.b, tail := lanewiseTail c o.len o.lane o.sat }

/-- The fields of a lane-wise operation of one operand. -/
def Lanewise1.fields (op : BitVec 8) (o : Lanewise1) : Fields :=
  { op := op, v := 0, d := o.d, a := o.a, b := 0, tail := lanewiseTail 0 o.len o.lane o.sat }

/-- The fields of an operation with a T1 tail. -/
def t1Fields (op : BitVec 8) (v d a b : BitVec 4) (imm : BitVec 20) (sub : BitVec 4) : Fields :=
  { op := op, v := v, d := d, a := a, b := b, tail := T1.pack { imm := imm, sub := sub } }

/-- The fields of an operation with a Z tail. -/
def zFields (op : BitVec 8) (v d a b : BitVec 4) : Fields := { op := op, v := v, d := d, a := a, b := b, tail := 0 }

/-- The fields of a floating operation; `c` overrides field c. -/
def FloatOp.fields (op : BitVec 8) (o : FloatOp) (c : BitVec 4) : Fields :=
  { op := op, v := o.ty.code, d := o.d, a := o.a, b := o.b,
    tail := T0.pack { c := c, len := o.len.code, lane := o.ty.lane.code, round := o.round.code, sat := flag1 o.sat,
                      rest := 0 } }

/-- The fields of a vector operation. -/
def VecOp.fields (op : BitVec 8) (v : BitVec 4) (o : VecOp) (c : BitVec 4) (round : Round := .rne) : Fields :=
  { op := op, v := v, d := o.d, a := o.a, b := o.b,
    tail := T0.pack { c := c, len := o.len.code, lane := o.lane.code, round := round.code, sat := 0, rest := 0 } }

/-- The fields of a 16-word vector operation with 32-bit lanes. -/
def vec16Fields (op : BitVec 8) (v d a b c : BitVec 4) (round : Round) (sat : Bool) : Fields :=
  { op := op, v := v, d := d, a := a, b := b,
    tail := T0.pack { c := c, len := 3, lane := 0, round := round.code, sat := flag1 sat, rest := 0 } }

/-- The fields of a memory operation. -/
def MemRef.fields (op : BitVec 8) (d b : BitVec 4) (sync : BitVec 3) (m : MemRef) : Fields :=
  { op := op, v := m.shift, d := d, a := m.a, b := b,
    tail := T2.pack { base := m.base, space := m.space.code, sync := sync, scope := m.scope.code, size := m.size.code,
                      hint := m.hint.code, imm8 := m.imm8 } }

/-- The fields of a bank-naming operation (R132). -/
def bankFields (op : BitVec 8) (b bank : BitVec 4) : Fields :=
  { op := op, v := 15, d := 0, a := 0, b := b,
    tail := T2.pack { base := 0, space := 0, sync := 0, scope := 0, size := 3, hint := 0, imm8 := (0 : BitVec 4) ++ bank } }

/-- The fields of a firing (R62). -/
def FireOp.fields (op : BitVec 8) (o : FireOp) (imm : BitVec 20) : Fields :=
  t1Fields op o.fmt.code ((0 : BitVec 2) ++ o.d) ((0 : BitVec 1) ++ o.a) ((0 : BitVec 1) ++ o.b) imm 0

/-- The v code of a flag. -/
def flag4 (b : Bool) : BitVec 4 := if b then 1 else 0

/-- The fields of an element operation (R53, R58 to R63); none for an instruction that is no element operation. -/
def fieldsOf : Instr → Option Fields
  | .nop => some (zFields 0x00 0 0 0 0)
  | .movi d imm => some (t1Fields 0x01 0 d 0 0 imm 0)
  | .movhi d imm => some (t1Fields 0x02 0 d 0 0 imm 0)
  | .movk d k => some (zFields 0x03 k.code d 0 0)
  | .mov d a len => some { op := 0x04, v := 0, d := d, a := a, b := 0, tail := lenTail len }
  | .setb n a => some (zFields 0x05 0 n a 0)
  | .setbw n a hi => some (zFields 0x06 (flag4 hi) n a 0)
  | .call back => some { op := 0x07, v := 0, d := 0, a := 0, b := 0, tail := T3.pack { block := back, mask := 0, imm := 0 } }
  | .ret => some (zFields 0x08 0 0 0 0)
  | .retTrap => some (zFields 0x08 1 0 0 0)
  | .emit mask mode =>
      let t : T3 := match mode with
        | .target b => { block := b, mask := mask, imm := 0 }
        | .keep => { block := 0, mask := mask, imm := 1 }
        | .pred b second => { block := b, mask := mask, imm := second ++ (2 : BitVec 4) }
      some { op := 0x09, v := 0, d := 0, a := 0, b := 0, tail := t.pack }
  | .fork target => some { op := 0x0A, v := 0, d := 0, a := 0, b := 0, tail := T3.pack { block := target, mask := 0, imm := 0 } }
  | .drop => some (zFields 0x0B 0 0 0 0)
  | .retire => some (zFields 0x0C 0 0 0 0)
  | .sel d a b len => some { op := 0x0D, v := 0, d := d, a := a, b := b, tail := lenTail len }
  | .setp cond a operand =>
      some (match operand with
        | .inl imm => t1Fields 0x0E 0 0 a 0 imm cond.code
        | .inr b => t1Fields 0x0E 1 0 a b 0 cond.code)
  | .clrp => some (zFields 0x0F 0 0 0 0)
  | .setbud imm => some (t1Fields 0x10 0 0 0 0 ((0 : BitVec 16) ++ imm) 0)
  | .getrcw d => some (zFields 0x11 0 d 0 0)
  | .setord a => some (zFields 0x12 0 0 a 0)
  | .eos => some (zFields 0x13 0 0 0 0)
  | .yield => some (zFields 0x14 0 0 0 0)
  | .trap imm => some (t1Fields 0x15 0 0 0 0 imm 0)
  | .brk imm => some (t1Fields 0x16 0 0 0 0 imm 0)
  | .launch m => some (m.fields 0x17 0 0 0)
  | .rdclk d => some (zFields 0x18 0 d 0 0)
  | .rdid d s => some (t1Fields 0x19 0 d 0 0 0 s.code)
  | .zip d b len => some { op := 0x1A, v := 0, d := d, a := 0, b := b, tail := lenTail len }
  | .split d a len => some { op := 0x1B, v := 0, d := d, a := a, b := 0, tail := lenTail len }
  | .acc op a round =>
      some { op := 0x1C, v := op.code, d := 0, a := a, b := 0,
             tail := T0.pack { c := 0, len := 0, lane := 0, round := round.code, sat := 0, rest := 0 } }
  | .accget d clear => some (zFields 0x1D (flag4 clear) d 0 0)
  | .cnt levels => some (t1Fields 0x1E 0 0 0 0 0 ((0 : BitVec 2) ++ levels))
  | .cfg d b m => some (m.fields 0x1F d b 0)
  | .add o => some (o.fields 0x20 0)
  | .sub o => some (o.fields 0x21 0)
  | .addi o => some (t1Fields 0x22 0 o.d o.a 0 o.imm 0)
  | .mul o => some (o.fields 0x23 0)
  | .mulh o u => some (o.fields 0x24 (flag4 u))
  | .mad o c => some (o.fields 0x25 0 c)
  | .and o => some (o.fields 0x26 0)
  | .or o => some (o.fields 0x27 0)
  | .xor o => some (o.fields 0x28 0)
  | .andi o => some (t1Fields 0x29 0 o.d o.a 0 o.imm 0)
  | .ori o => some (t1Fields 0x2A 0 o.d o.a 0 o.imm 0)
  | .xori o => some (t1Fields 0x2B 0 o.d o.a 0 o.imm 0)
  | .shl o => some (o.fields 0x2C 0)
  | .shr o => some (o.fields 0x2D 0)
  | .sar o => some (o.fields 0x2E 0)
  | .shli o => some (t1Fields 0x2F 0 o.d o.a 0 ((0 : BitVec 15) ++ o.n) 0)
  | .shri o => some (t1Fields 0x2F 0 o.d o.a 0 ((0 : BitVec 15) ++ o.n) 1)
  | .sari o => some (t1Fields 0x2F 0 o.d o.a 0 ((0 : BitVec 15) ++ o.n) 2)
  | .rot o => some (o.fields 0x30 0)
  | .clz o => some (o.fields 0x31)
  | .ctz o => some (o.fields 0x32)
  | .popc o => some (o.fields 0x33)
  | .min o u => some (o.fields 0x34 (flag4 u))
  | .max o u => some (o.fields 0x35 (flag4 u))
  | .abs o => some (o.fields 0x36)
  | .bfx o s => some (t1Fields 0x37 0 o.d o.a 0 ((0 : BitVec 10) ++ o.lsb ++ o.widthM1) (flag4 s))
  | .bfi o => some (t1Fields 0x38 0 o.d o.a 0 ((0 : BitVec 10) ++ o.lsb ++ o.widthM1) 0)
  | .hash o mix => some (zFields 0x39 (flag4 mix) o.d o.a o.b)
  | .lea o shift => some (zFields 0x3A ((0 : BitVec 1) ++ shift) o.d o.a o.b)
  | .add64 o => some (zFields 0x3B 0 o.d o.a o.b)
  | .sub64 o => some (zFields 0x3C 0 o.d o.a o.b)
  | .shl64 o => some (zFields 0x3D 0 o.d o.a o.b)
  | .chk a b s => some (zFields 0x3E (flag4 s) 0 a b)
  | .fadd o => some (o.fields 0x40 o.c)
  | .fsub o => some (o.fields 0x41 o.c)
  | .fmul o => some (o.fields 0x42 o.c)
  | .ffma o => some (o.fields 0x43 o.c)
  | .fmin o => some (o.fields 0x44 o.c)
  | .fmax o => some (o.fields 0x45 o.c)
  | .fsgn o form => some (o.fields 0x46 form.code)
  | .fcmp o cond => some (o.fields 0x47 cond.code)
  | .fcvt d a dst source len round sat =>
      let view : BitVec 2 := if source.width = 32 then 0 else if source.width = 16 then 1 else 2
      some { op := 0x48, v := dst.code, d := d, a := a, b := 0,
             tail := T0.pack { c := source.code, len := len.code, lane := view, round := round.code, sat := flag1 sat,
                               rest := 0 } }
  | .frcp o => some (o.fields 0x49 o.c)
  | .frsq o => some (o.fields 0x4A o.c)
  | .fsqrt o => some (o.fields 0x4B o.c)
  | .fexp2 o => some (o.fields 0x4C o.c)
  | .flog2 o => some (o.fields 0x4D o.c)
  | .fsin o => some (o.fields 0x4E o.c)
  | .fcos o => some (o.fields 0x4F o.c)
  | .fint o => some (o.fields 0x50 o.c)
  | .f2i o => some (o.fields 0x51 o.c)
  | .i2f o => some (o.fields 0x52 o.c)
  | .fscale o => some (o.fields 0x53 o.c)
  | .fclass o => some (o.fields 0x54 o.c)
  | .vred op o => some (o.fields 0x60 op.code op.typeCode op.round)
  | .vscan op o => some (o.fields 0x61 op.code op.typeCode op.round)
  | .vbcast o => some (o.fields 0x62 0 o.c)
  | .vshuf form o => some (o.fields 0x63 form.code o.c)
  | .vsel o => some (o.fields 0x64 0 o.c)
  | .vdot fmt o round => some (o.fields 0x65 fmt.code o.c round)
  | .vpack fmt d a round sat => some (vec16Fields 0x66 fmt.code d a 0 0 round sat)
  | .vunpack fmt d a => some (vec16Fields 0x67 fmt.code d a 0 0 .rne false)
  | .vamax ty o => some (o.fields 0x68 ty.code o.c)
  | .vquant fmt d a b round sat => some (vec16Fields 0x69 fmt.code d a b 0 round sat)
  | .vmxd fmt d a bf => some (vec16Fields 0x6A fmt.code d a 0 (if bf then 2 else 0) .rne false)
  | .mtcfg t shape => some (t1Fields 0x70 0 ((0 : BitVec 1) ++ t) 0 0 shape 0)
  | .tload target mask readers port =>
      some (t1Fields 0x71 (flag4 mask) target 0 0 (readers ++ (0 : BitVec 6) ++ port) 0)
  | .mma o => some (o.fields 0x72 0)
  | .mmap o => some (o.fields 0x73 0)
  | .msca o v k => some (o.fields 0x74 ((0 : BitVec 16) ++ k ++ v))
  | .mzero c => some (t1Fields 0x75 0 ((0 : BitVec 2) ++ c) 0 0 0 0)
  | .mdrain c fmt => some (t1Fields 0x76 fmt.code ((0 : BitVec 2) ++ c) 0 0 0 0)
  | .mrel t => some (t1Fields 0x77 0 ((0 : BitVec 1) ++ t) 0 0 0 0)
  | .ld d sync m => some (m.fields 0x80 d 0 sync.code)
  | .st d sync m => some (m.fields 0x81 d 0 sync.code)
  | .ldv d sync m => some (m.fields 0x82 d 0 sync.code)
  | .ldvN d b m => some (m.fields 0x82 d b 6)
  | .stv d sync m => some (m.fields 0x83 d 0 sync.code)
  | .stvN d b m => some (m.fields 0x83 d b 6)
  | .atomAdd d b o m => some (m.fields 0x84 d b o.code)
  | .atomSub d b o m => some (m.fields 0x85 d b o.code)
  | .atomMin d b o m => some (m.fields 0x86 d b o.code)
  | .atomMax d b o m => some (m.fields 0x87 d b o.code)
  | .atomAnd d b o m => some (m.fields 0x88 d b o.code)
  | .atomOr d b o m => some (m.fields 0x89 d b o.code)
  | .atomXor d b o m => some (m.fields 0x8A d b o.code)
  | .atomSwap d b o m => some (m.fields 0x8B d b o.code)
  | .atomIncw d b o m => some (m.fields 0x8C d b o.code)
  | .atomFaddF32 d b o m => some (m.fields 0x8D d b o.code)
  | .atomFaddBf16x2 d b o m => some (m.fields 0x8E d b o.code)
  | .atomFmax d b o m => some (m.fields 0x8F d b o.code)
  | .cas d b o m => some (m.fields 0x90 d b o.code)
  | .feSet full m => some (m.fields 0x91 0 (flag4 full) 0)
  | .feGet d m => some (m.fields 0x92 d 0 0)
  | .dropN b m => some (m.fields 0x93 0 b 0)
  | .pref m => some (m.fields 0x94 0 0 0)
  | .fence o scope =>
      some { op := 0x95, v := 0, d := 0, a := 0, b := 0,
             tail := T2.pack { base := 0, space := 0, sync := o.code, scope := scope.code, size := 0, hint := 0, imm8 := 0 } }
  | .gather sync m => some (m.fields 0x96 0 0 sync.code)
  | .scatter sync m => some (m.fields 0x97 0 0 sync.code)
  | .src sync m => some (m.fields 0x98 0 0 sync.code)
  | .sink sync m => some (m.fields 0x99 0 0 sync.code)
  | .fifoPush bank => some (bankFields 0x9A 0 bank)
  | .fifoPop bank => some (bankFields 0x9B 0 bank)
  | .reorder bank pdrop => some (bankFields 0x9C (flag4 pdrop) bank)
  | .copy m => some (m.fields 0x9D 0 0 0)
  | .binApp m => some (m.fields 0x9E 0 0 0)
  | .binRpl m => some (m.fields 0x9F 0 0 0)
  | .pageMap m => some (m.fields 0xB0 0 0 0)
  | .pageUnmap m => some (m.fields 0xB1 0 0 0)
  | .pageShare m => some (m.fields 0xB2 0 0 0)
  | .pageProt m => some (m.fields 0xB3 0 0 0)
  | .spaceRetire m => some (m.fields 0xB4 0 0 0)
  | .tlbInv m => some (m.fields 0xB5 0 0 0)
  | .faultResume m => some (m.fields 0xB6 0 0 0)
  | .faultFail m => some (m.fields 0xB7 0 0 0)
  | _ => none

/-- The 48-bit word of an element operation. -/
def encodeOp (i : Instr) : Option (BitVec 48) := (fieldsOf i).map Fields.pack

/-! ### Router slots, stream commands and nodes -/

/-- A router slot: bits [15:0] the SLOT field and [31:16] its PARAM field (R29). The empty slot (kind 000) is no
operator. A PARAM with a bit the kind does not use is refused. -/
def decodeSlot (w : BitVec 32) : Option Instr :=
  let kind : BitVec 3 := w.extractLsb' 13 3
  let rest : BitVec 13 := w.extractLsb' 0 13
  let param : BitVec 16 := w.extractLsb' 16 16
  if rest ≠ 0 then none
  else if kind = 1 then if param.extractLsb' 1 15 = 0 then some (.steer (param.extractLsb' 0 1 == 1)) else none
  else if kind = 2 then if param = 0 then some .merge else none
  else if kind = 3 then
    if param.extractLsb' 8 8 = 0 ∧ 3 ≤ param.toNat then some (.carry (param.extractLsb' 0 8)) else none
  else none

/-- The SLOT and PARAM fields of an operator. -/
def encodeSlot : Instr → Option (BitVec 32)
  | .steer inv => some ((0 : BitVec 15) ++ flag1 inv ++ (1 : BitVec 3) ++ (0 : BitVec 13))
  | .merge => some ((0 : BitVec 16) ++ (2 : BitVec 3) ++ (0 : BitVec 13))
  | .carry l => some ((0 : BitVec 8) ++ l ++ (3 : BitVec 3) ++ (0 : BitVec 13))
  | _ => none

/-- A command of the configuration stream (R15, R16, R18). Kind 11, the reserved control operations, a non-zero
must-be-zero bit and bit 12 of a route head are refused. -/
def decodeCommand (w : BitVec 32) : Option Instr :=
  let kind : BitVec 2 := w.extractLsb' 30 2
  let low26 : BitVec 26 := w.extractLsb' 0 26
  if kind = 0 then
    some (.fieldWrite (w.extractLsb' 24 6) (w.extractLsb' 20 4) (w.extractLsb' 16 4) (w.extractLsb' 0 16))
  else if kind = 1 then
    if w.extractLsb' 29 1 = 0 then
      if w.extractLsb' 12 1 = 0 then
        some (.routeHead (w.extractLsb' 23 6) (w.extractLsb' 19 4) (w.extractLsb' 17 2) (w.extractLsb' 15 2)
          (w.extractLsb' 13 2) (w.extractLsb' 0 12))
      else none
    else if w.extractLsb' 26 3 = 0 then some (.routeContinuation low26) else none
  else if kind = 2 then
    match (w.extractLsb' 26 4).toNat with
    | 0 => if w.extractLsb' 7 19 = 0 then some (.page (w.extractLsb' 0 4) (w.extractLsb' 4 3)) else none
    | 1 => if low26 = 0 then some .begin else none
    | 2 => if low26 = 0 then some .commit else none
    | 3 => if w.extractLsb' 24 2 = 0 then some (.checksum (w.extractLsb' 0 24)) else none
    | 4 => some (.preload (w.extractLsb' 20 6) (w.extractLsb' 16 4) (w.extractLsb' 5 11) (w.extractLsb' 0 5))
    | _ => none
  else none

/-- The word of a stream command. -/
def encodeCommand : Instr → Option (BitVec 32)
  | .fieldWrite cell unit field value => some ((0 : BitVec 2) ++ cell ++ unit ++ field ++ value)
  | .routeHead cell unit port net heading turns =>
      some ((1 : BitVec 2) ++ (0 : BitVec 1) ++ cell ++ unit ++ port ++ net ++ heading ++ (0 : BitVec 1) ++ turns)
  | .routeContinuation turns => some ((1 : BitVec 2) ++ (1 : BitVec 1) ++ (0 : BitVec 3) ++ turns)
  | .page px py => some ((2 : BitVec 2) ++ (0 : BitVec 4) ++ (0 : BitVec 19) ++ py ++ px)
  | .begin => some ((2 : BitVec 2) ++ (1 : BitVec 4) ++ (0 : BitVec 26))
  | .commit => some ((2 : BitVec 2) ++ (2 : BitVec 4) ++ (0 : BitVec 26))
  | .checksum sum => some ((2 : BitVec 2) ++ (3 : BitVec 4) ++ (0 : BitVec 2) ++ sum)
  | .preload cell bank row countM1 => some ((2 : BitVec 2) ++ (4 : BitVec 4) ++ cell ++ bank ++ row ++ countM1)
  | _ => none

/-- A task-graph node of 32 bytes, its word at offset 0 lowest (R37); none is BADNODE (R38). -/
def decodeNode (w : BitVec 256) : Option Instr :=
  let scopeCode : BitVec 3 := w.extractLsb' 21 3
  let n : Node :=
    { scope := Scope.ofCode scopeCode, join := w.extractLsb' 20 1 == 1, iter := w.extractLsb' 0 20,
      val := w.extractLsb' 32 32, next := w.extractLsb' 64 64, alt := w.extractLsb' 128 64, arg := w.extractLsb' 192 64 }
  let i : Option Instr := match (w.extractLsb' 24 8).toNat with
    | 1 => some (.walkRun n) | 2 => some (.walkWait n) | 3 => some (.walkCond n)
    | 4 => some (.walkLoop n) | 5 => some (.walkSignal n) | 6 => some (.walkEnd n)
    | _ => none
  match i with
  | some i => if scopeCode.toNat ≤ 4 && i.wf then some i else none
  | none => none

/-- The 256 bits of a node of a kind. -/
def Node.bits (n : Node) (kind : BitVec 8) : BitVec 256 :=
  n.arg ++ n.alt ++ n.next ++ n.val ++ kind ++ n.scope.code ++ flag1 n.join ++ n.iter

/-- The bits of a node. -/
def encodeNode : Instr → Option (BitVec 256)
  | .walkRun n => some (n.bits 1)
  | .walkWait n => some (n.bits 2)
  | .walkCond n => some (n.bits 3)
  | .walkLoop n => some (n.bits 4)
  | .walkSignal n => some (n.bits 5)
  | .walkEnd n => some (n.bits 6)
  | _ => none

/-- The encoding of an instruction, with its length in bits: an element operation, a router slot, a stream command or a
node. The events of the units have no encoding. -/
def encode (i : Instr) : Option (Nat × Nat) :=
  match encodeOp i, encodeSlot i, encodeCommand i, encodeNode i with
  | some w, _, _, _ => some (48, w.toNat)
  | _, some w, _, _ => some (16, w.toNat)
  | _, _, some w, _ => some (32, w.toNat)
  | _, _, _, some w => some (256, w.toNat)
  | _, _, _, _ => none

/-- The instruction that the decoder of its length reads: 48 bits an element operation, 16 a router slot's SLOT field (a
PARAM above it counts on from bit 16), 32 a stream command, 256 a node. -/
def decodeTableWord (nbits w : Nat) : Option Instr :=
  if nbits = 48 then (decodeOp (BitVec.ofNat 48 w)).toOption
  else if nbits = 32 then decodeCommand (BitVec.ofNat 32 w)
  else if nbits = 16 then decodeSlot (BitVec.ofNat 32 w)
  else if nbits = 256 then decodeNode (BitVec.ofNat 256 w)
  else none

end Sys2Proof
end

