-- ==== Sys2Proof/Machine/State.lean ====
section
/-! DEFINITION. Machine/State.lean: the state of the part as plain data, the reasons a step can stop, and the state after
reset. INVENTORY.md lists every piece with the rule that names it. Sparse maps (`SMap`) hold no entry equal to what a
missing key reads as; the operations on them stand in Machine/Sparse.lean. -/

namespace Sys2Proof.Machine

/-! ### Records -/

/-- A record: sixteen words and the record control word (R32). -/
structure Record where
  words : Vector Word 16
  rcw : DWord
  deriving DecidableEq, Repr

/-- The record of zero words with an RCW. -/
def Record.zero (rcw : DWord) : Record := { words := Vector.replicate 16 0, rcw := rcw }

/-- Trap causes (R223). -/
inductive Cause where
  | illegal | brk | trapop | callDepth | retEmpty | misalign | noncanon | protect | attr | waitBudget | overread | scope
  | poison | format | bound | unmapped | deviceErr | killed | kennelFull | depth
  deriving DecidableEq, Repr

/-! ### Accesses and requests -/

/-- What a home is asked to do in one step (R115 to R124, R198, R375). -/
inductive HomeOp where
  /-- a load of n words in a sync form -/
  | load (sync : Sync) (n : Nat)
  /-- a store in a sync form -/
  | store (sync : Sync) (data : List Word)
  /-- a counted fill with its control word (R118) -/
  | fill (control : Word) (data : List Word)
  /-- a counted read with its control word (R119) -/
  | count (control : Word)
  /-- a reader declared done (R120) -/
  | done (control : Word)
  /-- an atomic, by its opcode, on one or two words (R121) -/
  | atom (opcode : BitVec 8) (pair : Bool) (x : DWord) (o : Order)
  /-- compare and swap (R122) -/
  | cas (pair : Bool) (expected new : DWord) (o : Order)
  /-- set or clear the full/empty bits of n words (R123) -/
  | feSet (full : Bool) (n : Nat)
  /-- read the full/empty bits of n words (R124) -/
  | feGet (n : Nat)
  /-- write data and states (R198, DMODE 3) -/
  | storeStates (data : List Word) (full : List Bool)
  /-- write data and set the words empty, relaxed (R375) -/
  | storeEmpty (data : List Word)
  /-- a line fetched for a cell's cache ways, for a load or for a store of these words (R166), or by pref (R125) -/
  | line (store : Option (List Word))
  /-- a cache-way write-back of a granule (R166) -/
  | writeBack (data : List Word)
  /-- n words taken from a transform bank's output stream (R309) -/
  | streamRead (n : Nat)
  /-- words appended to a transform bank's input stream (R309) -/
  | streamWrite (data : List Word)
  deriving DecidableEq, Repr

/-- A place a request goes to: a tile word of a region, a global address or a peer address. -/
inductive Loc where
  | tile (x y word : Nat)
  | glob (va : DWord)
  | peer (va : DWord)
  deriving DecidableEq, Repr

/-- Who made a request, and so who takes its reply (R201, R212, R333). -/
inductive Party where
  /-- lane of access id of an element -/
  | access (inst x y unit id lane : Nat)
  /-- the copy engine of an absolute page -/
  | copy (page : Nat)
  /-- Kelpie of a die -/
  | kelpie (die : Nat)
  /-- the copy-on-write engine's ring accesses of a die: 0 take a frame, 1 return a frame, 2 return a table block -/
  | ring (die : Nat) (kind : Nat)
  /-- the completion store of a region's controller -/
  | control (inst : Nat)
  /-- the walk of a host queue -/
  | walk (q : Nat)
  /-- a replayed side-log entry of a die -/
  | log (die : Nat)
  /-- a cache way of a cell -/
  | way (inst x y : Nat)
  /-- a peer part -/
  | outside
  deriving DecidableEq, Repr

/-- A reply of a home. -/
inductive Reply where
  /-- performed: the words read (or the old value), their states, whether a test held, whether a word was uncorrectable -/
  | ok (words : List Word) (full : List Bool) (held : Bool) (poison : Bool)
  /-- the access traps -/
  | trap (cause : Cause) (detail addr : DWord)
  /-- the page is not mapped: the access goes to the fault queue (R144) -/
  | fault
  /-- gone to a die's side log (R144) -/
  | logged
  /-- removed by a kill (R230) -/
  | killed
  deriving DecidableEq, Repr

/-- A request to a home (R333). `arrival` is the home's arrival sequence and `since` the device time of it, both set when
the request becomes a waiter; `retryAt` is the time a refused request is presented again. -/
structure Req where
  party : Party
  seq : Nat
  space : BitVec 12
  loc : Loc
  op : HomeOp
  scope : Scope
  inst : Nat
  cell : Nat × Nat
  die : Nat
  outside : Bool
  arrival : Nat
  since : Nat
  retryAt : Nat
  resends : Nat
  forwarded : Bool
  /-- caught by a switch of domains: its home performs it before any other request of its granule (R325) -/
  first : Bool
  /-- the reply to this copy of it is lost on its way (R212, R333) -/
  lost : Bool := false
  deriving DecidableEq, Repr

/-- A range of the access element's scoreboard (R112): space 0 global, 1 region tile, 2 peer; bytes [lo, hi). -/
structure Range where
  space : Nat
  lo : Nat
  hi : Nat
  write : Bool
  deriving DecidableEq, Repr

/-- A lane of an access: its index, its address, and its reply when it has one. -/
structure LaneState where
  lane : Nat
  addr : DWord
  reply : Option Reply
  /-- the line it fetched may be older than an acquire of its cell made since: the ways do not keep it (R207, R208) -/
  stale : Bool := false
  deriving DecidableEq, Repr

/-- A port of a region: region cell, unit and port number. -/
structure Port where
  x : Nat
  y : Nat
  unit : Nat
  port : Nat
  deriving DecidableEq, Repr

/-- A route (R18): from an output port to an input port, its network, and the records its registers and destination
latch hold together (R154). -/
structure Route where
  origin : Port
  dest : Port
  net : BitVec 2
  capacity : Nat
  /-- the heading, the turns and the origin page, from which a load or restore regenerates it (R21) -/
  heading : BitVec 2
  turns : List (BitVec 2)
  deriving DecidableEq, Repr

/-- An access in progress at an access element (R111). -/
structure Access where
  id : Nat
  record : Record
  op : Instr
  ea : DWord
  ranges : List Range
  lanes : List LaneState
  /-- its place is kept only for a trap being reported (R227) -/
  trapped : Bool
  /-- a token: the accesses in progress when it arrived, which it waits for (R173) -/
  waitsFor : List Nat
  /-- a cfg that has rewritten its own element: the routes of out0 and TRACE of the old operation, under which its record
  leaves (R97) -/
  leaves : Option (List Route × Bool) := none
  /-- a launch whose child has been queued: its record has still to leave (R96) -/
  queued : Bool := false
  /-- its record came back from a breakpoint handler, and TRAPPED was cleared as the operation began (R228): a trap of the access
  shows it as it arrived (R222) -/
  stepped : Bool := false
  deriving DecidableEq, Repr

/-! ### Units -/

/-- Where a trapped record is until its trap is reported (R227). -/
inductive Holder where
  | latch (port : Nat)
  | access (id : Nat)
  | item
  /-- a discarded side-log entry, whose record went on (R229, R143) -/
  | sideLog
  deriving DecidableEq, Repr

/-- A trap waiting for the region controller (R225). -/
structure TrapInfo where
  cause : Cause
  detail : DWord
  addr : DWord
  record : Record
  x : Nat
  y : Nat
  unit : Nat
  block : BitVec 8
  opIndex : BitVec 7
  holder : Holder
  deriving DecidableEq, Repr

/-- The position of a source: src (R130) and cnt (R89). -/
structure SrcState where
  /-- the token has been sent, or the source stopped -/
  finished : Bool
  /-- no further item: the token is due -/
  ending : Bool
  /-- items issued (src), records and tokens sent (cnt) -/
  issued : Nat
  /-- items sent on -/
  sent : Nat
  count : Nat
  stride : DWord
  /-- a cnt run in progress, its bound record, counters and bounds -/
  running : Bool
  bound : Option Record
  counters : Nat × Nat × Nat
  bounds : Nat × Nat × Nat
  /-- dirty range since configuration (R351): lowest byte, one past the highest, items written -/
  lo : Nat
  hi : Nat
  writes : Nat
  deriving DecidableEq, Repr

/-- The position of a sink (R131). -/
structure SinkState where
  index : Nat
  slots : Nat
  tokens : Nat
  complete : Bool
  lo : Nat
  hi : Nat
  writes : Nat
  deriving DecidableEq, Repr

/-- A router slot's state: the merge pointer (R156). A carry's occupancy O is the number of records on its loop (R157),
which the carry counts where the records are. -/
structure SlotState where
  lastIn1 : Bool
  deriving DecidableEq, Repr

/-- A unit of a cell (R8): its configuration fields (R28 to R31), its run state and the records in its ports. `ins` holds
per input port the records that the port's route and latch hold, oldest first; the sequence port of unit 12 is port 4. -/
structure UnitState where
  fields : Vector (BitVec 16) 16
  acc : Word
  lfsr : BitVec 16
  block : BitVec 8
  opIndex : BitVec 7
  ins : SMap (List Record)
  /-- a trap of the record at the head of in0 waits to be reported -/
  held : Bool
  /-- its inputs are held until a group that a cfg commits is applied (R97) -/
  paused : Bool
  /-- the accesses that its operation before a cfg's group had begun: it takes no record until they have left (R97) -/
  settling : List Nat
  flight : List Access
  nextId : Nat
  /-- its resume queue: the accesses that come back from the kennel with their replies (R187), and those of them that trap, which
  wait to be reported (R227) -/
  resume : List Access
  src : SrcState
  sink : SinkState
  slot0 : SlotState
  slot1 : SlotState
  deriving DecidableEq, Repr

/-! ### Tiles -/

/-- A line of a cache-way bank (R166); its data stands in the bank's words. `frame` is the 64 KiB frame the line was filled
from, or the one that a copy has given it (R344). -/
structure WayLine where
  space : BitVec 12
  line : Nat
  wscope : BitVec 3
  writable : Bool
  full : List Bool
  frame : Option Nat
  keep : Bool
  age : Nat
  /-- its write-back waits for the copy-on-write engine (R344) -/
  cow : Bool := false
  deriving DecidableEq, Repr

/-- A walk of a parked granule (R187): whether its entries have been collected; those still to present, by (instance,
offset); those from which a later request took the state they needed (R188); whether a change of state that the walk
itself made asks for another walk. -/
structure ParkWalk where
  granule : Nat
  collected : Bool
  todo : List (Nat × Nat)
  robbed : List (Nat × Nat)
  again : Bool
  /-- it has waited for a place in a resume queue: no later entry of it loses (R187) -/
  waited : Bool := false
  deriving DecidableEq, Repr

/-- A memory tile (R162 to R171). -/
structure TileState where
  words : SMap Word
  empties : NSet
  rows : SMap Word
  bad : NSet
  /-- scope-checker records by row: scope and releasing cell (R209) -/
  releases : SMap (Scope × Nat × Nat)
  reqs : List Req
  network : List Req
  /-- banks for which a commit under cfg takes no new requests into the buffer (R164, R170) -/
  closed : NSet := []
  waiters : List Req
  walks : List ParkWalk
  ways : SMap WayLine
  /-- tile rows whose PARKED flag is set (R162, bit 10 of the row word) -/
  parkedRows : NSet
  /-- saved replies, newest first, as a slice keeps them (R212, R333) -/
  replies : List (Party × Nat × Nat × Reply) := []
  /-- by transform bank, the times that its WFRAME and RFRAME have wrapped (R309) -/
  wraps : SMap (Nat × Nat) := []
  arrivals : Nat
  clock : Nat
  deriving DecidableEq, Repr

/-- States of a tile register (R285). -/
inductive RegState where
  | empty | filling | full
  deriving DecidableEq, Repr

/-- The filler of a register (R297). -/
inductive Filler where
  | port (p : Nat)
  | copy
  deriving DecidableEq, Repr

/-- A tile register or scale vector (R285): its words, its state word, its filler and the records taken. -/
structure TileReg where
  data : SMap Word
  state : RegState
  readers : BitVec 12
  maskMode : Bool
  poisoned : Bool
  gen : BitVec 8
  shape : BitVec 20
  filler : Option Filler
  taken : Nat
  /-- a record of the fill in progress was poisoned: POISONED changes with the last one (R297) -/
  tainted : Bool := false
  deriving DecidableEq, Repr

/-- A binding of an operand port (R287): target 0 to 7 a tile register, 8 to 11 a scale vector. -/
structure Binding where
  target : Nat
  mask : Bool
  readers : BitVec 12
  deriving DecidableEq, Repr

/-- An accumulator tile (R285, R290). -/
structure AccTile where
  data : SMap Word
  poisoned : Bool
  deriving DecidableEq, Repr

/-- A command accepted by a tile (R290): the accumulator, the number of step records that had arrived, and for a drain
the output format, its w0, or the token it sends. -/
structure TileCmd where
  drain : Bool
  acc : Nat
  after : Nat
  fmt : BitVec 4
  w0 : Word
  token : Bool
  blk : BitVec 8
  deriving DecidableEq, Repr

/-- A drain in progress (R290): the next row and record. -/
structure Drain where
  acc : Nat
  fmt : BitVec 4
  row : Nat
  rowEnd : Nat
  part : Nat
  blk : BitVec 8
  integer : Bool
  deriving DecidableEq, Repr

/-- A firing in progress (R299): its step record, its number, the registers it selected (R298), and whether it has
written its accumulator. -/
structure Firing where
  step : Record
  number : Nat
  a : Nat
  b : Nat
  c : Nat
  v : Nat
  /-- the cycles it takes, at the LEVEL at which it began (R289, R381) -/
  length : Nat
  written : Bool
  deriving DecidableEq, Repr

/-- A matrix tile (R285 to R300). -/
structure MatrixTile where
  regs : Vector TileReg 8
  vecs : Vector TileReg 4
  accs : Vector AccTile 4
  binds : Vector (List Binding) 4
  cmds : List TileCmd
  firing : Option Firing
  drain : Option Drain
  /-- step records that have arrived at the sequence port, and the one in its latch with its number -/
  arrived : Nat
  latch : Option (Record × Nat)
  resultOrd : Word
  epoch : Nat
  deriving DecidableEq, Repr

/-! ### Homes of global memory -/

/-- A scope-checker record of a slice granule (R209). -/
structure Release where
  scope : Scope
  die : Nat
  space : BitVec 12
  inst : Nat
  cell : Nat × Nat
  outside : Bool
  deriving DecidableEq, Repr

/-- A line held by a slice (R178, R343). `pa` is the physical byte address of the line on its die. -/
structure Line where
  words : List Word
  full : List Bool
  bad : List Bool
  parked : List Bool
  releases : List (Option Release)
  writable : Bool
  dirty : Bool
  uncached : Bool
  pa : Nat
  deriving DecidableEq, Repr

/-- A resident counted granule (R191, R196). -/
structure Granule where
  words : List Word
  readers : BitVec 12
  maskMode : Bool
  gen : BitVec 8
  inst : Nat
  since : Nat
  laggard : Bool
  deriving DecidableEq, Repr

/-- A shared-cache slice (R178 to R196). Lines are keyed by (space, line of the va), granules by (space, granule). -/
structure Slice where
  lines : SMap Line
  granules : SMap Granule
  reqs : List Req
  waiters : List Req
  /-- requests whose line is being translated or fetched (R320) -/
  missing : List Req
  /-- translations made, to be filled: the request's seq, the physical line, write permission, attr uncached -/
  fills : List (Nat × Nat × Bool × Bool)
  quota : List Req
  /-- quota places held for the oldest quota waiter of an instance (R194) -/
  places : List Nat
  refused : List Req
  walks : List ParkWalk
  directory : List (Nat × Nat)
  /-- drop history, oldest first: granule key, generation, mask mode (R193, R145) -/
  history : List (Nat × BitVec 8 × Bool)
  /-- saved replies, newest first: party, sequence number, granule, reply (R333) -/
  replies : List (Party × Nat × Nat × Reply)
  arrivals : Nat
  deriving DecidableEq, Repr

/-- An entry of a die's side log (R232). -/
structure LogEntry where
  req : Req
  inst : Nat
  record : Record
  addr : DWord
  x : Nat
  y : Nat
  unit : Nat
  block : BitVec 8
  opIndex : BitVec 7
  replaying : Bool
  deriving DecidableEq, Repr

/-- A histogram unit (R383). -/
structure Histogram where
  config : DWord
  min : Word
  max : Word
  count : DWord
  dropped : Word
  bins : Vector Word 32
  deriving DecidableEq, Repr

/-- A bin.app or bin.rpl at a Kelpie (R139, R140): the bin set's address, the record and the access that brought it, the
descriptor's words once Kelpie has accepted it, the pairs or entries done and to do, the application asked for and its reply,
the page that an access of it waits for, and the status that stopped it. -/
structure KelpieJob where
  replay : Bool
  set : DWord
  record : Record
  space : BitVec 12
  scope : Scope
  inst : Nat
  x : Nat
  y : Nat
  unit : Nat
  id : Nat
  block : BitVec 8
  opIndex : BitVec 7
  desc : List Word
  done : Nat
  total : Nat
  asked : Bool
  reply : Option Reply
  stall : Option Nat
  status : Nat
  ending : Bool
  deriving DecidableEq, Repr

/-- A pair (space, 64 KiB page) at the copy-on-write engine with the writes that wait on it (R336). -/
structure CowJob where
  space : BitVec 12
  page : Nat
  writes : List (Nat × Req)
  frame : Option Nat
  blocks : List Nat
  /-- its service has begun: it holds its leaf and its frames -/
  begun : Bool := false
  deriving DecidableEq, Repr

/-- A pending translation of a die's controller (R341): the slice that asked and the request. -/
structure WalkReq where
  slice : Nat
  req : Req
  deriving DecidableEq, Repr

/-- A report to the event ring that has its number and waits for its stores (R233, R325). -/
structure Report where
  seq : Word
  kind : Nat
  origin : Nat
  space : BitVec 12
  addr : DWord
  detail : Word
  cycle : Nat
  deriving DecidableEq, Repr

/-- The progress of a domain switch (R325). -/
inductive SwitchPhase where
  | idle | frozen | walked
  deriving DecidableEq, Repr

/-- A launch record (R34). -/
structure LaunchRec where
  cfgAddr : DWord
  cfgLen : Word
  quota : BitVec 7
  rmode : BitVec 3
  budget : BitVec 4
  hblk : BitVec 8
  policy : BitVec 2
  dscope : BitVec 3
  domain : BitVec 2
  pri : BitVec 2
  system : Bool
  zero : BitVec 5
  level : BitVec 3
  seamOk : Bool
  dies : BitVec 4
  height : BitVec 3
  width : BitVec 4
  space : BitVec 12
  trapEntries : BitVec 16
  kEntries : BitVec 16
  baseBlk : DWord
  statusAddr : DWord
  doneAddr : DWord
  kennelAddr : DWord
  trapAddr : DWord
  deriving DecidableEq, Repr

/-- An entry of a die's child queue (R96, R359): the record, its address, the parent, and its origin page and rectangle at the
launch. -/
structure Child where
  record : LaunchRec
  addr : DWord
  parent : Nat
  parentSpace : BitVec 12
  px : Nat
  py : Nat
  w : Nat
  h : Nat
  deriving DecidableEq, Repr

/-- The registers and units of a die. -/
structure Die where
  parkAfter : BitVec 20
  laggard : BitVec 28
  evBase : DWord
  evSpace : BitVec 12
  evSize : BitVec 20
  evTail : Word
  evHead : Word
  evLost : Word
  evSeq : Word
  /-- unresolved fault reports: (space, 64 KiB page) (R233) -/
  unresolved : List (BitVec 12 × Nat)
  domMap : DWord
  domMapStaged : DWord
  domCfg : Vector DWord 8
  domCfgStaged : Vector DWord 8
  wbBase : DWord
  wbLen : DWord
  domStat : DWord
  /-- the value last written to DOMCMD -/
  domCmd : BitVec 32
  /-- the command in progress: 0 none, 1 write-back, 2 switch, 3 a write-back whose must-be-zero bits are not zero -/
  domOp : Nat
  phase : SwitchPhase
  caught : List Req
  catchRefused : List Req
  rootBase : DWord
  ftBase : DWord
  ftFrames : BitVec 24
  tbCtl : DWord
  tbBase : DWord
  tbHead : Word
  tbTail : Word
  frCtl : DWord
  frBase : DWord
  frHead : Word
  frTail : Word
  frRefused : Bool
  /-- the value last written to FRPUSH -/
  frPushed : BitVec 24
  /-- TLB and walk cache: (space, level, address over the bytes that an entry of the level covers, leaf or pointer) (R342) -/
  tlb : List (BitVec 12 × Nat × Nat × DWord)
  walkCache : List (BitVec 12 × Nat × Nat × DWord)
  walkQ : List WalkReq
  /-- engine accesses that wait on an unmapped page (R144) -/
  stalled : List WalkReq
  sideLog : List LogEntry
  /-- faulting writes on their way to the side log (R144, R232) -/
  logQ : List WalkReq
  cow : List CowJob
  /-- the engine's ring accesses: a take in progress and its reply, frames and blocks to return -/
  taking : Bool
  taken : Option Nat
  frameReturns : List Nat
  returning : Bool
  blockReturns : List Nat
  blockReturning : Bool
  /-- a table block is being taken for a split (R347) -/
  blockTaking : Bool := false
  kelpie : List KelpieJob
  children : List Child
  peerQ : List (List Word × DWord)
  reportSeq : Word
  trBase : DWord
  trCtl : DWord
  trHead : Word
  histograms : Vector Histogram 16
  /-- reports and trace posts, oldest first, whose stores have not been made yet: a switch of domains or the copy-on-write engine holds
  them up (R325, R336) -/
  pendingReports : List Report := []
  pendingPosts : List (List Word) := []
  /-- addresses at which a switch in progress has caught an access that a unit makes within its own step (R325) -/
  caughtNow : List (BitVec 12 × Nat) := []
  deriving DecidableEq, Repr

/-- A copy in its engine (R135, R136, R312). -/
structure CopyJob where
  desc : Vector Word 16
  completion : DWord
  space : BitVec 12
  inst : Nat
  x : Nat
  y : Nat
  unit : Nat
  started : Bool
  row : Nat
  offset : Nat
  /-- the unit in hand: 0 to be read, 1 read asked, 2 to be written, 3 write asked, 4 to complete, 5 completion store asked -/
  phase : Nat
  data : List Word
  states : List Bool
  reply : Option Reply
  status : Nat
  deriving DecidableEq, Repr

/-! ### Launches -/

/-- A staged command of a group: its stream index, the current page, the command and its data words (R13). -/
structure Staged where
  index : Nat
  px : Nat
  py : Nat
  cmd : Instr
  data : List Word
  deriving DecidableEq, Repr

/-- A loader: the stream, the group being staged, and the cfg access it serves, if any (R13, R97). -/
structure Loader where
  addr : DWord
  length : Nat
  pos : Nat
  space : BitVec 12
  scope : Scope
  inGroup : Bool
  groupStart : Nat
  px : Nat
  py : Nat
  staged : List Staged
  /-- the words of the group from its begin, for the checksum (R16) -/
  sums : List Word
  /-- the first failure of the group found while staging, if any: status, index, LOADERR (R67) -/
  failures : List (Nat × Nat × Word)
  committed : Nat
  /-- the stream index that last wrote each field, by unit and field (R67) -/
  writers : SMap Nat
  /-- the cfg access: x, y, unit, id -/
  cfg : Option (Nat × Nat × Nat × Nat)
  deriving DecidableEq, Repr

/-- Kinds of kennel entries (R44, R231, R366, R351). -/
inductive KKind where
  | park | fault | yieldEntry | range
  deriving DecidableEq, Repr

/-- A kennel entry (R44): its byte offset from KENNELADDR, where its operation stands, its SEQ, GRANULE and OPID, and what
it holds: the access with its record, the request that is to be presented, a record diverted at a yield point with its
input port (R366), or the words of a dirty range (R351). `failed` marks an entry that fault.fail named while its region
was away (R143); `out` an entry whose requests have been issued again; `more` further lanes of the access that wait for the
granule. -/
structure KEntry where
  offset : Nat
  kind : KKind
  x : Nat
  y : Nat
  unit : Nat
  port : Nat
  seq : Nat
  granule : DWord
  opid : Word
  record : Record
  access : Option Access
  req : Option Req
  failed : Bool
  out : Bool
  words : List Word
  more : List Req := []
  /-- a fill parked as its region was pre-empted: it does not lose when it is presented (R194) -/
  spared : Bool := false
  deriving DecidableEq, Repr

/-- The kennel of a region (R43): its entries in order of arrival, the offsets given back, the first offset never used,
the high-water mark, the dirty-range deposits lost, and whether it has been laid out. -/
structure Kennel where
  entries : List KEntry
  freed : List Nat
  fresh : Nat
  high : Nat
  lost : Nat
  ready : Bool
  owed : List (Nat × Word)
  deriving DecidableEq, Repr

/-- States of a launch (R354). -/
inductive Phase where
  | waiting | loading | running | preempting | away | restoring
  /-- the end of the region has begun; its completion store is under way (R160) -/
  | completing
  deriving DecidableEq, Repr

/-- Where a launch came from (R354). -/
inductive Origin where
  | host (q : Nat)
  | peer (die : Nat) (tag : DWord)
  | child
  deriving DecidableEq, Repr

/-- The saved context of a region that is away (R366): what its context block and saved stream hold, as data. -/
structure Saved where
  units : SMap UnitState
  tiles : SMap TileState
  routes : List Route
  deriving DecidableEq, Repr

/-- A launch and its region. Cells are keyed y·128 + x, units (y·128 + x)·16 + unit, region-relative. -/
structure Launch where
  inst : Nat
  sequence : Nat
  record : LaunchRec
  origin : Origin
  phase : Phase
  /-- the rectangle's origin page while the launch is resident -/
  px : Nat
  py : Nat
  /-- the pages the domain allows (R359) -/
  allowed : Option (Nat × Nat × Nat × Nat)
  aging : Nat
  blocked : Nat
  placedAt : Nat
  exempt : Nat
  /-- Collie holds freed pages for this launch, at this origin (R363) -/
  held : Option (Nat × Nat)
  moving : Option (Nat × Nat)
  loader : Option Loader
  /-- a cfg waits or is being applied (R97) -/
  cfgs : List Loader
  committed : Bool
  firstCommit : Nat
  rmode : BitVec 3
  bases : Vector DWord 16
  units : SMap UnitState
  tiles : SMap TileState
  matrix : SMap MatrixTile
  routes : List Route
  traps : Word
  trapLost : Word
  firstCause : BitVec 8
  retired : DWord
  drops : DWord
  faults : Word
  preempts : BitVec 16
  underRead : Word
  underAddr : DWord
  status : BitVec 8
  cmdIndex : Word
  loadErr : Word
  trapQ : List TrapInfo
  handlerQ : List Record
  halting : Bool
  /-- a yield has offered the rest of the quantum (R94) -/
  offered : Bool
  lastMove : Nat
  preemptAt : Nat
  kennel : Kennel
  /-- the preload commands of the launch stream that have been committed (R366) -/
  preloads : List Staged
  /-- a pre-emption has been requested, and waits for the cfgs in progress (R366) -/
  wanted : Bool
  /-- Collie is compacting for this launch (R365) -/
  compacting : Bool
  /-- the regions that the compaction has still to look at, in their order, and the one that it moves (R365) -/
  compactLeft : List Nat := []
  compactMove : Option Nat := none
  /-- the first unit and the number of units of the context pool that the region holds (R369) -/
  context : Option (Nat × Nat)
  saved : Option Saved
  /-- a region-fatal error waits to end the region: the structure's address (R230) -/
  fatal : Option DWord
  /-- the trap record of a region-fatal ending or a kill that is to be written: cause, DETAIL and ADDR (R230 step 4) -/
  lastTrap : Option (Cause × DWord × DWord) := none
  /-- a span under halt found nothing to advance or to remove: the region ends at once (R175 step 5, R229) -/
  spent : Bool := false
  /-- the rectangle's pages are held -/
  hasPages : Bool
  /-- the end of the region (R160): 0 not begun, 1 engines still at work, 2 write-backs and reports due, 3 completion store made -/
  stage : Nat
  /-- the reply of the completion store -/
  doneReply : Option Reply
  deriving DecidableEq, Repr

/-! ### The walker and the window -/

/-- What a walk does next (R357). -/
inductive WalkPhase where
  | idle
  /-- the node is to be read -/
  | fetch
  /-- a run node's launch is to be accepted -/
  | offer
  /-- a run node's launch has been accepted, or dropped; with JOIN, its completion word -/
  | accepted (join : Option DWord)
  /-- an access of the walk: asked, and its reply -/
  | asked (reply : Option Reply)
  /-- the successor is to be read from a field of the node, by its offset -/
  | next (field : Nat)
  /-- the successor was 0: WAITTAIL -/
  | tail (field : Nat)
  deriving DecidableEq, Repr

/-- A host queue and its walk (R356, R357). -/
structure HostQueue where
  start : DWord
  tail : DWord
  space : BitVec 12
  walking : Bool
  node : DWord
  /-- the words of the node as it was read -/
  words : List Word
  phase : WalkPhase
  /-- the page that a read or write of the walk waits for, and whether fault.fail has named it (R357) -/
  stall : Option Nat
  failed : Bool
  errCount : Word
  errCode : BitVec 8
  errAddr : DWord
  deriving DecidableEq, Repr

/-- A retirement of a space in progress (R352). -/
structure Retire where
  space : BitVec 12
  completion : DWord
  reqSpace : BitVec 12
  scope : Scope
  inst : Nat
  die : Nat
  /-- the dies have been worked on; the returns and the completion word remain -/
  worked : Bool
  /-- dies worked on so far -/
  dies : Nat := 0
  deriving DecidableEq, Repr

/-- What bring-up finds in package flash and on the part (R378): the firmware image with its public key and signature, the fused digest of
that key, the image's SVN, the fused SVN, and whether training succeeds. -/
structure Boot where
  image : List Byte
  publicKey : List Byte
  signature : List Byte
  fusedDigest : List Byte
  svn : BitVec 16
  fusedSvn : BitVec 16
  trained : Bool
  /-- units that fail training, by unit key of the part (R21) -/
  failing : NSet
  /-- links that fail training, by number -/
  failingLinks : List Nat
  deriving DecidableEq, Repr

/-- A request to a peer part: the part, the byte address there, and the request (R341, R345). -/
structure PeerReq where
  part : BitVec 8
  addr : Nat
  req : Req
  deriving DecidableEq, Repr

/-- Which unit, walk or loader the instruction of the present step belongs to. The step sets it from the place it fetched
the instruction at. -/
structure Focus where
  inst : Nat
  x : Nat
  y : Nat
  unit : Nat
  slot : Nat
  queue : Nat
  deriving DecidableEq, Repr

/-- The state of the part. -/
structure State where
  /-- memory of the four dies: key d·2^40 + physical byte address; an unlisted byte is 0 (R179) -/
  mem : List Host.Cell
  /-- words of memory that are empty: key of the word's byte address over 4 (R178) -/
  empties : NSet
  /-- 64-byte sectors of memory whose parked flag is set: key of the byte address over 64 (R178) -/
  parked : NSet
  /-- words of memory that are uncorrectable (R235) -/
  bad : NSet
  /-- compressed size codes other than 4, by 256-byte block (R328) -/
  sizes : SMap Nat
  /-- blocks whose tag is uncorrectable: its CHECK does not fit its other bits (R328) -/
  badTags : NSet := []
  slices : SMap Slice
  dies : Vector Die 4
  /-- live launches, by instance number -/
  launches : SMap Launch
  copies : SMap (List CopyJob)
  retires : List Retire
  queues : Vector HostQueue 4
  nextInstance : Nat
  nextSequence : Nat
  childTurn : Nat
  reqSeq : Nat
  now : Nat
  tick : Nat
  quantumMark : Nat
  powerMark : Nat
  quantum : Word
  compactAfter : BitVec 16
  preemptWait : Word
  ctxCtl : DWord
  ctxBase : DWord
  /-- runs of the context pool's table that are still to be written (R369) -/
  tableOwed : List (Nat × Nat) := []
  /-- the launch that a kill in progress is ending (R360) -/
  killing : Option Nat
  /-- a warm reset is in progress: its kills have not all ended (R377) -/
  warm : Bool
  killResult : BitVec 2
  /-- the value last written to KILL -/
  killDone : DWord
  featureOn : Vector DWord 4
  /-- FEATURE_ON words written and not yet taken (R376) -/
  featureStaged : Vector DWord 4
  featureTaken : Bool
  featureLocked : Bool
  resetState : BitVec 3
  failCode : BitVec 8
  svn : BitVec 16
  swBase : DWord
  swCtl : DWord
  swStat : BitVec 3
  attBusy : Bool
  attDone : Bool
  attErr : Bool
  attSigs : BitVec 16
  attAddr : DWord
  /-- the space of the report in progress -/
  attSpace : BitVec 12
  attNonce : Vector DWord 4
  peerId : BitVec 8
  powerCap : BitVec 12
  throttled : Word
  /-- the time up to which THROTTLED has been counted -/
  throttleMark : Nat
  overCap : Bool
  level : BitVec 3
  /-- absolute cells·16 + unit of units that Collie has retired (R21, R362) -/
  retired : NSet
  /-- numbers of the links that Collie has retired (R21, R333) -/
  retiredLinks : List Nat
  boot : Boot
  /-- what the outside does next, in order -/
  inputs : List Instr
  /-- the host's window access at the head of the inputs must wait, and is made again (R375) -/
  windowHeld : Bool
  /-- data returned to the host's window reads, oldest first -/
  hostReplies : List DWord
  /-- residency reports sent to peers (R358), with the dies that sent them, oldest first -/
  reports : List (Nat × List Word)
  /-- data returned to the accesses of peer parts (R380), oldest first -/
  peerReplies : List (List Word)
  /-- plain peer stores that the port has accepted and the peer's home has not performed yet (R215) -/
  peerReqs : List PeerReq
  /-- what this part's accesses have found or left at peers' homes, by part and word (R215) -/
  peerMem : SMap Word
  focus : Focus
  deriving DecidableEq, Repr

/-- Reasons a step stops with a fault. -/
inductive Fault where
  /-- A table entry, root or leaf names a physical byte beyond the 180 GiB of its die's HBM data (R328). Raised by the
  translation walk. Safe: the address space has no such place, so the model stops where the part's behaviour is not
  given. -/
  | physicalHole
  deriving DecidableEq, Repr

/-- Reasons a step is refused. -/
inductive Refusal where
  /-- The instruction has no meaning in the model yet; raised by the dispatcher. Safe: the model stops. -/
  | notModelled (mnemonic : String)
  deriving DecidableEq, Repr

/-! ### Reset -/

/-- A source that has not started. -/
def SrcState.reset : SrcState :=
  { finished := false, ending := false, issued := 0, sent := 0, count := 0, stride := 0, running := false, bound := none,
    counters := (0, 0, 0), bounds := (0, 0, 0), lo := 0, hi := 0, writes := 0 }

/-- A sink that has taken nothing. -/
def SinkState.reset : SinkState :=
  { index := 0, slots := 0, tokens := 0, complete := false, lo := 0, hi := 0, writes := 0 }

/-- A router slot that has passed nothing. -/
def SlotState.reset : SlotState := { lastIn1 := false }

/-- A unit as no configuration has touched it: every field 0 (R28 to R31), SEED 0 loading the LFSR with 1. -/
def UnitState.reset : UnitState :=
  { fields := Vector.replicate 16 0, acc := 0, lfsr := 1, block := 0xFF, opIndex := 127, ins := [], held := false, paused := false,
    settling := [],
    flight := [], nextId := 0, resume := [], src := SrcState.reset, sink := SinkState.reset, slot0 := SlotState.reset,
    slot1 := SlotState.reset }

/-- A tile with every word zero and full (R165). -/
def TileState.reset : TileState :=
  { words := [], empties := [], rows := [], bad := [], releases := [], reqs := [], network := [], waiters := [],
    walks := [], ways := [], parkedRows := [], arrivals := 0, clock := 0 }

/-- A tile register at reset (R285): EMPTY, 128 rows, 32 columns, FP32. -/
def TileReg.reset : TileReg :=
  { data := [], state := .empty, readers := 0, maskMode := false, poisoned := false, gen := 0, shape := 0x0FE1F,
    filler := none, taken := 0 }

/-- A matrix tile at reset (R293). -/
def MatrixTile.reset : MatrixTile :=
  { regs := Vector.replicate 8 TileReg.reset, vecs := Vector.replicate 4 TileReg.reset,
    accs := Vector.replicate 4 { data := [], poisoned := false }, binds := Vector.replicate 4 [], cmds := [],
    firing := none, drain := none, arrived := 0, latch := none, resultOrd := 0, epoch := 0 }

/-- A slice that holds nothing (R378). -/
def Slice.reset : Slice :=
  { lines := [], granules := [], reqs := [], waiters := [], missing := [], fills := [], quota := [], places := [],
    refused := [], walks := [], directory := [], history := [], replies := [], arrivals := 0 }

/-- A histogram unit as CLEAR leaves it (R383), not sampling. -/
def Histogram.reset : Histogram :=
  { config := 0, min := 0xFFFFFFFF, max := 0, count := 0, dropped := 0, bins := Vector.replicate 32 0 }

/-- DOMCFG0 at reset (R321): VALID, LOG2N 6, HASHMASK all ones. -/
def domCfg0 : DWord := 0x80C007FFFFFFFFFF

/-- DOMCFG1 to 7 at reset (R321): HASHMASK all ones. -/
def domCfgN : DWord := 0x000007FFFFFFFFFF

/-- A die at reset (R185, R321, R348, R374). -/
def Die.reset : Die :=
  { parkAfter := 4096, laggard := 0x1000000, evBase := 0, evSpace := 0, evSize := 0, evTail := 0, evHead := 0, evLost := 0,
    evSeq := 0, unresolved := [], domMap := 0, domMapStaged := 0,
    domCfg := (Vector.replicate 8 domCfgN).set 0 domCfg0, domCfgStaged := (Vector.replicate 8 domCfgN).set 0 domCfg0,
    wbBase := 0, wbLen := 0, domStat := 0, domCmd := 0, domOp := 0, phase := .idle, caught := [], catchRefused := [], rootBase := 0,
    ftBase := 0, ftFrames := 0, tbCtl := 0, tbBase := 0, tbHead := 0, tbTail := 0, frCtl := 0, frBase := 0, frHead := 0,
    frTail := 0, frRefused := false, frPushed := 0, tlb := [], walkCache := [], walkQ := [], stalled := [], sideLog := [], logQ := [],
    cow := [], taking := false, taken := none, frameReturns := [], returning := false, blockReturns := [],
    blockReturning := false, kelpie := [], children := [], peerQ := [], reportSeq := 0, trBase := 0, trCtl := 0,
    trHead := 0, histograms := Vector.replicate 16 Histogram.reset }

/-- A host queue at reset (R356). -/
def HostQueue.reset : HostQueue :=
  { start := 0, tail := 0, space := 0, walking := false, node := 0, words := [], phase := .idle, stall := none,
    failed := false,
    errCount := 0, errCode := 0, errAddr := 0 }

/-- The part right after reset: bring-up has ended (R378) and STATE is 3. -/
def State.reset : State :=
  { mem := [], empties := [], parked := [], bad := [], sizes := [], slices := [],
    dies := Vector.replicate 4 Die.reset, launches := [], copies := [], retires := [],
    queues := Vector.replicate 4 HostQueue.reset, nextInstance := 0, nextSequence := 0, childTurn := 0, reqSeq := 0,
    now := 0, tick := 0, quantumMark := 0, powerMark := 0, quantum := 65536, compactAfter := 8, preemptWait := 0x100000,
    ctxCtl := 0, ctxBase := 0, killing := none, warm := false, killResult := 0, killDone := 0, featureOn := Vector.replicate 4 0, featureStaged := Vector.replicate 4 0,
    featureTaken := false, featureLocked := false, resetState := 3, failCode := 0, svn := 0, swBase := 0, swCtl := 0,
    swStat := 0, attBusy := false, attDone := false, attErr := false, attSigs := 32768, attAddr := 0, attSpace := 0,
    attNonce := Vector.replicate 4 0, peerId := 0, powerCap := 3600, throttled := 0, throttleMark := 0, overCap := false, level := 0,
    retired := [], retiredLinks := [],
    boot := { image := [], publicKey := [], signature := [], fusedDigest := [], svn := 0, fusedSvn := 0, trained := true, failing := [], failingLinks := [] }, inputs := [], windowHeld := false, hostReplies := [],
    reports := [], peerReplies := [], peerReqs := [], peerMem := [], focus := { inst := 0, x := 0, y := 0, unit := 0, slot := 0, queue := 0 } }

end Sys2Proof.Machine
end

