-- ==== Sys2Proof/Machine/Operands.lean ====
section
/-! DEFINITION. Machine/Operands.lean: the operand forms of element operations: record words (R22), vector operands and
their lanes (R23, R73), packed elements (R240), immediates (R24), and the words that results of another width fill
(R267). Lane and element values are natural numbers below 2^width; operations convert them, compute exactly and narrow
once. -/

namespace Sys2Proof.Machine

/-- Word i of a record. -/
def Record.w (r : Record) (i : Reg) : Word := r.words.get ⟨i.toNat, i.isLt⟩

/-- The record with word i written. -/
def Record.setW (r : Record) (i : Reg) (x : Word) : Record := { r with words := r.words.set i.toNat x i.isLt }

/-- Word n of a record, 0 past its end. -/
def Record.at (r : Record) (n : Nat) : Word := r.words[n]?.getD 0

/-- The record with word n written; nothing past its end. -/
def Record.setAt (r : Record) (n : Nat) (x : Word) : Record := { r with words := r.words.setIfInBounds n x }

/-- n words of a record from word x on. -/
def Record.slice (r : Record) (x n : Nat) : List Word := (List.range n).map fun i => r.at (x + i)

/-- The record with the words written from word d on. -/
def Record.setWords (r : Record) (d : Nat) : List Word → Record
  | [] => r
  | x :: xs => Record.setWords (r.setAt d x) (d + 1) xs

/-- The 64-bit value of the word pair at x (R103). -/
def Record.pair (r : Record) (x : Nat) : DWord := pair64 (r.at x) (r.at (x + 1))

/-- The record with a word pair written. -/
def Record.setPair (r : Record) (d : Nat) (v : DWord) : Record := r.setWords d [lo32 v, hi32 v]

/-- All sixteen words. -/
def Record.all (r : Record) : List Word := r.words.toList

/-- A record of the words of a list, zero past its end. -/
def Record.ofWords (ws : List Word) (rcw : DWord) : Record := (Record.zero rcw).setWords 0 ws

/-- The bit stream of words, the first word lowest (R240). -/
def bitStream : List Word → Nat
  | [] => 0
  | w :: ws => w.toNat + 2 ^ 32 * bitStream ws

/-- The first n words of a bit stream. -/
def streamWords (n stream : Nat) : List Word := (List.range n).map fun i => BitVec.ofNat 32 (stream / 2 ^ (32 * i))

/-- The first n elements of a width in a bit stream, least significant first (R240). -/
def elements (width n stream : Nat) : List Nat := (List.range n).map fun j => stream / 2 ^ (j * width) % 2 ^ width

/-- The bit stream of elements of a width (R240). -/
def packElements (width : Nat) : List Nat → Nat
  | [] => 0
  | v :: vs => v % 2 ^ width + 2 ^ width * packElements width vs

/-- The lanes of a vector operand (R73), lane 0 first. -/
def Record.lanes (r : Record) (x : Reg) (len : Len) (lane : Lane) : List Nat :=
  elements lane.bits (len.words * 32 / lane.bits) (bitStream (r.slice x.toNat len.words))

/-- The record with the lanes of a vector operand written (R73). -/
def Record.setLanes (r : Record) (d : Reg) (len : Len) (lane : Lane) (vs : List Nat) : Record :=
  r.setWords d.toNat (streamWords len.words (packElements lane.bits vs))

/-- n packed elements from bit 0 of word x (R267). -/
def Record.elements (r : Record) (x : Reg) (n width : Nat) : List Nat :=
  Sys2Proof.Machine.elements width n (bitStream (r.slice x.toNat (destWords n width)))

/-- The record with results of a width packed from bit 0 of word d; bits past the last one are zero (R267). -/
def Record.setElements (r : Record) (d : Reg) (width : Nat) (vs : List Nat) : Record :=
  r.setWords d.toNat (streamWords (destWords vs.length width) (packElements width vs))

/-- The sign-extended value of a 20-bit immediate as a word (R24). -/
def sext20 (imm : BitVec 20) : Word := imm.signExtend 32

/-- The signed value of an unsigned number of a width. -/
def signedOf (width v : Nat) : Int := if 2 * v < 2 ^ width then (v : Int) else (v : Int) - 2 ^ width

/-- The low bits of an integer, of a width (R73: results wrap). -/
def wrapTo (width : Nat) (v : Int) : Nat := (v % (2 ^ width : Int)).toNat

/-- The signed clamp of R73. -/
def clampTo (width : Nat) (v : Int) : Nat :=
  let top : Int := 2 ^ (width - 1) - 1
  let bottom : Int := -(2 ^ (width - 1))
  wrapTo width (if v > top then top else if v < bottom then bottom else v)

/-- The narrowing of an exact result: the signed clamp with sa, wrapping without (R73). -/
def narrow (sat : Bool) (width : Nat) (v : Int) : Nat := if sat then clampTo width v else wrapTo width v

end Sys2Proof.Machine
end

