-- ==== Sys2Proof/Machine/Flags.lean ====
section
/-! DEFINITION. Machine/Flags.lean: the fields of the record control word (R32), and every computation of the predicate P
and of the other control bits. -/

namespace Sys2Proof.Machine

/-- The record control word by field (R32). -/
structure Rcw where
  blk : BitVec 8
  ret0 : BitVec 8
  ret1 : BitVec 8
  bud : BitVec 4
  eos : Bool
  p : Bool
  poison : Bool
  trapped : Bool
  ord : Word
  deriving DecidableEq, Repr

/-- The bit of a flag. -/
def bit1 (b : Bool) : BitVec 1 := if b then 1 else 0

/-- The fields of an RCW. -/
def Rcw.ofBits (x : DWord) : Rcw :=
  { blk := x.extractLsb' 56 8, ret0 := x.extractLsb' 48 8, ret1 := x.extractLsb' 40 8, bud := x.extractLsb' 36 4,
    eos := x.extractLsb' 35 1 == 1, p := x.extractLsb' 34 1 == 1, poison := x.extractLsb' 33 1 == 1,
    trapped := x.extractLsb' 32 1 == 1, ord := x.extractLsb' 0 32 }

/-- The RCW of the fields. -/
def Rcw.toBits (c : Rcw) : DWord :=
  c.blk ++ c.ret0 ++ c.ret1 ++ c.bud ++ bit1 c.eos ++ bit1 c.p ++ bit1 c.poison ++ bit1 c.trapped ++ c.ord

/-- The control word of a record, by field. -/
def Record.ctl (r : Record) : Rcw := Rcw.ofBits r.rcw

/-- The record with its control word changed. -/
def Record.setCtl (r : Record) (c : Rcw) : Record := { r with rcw := c.toBits }

/-- An end-of-stream token (R69). -/
def Record.isToken (r : Record) : Bool := r.ctl.eos

/-- P written (R77, R115, R122, R271). -/
def Record.setP (r : Record) (b : Bool) : Record := r.setCtl { r.ctl with p := b }

/-- EOS written (R78). -/
def Record.setEos (r : Record) (b : Bool) : Record := r.setCtl { r.ctl with eos := b }

/-- POISON written (R113). -/
def Record.setPoison (r : Record) (b : Bool) : Record := r.setCtl { r.ctl with poison := b }

/-- blk written (R79). -/
def Record.setBlk (r : Record) (b : BitVec 8) : Record := r.setCtl { r.ctl with blk := b }

/-- ord written (R74). -/
def Record.setOrd (r : Record) (o : Word) : Record := r.setCtl { r.ctl with ord := o }

/-- bud of a 4-bit value: 0 gives 15 (R34, R78). -/
def budOf (b : BitVec 4) : BitVec 4 := if b = 0 then 15 else b

/-- bud written, 0 giving 15 (R78). -/
def Record.setBud (r : Record) (b : BitVec 4) : Record := r.setCtl { r.ctl with bud := budOf b }

/-- A record that comes off a control route: zero words, the RCW zero but for EOS (R19). -/
def controlBit (r : Record) : Record :=
  Record.zero ({ blk := 0, ret0 := 0, ret1 := 0, bud := 0, eos := r.isToken, p := false, poison := false, trapped := false,
                 ord := 0 } : Rcw).toBits

/-- The control word of a record a source sends (R89, R130). -/
def sourceRcw (blk : BitVec 8) (bud : BitVec 4) (eos poison : Bool) (ord : Word) : DWord :=
  ({ blk := blk, ret0 := 0, ret1 := 0, bud := budOf bud, eos := eos, p := false, poison := poison, trapped := false,
     ord := ord } : Rcw).toBits

/-- The delivery of a trapped record to the handler block (R227). -/
def Record.delivered (r : Record) (hblk : BitVec 8) : Record :=
  r.setCtl { r.ctl with trapped := true, ret1 := r.ctl.ret0, ret0 := r.ctl.blk, blk := hblk }

/-- The setp conditions (R58, R77). -/
def Cond.holds (c : Cond) (x y : Word) : Bool :=
  match c with
  | .eq => x == y
  | .ne => x != y
  | .lt => x.slt y
  | .le => x.sle y
  | .gt => y.slt x
  | .ge => y.sle x
  | .ltu => x.ult y
  | .leu => x.ule y
  | .gtu => y.ult x
  | .geu => y.ule x
  | .test => x &&& y != 0

end Sys2Proof.Machine
end

