-- ==== Sys2Proof/Config.lean ====
section
/-! DEFINITION. Config.lean: the values the manual leaves to the part, as constants without a body: nothing in Lean can
evaluate them or prove a value of them. Each is named in the assumption log. -/

namespace Sys2Proof

/-- Which of the enabled steps happens next, by the step's number: the manual fixes no order among units (R151, R332). -/
opaque Config.choice : Nat → Nat

/-- How many cycles a step takes, by the step's number (R72, R334: nothing depends on it). -/
opaque Config.elapse : Nat → Nat

/-- The place of group q of a firing in the order in which group sums are added, by tile, configuration epoch, format
code and shape (R302). -/
opaque Config.groupKey : (tile epoch fmt rows cols q : Nat) → Nat

/-- The part's frsq in FP32 (R277), within the bound that the model checks. -/
opaque Config.frsq : Word → Word
/-- The part's fexp2 in FP32 (R277). -/
opaque Config.fexp2 : Word → Word
/-- The part's flog2 in FP32 (R277). -/
opaque Config.flog2 : Word → Word
/-- The part's fsin in FP32 (R277). -/
opaque Config.fsin : Word → Word
/-- The part's fcos in FP32 (R277). -/
opaque Config.fcos : Word → Word

/-- Which line of a slice a fill evicts, if any, by the step's number (R178 says only which it may not). -/
opaque Config.evict : Nat → Option Nat

/-- Which entry of a die's TLB goes as a leaf is entered, if any, by the step's number (R342: the part chooses). -/
opaque Config.replaceLeaf : Nat → Option Nat
/-- Which entry of a die's walk cache goes as a pointer is entered, if any, by the step's number (R342). -/
opaque Config.replacePointer : Nat → Option Nat

/-- The compressed size, in sectors less 1, of a block that is not all zero, by its 256 bytes (R329). -/
opaque Config.compressed : List Byte → BitVec 2

/-- The slot in which a sink whose ring has no slots stores, by the number of records before it (R131). -/
opaque Config.emptyRing : Nat → Nat

/-- Whether a cell's cache ways take the line of a load that missed, by the step's number (R110: may allocate). -/
opaque Config.allocate : Nat → Bool

/-- The data that stand at a peer part's home where this part has not put them, and the states there, by request number and word (R215,
R380). -/
opaque Config.peerWord : Nat → Nat → Word
/-- Whether another party has written a word at a peer's home since this part's last access to it, by request number and word (R215). -/
opaque Config.peerWrote : Nat → Nat → Bool
/-- Whether a posted store has reached its peer's home, by the step's number and the store's request number (R215: it is performed
later). -/
opaque Config.peerArrived : Nat → Nat → Bool
/-- What a peer part's home answers to a test: whether it held, by request number. -/
opaque Config.peerHeld : Nat → Bool

/-- Whether the packet that a link discards is the reply rather than the request, by the step's number (R212). -/
opaque Config.replyLost : Nat → Bool

/-- The number of the link that a failed packet names in its event, by the step's number (R333, R382). -/
opaque Config.failedLink : Nat → BitVec 16

/-- The heading and turns that the loader gives a route in place of its own, by the links and units that are retired, the absolute cell
it leaves and its own heading and turns (R21: the rule names no way round); none where it finds none. -/
opaque Config.regenerated : (links units : List Nat) → (cell : Nat) → BitVec 2 → List (BitVec 2) → Option (BitVec 2 × List (BitVec 2))

/-- The power manager's estimate in watts, by the step's number (R381). -/
opaque Config.powerEstimate : Nat → Nat

/-- The device identity (R379). -/
opaque Config.deviceIdentity : DWord
/-- Bytes of the LMS signature of a report that the device key decides: the randomiser, the one-time signature's hashes and the
authentication path, by the leaf, the words signed and the byte's offset in the signature (R379). -/
opaque Config.lmsSignature : Nat → List Word → Nat → Byte

end Sys2Proof
end

