-- ==== Sys2Proof/Machine/Sparse.lean ====
section
/-! DEFINITION. Machine/Sparse.lean: sparse maps and sets in canonical form. A map's keys rise strictly; `put` lists no
entry equal to the default that a missing key reads as, so equal contents are equal data. -/

namespace Sys2Proof

/-- The entry of a key. -/
def SMap.get? {β : Type} : SMap β → Nat → Option β
  | [], _ => none
  | (k, v) :: m, key => if key = k then some v else SMap.get? m key

/-- The entry of a key, or what a missing key reads as. -/
def SMap.getD {β : Type} (m : SMap β) (key : Nat) (dflt : β) : β := (m.get? key).getD dflt

/-- Remove a key. -/
def SMap.erase {β : Type} : SMap β → Nat → SMap β
  | [], _ => []
  | (k, v) :: m, key => if key = k then m else (k, v) :: SMap.erase m key

/-- Store an entry in its place. -/
def SMap.insert {β : Type} : SMap β → Nat → β → SMap β
  | [], key, x => [(key, x)]
  | (k, v) :: m, key, x =>
      if key < k then (key, x) :: (k, v) :: m
      else if key = k then (key, x) :: m
      else (k, v) :: SMap.insert m key x

/-- Store an entry, or remove the key when the value is what a missing key reads as. -/
def SMap.put {β : Type} [DecidableEq β] (m : SMap β) (dflt : β) (key : Nat) (x : β) : SMap β :=
  if x = dflt then m.erase key else m.insert key x

/-- Change the entry of a key, a missing one reading as the default. -/
def SMap.modify {β : Type} (m : SMap β) (key : Nat) (dflt : β) (f : β → β) : SMap β :=
  m.insert key (f (m.getD key dflt))

/-- Every entry changed; those that become what a missing key reads as go. -/
def SMap.mapValues {β : Type} [DecidableEq β] (dflt : β) (f : β → β) (m : SMap β) : SMap β :=
  (m.map fun e => (e.1, f e.2)).filter fun e => decide (e.2 ≠ dflt)

/-- Keys rise strictly and lie above a bound. -/
def SMap.risingFrom {β : Type} : Nat → SMap β → Bool
  | _, [] => true
  | b, (k, _) :: m => decide (b ≤ k) && SMap.risingFrom (k + 1) m

/-- Canonical form of a map whose missing keys read as a default: keys rise strictly and no entry equals the default. -/
def SMap.wf {β : Type} [DecidableEq β] (dflt : β) (m : SMap β) : Bool :=
  SMap.risingFrom 0 m && m.all fun e => decide (e.2 ≠ dflt)

/-- An element put before the first that does not precede it. -/
def sortInsert {α : Type} (le : α → α → Bool) (x : α) : List α → List α
  | [] => [x]
  | y :: ys => if le x y then x :: y :: ys else y :: sortInsert le x ys

/-- A list in order, equal elements in the order they stood. -/
def sortBy {α : Type} (le : α → α → Bool) : List α → List α
  | [] => []
  | x :: xs => sortInsert le x (sortBy le xs)

/-- Membership. -/
def NSet.has : NSet → Nat → Bool
  | [], _ => false
  | k :: s, key => key = k || NSet.has s key

/-- Add a number in its place. -/
def NSet.add : NSet → Nat → NSet
  | [], key => [key]
  | k :: s, key => if key < k then key :: k :: s else if key = k then k :: s else k :: NSet.add s key

/-- Remove a number. -/
def NSet.remove : NSet → Nat → NSet
  | [], _ => []
  | k :: s, key => if key = k then s else k :: NSet.remove s key

/-- Add or remove a number. -/
def NSet.set (s : NSet) (key : Nat) (b : Bool) : NSet := if b then s.add key else s.remove key

/-- Numbers rise strictly from a bound. -/
def NSet.risingFrom : Nat → NSet → Bool
  | _, [] => true
  | b, k :: s => decide (b ≤ k) && NSet.risingFrom (k + 1) s

/-- Canonical form of a set. -/
def NSet.wf (s : NSet) : Bool := NSet.risingFrom 0 s

end Sys2Proof
end

