-- ==== Sys2Proof/Machine/Memory.lean ====
section
/-! DEFINITION. Machine/Memory.lean: physical memory of the dies: bytes, words, full/empty bits, parked flags,
uncorrectable words and compressed sizes (R3, R4, R178, R179, R328, R329). A byte that nothing has written reads as 0, a
word's full/empty bit is full and every parked flag clear, as bring-up leaves them (R179). -/

namespace Sys2Proof.Machine

/-- Bytes of data HBM of a die: 180 GiB (R328). -/
def dieBytes : Nat := 180 * 2 ^ 30

/-- The memory key of a physical byte of a die. -/
def memKey (die pa : Nat) : Nat := die * 2 ^ 40 + pa

/-- The byte of a memory key. -/
def State.readByte (s : State) (key : Nat) : Byte := SMap.getD s.mem key 0

/-- The state with a byte of memory written. -/
def State.writeByte (s : State) (key : Nat) (b : Byte) : State := { s with mem := SMap.put s.mem 0 key b }

/-- Memory is in canonical form: addresses rise strictly, and no entry is what an unlisted address reads as. -/
def State.Memory.wf (m : List Host.Cell) : Bool := SMap.wf (0 : Byte) m

/-- The word at a key, little-endian (R3). -/
def State.readWord (s : State) (key : Nat) : Word :=
  s.readByte (key + 3) ++ s.readByte (key + 2) ++ s.readByte (key + 1) ++ s.readByte key

/-- The state with a word of memory written, little-endian (R3). -/
def State.writeWord (s : State) (key : Nat) (w : Word) : State :=
  (((s.writeByte key (w.extractLsb' 0 8)).writeByte (key + 1) (w.extractLsb' 8 8)).writeByte (key + 2)
    (w.extractLsb' 16 8)).writeByte (key + 3) (w.extractLsb' 24 8)

/-- n words from a key on. -/
def State.readWords (s : State) (key : Nat) : Nat → List Word
  | 0 => []
  | n + 1 => s.readWord key :: State.readWords s (key + 4) n

/-- The state with words written from a key on. -/
def State.writeWords (s : State) (key : Nat) : List Word → State
  | [] => s
  | w :: ws => State.writeWords (s.writeWord key w) (key + 4) ws

/-- A 64-bit word of memory (R339: table entries). -/
def State.readDword (s : State) (key : Nat) : DWord := s.readWord (key + 4) ++ s.readWord key

/-- The full/empty bit of the word at a key: true is full (R178). -/
def State.wordFull (s : State) (key : Nat) : Bool := !NSet.has s.empties (key / 4)

/-- Full/empty bits of words from a key on. -/
def State.wordsFull (s : State) (key : Nat) : Nat → List Bool
  | 0 => []
  | n + 1 => s.wordFull key :: State.wordsFull s (key + 4) n

/-- The state with the full/empty bits of words set. -/
def State.setFull (s : State) (key : Nat) : List Bool → State
  | [] => s
  | f :: fs => State.setFull { s with empties := NSet.set s.empties (key / 4) (!f) } (key + 4) fs

/-- The tag of a block is uncorrectable, or holds a size code that is never written (R328). -/
def State.tagBad (s : State) (block : Nat) : Bool := NSet.has s.badTags block || decide (4 < SMap.getD s.sizes block 4)

/-- Whether words from a key on are uncorrectable (R235): by themselves, or through the tag of their block (R328). -/
def State.wordsBad (s : State) (key : Nat) : Nat → List Bool
  | 0 => []
  | n + 1 => (NSet.has s.bad (key / 4) || s.tagBad (key / 256)) :: State.wordsBad s (key + 4) n

/-- The state with words marked uncorrectable or not. -/
def State.setBad (s : State) (key : Nat) : List Bool → State
  | [] => s
  | b :: bs => State.setBad { s with bad := NSet.set s.bad (key / 4) b } (key + 4) bs

/-- The parked flag of the sector at a key (R178). -/
def State.sectorParked (s : State) (key : Nat) : Bool := NSet.has s.parked (key / 64)

/-- The state with the parked flag of a sector set. -/
def State.setParked (s : State) (key : Nat) (b : Bool) : State := { s with parked := NSet.set s.parked (key / 64) b }

/-- The bytes of a 256-byte block. -/
def State.blockBytes (s : State) (block : Nat) : List Byte := (List.range 256).map fun i => s.readByte (block * 256 + i)

/-- The size code of a block is written with it: 0 for an all-zero block, otherwise the part's own choice of 1 to 4,
the smallest code that holds the block exactly (R329). -/
def State.compress (s : State) (block : Nat) : State :=
  let bytes := s.blockBytes block
  let code : Nat := if bytes.all (· == 0) then 0 else (Config.compressed bytes).toNat + 1
  { s with sizes := SMap.put s.sizes 4 block code }

/-- A block before a write of it writes its tag: where the tag was uncorrectable, every word of the block is (R328). -/
def State.mendTag (s : State) (block : Nat) : State :=
  if s.tagBad block then
    { s.setBad (block * 256) (List.replicate 64 true) with badTags := NSet.remove s.badTags block, sizes := SMap.put s.sizes 4 block 4 }
  else s

/-- The state with a 64-bit word of memory written by a die's controller, its block recompressed (R329, R339). -/
def State.writeDword (s : State) (key : Nat) (v : DWord) : State :=
  ((s.mendTag (key / 256)).writeWords key [lo32 v, hi32 v]).compress (key / 256)

/-- Blocks of 256 bytes from a key on recompressed (R329). -/
def State.compressRun (s : State) (key n : Nat) : State := (List.range n).foldl (fun (s : State) i => s.compress (key / 256 + i)) s

end Sys2Proof.Machine
end

