-- ==== Sys2Proof/Machine/Translation.lean ====
section
/-! DEFINITION. Machine/Translation.lean: virtual addresses, table entries and the walk of a die's controller (R339 to
R346), and the frame counts that page sharing keeps. -/

namespace Sys2Proof.Machine

/-- The die that owns a virtual address (R339). -/
def vaDie (va : Nat) : Nat := va / 2 ^ 50 % 4

/-- The die's registers. -/
def State.die (s : State) (d : Nat) : Die := if h : d < 4 then s.dies[d] else Die.reset

/-- The state with a die's registers changed. -/
def State.setDie (s : State) (d : Nat) (x : Die) : State := { s with dies := s.dies.setIfInBounds d x }

/-! ### Table entries (R340) -/

/-- V. -/
def pteV (e : DWord) : Bool := e.extractLsb' 0 1 == 1
/-- W. -/
def pteW (e : DWord) : Bool := e.extractLsb' 1 1 == 1
/-- ATTR: 0 normal, 1 uncached, 2 peer. -/
def pteAttr (e : DWord) : BitVec 2 := e.extractLsb' 2 2
/-- COW. -/
def pteCow (e : DWord) : Bool := e.extractLsb' 4 1 == 1
/-- A. -/
def pteA (e : DWord) : Bool := e.extractLsb' 5 1 == 1
/-- D. -/
def pteD (e : DWord) : Bool := e.extractLsb' 6 1 == 1
/-- SIZE. -/
def pteSize (e : DWord) : BitVec 2 := e.extractLsb' 7 2
/-- LEAF. -/
def pteLeaf (e : DWord) : Bool := e.extractLsb' 9 1 == 1
/-- ADDR, as a byte address. -/
def pteAddr (e : DWord) : Nat := (e.extractLsb' 12 36).toNat * 2 ^ 12
/-- PEER. -/
def ptePeer (e : DWord) : BitVec 8 := e.extractLsb' 56 8

/-- An entry with one bit written. -/
def setBitAt (e : DWord) (i : Nat) (b : Bool) : DWord := if b then e ||| (1#64 <<< i) else e &&& ~~~(1#64 <<< i)

/-- Bytes that a leaf of a SIZE maps (R340). -/
def leafBytes (size : BitVec 2) : Nat := if size = 0 then 2 ^ 16 else if size = 1 then 2 ^ 21 else 2 ^ 30

/-- The level a leaf of a SIZE stands at. -/
def leafLevel (size : BitVec 2) : Nat := size.toNat

/-- 64 KiB frames of a leaf's run (R346). -/
def leafFrames (size : BitVec 2) : Nat := leafBytes size / 2 ^ 16

/-- The first frame a local leaf names (R340). -/
def leafFrame (e : DWord) : Nat := pteAddr e / 2 ^ 16

/-- A well-formed entry of a table of a level (R340): zero, a pointer, or a leaf of that level. -/
def pteOk (level : Nat) (e : DWord) : Bool :=
  if !pteV e then e == 0
  else if pteLeaf e then
    e.extractLsb' 48 8 == 0 && e.extractLsb' 10 2 == 0 && pteSize e != 3 && leafLevel (pteSize e) == level &&
    pteAttr e != 3 && pteAddr e % leafBytes (pteSize e) == 0 &&
    (pteAttr e == 2 || (ptePeer e == 0 && e.extractLsb' 40 8 == 0))
  else
    level != 0 && ptePeer e == 0 && e.extractLsb' 48 8 == 0 && e.extractLsb' 1 11 == 0

/-- Entries of a table of a level (R339). -/
def tableEntries (level : Nat) : Nat := if level = 3 then 2048 else if level = 0 then 32 else 512

/-- The index of an address into a table of a level (R339). -/
def tableIndex (level va : Nat) : Nat :=
  if level = 3 then va / 2 ^ 39 % 2048
  else if level = 2 then va / 2 ^ 30 % 512
  else if level = 1 then va / 2 ^ 21 % 512
  else va / 2 ^ 16 % 32

/-- The root table of a space on a die (R339). -/
def State.root (s : State) (d : Nat) (space : BitVec 12) : Nat := (s.die d).rootBase.toNat + space.toNat * 0x4000

/-- Whether eight bytes at a physical address lie within the die's memory. -/
def inDie (pa bytes : Nat) : Bool := decide (pa + bytes ≤ dieBytes)

/-- Whether a table word is uncorrectable. -/
def State.entryBad (s : State) (key : Nat) : Bool := (s.wordsBad key 2).any id

/-- Where a walk ends. -/
inductive Walk where
  /-- a leaf: its entry's physical address, its level and the entry -/
  | leaf (entry level : Nat) (e : DWord)
  /-- an entry with V = 0 at a level -/
  | missing (entry level : Nat)
  /-- a malformed or uncorrectable entry -/
  | malformed (entry : Nat) (e : DWord)
  | uncorrectable (entry : Nat)
  /-- an address beyond the die's memory -/
  | hole
  deriving DecidableEq, Repr

/-- The walk from a table of a level (R341). -/
def State.walkFrom (s : State) (d va : Nat) : Nat → Nat → Walk
  | level, table =>
    let entry := table + tableIndex level va * 8
    if !inDie entry 8 then .hole
    else if s.entryBad (memKey d entry) then .uncorrectable entry
    else
      let e := s.readDword (memKey d entry)
      if !pteOk level e then .malformed entry e
      else if !pteV e then .missing entry level
      else if pteLeaf e then .leaf entry level e
      else
        match level with
        | 0 => .malformed entry e
        | l + 1 => State.walkFrom s d va l (pteAddr e)

/-- The walk of an address of a space on its die (R341). -/
def State.walk (s : State) (d : Nat) (space : BitVec 12) (va : Nat) : Walk := s.walkFrom d va 3 (s.root d space)

/-- Bytes that an entry of a table of a level covers (R339). -/
def levelSpan (level : Nat) : Nat := if level = 3 then 2 ^ 39 else if level = 2 then 2 ^ 30 else if level = 1 then 2 ^ 21 else 2 ^ 16

/-- The pointer that a die's walk cache holds for an address at a level (R342). -/
def Die.cachedPointer (x : Die) (space : BitVec 12) (level va : Nat) : Option DWord :=
  (x.walkCache.find? fun p => p.1 == space && p.2.1 == level && p.2.2.1 == va / levelSpan level).map (·.2.2.2)

/-- What the walk of an address reads in a table of a level (R341): the walk's end, or a pointer. -/
def State.tableRead (s : State) (d va level table : Nat) : Walk ⊕ DWord :=
  let entry := table + tableIndex level va * 8
  if !inDie entry 8 then .inl .hole
  else if s.entryBad (memKey d entry) then .inl (.uncorrectable entry)
  else
    let e := s.readDword (memKey d entry)
    if !pteOk level e then .inl (.malformed entry e)
    else if !pteV e then .inl (.missing entry level)
    else if pteLeaf e then .inl (.leaf entry level e)
    else if level = 0 then .inl (.malformed entry e)
    else .inr e

/-- The walk of an access from a table of a level (R341, R342): a pointer that the walk cache holds is not read again. With the walk's
end, the pointers that it read, by level. -/
def State.walkVia (s : State) (d : Nat) (space : BitVec 12) (va : Nat) : Nat → Nat → Walk × List (Nat × DWord)
  | 0, table => (match s.tableRead d va 0 table with | .inl w => w | .inr _ => .hole, [])
  | l + 1, table =>
    match (s.die d).cachedPointer space (l + 1) va with
    | some e => State.walkVia s d space va l (pteAddr e)
    | none =>
      match s.tableRead d va (l + 1) table with
      | .inl w => (w, [])
      | .inr e =>
        let (w, ps) := State.walkVia s d space va l (pteAddr e)
        (w, (l + 1, e) :: ps)

/-- An entry put into a cache of a size: the entry that the part chooses goes, and the oldest where there is still no room. -/
def cacheInsert {α : Type} (limit : Nat) (goes : Option Nat) (xs : List α) (x : α) : List α :=
  let xs := match goes with | some n => xs.eraseIdx n | none => xs
  (if limit ≤ xs.length then xs.drop 1 else xs) ++ [x]

/-- The pointers that a walk read put into the walk cache of its die (R342). -/
def State.rememberPointers (s : State) (d : Nat) (space : BitVec 12) (va : Nat) (ps : List (Nat × DWord)) : State :=
  ps.foldl (fun (s : State) p =>
    let x := s.die d
    s.setDie d { x with walkCache := cacheInsert 4096 (Config.replacePointer s.tick) x.walkCache (space, p.1, va / levelSpan p.1, p.2) }) s

/-- What a translation gives (R341, R344, R345). -/
inductive Trans where
  /-- the physical byte address of the access, whether its line takes writes, whether the page is uncached -/
  | ok (pa : Nat) (writable uncached : Bool)
  /-- a peer leaf: the part and the address there -/
  | peer (part : BitVec 8) (addr : Nat)
  | fault
  | protect
  | attr (a : BitVec 2)
  | cow
  | deviceErr
  | hole
  deriving DecidableEq, Repr

/-- An entry of the TLB for an address: the leaf as the walk left it (R342). -/
def Die.tlbLeaf (x : Die) (space : BitVec 12) (va : Nat) : Option DWord :=
  (x.tlb.find? fun t => t.1 == space && t.2.2.1 == va / levelSpan t.2.1).map (·.2.2.2)

/-- The die with the TLB and walk-cache entries of a range of addresses of a space removed (R342); a walk-cache entry goes with its
whole space. -/
def Die.forget (x : Die) (space : BitVec 12) (lo hi : Nat) : Die :=
  { x with tlb := x.tlb.filter fun t =>
             !(t.1 == space && decide (t.2.2.1 * levelSpan t.2.1 < hi) && decide (lo < (t.2.2.1 + 1) * levelSpan t.2.1))
           walkCache := x.walkCache.filter fun t => t.1 != space }

/-- The attr check of R345: which accesses a page of an attr admits; `toPeer` marks an access in peer space. -/
def attrOk (a : BitVec 2) (toPeer : Bool) : Bool := if toPeer then a == 2 else a == 0 || a == 1

/-- What a leaf gives for an address (R340, R345, R380): a peer leaf its part and address, a local one its physical byte,
and whether the slice line then takes writes (R343). -/
def State.leafTrans (s : State) (e : DWord) (va : Nat) (write : Bool) : Trans :=
  let addr := pteAddr e + va % leafBytes (pteSize e)
  if pteAttr e = 2 then
    if ptePeer e = s.peerId then .attr 2 else .peer (ptePeer e) addr
  else if inDie addr 1 then .ok addr (write && pteW e && !pteCow e) (pteAttr e == 1)
  else .hole

/-- The walk of an access with its update of the leaf, one step at the entry (R341). -/
def State.translateWalk (s : State) (space : BitVec 12) (va : Nat) (write toPeer : Bool) : State × Trans :=
  let d := vaDie va
  let (w, pointers) := s.walkVia d space va 3 (s.root d space)
  let s := s.rememberPointers d space va pointers
  match w with
  | .hole => (s, .hole)
  | .malformed _ _ => (s, .deviceErr)
  | .uncorrectable _ => (s, .deviceErr)
  | .missing _ _ => (s, .fault)
  | .leaf entry level e =>
    if write && pteCow e then (s, .cow)
    else if write && !pteW e then (s, .protect)
    else if !attrOk (pteAttr e) toPeer then (s, .attr (pteAttr e))
    else
      let e' := if write then setBitAt (setBitAt e 5 true) 6 true else setBitAt e 5 true
      let s := s.writeDword (memKey d entry) e'
      let x := s.die d
      let others := x.tlb.filter fun t => !(t.1 == space && t.2.1 == level && t.2.2.1 == va / levelSpan level)
      (s.setDie d { x with tlb := cacheInsert 32768 (Config.replaceLeaf s.tick) others (space, level, va / levelSpan level, e') },
       s.leafTrans e' va write)

/-- The translation of an access (R341), with the state after it: A and D set at the leaf in the same step, the leaf
kept in the TLB. A write is any access that R199 counts as one; `toPeer` an access in peer space. A TLB entry serves
where it permits the access and, for a write, has D set (R342). -/
def State.translate (s : State) (space : BitVec 12) (va : Nat) (write toPeer : Bool) : State × Trans :=
  match (s.die (vaDie va)).tlbLeaf space va with
  | some e =>
    if (write && (pteCow e || !pteW e || !pteD e)) || !attrOk (pteAttr e) toPeer then
      s.translateWalk space va write toPeer
    else (s, s.leafTrans e va write)
  | none => s.translateWalk space va write toPeer

/-! ### Frame counts (R346) -/

/-- The count of a frame: its byte of the frame table. -/
def State.frameCount (s : State) (d frame : Nat) : Nat := (s.readByte (memKey d ((s.die d).ftBase.toNat + frame))).toNat

/-- The state with the count of a frame written, its block recompressed (R329). -/
def State.setFrameCount (s : State) (d frame n : Nat) : State :=
  let key := memKey d ((s.die d).ftBase.toNat + frame)
  ((s.mendTag (key / 256)).writeByte key (BitVec.ofNat 8 n)).compress (key / 256)

/-- The frames of a leaf's run, in order. -/
def leafRun (e : DWord) : List Nat := (List.range (leafFrames (pteSize e))).map fun i => leafFrame e + i

/-- A local leaf's run lies below FTFRAMES (R348). -/
def State.frameOk (s : State) (d : Nat) (e : DWord) : Bool :=
  pteAttr e == 2 || decide (leafFrame e + leafFrames (pteSize e) ≤ (s.die d).ftFrames.toNat)

end Sys2Proof.Machine
end

