-- ==== Sys2Proof/Machine/Numbers.lean ====
section
/-! DEFINITION. Machine/Numbers.lean: the element formats and their one rounding step (R240 to R259). A value is a NaN, an
infinity or an exact signed fraction; every operation forms its exact result and `convert` rounds it once. -/

namespace Sys2Proof

open Machine

/-- A value: a NaN, a signed infinity, or a signed fraction num / den with den > 0; num = 0 is a signed zero. -/
inductive Val where
  | nan
  | inf (neg : Bool)
  | fin (neg : Bool) (num den : Nat)
  deriving DecidableEq, Repr

/-- Exponent width, mantissa width and bias of a floating format (R241). -/
def Fmt.layout : Fmt → Nat × Nat × Nat
  | .fp32 => (8, 23, 127) | .fp16 => (5, 10, 15) | .bf16 => (8, 7, 127) | .e5m2 => (5, 2, 15) | .e4m3 => (4, 3, 7)
  | .e3m2 => (3, 2, 3) | .e2m3 => (2, 3, 1) | .e2m1 => (2, 1, 1) | _ => (0, 0, 0)

/-- The code of the largest finite value of a floating format, sign clear (R241). -/
def Fmt.maxCode : Fmt → Nat
  | .fp32 => 0x7F7FFFFF | .fp16 => 0x7BFF | .bf16 => 0x7F7F | .e5m2 => 0x7B | .e4m3 => 0x7E | .e3m2 => 0x1F
  | .e2m3 => 0x1F | .e2m1 => 0x7 | _ => 0

/-- A format with infinities and NaNs (R241). -/
def Fmt.ieee : Fmt → Bool
  | .fp32 => true | .fp16 => true | .bf16 => true | .e5m2 => true | _ => false

/-- A floating format, codes 0 to 7 (R241). -/
def Fmt.floats (f : Fmt) : Bool := decide (f.code.toNat ≤ 7)

/-- The code of infinity, sign clear. -/
def Fmt.infCode (f : Fmt) : Nat := f.maxCode + 1

/-- The canonical NaN (R243); the formats without one convert NaN to +0 (R251). -/
def Fmt.nanCode : Fmt → Nat
  | .fp32 => 0x7FC00000 | .fp16 => 0x7E00 | .bf16 => 0x7FC0 | .e5m2 => 0x7F | .e4m3 => 0x7F | .e8m0 => 0xFF | _ => 0

/-- m · 2^e as a fraction. -/
def scaled (neg : Bool) (m : Nat) (e : Int) : Val :=
  if 0 ≤ e then .fin neg (m * 2 ^ e.toNat) 1 else .fin neg m (2 ^ (-e).toNat)

/-- The range of an integer format (R245). -/
def Fmt.intRange : Fmt → Int × Int
  | .s8 => (-128, 127) | .n8 => (0, 255) | .s4 => (-8, 7) | .n4 => (0, 15) | .s2 => (-2, 1) | .t2 => (-1, 1) | _ => (0, 0)

/-- The integer of a code of an integer format; t2 code 10 reads as zero (R245, R246). -/
def Fmt.intOf (f : Fmt) (c : Nat) : Int :=
  match f with
  | .n8 => (c : Int)
  | .n4 => (c : Int)
  | .t2 => if c = 1 then 1 else if c = 3 then -1 else 0
  | f => signedOf f.width c

/-- The code of an integer in range. -/
def Fmt.codeOfInt (f : Fmt) (v : Int) : Nat := wrapTo f.width v

/-- An integer as a value. -/
def Val.ofInt (v : Int) : Val := .fin (decide (v < 0)) v.natAbs 1

/-- The value of a code (R242 to R245). -/
def Fmt.value (f : Fmt) (c : Nat) : Val :=
  if f.floats then
    let (e, m, bias) := f.layout
    let neg := c / 2 ^ (e + m) % 2 == 1
    let mag := c % 2 ^ (e + m)
    if mag > f.maxCode then (if f.ieee && mag == f.infCode then .inf neg else .nan)
    else
      let ex := mag / 2 ^ m
      let mant := mag % 2 ^ m
      if ex = 0 then scaled neg mant (1 - (bias : Int) - m) else scaled neg (2 ^ m + mant) ((ex : Int) - bias - m)
  else if f = .e8m0 then (if c = 0xFF then .nan else scaled false 1 ((c : Int) - 127))
  else .ofInt (f.intOf c)

/-! ### Rounding (R248, R249) -/

/-- One advance of the LFSR (R249). -/
def lfsrStep (s : BitVec 16) : BitVec 16 := if s.getLsbD 0 then (s >>> 1) ^^^ 0xB400 else s >>> 1

/-- ⌊log₂ (num / den)⌋ of a positive fraction. -/
def floorLog2 (num den : Nat) : Int :=
  let k : Int := (num.log2 : Int) - (den.log2 : Int)
  let below := if 0 ≤ k then decide (num < den * 2 ^ k.toNat) else decide (num * 2 ^ (-k).toNat < den)
  if below then k - 1 else k

/-- num / den · 2^e as a fraction. -/
def scaleFrac (num den : Nat) (e : Int) : Nat × Nat :=
  if 0 ≤ e then (num * 2 ^ e.toNat, den) else (num, den * 2 ^ (-e).toNat)

/-- The rounding of a fraction of units to a whole number of them (R248, R249); r is the LFSR state of a stochastic step. -/
def roundUnits (mode : Round) (neg : Bool) (r : BitVec 16) (num den : Nat) : Nat :=
  let lo := num / den
  let rem := num % den
  if rem = 0 then lo
  else
    match mode with
    | .rne => if 2 * rem > den || (2 * rem == den && lo % 2 == 1) then lo + 1 else lo
    | .rtz => lo
    | .rdn => if neg then lo + 1 else lo
    | .rup => if neg then lo else lo + 1
    | .rna => if 2 * rem ≥ den then lo + 1 else lo
    | .stochastic => if rem * 2 ^ 16 / den + r.toNat ≥ 2 ^ 16 then lo + 1 else lo
    | .region => lo

/-- The magnitude code of a positive fraction rounded into a floating format with no upper limit on the exponent. -/
def Fmt.roundMag (f : Fmt) (mode : Round) (neg : Bool) (r : BitVec 16) (num den : Nat) : Nat :=
  let (_, m, bias) := f.layout
  let e := max (floorLog2 num den) (1 - (bias : Int))
  let (n, d) := scaleFrac num den ((m : Int) - e)
  ((e + bias - 1).toNat) * 2 ^ m + roundUnits mode neg r n d

/-- A code with its sign. -/
def Fmt.withSign (f : Fmt) (neg : Bool) (mag : Nat) : Nat :=
  let (e, m, _) := f.layout
  (if neg then 2 ^ (e + m) else 0) + mag

/-- What a magnitude beyond the largest finite value becomes (R252). -/
def Fmt.overflow (f : Fmt) (mode : Round) (sat neg : Bool) : Nat :=
  let toward := mode == .rtz || (mode == .rdn && !neg) || (mode == .rup && neg)
  if sat || toward then f.withSign neg f.maxCode
  else if f.ieee then f.withSign neg f.infCode
  else if f = .e4m3 then 0x7F
  else f.withSign neg f.maxCode

/-- A positive fraction rounded to a power of two (R256): its exponent. -/
def roundPower (mode : Round) (r : BitVec 16) (num den : Nat) : Int :=
  let k := floorLog2 num den
  let (n, d) := scaleFrac num den (-k)
  let rem := n - d
  let up := match mode with
    | .rne => 2 * rem > d || (2 * rem == d && (k + 127) % 2 == 1)
    | .rtz => false
    | .rdn => false
    | .rup => rem != 0
    | .rna => 2 * rem ≥ d
    | .stochastic => rem * 2 ^ 16 / d + r.toNat ≥ 2 ^ 16
    | .region => false
  if up && rem != 0 then k + 1 else k

/-- A value rounded to an integer (R248). -/
def roundInt (mode : Round) (r : BitVec 16) (neg : Bool) (num den : Nat) : Int :=
  let q := roundUnits mode neg r num den
  if neg then -(q : Int) else q

/-- The conversion of an exact value to a format (R251 to R253, R256). -/
def convert (f : Fmt) (mode : Round) (sat : Bool) (r : BitVec 16) (v : Val) : Nat :=
  if f.floats then
    match v with
    | .nan => f.nanCode
    | .inf neg =>
      if sat then f.withSign neg f.maxCode
      else if f.ieee then f.withSign neg f.infCode
      else if f = .e4m3 then 0x7F
      else f.withSign neg f.maxCode
    | .fin neg num den =>
      if num = 0 then f.withSign neg 0
      else
        let mag := f.roundMag mode neg r num den
        if mag > f.maxCode then f.overflow mode sat neg else f.withSign neg mag
  else if f = .e8m0 then
    match v with
    | .nan => 0xFF
    | .inf neg => if neg then 0xFF else if sat then 0xFE else 0xFF
    | .fin neg num den =>
      if neg || num = 0 then 0xFF
      else
        let k := roundPower mode r num den
        if k > 127 then (if sat then 0xFE else 0xFF) else if k < -127 then 0 else (k + 127).toNat
  else
    let (lo, hi) := f.intRange
    match v with
    | .nan => 0
    | .inf neg => f.codeOfInt (if neg then lo else hi)
    | .fin neg num den =>
      let q := roundInt mode r neg num den
      f.codeOfInt (if q > hi then hi else if q < lo then lo else q)

/-- The conversion of a value to s32 (R253). -/
def convertS32 (mode : Round) (sat : Bool) (r : BitVec 16) (v : Val) : Nat :=
  match v with
  | .nan => if sat then 0 else 0x80000000
  | .inf neg => if sat && !neg then 0x7FFFFFFF else 0x80000000
  | .fin neg num den =>
    let q := roundInt mode r neg num den
    if q > 2 ^ 31 - 1 then (if sat then 0x7FFFFFFF else 0x80000000)
    else if q < -(2 ^ 31) then 0x80000000
    else wrapTo 32 q

/-! ### Exact arithmetic -/

/-- The sign of an exact zero that opposite operands leave (R248). -/
def zeroSign (mode : Round) : Bool := mode == .rdn

/-- A value with its sign turned. -/
def Val.negate : Val → Val
  | .nan => .nan
  | .inf n => .inf (!n)
  | .fin n a b => .fin (!n) a b

/-- An exact sum (R248); opposite infinities have none. -/
def Val.add (mode : Round) (x y : Val) : Val :=
  match x, y with
  | .nan, _ => .nan
  | _, .nan => .nan
  | .inf a, .inf b => if a = b then .inf a else .nan
  | .inf a, _ => .inf a
  | _, .inf b => .inf b
  | .fin na a b, .fin nc c d =>
    if na = nc then .fin na (a * d + c * b) (b * d)
    else if a * d = c * b then .fin (zeroSign mode) 0 1
    else if a * d > c * b then .fin na (a * d - c * b) (b * d)
    else .fin nc (c * b - a * d) (b * d)

/-- An exact product; zero times infinity has none. -/
def Val.mul (x y : Val) : Val :=
  match x, y with
  | .nan, _ => .nan
  | _, .nan => .nan
  | .inf a, .inf b => .inf (a != b)
  | .inf a, .fin n c _ => if c = 0 then .nan else .inf (a != n)
  | .fin n c _, .inf a => if c = 0 then .nan else .inf (a != n)
  | .fin n a b, .fin m c d => .fin (n != m) (a * c) (b * d)

/-- x < y of two values that are not NaN; −0 and +0 are equal. -/
def Val.lt (x y : Val) : Bool :=
  let key := fun (v : Val) => match v with
    | .nan => (0 : Int)
    | .inf n => if n then -1 else 1
    | .fin _ _ _ => 0
  match x, y with
  | .fin n a b, .fin m c d =>
    let p : Int := if n then -(a * d : Int) else a * d
    let q : Int := if m then -(c * b : Int) else c * b
    decide (p < q)
  | x, y => decide (key x < key y)

/-- A value that is a NaN. -/
def Val.isNan : Val → Bool
  | .nan => true
  | _ => false

/-- The sign of a value. -/
def Val.sign : Val → Bool
  | .nan => false
  | .inf n => n
  | .fin n _ _ => n

/-- A value scaled by 2^e. -/
def Val.shift (v : Val) (e : Int) : Val :=
  match v with
  | .fin n a b => let (p, q) := scaleFrac a b e; .fin n p q
  | v => v

/-! ### The LFSR along a list of results (R249) -/

/-- Results computed in order, the LFSR advancing once for each under stochastic rounding. -/
def withLfsr (mode : Round) : BitVec 16 → List (BitVec 16 → Nat) → List Nat × BitVec 16
  | s, [] => ([], s)
  | s, f :: fs =>
    let s' := if mode = .stochastic then lfsrStep s else s
    let (xs, t) := withLfsr mode s' fs
    (f s' :: xs, t)

/-- The mode a round code names, RMODE standing for `region` (R250). -/
def Round.resolve (code : Round) (rmode : BitVec 3) : Round :=
  match code with
  | .region =>
    match rmode.toNat with
    | 0 => .rne | 1 => .rtz | 2 => .rdn | 3 => .rup | 4 => .rna | _ => .stochastic
  | c => c

/-! ### MX blocks (R257 to R259) -/

/-- emax of an element format (R257). -/
def Fmt.emax : Fmt → Int
  | .e5m2 => 15 | .e4m3 => 8 | .e3m2 => 4 | .e2m3 => 2 | .e2m1 => 2 | _ => 0

/-- The exact value of an element of a block (R258). -/
def mxValue (f : Fmt) (scale elem : Nat) : Val :=
  if scale = 0xFF then .nan
  else
    let p := if f = .s8 then (Val.ofInt (signedOf 8 elem)).shift (-6) else f.value elem
    p.shift ((scale : Int) - 127)

/-- The larger of two magnitudes, as fractions. -/
def maxFrac (x y : Nat × Nat) : Nat × Nat := if x.1 * y.2 < y.1 * x.2 then y else x

/-- The magnitude of a finite value. -/
def Val.mag : Val → Nat × Nat
  | .fin _ a b => (a, b)
  | _ => (0, 1)

/-- A value that is finite. -/
def Val.finite : Val → Bool
  | .fin _ _ _ => true
  | _ => false

/-- Values encoded as one group with a shared E8M0 scale (R259, R263, R283): the scale, the codes, and the LFSR after one advance for each
value, whatever they are. `emax` is the exponent that the format gives to the group's largest magnitude, `zero` the code of a zero, and
`elem` the code of a value already divided by the scale. -/
def sharedEncode (emax : Int) (zero : Val → Nat) (elem : Val → BitVec 16 → Nat) (mode : Round) (lfsr : BitVec 16) (vs : List Val) :
    Nat × List Nat × BitVec 16 :=
  let idle := (withLfsr mode lfsr (vs.map fun _ _ => 0)).2
  if vs.any (fun v => !v.finite) then (0xFF, vs.map fun _ => 0, idle)
  else
    let amax := vs.foldl (fun m v => maxFrac m v.mag) (0, 1)
    if amax.1 = 0 then (0x7F, vs.map zero, idle)
    else
      let e := min (max (floorLog2 amax.1 amax.2 - emax) (-127)) 127
      let (ps, t) := withLfsr mode lfsr (vs.map fun v => elem (v.shift (-e)))
      ((e + 127).toNat, ps, t)

/-- An element of an MXINT8 block: the value times 64, rounded, and clamped to −127 to 127 (R259). -/
def mxInt8 (mode : Round) (x : Val) (r : BitVec 16) : Nat :=
  match x.shift 6 with
  | .fin n a b => let q := roundInt mode r n a b; wrapTo 8 (if q > 127 then 127 else if q < -127 then -127 else q)
  | _ => 0

/-- The encoding of an MX block (R259): satfinite is always on. It is the encoding of a group that vquant performs, over 32 elements of a
block's formats; no field of an operation or of a transform bank's descriptor (R306 to R308) selects it. DEDUCED: log 113. -/
def mxEncode (f : Fmt) (mode : Round) (lfsr : BitVec 16) (vs : List Val) : Nat × List Nat × BitVec 16 :=
  if f = .s8 then sharedEncode f.emax (fun _ => 0) (mxInt8 mode) mode lfsr vs
  else sharedEncode f.emax (fun v => f.withSign v.sign 0) (fun x r => convert f mode true r x) mode lfsr vs

end Sys2Proof
end

