-- ==== Sys2Proof/Machine/Atomics.lean ====
section
/-! DEFINITION. Machine/Atomics.lean: the new values of atomics (R121). -/

namespace Sys2Proof.Machine

/-- A sum of two floating codes rounded to nearest even (R121, R268). -/
def fpAdd (f : Fmt) (a b : Nat) : Nat := convert f .rne false 0 (Val.add .rne (f.value a) (f.value b))

/-- The maximum of two FP32 codes: the operand that is not NaN, −0 below +0 (R121, R269). -/
def fpMax (f : Fmt) (a b : Nat) : Nat :=
  let x := f.value a
  let y := f.value b
  if x.isNan then (if y.isNan then f.nanCode else b)
  else if y.isNan then a
  else if x.lt y then b
  else if y.lt x then a
  else if x.sign then b else a

/-- The minimum of two floating codes (R269). -/
def fpMin (f : Fmt) (a b : Nat) : Nat :=
  let x := f.value a
  let y := f.value b
  if x.isNan then (if y.isNan then f.nanCode else b)
  else if y.isNan then a
  else if x.lt y then a
  else if y.lt x then b
  else if x.sign then a else b

/-- The new value m′ of an atomic by its opcode from the old value m and the operand x, on 32 bits, or on 64 for a pair. -/
def atomValue (opcode : BitVec 8) (pair : Bool) (m x : DWord) : DWord :=
  let m0 := lo32 m
  let x0 := lo32 x
  let word := fun (w : Word) => w.zeroExtend 64
  match opcode.toNat with
  | 0x84 => if pair then m + x else word (m0 + x0)
  | 0x85 => if pair then m - x else word (m0 - x0)
  | 0x86 => if pair then (if x.slt m then x else m) else word (if x0.slt m0 then x0 else m0)
  | 0x87 => if pair then (if m.slt x then x else m) else word (if m0.slt x0 then x0 else m0)
  | 0x88 => if pair then m &&& x else word (m0 &&& x0)
  | 0x89 => if pair then m ||| x else word (m0 ||| x0)
  | 0x8A => if pair then m ^^^ x else word (m0 ^^^ x0)
  | 0x8B => if pair then x else word x0
  | 0x8C => word (if x0.ule m0 then 0 else m0 + 1)
  | 0x8D => word (BitVec.ofNat 32 (fpAdd .fp32 m0.toNat x0.toNat))
  | 0x8E => word (BitVec.ofNat 16 (fpAdd .bf16 (m0.toNat / 2 ^ 16) (x0.toNat / 2 ^ 16)) ++
              BitVec.ofNat 16 (fpAdd .bf16 (m0.toNat % 2 ^ 16) (x0.toNat % 2 ^ 16)))
  | _ => word (BitVec.ofNat 32 (fpMax .fp32 m0.toNat x0.toNat))

end Sys2Proof.Machine
end

