-- ==== Sys2Proof/Machine/Transform.lean ====
section
/-! DEFINITION. Machine/Transform.lean: transform banks (R169, R306 to R311): the pattern descriptor and its checks, the bytes
that a write appends to the input stream, and the words that a read takes from the output stream. -/

namespace Sys2Proof.Machine

/-- A transform bank as an access sees it: PARAM, the region's RMODE, its 2,048 bank words, and its row words, which hold the
scales of a line in progress (R306). -/
structure XBank where
  param : Nat
  rmode : BitVec 3
  words : List Word
  scales : List Word
  /-- bank words that cannot be corrected -/
  bad : NSet := []
  /-- the times that WFRAME and RFRAME have wrapped: frame k stands in buffer k mod H (R309) -/
  writeWraps : Nat := 0
  readWraps : Nat := 0
  deriving DecidableEq, Repr

/-- Word i of the descriptor (R306). -/
def XBank.desc (b : XBank) (i : Nat) : Word := b.words.getD (16 * b.param + i) 0

/-- The bank with word i of its descriptor written; it can then be corrected (R162). -/
def XBank.setDesc (b : XBank) (i : Nat) (w : Word) : XBank :=
  { b with words := b.words.set (16 * b.param + i) w, bad := NSet.set b.bad (16 * b.param + i) false }

/-- Bits of a word. -/
def bitsOf (w : Word) (lo n : Nat) : Nat := (w.extractLsb' lo n).toNat

/-- IFMT. -/
def XBank.ifmt (b : XBank) : Fmt := Fmt.ofCode (b.desc 0 |>.extractLsb' 0 4)
/-- OFMT. -/
def XBank.ofmt (b : XBank) : Fmt := Fmt.ofCode (b.desc 0 |>.extractLsb' 4 4)
/-- ROUND, RMODE standing for code 110 (R23). -/
def XBank.round (b : XBank) : Round := (Round.ofCode (b.desc 0 |>.extractLsb' 8 3)).resolve b.rmode
/-- SAT. -/
def XBank.sat (b : XBank) : Bool := (b.desc 0).getLsbD 11
/-- MX. -/
def XBank.mx (b : XBank) : Bool := (b.desc 0).getLsbD 12
/-- L, the elements of a line (R308). -/
def XBank.line (b : XBank) : Nat := 32 * (bitsOf (b.desc 0) 13 7 + 1)

/-- The counts of the write pattern (word 2) or the read pattern (word 7), level 0 first (R306). -/
def XBank.counts (b : XBank) (i : Nat) : Nat × Nat × Nat :=
  (bitsOf (b.desc i) 0 16 + 1, bitsOf (b.desc i) 16 16 + 1, bitsOf (b.desc (i + 1)) 0 16 + 1)

/-- F, the elements of a frame, by the pattern at word i (R307). -/
def XBank.frame (b : XBank) (i : Nat) : Nat := let (n0, n1, n2) := b.counts i; n0 * n1 * n2

/-- The position of element j of a pattern, its counts at word i and its strides at word i + 2 (R307). -/
def XBank.position (b : XBank) (i j : Nat) : Int :=
  let (n0, n1, _) := b.counts i
  ((j % n0 : Nat) : Int) * (b.desc (i + 2)).toInt + ((j / n0 % n1 : Nat) : Int) * (b.desc (i + 3)).toInt +
    ((j / (n0 * n1) : Nat) : Int) * (b.desc (i + 4)).toInt

/-- A pattern visits every position from 0 to F − 1 exactly once (R307). -/
def XBank.permutes (b : XBank) (i : Nat) : Bool :=
  let n := b.frame i
  let ps := (List.range n).map (b.position i)
  sortBy (fun x y => decide (x ≤ y)) ps == (List.range n).map (fun (k : Nat) => (k : Int))

/-- Elements that the data area of 127 bank-rows holds (R307). -/
def XBank.room (b : XBank) : Nat := 65024 / b.ofmt.width
/-- H, the frames that the bank holds (R307). -/
def XBank.held (b : XBank) : Nat := b.room / b.frame 2

/-- The descriptor passes the checks of R307; words 12 to 15 are the bank's own. -/
def XBank.ok (b : XBank) : Bool :=
  let w0 := b.desc 0
  let ifmt := bitsOf w0 0 4
  let ofmt := bitsOf w0 4 4
  bitsOf w0 20 12 == 0 && bitsOf (b.desc 1) 0 16 == 0 && bitsOf (b.desc 3) 16 16 == 0 && bitsOf (b.desc 8) 16 16 == 0 &&
  bitsOf w0 8 3 != 7 && decide (ofmt ≤ 13) && (if b.mx then decide (3 ≤ ifmt) && decide (ifmt ≤ 8) else decide (ifmt ≤ 13)) &&
  b.frame 2 == b.frame 7 && decide (b.frame 2 ≤ b.room) && b.frame 2 % b.line == 0 && b.permutes 2 && b.permutes 7

/-- The bank at its starting positions: counters zero, the LFSR from SEED (R170, R306, R311). -/
def XBank.start (b : XBank) : XBank :=
  let seed : BitVec 16 := (b.desc 1).extractLsb' 16 16
  let b := b.setDesc 12 ((if seed = 0 then 1 else seed) ++ (0 : BitVec 16))
  { ((b.setDesc 13 0).setDesc 14 0).setDesc 15 0 with scales := List.replicate 128 0, writeWraps := 0, readWraps := 0 }

/-- The element that begins the buffer of a frame, by its number modulo 65,536 and the times that number has wrapped (R309). -/
def XBank.buffer (b : XBank) (wraps frame : Nat) : Nat := (frame + 65536 * wraps) % b.held * b.frame 2

/-! ### The data area -/

/-- The bank word that data word j is: the descriptor's bank-row holds none. -/
def XBank.dataAt (b : XBank) (j : Nat) : Nat := if j < 16 * b.param then j else j + 16

/-- The element in a place of the data area, packed by R240. -/
def XBank.element (b : XBank) (place : Nat) : Nat :=
  let w := b.ofmt.width
  let j := place * w / 32
  ((b.words.getD (b.dataAt j) 0).toNat + 2 ^ 32 * (b.words.getD (b.dataAt (j + 1)) 0).toNat) / 2 ^ (place * w % 32) % 2 ^ w

/-- The bank with an element put in a place of its data area. -/
def XBank.setElement (b : XBank) (place v : Nat) : XBank :=
  let w := b.ofmt.width
  let j := place * w / 32
  let off := place * w % 32
  let old := (b.words.getD (b.dataAt j) 0).toNat + 2 ^ 32 * (b.words.getD (b.dataAt (j + 1)) 0).toNat
  let new := old % 2 ^ off + 2 ^ off * (v % 2 ^ w) + 2 ^ (off + w) * (old / 2 ^ (off + w))
  let ws := b.words.set (b.dataAt j) (BitVec.ofNat 32 new)
  { b with words := if off + w ≤ 32 then ws else ws.set (b.dataAt (j + 1)) (BitVec.ofNat 32 (new / 2 ^ 32)) }

/-- The bank with a frame's buffer written in full: a frame's elements fill whole words, which a write has replaced by then (R162,
R307). -/
def XBank.replaced (b : XBank) (frame : Nat) : XBank :=
  let first := b.buffer b.writeWraps frame * b.ofmt.width / 32
  { b with bad := (List.range (b.frame 2 * b.ofmt.width / 32)).foldl (fun (m : NSet) j => NSet.set m (b.dataAt (first + j)) false) b.bad }

/-! ### Writing (R308) -/

/-- An integer placed in an integer format, clamped under SAT; t2 always clamps (R255). -/
def intInto (f : Fmt) (sat : Bool) (v : Int) : Nat :=
  let (lo, hi) := f.intRange
  if sat || f == .t2 then f.codeOfInt (if v > hi then hi else if v < lo then lo else v) else wrapTo f.width v

/-- An input element converted to the output format (R308). -/
def XBank.converted (b : XBank) (lf : BitVec 16) (scale code : Nat) : Nat :=
  let f := b.ifmt
  let g := b.ofmt
  if b.mx then convert g b.round b.sat lf (mxValue f scale code)
  else if f = g then code
  else if f.floats || g.floats then convert g b.round b.sat lf (f.value code)
  else intInto g b.sat (f.intOf code)

/-- Scale bytes of a line, padded (R308). -/
def XBank.scaleBytes (b : XBank) : Nat := if b.mx then (b.line / 32 + 3) / 4 * 4 else 0
/-- Bytes of a line (R308). -/
def XBank.lineBytes (b : XBank) : Nat := b.scaleBytes + b.line * b.ifmt.width / 8

/-- A bank in the middle of a write: the bank, the line position, the bits held of a split element and their number, and the
elements completed so far with their scales. -/
structure XWrite where
  bank : XBank
  pos : Nat
  bits : Nat
  count : Nat
  done : List (Nat × Nat)
  deriving DecidableEq, Repr

/-- The scale of element e of the line in progress (R306). -/
def XBank.scaleOf (b : XBank) (e : Nat) : Nat := let k := e / 32; bitsOf (b.scales.getD (k / 4) 0) (8 * (k % 4)) 8

/-- The bank with scale byte k of the line in progress written (R306). -/
def XBank.setScale (b : XBank) (k v : Nat) : XBank :=
  let w := (b.scales.getD (k / 4) 0).toNat
  let m := 2 ^ (8 * (k % 4))
  { b with scales := b.scales.set (k / 4) (BitVec.ofNat 32 (w % m + m * v + 256 * m * (w / (256 * m)))) }

/-- Elements that the bits in hand complete, the next of them element e of its line. -/
def takeElements (width : Nat) (scale : Nat → Nat) : Nat → Nat → Nat → Nat → List (Nat × Nat) × Nat × Nat
  | 0, _, bits, count => ([], bits, count)
  | fuel + 1, e, bits, count =>
    if count < width then ([], bits, count)
    else
      let (rest, bits', count') := takeElements width scale fuel (e + 1) (bits / 2 ^ width) (count - width)
      ((bits % 2 ^ width, scale e) :: rest, bits', count')

/-- One byte appended to the input stream (R308). -/
def XWrite.byte (x : XWrite) (v : Nat) : XWrite :=
  let b := x.bank
  let next := if x.pos + 1 = b.lineBytes then 0 else x.pos + 1
  if x.pos < b.scaleBytes then
    { x with bank := if x.pos < b.line / 32 then b.setScale x.pos v else b, pos := next }
  else
    let e := ((x.pos - b.scaleBytes) * 8 - x.count) / b.ifmt.width
    let (es, bits, count) := takeElements b.ifmt.width b.scaleOf 8 e (x.bits + v * 2 ^ x.count) (x.count + 8)
    { x with pos := next, bits := bits, count := count, done := x.done ++ es }

/-- Completed elements stored in write order (R307, R308): the frame, the element in it and the LFSR after them. -/
def XBank.storeAll (b : XBank) : List (Nat × Nat) → Nat → Nat → BitVec 16 → XBank × Nat × Nat × BitVec 16
  | [], frame, elem, lf => (b, frame, elem, lf)
  | (code, scale) :: es, frame, elem, lf =>
    let lf := if b.round = .stochastic then lfsrStep lf else lf
    let place := b.buffer b.writeWraps frame + (b.position 2 elem).toNat
    let b := b.setElement place (b.converted lf scale code)
    if elem + 1 = b.frame 2 then
      let b := b.replaced frame
      XBank.storeAll { b with writeWraps := b.writeWraps + (frame + 1) / 65536 } es ((frame + 1) % 65536) 0 lf
    else XBank.storeAll b es frame (elem + 1) lf

/-- The bytes of words, in address order. -/
def wordBytes (ws : List Word) : List Nat := ws.flatMap fun w => [bitsOf w 0 8, bitsOf w 8 8, bitsOf w 16 8, bitsOf w 24 8]

/-- A write of words, as one step (R308, R309); none where a completed element falls in a frame buffer that is not free. -/
def XBank.write (b : XBank) (ws : List Word) : Option XBank :=
  let d12 := b.desc 12
  let wframe := bitsOf (b.desc 13) 16 16
  let welem := bitsOf (b.desc 13) 0 16
  let rframe := bitsOf (b.desc 14) 16 16
  let start : XWrite := { bank := b, pos := bitsOf (b.desc 15) 0 15, bits := bitsOf d12 0 8, count := bitsOf d12 8 3, done := [] }
  let x := (wordBytes ws).foldl XWrite.byte start
  let ahead := (wframe + 65536 - rframe) % 65536 + (welem + x.done.length - 1) / b.frame 2
  if !x.done.isEmpty && decide (b.held ≤ ahead) then none
  else
    let (b', frame, elem, lf) := x.bank.storeAll x.done wframe welem (d12.extractLsb' 16 16)
    let b' := b'.setDesc 12 (lf ++ BitVec.ofNat 8 x.count ++ BitVec.ofNat 8 x.bits)
    let b' := b'.setDesc 13 (BitVec.ofNat 32 (frame * 65536 + elem))
    some (b'.setDesc 15 (BitVec.ofNat 32 x.pos))

/-! ### Reading (R309) -/

/-- Output bits of a frame, padded to words (R309). -/
def XBank.frameBits (b : XBank) : Nat := (b.frame 2 * b.ofmt.width + 31) / 32 * 32

/-- A word of a frame's output stream from one of its bits on: element q is the element stored at read position q. -/
def XBank.outWord (b : XBank) (frame at_ : Nat) : Word :=
  let w := b.ofmt.width
  let first := at_ / w
  let last := min ((at_ + 31) / w) (b.frame 2 - 1)
  let code := fun (q : Nat) => b.element (b.buffer b.readWraps frame + (b.position 7 q).toNat)
  let bits := (List.range (last + 1 - first)).foldl (fun (acc : Nat) k => acc + code (first + k) * 2 ^ (k * w)) 0
  BitVec.ofNat 32 (bits / 2 ^ (at_ - first * w))

/-- A word of a frame's output stream is made of a bank word that cannot be corrected (R113, R162). -/
def XBank.outBad (b : XBank) (frame at_ : Nat) : Bool :=
  let w := b.ofmt.width
  let first := at_ / w
  let last := min ((at_ + 31) / w) (b.frame 2 - 1)
  (List.range (last + 1 - first)).any fun k =>
    let place := b.buffer b.readWraps frame + (b.position 7 (first + k)).toNat
    NSet.has b.bad (b.dataAt (place * w / 32)) || NSet.has b.bad (b.dataAt ((place * w + w - 1) / 32))

/-- The read position after a word. -/
def XBank.readOn (b : XBank) : XBank :=
  let rframe := bitsOf (b.desc 14) 16 16
  let rbits := bitsOf (b.desc 14) 0 16
  if rbits + 32 = b.frameBits then
    { b.setDesc 14 (BitVec.ofNat 32 ((rframe + 1) % 65536 * 65536)) with readWraps := b.readWraps + (rframe + 1) / 65536 }
  else b.setDesc 14 (BitVec.ofNat 32 (rframe * 65536 + rbits + 32))

/-- Some word of a read of n words meets a bank word that cannot be corrected. -/
def XBank.readBad (b : XBank) : Nat → Bool
  | 0 => false
  | n + 1 => b.outBad (bitsOf (b.desc 14) 16 16) (bitsOf (b.desc 14) 0 16) || XBank.readBad b.readOn n

/-- A read of n words (R309); none where a word lies in a frame not yet written in full. -/
def XBank.read (b : XBank) : Nat → Option (List Word × XBank)
  | 0 => some ([], b)
  | n + 1 =>
    let wframe := bitsOf (b.desc 13) 16 16
    let rframe := bitsOf (b.desc 14) 16 16
    let rbits := bitsOf (b.desc 14) 0 16
    if wframe = rframe then none
    else
      let w := if b.outBad rframe rbits then 0 else b.outWord rframe rbits
      (XBank.read b.readOn n).map fun (ws, b') => (w :: ws, b')

end Sys2Proof.Machine
end

