-- ==== Sys2Proof/Machine/View.lean ====
section
/-! DEFINITION. Machine/View.lean: what a home sees of one granule (a slice's granule or a tile's row), and the one step
by which it performs a request there (R115 to R124, R178 to R181, R191, R192, R198). A tile row and a slice granule differ
only where the counted granule stands: in a slice it shadows memory, in a tile it is the row. -/

namespace Sys2Proof.Machine

/-- A resident counted granule as its home sees it. -/
structure Counted where
  words : List Word
  readers : BitVec 12
  maskMode : Bool
  gen : BitVec 8
  deriving DecidableEq, Repr

/-- A granule at its home: sixteen words with their states, the counted granule, the generation and the mode a row last held, and,
at a slice, the generations the drop history holds for it, whether its page is normal and whether a fill has room. -/
structure View where
  words : List Word
  full : List Bool
  bad : List Bool
  counted : Option Counted
  rowGen : BitVec 8
  rowMask : Bool
  dropped : List (BitVec 8 × Bool)
  tile : Bool
  normal : Bool
  room : Bool
  /-- the transform bank whose row 0 this tile row is (R309) -/
  xbank : Option XBank
  deriving DecidableEq, Repr

/-- Words that an operation at a home covers. -/
def HomeOp.words : HomeOp → Nat
  | .load _ n => n
  | .store _ d => d.length
  | .fill _ _ => 16
  | .count _ => 16
  | .done _ => 16
  | .atom _ pair _ _ => if pair then 2 else 1
  | .cas pair _ _ _ => if pair then 2 else 1
  | .feSet _ n => n
  | .feGet n => n
  | .storeStates d _ => d.length
  | .storeEmpty d => d.length
  | .line _ => 32
  | .writeBack d => d.length
  | .streamRead n => n
  | .streamWrite d => d.length

/-- What became of counted state in a step. -/
inductive CountEvent where
  | none
  | filled (gen : BitVec 8)
  | dropped (gen : BitVec 8) (maskMode : Bool)
  | counted
  deriving DecidableEq, Repr

/-- The outcome of one request at a granule. -/
inductive Perf where
  /-- its condition does not hold -/
  | wait
  /-- a counted fill that finds its quota exhausted (R194) -/
  | quota
  | trap (cause : Cause) (detail : DWord)
  /-- performed: the granule after it, the reply, whether state changed (R183), whether it acquired and released (R204) -/
  | done (v : View) (r : Reply) (changed acq rel : Bool) (ev : CountEvent)
  deriving DecidableEq, Repr

/-- The elements of a list from a position on, replaced. -/
def setRange {α : Type} (xs : List α) (pos : Nat) (ys : List α) : List α :=
  xs.take pos ++ ys ++ xs.drop (pos + ys.length)

/-- Elements of a list. -/
def getRange {α : Type} (xs : List α) (pos n : Nat) : List α := (xs.drop pos).take n

/-- A reply of words and states. -/
def replyWords (ws : List Word) (fs : List Bool) (held poison : Bool) : Reply := .ok ws fs held poison

/-- A reply without data. -/
def replyDone : Reply := .ok [] [] true false

/-- Words as a load returns them: 0 for a word that cannot be corrected (R113). -/
def corrected (ws : List Word) (bad : List Bool) : List Word := ws.zipWith (fun w b => if b then 0 else w) bad

/-- ILLEGAL with a sub-cause (R145). -/
def illegal (sub : Nat) : Perf := .trap .illegal (BitVec.ofNat 64 sub)

/-- The fields of a counted control word (R118). -/
def ctlMask (c : Word) : Bool := c.extractLsb' 20 1 == 1
/-- READERS. -/
def ctlReaders (c : Word) : BitVec 12 := c.extractLsb' 8 12
/-- GEN. -/
def ctlGen (c : Word) : BitVec 8 := c.extractLsb' 0 8
/-- The reader index of a counted read (R119). -/
def ctlReader (c : Word) : BitVec 4 := c.extractLsb' 8 4

/-- OVERREAD's DETAIL (R145): GEN, the reader in mask mode, mask mode, and a find in the drop history. In count mode, where the reader
index is ignored (R119), reader 0 is reported: DESIGN CHOICE, log 92. -/
def overread (gen : BitVec 8) (maskMode : Bool) (reader : BitVec 4) (history : Bool) : Perf :=
  .trap .overread (((0 : BitVec 50) ++ bit1' history ++ bit1' maskMode ++ (if maskMode then reader else 0) ++ gen))
where
  /-- The bit of a flag. -/
  bit1' (b : Bool) : BitVec 1 := if b then 1 else 0

/-- The view with a counted granule written; at a tile the granule is the row. -/
def View.setCounted (v : View) (c : Counted) : View :=
  if v.tile then { v with counted := some c, words := c.words, full := List.replicate 16 true, rowGen := c.gen,
                          rowMask := c.maskMode, bad := List.replicate 16 false }
  else { v with counted := some c }

/-- The view after the last reader: a slice's granule is gone, a tile's row is empty with its generation and its mode kept. -/
def View.drain (v : View) (c : Counted) : View :=
  if v.tile then { v with counted := none, full := List.replicate 16 false, rowGen := c.gen, rowMask := c.maskMode }
  else { v with counted := none }

/-- The words of a counted granule that cannot be corrected: a tile's row is the granule, a slice keeps its own copy (R113, R162). -/
def View.countedBad (v : View) : List Bool := if v.tile then v.bad else List.replicate 16 false

/-- A load of n words from word `pos` (R115, R120, R180). -/
def View.load (v : View) (pos n : Nat) (sync : Sync) : Perf :=
  match v.counted with
  | some c =>
    let bad := getRange v.countedBad pos n
    if sync = .c then illegal 4
    else .done v (replyWords (corrected (getRange c.words pos n) bad) (List.replicate n true) true (bad.any id)) false
          (sync == .w || sync == .tc) false .none
  | none =>
    let bad := getRange v.bad pos n
    let fs := getRange v.full pos n
    let r := replyWords (corrected (getRange v.words pos n) bad) fs true (bad.any id)
    let emptied := { v with full := setRange v.full pos (List.replicate n false) }
    match sync with
    | .w => if fs.all id then .done v r false true false .none else .wait
    | .c => if fs.all id then .done emptied r true true false .none else .wait
    | .tc =>
      if fs.all id then .done emptied r true true false .none
      else .done v (replyWords [] [] false false) false false false .none
    | _ => .done v r false false false .none

/-- A store of words from word `pos` (R115, R120, R180). A plain or .s store of the whole granule clears its
uncorrectable words (R235). -/
def View.store (v : View) (pos : Nat) (data : List Word) (sync : Sync) : Perf :=
  if v.counted.isSome then illegal 4
  else
    let n := data.length
    let fs := getRange v.full pos n
    let v1 := { v with words := setRange v.words pos data }
    let v2 := if n = 16 then { v1 with bad := List.replicate 16 false } else v1
    let filled := fun (w : View) => { w with full := setRange v.full pos (List.replicate n true) }
    match sync with
    | .f => if fs.any id then .wait else .done (filled v1) replyDone true false true .none
    | .tf =>
      if fs.any id then .done v (.ok [] [] false false) false false false .none
      else .done (filled v1) replyDone true false true .none
    | .s => .done (filled v2) replyDone (!fs.all id) false true .none
    | _ => .done v2 replyDone false false false .none

/-- A counted fill (R118, R191, R192). -/
def View.fill (v : View) (control : Word) (data : List Word) : Perf :=
  let c : Counted := { words := data, readers := ctlReaders control, maskMode := ctlMask control, gen := ctlGen control }
  if !v.normal then .trap .attr 1
  else if v.tile then
    if v.full.any id then .wait
    else .done (v.setCounted c) replyDone true false true (.filled c.gen)
  else if v.counted.isSome then .wait
  else if !v.room then .quota
  else .done (v.setCounted c) replyDone true false true (.filled c.gen)

/-- A counted read, or with `reads` false a reader declared done (R119, R120, R191, R192). -/
def View.count (v : View) (control : Word) (reads : Bool) : Perf :=
  let gen := ctlGen control
  let i := ctlReader control
  match v.counted with
  | some c =>
    if c.gen = gen then
      if c.maskMode && decide (12 ≤ i.toNat) then illegal 3
      else if c.maskMode && !c.readers.getLsbD i.toNat then overread gen true i false
      else
        let left : BitVec 12 := if c.maskMode then c.readers &&& ~~~(1#12 <<< i.toNat) else c.readers - 1
        let r := if reads then replyWords (corrected c.words v.countedBad) (List.replicate 16 true) true (v.countedBad.any id) else replyDone
        if left = 0 then .done (v.drain c) r true reads false (.dropped gen c.maskMode)
        else .done { v with counted := some { c with readers := left } } r true reads false .counted
    else
      match v.dropped.find? (·.1 == gen) with
      | some d => overread gen d.2 i true
      | none => .wait
  | none =>
    if v.tile then
      if !v.full.any id && v.rowGen = gen then overread gen v.rowMask i false else .wait
    else
      match v.dropped.find? (·.1 == gen) with
      | some d => overread gen d.2 i true
      | none => .wait

/-- An atomic of one word or a pair (R121); a word that cannot be corrected answers 0 and stays. -/
def View.atom (v : View) (pos : Nat) (pair : Bool) (acq rel : Bool) (f : DWord → DWord) : Perf :=
  if v.counted.isSome then illegal 4
  else
    let n := if pair then 2 else 1
    let old := getRange v.words pos n
    let bad := (getRange v.bad pos n).any id
    let m : DWord := pair64 (old.getD 0 0) (if pair then old.getD 1 0 else 0)
    let m' := f m
    let new := if pair then [lo32 m', hi32 m'] else [lo32 m']
    if bad then .done v (replyWords (List.replicate n 0) [] false true) false acq rel .none
    else .done { v with words := setRange v.words pos new } (replyWords old [] (m' != m) false) false acq rel .none

/-- Whether an ordering code acquires (R64). -/
def Order.acquires : Order → Bool
  | .acq => true | .ar => true | _ => false
/-- Whether an ordering code releases (R64). -/
def Order.releases : Order → Bool
  | .rel => true | .ar => true | _ => false

/-- One request performed at a granule, `pos` the first word it addresses there. -/
def View.perform (v : View) (pos : Nat) : HomeOp → Perf
  | .load sync n => v.load pos n sync
  | .store sync data => v.store pos data sync
  | .fill control data => v.fill control data
  | .count control => v.count control true
  | .done control => v.count control false
  | .atom opcode pair x o => v.atom pos pair (Order.acquires o) (Order.releases o) (atomValue opcode pair · x)
  | .cas pair expected new o =>
    let low := fun (m : DWord) => if pair then m else m &&& 0xFFFFFFFF
    match v.atom pos pair (Order.acquires o) (Order.releases o) (fun m => if low m = low expected then new else m) with
    | .done v' (.ok ws fs _ p) ch a r ev =>
      .done v' (.ok ws fs (!p && low (pair64 (ws.getD 0 0) (ws.getD 1 0)) == low expected) p) ch a r ev
    | x => x
  | .feSet b n =>
    if v.counted.isSome then illegal 4
    else
      let fs := getRange v.full pos n
      .done { v with full := setRange v.full pos (List.replicate n b) } replyDone (fs.any (· != b)) false b .none
  | .streamRead n =>
    match v.xbank with
    | none => illegal 5
    | some b =>
      match b.read n with
      | some (ws, b') => .done { v with xbank := some b' } (replyWords ws (List.replicate n true) true (b.readBad n)) true false false .none
      | none => .wait
  | .streamWrite data =>
    match v.xbank with
    | none => illegal 5
    | some b =>
      match b.write data with
      | some b' => .done { v with xbank := some b' } replyDone true false false .none
      | none => .wait
  | .feGet n =>
    if v.xbank.isSome then .done v (replyWords [] (List.replicate n true) false false) false false false .none
    else
    match v.counted with
    | some _ => .done v (replyWords [] (List.replicate n true) true false) false false false .none
    | none => .done v (replyWords [] (getRange v.full pos n) false false) false false false .none
  | .storeStates data fs =>
    if v.counted.isSome then illegal 4
    else
      let was := getRange v.full pos data.length
      let v1 := { v with words := setRange v.words pos data, full := setRange v.full pos fs }
      .done (if data.length = 16 then { v1 with bad := List.replicate 16 false } else v1) replyDone (was != fs) false true .none
  | .storeEmpty data =>
    if v.counted.isSome then illegal 4
    else
      let was := getRange v.full pos data.length
      .done { v with words := setRange v.words pos data, full := setRange v.full pos (List.replicate data.length false) }
        replyDone (was.any id) false false .none
  | .line _ =>
    .done v (replyWords (match v.counted with | some c => c.words | none => corrected v.words v.bad) v.full true
      (v.bad.any id)) false false false .none
  | .writeBack data =>
    .done { v with words := setRange v.words pos data } replyDone false false false .none

/-- Whether a request's condition holds at a granule. -/
def View.ready (v : View) (pos : Nat) (op : HomeOp) : Bool :=
  match v.perform pos op with
  | .wait => false | .quota => false | _ => true

/-- A request that waits for the granule's state no longer: it can be performed, or finds its quota exhausted. -/
def View.stirs (v : View) (pos : Nat) (op : HomeOp) : Bool :=
  match v.perform pos op with
  | .wait => false | _ => true

/-- An access that counts as a write for protection and copy-on-write (R199); a .tc load where it would succeed. -/
def HomeOp.writes (op : HomeOp) (v : Option View) (pos : Nat) : Bool :=
  match op with
  | .load .c _ => true
  | .load .tc n => match v with
    | some v => v.counted.isNone && (getRange v.full pos n).all id
    | none => false
  | .load _ _ => false
  | .count _ => false
  | .done _ => false
  | .feGet _ => false
  | .line none => false
  | .streamRead _ => false
  | _ => true

/-- An operation that R212 performs at most once. -/
def HomeOp.once : HomeOp → Bool
  | .load .c _ => true
  | .load .tc _ => true
  | .load _ _ => false
  | .feGet _ => false
  | .line _ => false
  | _ => true

end Sys2Proof.Machine
end

