-- ==== Sys2Proof/Machine/Slices.lean ====
section
/-! DEFINITION. Machine/Slices.lean: the lines and granules of the shared-cache slices: the home of an address (R320 to
R322), lines filled from and written back to memory with their states (R178, R329, R343), the view of a granule, and the
accesses that a controller, a loader, a walker or the host makes within a step of its own. -/

namespace Sys2Proof.Machine

/-- Slice number sl of the part. -/
def State.slice (s : State) (sl : Nat) : Slice := SMap.getD s.slices sl Slice.reset

/-- The state with a slice changed; a slice that holds nothing is not listed. -/
def State.setSlice (s : State) (sl : Nat) (x : Slice) : State := { s with slices := SMap.put s.slices Slice.reset sl x }

/-- The key of a line: the space and the address over 128. -/
def lineKey (space : BitVec 12) (va : Nat) : Nat := space.toNat * 2 ^ 45 + va / 128
/-- The key of a granule: the space and the address over 64. -/
def granuleKey (space : BitVec 12) (va : Nat) : Nat := space.toNat * 2 ^ 46 + va / 64
/-- The address of a granule key. -/
def granuleVa (key : Nat) : Nat := key % 2 ^ 46 * 64
/-- The space of a granule key. -/
def granuleSpace (key : Nat) : BitVec 12 := BitVec.ofNat 12 (key / 2 ^ 46)
/-- The address of a line key. -/
def lineVa (key : Nat) : Nat := key % 2 ^ 45 * 128
/-- The space of a line key. -/
def lineSpace (key : Nat) : BitVec 12 := BitVec.ofNat 12 (key / 2 ^ 45)

/-! ### The home of an address -/

/-- Bits [hi:lo] of a DOMMAP or DOMCFG register. -/
def field (x : DWord) (lo n : Nat) : Nat := (x.extractLsb' lo n).toNat

/-- The exclusive or of the fields of c bits of a number below 2^43 (R322). -/
def foldBits (c m : Nat) : Nat → Nat
  | 0 => 0
  | k + 1 => Nat.xor (m / 2 ^ (c * k) % 2 ^ c) (foldBits c m k)

/-- The domain of an address under a DOMMAP. -/
def domainOf (map : DWord) (va : Nat) : Nat := field map (4 * (va / 2 ^ 46 % 16)) 3

/-- The die-local home slice of an address under a map and its configurations (R322). -/
def localHome (map : DWord) (cfg : Vector DWord 8) (va : Nat) : Nat :=
  let g := cfg[domainOf map va]?.getD 0
  let c := field g 53 3
  let m := Nat.land (va / 2 ^ 7 % 2 ^ 43) (field g 0 43)
  let off := if c = 0 then 0 else foldBits c m ((43 + c - 1) / c)
  field g 56 6 + off

/-- The home slice of an address under the live map (R322). -/
def State.homeSlice (s : State) (va : Nat) : Nat :=
  let d := vaDie va
  64 * d + localHome (s.die d).domMap (s.die d).domCfg va

/-- The home slice of an address under the staged map. -/
def State.stagedHome (s : State) (va : Nat) : Nat :=
  let d := vaDie va
  64 * d + localHome (s.die d).domMapStaged (s.die d).domCfgStaged va

/-- An address of an affected entry (R325 step 1). -/
def Die.affected (x : Die) (va : Nat) : Bool :=
  let i := va / 2 ^ 46 % 16
  let staged := field x.domMapStaged (4 * i) 3
  let live := field x.domMap (4 * i) 3
  staged != live || x.domCfgStaged[staged]? != x.domCfg[live]?

/-- Requests for an address are caught: a switch has frozen its entry (R325 step 2). -/
def State.caught? (s : State) (va : Nat) : Bool :=
  let x := s.die (vaDie va)
  x.phase != .idle && x.affected va

/-! ### Lines -/

/-- A line of the memory of a die, with its states (R178). -/
def State.readLine (s : State) (d pa : Nat) (writable uncached : Bool) : Line :=
  let key := memKey d pa
  { words := s.readWords key 32, full := s.wordsFull key 32, bad := s.wordsBad key 32,
    parked := [s.sectorParked key, s.sectorParked (key + 64)], releases := [none, none], writable := writable,
    dirty := false, uncached := uncached, pa := pa }

/-- A line written to memory with its full/empty bits, parked flags and uncorrectable words (R178, R235), its block's size
code recomputed (R329). -/
def State.writeLine (s : State) (d : Nat) (l : Line) : State :=
  let key := memKey d l.pa
  let s := (((s.mendTag (key / 256)).writeWords key l.words).setFull key l.full).setBad key l.bad
  let s := (s.setParked key (l.parked.getD 0 false)).setParked (key + 64) (l.parked.getD 1 false)
  s.compress (key / 256)

/-- The line of an address at a slice. -/
def State.line? (s : State) (sl : Nat) (space : BitVec 12) (va : Nat) : Option Line :=
  SMap.get? (s.slice sl).lines (lineKey space va)

/-- The state with a line of a slice. -/
def State.setLine (s : State) (sl : Nat) (space : BitVec 12) (va : Nat) (l : Line) : State :=
  let x := s.slice sl
  s.setSlice sl { x with lines := SMap.insert x.lines (lineKey space va) l }

/-- The state with a line gone from a slice. -/
def State.eraseLine (s : State) (sl : Nat) (key : Nat) : State :=
  let x := s.slice sl
  s.setSlice sl { x with lines := SMap.erase x.lines key }

/-- The address of a request to global or peer memory; 0 for a tile's. -/
def Req.va (r : Req) : Nat :=
  match r.loc with
  | .glob va => va.toNat
  | .peer va => va.toNat
  | .tile _ _ _ => 0

/-- The granule key of a request at a slice. -/
def Req.granule (r : Req) : Nat := granuleKey r.space r.va

/-- The first word of its granule that a request addresses. -/
def Req.pos (r : Req) : Nat := r.va / 4 % 16

/-- A line that its slice does not evict: a granule of it has a buffered waiter or is resident as counted (R178). -/
def Slice.pinned (x : Slice) (key : Nat) : Bool :=
  x.waiters.any (fun r => r.granule / 2 == key) ||
  (SMap.get? x.granules (2 * key)).isSome || (SMap.get? x.granules (2 * key + 1)).isSome

/-- A line that an access in progress needs: R178 keeps it, a fill of it waits for a place of its quota, or parked entries of it are being
presented. -/
def Slice.needs (x : Slice) (key : Nat) : Bool :=
  x.pinned key || x.quota.any (fun r => r.granule / 2 == key) || x.walks.any fun w => w.granule / 2 == key

/-- The granules of a line that hold an uncorrectable word. -/
def Line.badHalves (l : Line) : List Nat := [0, 1].filter fun h => (getRange l.bad (16 * h) 16).any (· == true)

/-- A report to a die's event ring, counted in SEQ; it is written in its turn (R233). -/
def State.queueReport (s : State) (d kind origin : Nat) (space : BitVec 12) (addr : DWord) (detail : Word) : State :=
  let x := s.die d
  let r : Report := { seq := x.evSeq, kind := kind, origin := origin, space := space, addr := addr, detail := detail, cycle := s.now }
  s.setDie d { x with evSeq := x.evSeq + 1, pendingReports := x.pendingReports ++ [r] }

/-- A dirty line written to memory, and clean in its slice (R178). An uncorrectable word of it is charged to the line's space and
reported, its granule then written poisoned whole (R235). -/
def State.writeBack (s : State) (sl key : Nat) : State :=
  match SMap.get? (s.slice sl).lines key with
  | none => s
  | some l =>
    if !l.dirty then s
    else
      let lost := l.badHalves
      let l := { l with bad := lost.foldl (fun bs h => setRange bs (16 * h) (List.replicate 16 true)) l.bad, dirty := false }
      let s := s.writeLine (sl / 64) l
      let x := s.slice sl
      let s := s.setSlice sl { x with lines := SMap.insert x.lines key l }
      lost.foldl (fun (s : State) h => s.queueReport (sl / 64) 2 0 (lineSpace key) (BitVec.ofNat 64 (lineVa key + 64 * h)) 0) s

/-- A line written back if it is dirty, and removed (R178). -/
def State.dropLine (s : State) (sl key : Nat) : State := (s.writeBack sl key).eraseLine sl key

/-- Lines that a slice may evict to make room for another (R178). -/
def Slice.freeLines (x : Slice) (keep : Nat) : List Nat :=
  (x.lines.map (·.1)).filter fun k => k != keep && !x.needs k && !x.missing.any fun r => r.granule / 2 == k

/-- A slice with room for one more line (R320): a full one evicts a line, which the part chooses; none where it may evict none. -/
def State.makeRoom (s : State) (sl keep : Nat) : Option State :=
  let x := s.slice sl
  if x.lines.length < 131072 then some s
  else
    let free := x.freeLines keep
    (free[(Config.evict s.tick).getD 0 % free.length]?).map fun k => s.dropLine sl k

/-- A line of an uncached page leaves its slice when no access needs it (R345). -/
def State.settleLine (s : State) (sl : Nat) (space : BitVec 12) (va : Nat) : State :=
  match s.line? sl space va with
  | some l => if l.uncached && !(s.slice sl).needs (lineKey space va) then s.dropLine sl (lineKey space va) else s
  | none => s

/-- A line filled from memory, or given write permission where the slice holds it already (R178, R343). -/
def State.fillLine (s : State) (sl : Nat) (space : BitVec 12) (va pa : Nat) (writable uncached : Bool) : State :=
  match s.line? sl space va with
  | some l => s.setLine sl space va { l with writable := l.writable || writable }
  | none => s.setLine sl space va (s.readLine (sl / 64) (pa / 128 * 128) writable uncached)

/-! ### The view of a granule -/

/-- Whether the quota of an instance and the slice's total have room for one more granule (R194). -/
def State.quotaRoom (s : State) (sl inst : Nat) : Bool :=
  let x := s.slice sl
  let quota := match SMap.get? s.launches inst with
    | some l => l.record.quota.toNat * 64
    | none => 0
  let used := (x.granules.filter fun g => g.2.inst == inst).length + (x.places.filter (· == inst)).length
  decide (used < quota) && decide (x.granules.length + x.places.length < 131072)

/-- The granule of a request at its slice, where the slice holds its line. -/
def State.view? (s : State) (sl : Nat) (space : BitVec 12) (va inst : Nat) : Option View :=
  let x := s.slice sl
  let g := granuleKey space va
  (s.line? sl space va).map fun l =>
    let half := va / 64 % 2
    { words := getRange l.words (16 * half) 16, full := getRange l.full (16 * half) 16,
      bad := getRange l.bad (16 * half) 16,
      counted := (SMap.get? x.granules g).map fun c =>
        { words := c.words, readers := c.readers, maskMode := c.maskMode, gen := c.gen },
      rowGen := 0, rowMask := false, dropped := x.history.filterMap fun h => if h.1 == g then some (h.2.1, h.2.2) else none,
      tile := false, normal := !l.uncached, room := s.quotaRoom sl inst, xbank := none }

/-- The granule of a slice as a request left it: the line's words and states, dirty where they changed, and the counted
granule (R191, R193). -/
def State.setView (s : State) (sl : Nat) (space : BitVec 12) (va inst : Nat) (old v : View) (ev : CountEvent) : State :=
  match s.line? sl space va with
  | none => s
  | some l =>
    let half := va / 64 % 2
    let g := granuleKey space va
    let changed := v.words != old.words || v.full != old.full || v.bad != old.bad
    let l' := { l with words := setRange l.words (16 * half) v.words, full := setRange l.full (16 * half) v.full,
                       bad := setRange l.bad (16 * half) v.bad, dirty := l.dirty || changed }
    let s := s.setLine sl space va l'
    let x := s.slice sl
    match ev, v.counted with
    | .none, _ => s
    | .filled gen, some c =>
      s.setSlice sl { x with
        granules := SMap.insert x.granules g { words := c.words, readers := c.readers, maskMode := c.maskMode, gen := c.gen,
                                               inst := inst, since := s.now, laggard := false }
        history := x.history.filter fun h => !(h.1 == g && h.2.1 == gen) }
    | .counted, some c =>
      let fresh : Granule := { words := c.words, readers := 0, maskMode := c.maskMode, gen := c.gen, inst := inst,
                               since := 0, laggard := false }
      let count := fun (e : Granule) => { e with readers := c.readers, since := s.now }
      s.setSlice sl { x with granules := SMap.modify x.granules g fresh count }
    | .dropped gen m, _ =>
      let h := x.history ++ [(g, gen, m)]
      s.setSlice sl { x with granules := SMap.erase x.granules g
                             history := if h.length > 4096 then h.drop 1 else h }
    | _, _ => s

/-- The PARKED flag of a slice granule (R178). -/
def State.granuleParked (s : State) (sl g : Nat) : Bool :=
  match SMap.get? (s.slice sl).lines (g / 2) with
  | some l => l.parked.getD (g % 2) false
  | none => false

/-- The state with the PARKED flag of a slice granule written; the line is then dirty. -/
def State.setGranuleParked (s : State) (sl g : Nat) (b : Bool) : State :=
  match SMap.get? (s.slice sl).lines (g / 2) with
  | some l =>
    if l.parked.getD (g % 2) false = b then s
    else
      let x := s.slice sl
      s.setSlice sl { x with lines := SMap.insert x.lines (g / 2) { l with parked := l.parked.set (g % 2) b, dirty := true } }
  | none => s

/-! ### Accesses within a step -/

/-- The state of an access that a unit other than an element makes within its own step: made, waiting for the
copy-on-write engine or a domain switch, refused by the translation, stopped at an uncorrectable word, or addressed beyond
memory. -/
inductive Now (α : Type) where
  | ok (s : State) (x : α)
  | wait (s : State)
  | fault (s : State)
  | denied (s : State)
  | error (s : State)
  | hole (s : State)

/-- The state an access within a step left. -/
def Now.state {α : Type} : Now α → State
  | .ok s _ => s | .wait s => s | .fault s => s | .denied s => s | .error s => s | .hole s => s

/-- Go on after an access that was made. -/
def Now.bind {α β : Type} (x : Now α) (f : State → α → Now β) : Now β :=
  match x with
  | .ok s a => f s a
  | .wait s => .wait s
  | .fault s => .fault s
  | .denied s => .denied s
  | .error s => .error s
  | .hole s => .hole s

/-- What an access that cannot be made leaves, marked. -/
def Now.failing {α : Type} (x : Now α) (f : State → State) : Now α :=
  match x with
  | .fault s => .fault (f s)
  | .denied s => .denied (f s)
  | .error s => .error (f s)
  | .hole s => .hole (f s)
  | made => made

/-- A pair (space, page) handed to the copy-on-write engine of its die, with the write that waits on it (R336). -/
def State.cowAdd (s : State) (space : BitVec 12) (va : Nat) (w : Option (Nat × Req)) : State :=
  let d := vaDie va
  let x := s.die d
  let page := va / 2 ^ 16
  let extra := match w with | some r => [r] | none => []
  if x.cow.any (fun c => c.space == space && c.page == page) then
    s.setDie d { x with cow := x.cow.map fun c => if c.space == space && c.page == page then { c with writes := c.writes ++ extra } else c }
  else s.setDie d { x with cow := x.cow ++ [{ space := space, page := page, writes := extra, frame := none, blocks := [] }] }

/-- An access that a unit makes within its own step meets a frozen address: it is caught, and made again once the switch has ended
(R325 step 2). -/
def State.catchNow (s : State) (space : BitVec 12) (va : Nat) : State :=
  let d := vaDie va
  let x := s.die d
  if x.caughtNow.contains (space, va) then s else s.setDie d { x with caughtNow := x.caughtNow ++ [(space, va)] }

/-- The line of an address brought to its slice with the permission an access needs. -/
def State.ensureLine (s : State) (space : BitVec 12) (va : Nat) (write : Bool) : Now Nat :=
  let sl := s.homeSlice va
  if s.caught? va then .wait (s.catchNow space va)
  else if ((s.slice sl).reqs ++ (s.slice sl).missing).any (fun r => r.first && r.granule == granuleKey space va) then .wait s
  else
    match s.line? sl space va with
    | some l =>
      if !write || l.writable then .ok s sl
      else
        match s.translate space va true false with
        | (s, .ok pa w u) => .ok (s.fillLine sl space va pa w u) sl
        | (s, .cow) => .wait (s.cowAdd space va none)
        | (s, .fault) => .fault s
        | (s, .deviceErr) => .error s
        | (s, .hole) => .hole s
        | (s, _) => .denied s
    | none =>
      match s.translate space va write false with
      | (s, .ok pa w u) =>
        match s.makeRoom sl (lineKey space va) with
        | some s => .ok (s.fillLine sl space va pa w u) sl
        | none => .wait s
      | (s, .cow) => .wait (s.cowAdd space va none)
      | (s, .fault) => .fault s
      | (s, .deviceErr) => .error s
      | (s, .hole) => .hole s
      | (s, _) => .denied s

/-- One operation on words of one granule, within a step and without waiting: the reply. -/
def State.accessNow (s : State) (space : BitVec 12) (va inst : Nat) (op : HomeOp) : Now Reply :=
  let write := op.writes none 0
  (s.ensureLine space va write).bind fun s sl =>
    match s.view? sl space va inst with
    | none => .denied s
    | some v =>
      match v.perform (va / 4 % 16) op with
      | .done v' r _ _ _ ev => .ok ((s.setView sl space va inst v v' ev).settleLine sl space va) r
      | _ => .denied s

/-- The words of a reply. -/
def Reply.words : Reply → List Word
  | .ok ws _ _ _ => ws
  | _ => []

/-- Whether a reply met an uncorrectable word. -/
def Reply.poisoned : Reply → Bool
  | .ok _ _ _ p => p
  | _ => false

/-- n words from an address on, read as plain loads word by word at their slices. -/
def State.loadWords (s : State) (space : BitVec 12) (va : Nat) : Nat → Now (List Word)
  | 0 => .ok s []
  | n + 1 =>
    (s.accessNow space va 0 (.load .plain 1)).bind fun s r =>
      if r.poisoned then .error s
      else (State.loadWords s space (va + 4) n).bind fun s ws => .ok s (r.words ++ ws)

/-- Words written from an address on, as plain stores performed at their slices. -/
def State.storeWords (s : State) (space : BitVec 12) (va : Nat) : List Word → Now Unit
  | [] => .ok s ()
  | w :: ws => (s.accessNow space va 0 (.store .plain [w])).bind fun s _ => State.storeWords s space (va + 4) ws

/-- Words written at scattered addresses, in order. -/
def State.storeAt (s : State) (space : BitVec 12) : List (Nat × Word) → Now Unit
  | [] => .ok s ()
  | (va, w) :: ws => (s.accessNow space va 0 (.store .plain [w])).bind fun s _ => State.storeAt s space ws

end Sys2Proof.Machine
end

