-- ==== Sys2Proof/Machine/Launches.lean ====
section
/-! DEFINITION. Machine/Launches.lean: access to the parts of a launch and its region: units, tiles, matrix tiles, places
(R6, R7), configuration fields (R28 to R31), and the decoded operation of a unit. -/

namespace Sys2Proof.Machine

/-- A reset is in progress, or the part lies dormant after a bring-up that failed: writes are ignored and reads return 0 (R377, R378). -/
def State.inReset (s : State) : Bool := s.warm || s.resetState != 3

/-- A feature of FEATURE0 is enabled (R12, R376). -/
def State.feature (s : State) (n : Nat) : Bool := (s.featureOn[0]).getLsbD n

/-- A live launch. -/
def State.launch? (s : State) (inst : Nat) : Option Launch := SMap.get? s.launches inst

/-- The state with a launch written. -/
def State.setLaunch (s : State) (inst : Nat) (l : Launch) : State := { s with launches := SMap.insert s.launches inst l }

/-- The state with a launch changed, if it lives. -/
def State.modLaunch (s : State) (inst : Nat) (f : Launch → Launch) : State :=
  match s.launch? inst with
  | some l => s.setLaunch inst (f l)
  | none => s

/-- The region's controller sees movement (R175). -/
def State.moved (s : State) (inst : Nat) : State := s.modLaunch inst fun l => { l with lastMove := s.now }

/-- The key of a cell of a region. -/
def cellKey (x y : Nat) : Nat := y * 128 + x
/-- The key of a unit of a region. -/
def unitKey (x y u : Nat) : Nat := cellKey x y * 16 + u

/-- A unit of a region. -/
def Launch.unit (l : Launch) (x y u : Nat) : UnitState := SMap.getD l.units (unitKey x y u) UnitState.reset
/-- A region with a unit written. -/
def Launch.setUnit (l : Launch) (x y u : Nat) (v : UnitState) : Launch :=
  { l with units := SMap.put l.units UnitState.reset (unitKey x y u) v }
/-- A tile of a region. -/
def Launch.tile (l : Launch) (x y : Nat) : TileState := SMap.getD l.tiles (cellKey x y) TileState.reset
/-- A region with a tile written. -/
def Launch.setTile (l : Launch) (x y : Nat) (v : TileState) : Launch :=
  { l with tiles := SMap.put l.tiles TileState.reset (cellKey x y) v }
/-- A matrix tile of a region, by its cell. -/
def Launch.mtile (l : Launch) (x y : Nat) : MatrixTile := SMap.getD l.matrix (cellKey x y) MatrixTile.reset
/-- A region with a matrix tile written. -/
def Launch.setMtile (l : Launch) (x y : Nat) (v : MatrixTile) : Launch :=
  { l with matrix := SMap.put l.matrix MatrixTile.reset (cellKey x y) v }

/-- The state with a unit changed. -/
def State.modUnit (s : State) (inst x y u : Nat) (f : UnitState → UnitState) : State :=
  s.modLaunch inst fun l => l.setUnit x y u (f (l.unit x y u))
/-- The state with a tile changed. -/
def State.modTile (s : State) (inst x y : Nat) (f : TileState → TileState) : State :=
  s.modLaunch inst fun l => l.setTile x y (f (l.tile x y))
/-- The state with a matrix tile changed. -/
def State.modMtile (s : State) (inst x y : Nat) (f : MatrixTile → MatrixTile) : State :=
  s.modLaunch inst fun l => l.setMtile x y (f (l.mtile x y))

/-! ### Places (R6, R7) -/

/-- The die of an absolute cell. -/
def cellDie (x y : Nat) : Nat := 2 * (y / 32) + x / 64
/-- The die of a page. -/
def pageDie (px py : Nat) : Nat := 2 * (py / 4) + px / 8
/-- The page-local index of a cell. -/
def localCell (x y : Nat) : Nat := y % 8 * 8 + x % 8

/-- Columns of a region in cells. -/
def Launch.cellsX (l : Launch) : Nat := (l.record.width.toNat + 1) * 8
/-- Rows of a region in cells. -/
def Launch.cellsY (l : Launch) : Nat := (l.record.height.toNat + 1) * 8
/-- A region cell lies in the rectangle. -/
def Launch.has (l : Launch) (x y : Nat) : Bool := decide (x < l.cellsX) && decide (y < l.cellsY)
/-- The absolute column of a region column. -/
def Launch.absX (l : Launch) (x : Nat) : Nat := l.px * 8 + x
/-- The absolute row of a region row. -/
def Launch.absY (l : Launch) (y : Nat) : Nat := l.py * 8 + y
/-- The die of a region cell. -/
def Launch.dieOf (l : Launch) (x y : Nat) : Nat := cellDie (l.absX x) (l.absY y)
/-- The die of the origin page, where the region controller lies (R201). -/
def Launch.die (l : Launch) : Nat := pageDie l.px l.py
/-- The rectangle covers pages of more than one die (R10). -/
def Launch.spans (l : Launch) : Bool :=
  pageDie l.px l.py != pageDie (l.px + l.record.width.toNat) (l.py + l.record.height.toNat)
/-- A scope as it is performed for the region (R10). -/
def Launch.scope (l : Launch) (sc : Scope) : Scope := if sc = .region && l.spans then .dev else sc

/-- The region's launch is resident: its records are in its units. -/
def Launch.resident (l : Launch) : Bool :=
  l.phase == .running || l.phase == .preempting || l.phase == .completing || (l.phase == .restoring && l.saved.isNone)

/-- A base register (R91). -/
def Launch.base (l : Launch) (n : BitVec 4) : DWord := l.bases[n.toNat]?.getD 0

/-! ### Fields -/

/-- A configuration field of a unit. -/
def UnitState.fld (u : UnitState) (n : Nat) : BitVec 16 := u.fields[n]?.getD 0

/-- A constant k0 to k3 of an element (R28). -/
def UnitState.k (u : UnitState) (n : Nat) : Word := u.fld (5 + 2 * n) ++ u.fld (4 + 2 * n)

/-- The 48-bit operation of an element (R28). -/
def UnitState.opBits (u : UnitState) : BitVec 48 := u.fld 2 ++ u.fld 1 ++ u.fld 0

/-- The operation of an element. -/
def UnitState.op (u : UnitState) : Option Instr := (decodeOp u.opBits).toOption

/-- BREAK of R27. -/
def UnitState.breaks (u : UnitState) : Bool := (u.fld 3).getLsbD 0
/-- TRACE of R27. -/
def UnitState.traces (u : UnitState) : Bool := (u.fld 3).getLsbD 1
/-- YIELD of R27. -/
def UnitState.yields (u : UnitState) : Bool := (u.fld 3).getLsbD 2

/-- A region has a yield point: an operation with YIELD (R27, R90, R130). -/
def Launch.hasYield (l : Launch) : Bool := l.units.any fun e => decide (e.1 % 16 ≤ 7) && e.2.yields

/-- The operator of a router slot (R29). -/
def UnitState.slotOp (u : UnitState) (slot : Nat) : Option Instr := decodeSlot (u.fld (2 + slot) ++ u.fld slot)

/-- The MODE of a bank of a cell's tile (R30). -/
def Launch.bankMode (l : Launch) (x y bank : Nat) : Nat := ((l.unit x y 11).fld bank).toNat / 2 ^ 13
/-- PARAM of a bank. -/
def Launch.bankParam (l : Launch) (x y bank : Nat) : Nat := ((l.unit x y 11).fld bank).toNat % 2 ^ 7

/-- Records in a port. -/
def UnitState.port (u : UnitState) (p : Nat) : List Record := SMap.getD u.ins p []
/-- A unit with the records of a port written. -/
def UnitState.setPort (u : UnitState) (p : Nat) (rs : List Record) : UnitState := { u with ins := SMap.put u.ins [] p rs }

/-- The address fields of a memory operation, with its sync code as the encoding has it. -/
def memRefOf : Instr → Option (BitVec 3 × MemRef)
  | .launch m => some (0, m)
  | .cfg _ _ m => some (0, m)
  | .ld _ sy m | .st _ sy m | .ldv _ sy m | .stv _ sy m => some (sy.code, m)
  | .ldvN _ _ m | .stvN _ _ m => some (6, m)
  | .atomAdd _ _ o m | .atomSub _ _ o m | .atomMin _ _ o m | .atomMax _ _ o m | .atomAnd _ _ o m | .atomOr _ _ o m
  | .atomXor _ _ o m | .atomSwap _ _ o m | .atomIncw _ _ o m | .atomFaddF32 _ _ o m | .atomFaddBf16x2 _ _ o m
  | .atomFmax _ _ o m | .cas _ _ o m => some (o.code, m)
  | .feSet _ m | .feGet _ m | .dropN _ m | .pref m => some (0, m)
  | .gather sy m | .scatter sy m | .src sy m | .sink sy m => some (sy.code, m)
  | .copy m | .binApp m | .binRpl m | .pageMap m | .pageUnmap m | .pageShare m | .pageProt m | .spaceRetire m
  | .tlbInv m | .faultResume m | .faultFail m => some (0, m)
  | _ => none

/-- OPID of an access (R44): operation index, block, sync, size and scope. -/
def opidOf (u : UnitState) (i : Instr) : Word :=
  match memRefOf i with
  | some (sy, m) => (0 : BitVec 9) ++ u.opIndex ++ u.block ++ sy ++ m.size.code ++ m.scope.code
  | none => (0 : BitVec 9) ++ u.opIndex ++ u.block ++ (0 : BitVec 8)

/-- Cycles since the first commit (R39, R92). -/
def State.cycles (s : State) (l : Launch) : DWord := BitVec.ofNat 64 (if l.committed then s.now - l.firstCommit else 0)

end Sys2Proof.Machine
end

