-- ==== Sys2Proof/Machine/LaunchRecords.lean ====
section
/-! DEFINITION. Machine/LaunchRecords.lean: reading a launch record and its checks (R34, R35). -/

namespace Sys2Proof.Machine

/-- The launch record that sixteen words hold (R34). -/
def LaunchRec.ofWords (ws : List Word) : LaunchRec :=
  let w := fun (i : Nat) => ws.getD i 0
  let d := fun (i : Nat) => pair64 (w i) (w (i + 1))
  { cfgAddr := d 0, cfgLen := w 2, quota := (w 3).extractLsb' 0 7, rmode := (w 3).extractLsb' 7 3,
    budget := (w 3).extractLsb' 10 4, hblk := (w 3).extractLsb' 14 8, policy := (w 3).extractLsb' 22 2,
    dscope := (w 3).extractLsb' 24 3, domain := (w 3).extractLsb' 27 2, pri := (w 3).extractLsb' 29 2,
    system := (w 3).getLsbD 31, zero := (w 4).extractLsb' 0 5, level := (w 4).extractLsb' 5 3, seamOk := (w 4).getLsbD 8,
    dies := (w 4).extractLsb' 9 4, height := (w 4).extractLsb' 13 3, width := (w 4).extractLsb' 16 4,
    space := (w 4).extractLsb' 20 12, trapEntries := (w 5).extractLsb' 0 16, kEntries := (w 5).extractLsb' 16 16,
    baseBlk := d 6, statusAddr := d 8, doneAddr := d 10, kennelAddr := d 12, trapAddr := d 14 }

/-- An address of a launch record: canonical and aligned. -/
def addrOk (a : DWord) (align : Nat) : Bool := canonical a && a.toNat % align == 0

/-- DONEADDR and STATUSADDR pass their own checks (R35). -/
def LaunchRec.reportable (r : LaunchRec) : Bool := addrOk r.doneAddr 4 && addrOk r.statusAddr 64

/-- The checks of R35. `child` says that the record came from a child queue. -/
def LaunchRec.ok (r : LaunchRec) (child : Bool) : Bool :=
  r.reportable && r.policy != 3 && r.domain != 3 && decide (r.rmode.toNat ≤ 5) && decide (r.dscope.toNat ≤ 4) && r.zero == 0 &&
  decide (1 ≤ r.cfgLen.toNat) && decide (r.cfgLen.toNat ≤ 2 ^ 20) && r.trapEntries != 0 && r.kEntries != 0 &&
  addrOk r.cfgAddr 4 && addrOk r.baseBlk 64 && addrOk r.kennelAddr 128 && addrOk r.trapAddr 128 &&
  (r.policy == 2 || r.hblk == 0) && (child || r.domain == 2) &&
  (r.seamOk || (decide (r.width.toNat < 8) && decide (r.height.toNat < 4)))

end Sys2Proof.Machine
end

