-- ==== Sys2Proof/Machine/Access.lean ====
section
/-! DEFINITION. Machine/Access.lean: what the replies of an access make of its record (R109, R113, R115, R119 to R124, R127,
R144). -/

namespace Sys2Proof.Machine

/-- Every lane has its reply. -/
def Access.answered (a : Access) : Bool := a.lanes.all (·.reply.isSome)

/-- A lane whose reply is a line for the cell's ways: its words, their states, the line's write permission and whether a word cannot be
corrected. -/
def LaneState.line? (l : LaneState) : Option (List Word × List Bool × Bool × Bool) :=
  match l.reply with
  | some (.ok ws fs h p) => if ws.length = 34 then some (ws, fs, h, p) else none
  | _ => none

/-- An access is complete (R111): it has all its replies, and no line of one has still to be put to use in the cell's ways. -/
def Access.complete (a : Access) : Bool := a.answered && !a.lanes.any (·.line?.isSome)

/-- A lane still needs its range: its data has not returned, or its store is not acknowledged (R112). -/
def LaneState.pends (l : LaneState) : Bool := l.reply.isNone || l.reply == some .fault || l.line?.isSome

/-- The ranges that an access still holds in the scoreboard: those of its lanes that have not ended (R112). -/
def Access.pending (a : Access) : List Range := ((a.ranges.zip a.lanes).filter fun p => p.2.pends).map (·.1)

/-- Accesses in progress as one of them has received a reply: those that are complete stand in the order in which they became so, the
latest last (R111). -/
def completedLast (id : Nat) (accesses : List Access) : List Access :=
  accesses.filter (fun a => !(a.id == id && a.complete)) ++ accesses.filter fun a => a.id == id && a.complete

/-- Some lane met an unmapped page. -/
def Access.faulted (a : Access) : Bool := a.lanes.any (·.reply == some .fault)

/-- The lowest-numbered lane that met an unmapped page. -/
def Access.faultLane (a : Access) : Option LaneState := a.lanes.find? (·.reply == some .fault)

/-- The first lane that trapped: cause, DETAIL and ADDR, which holds the lane's effective address, the granule for KENNELFULL and
WAITBUDGET, or the address that faulted for UNMAPPED (R145, R188, R143). -/
def Access.trap? (a : Access) : Option (Cause × DWord × DWord) :=
  a.lanes.findSome? fun l => match l.reply with
    | some (.trap .kennelFull d ad) => some (.kennelFull, d, ad)
    | some (.trap .waitBudget d ad) => some (.waitBudget, d, ad)
    | some (.trap .unmapped d ad) => some (.unmapped, d, ad)
    | some (.trap c d _) => some (c, d, l.addr)
    | _ => none

/-- The replies in lane order. -/
def Access.replies (a : Access) : List (Nat × Reply) := a.lanes.filterMap fun l => l.reply.map (l.lane, ·)

/-- The words of the first reply. -/
def Access.words (a : Access) : List Word :=
  match a.replies with
  | (_, r) :: _ => r.words
  | [] => []

/-- Whether the test of the first reply held. -/
def Access.held (a : Access) : Bool :=
  match a.replies with
  | (_, .ok _ _ h _) :: _ => h
  | _ => false

/-- The access with a reply in every lane that has none: what ends it as a whole. -/
def Access.answerAll (a : Access) (r : Reply) : Access :=
  { a with lanes := a.lanes.map fun l => if l.reply.isSome then l else { l with reply := some r } }

/-- The access with a record in place of its own. -/
def Access.withRecord (a : Access) (r : Record) : Access := { a with record := r }

/-- The first reply went to the side log. -/
def Access.logged (a : Access) : Bool := a.replies.any (·.2 == .logged)

/-- A load's record: the words from d on, and POISON where a word could not be corrected (R113). -/
def Access.loaded (a : Access) (d : Nat) : Record :=
  let r := a.record.setWords d a.words
  if a.replies.any (·.2.poisoned) then r.setPoison true else r

/-- An atomic's record: the old value; 0 with POISON where the write went to the side log (R144). -/
def Access.oldValue (a : Access) (d : Reg) (m : MemRef) : Record :=
  if a.logged then (a.record.setWords d.toNat (List.replicate m.size.words 0)).setPoison true else a.loaded d.toNat

/-- The record of a gather: each lane's word, 0 for a skipped lane. -/
def Access.gathered (a : Access) : Record :=
  let word := fun (i : Nat) => ((a.replies.find? (·.1 == i)).bind fun p => p.2.words.head?).getD 0
  let r := a.record.setWords 0 ((List.range 16).map word)
  if a.replies.any (·.2.poisoned) then r.setPoison true else r

/-- fe.get's word: the states of the words, and its two flags, which the home gives as the first word (R124). -/
def Access.states (a : Access) (d : Reg) : Record :=
  match a.replies with
  | (_, .ok ws fs _ _) :: _ =>
    let bits := fs.zipIdx.foldl (fun (acc : Nat) p => if p.1 then acc + 2 ^ p.2 else acc) 0
    a.record.setW d (BitVec.ofNat 32 (bits + 2 ^ 16 * (ws.getD 0 0).toNat))
  | _ => a.record

/-- A form with .tc sets P and writes words only where it held (R115). -/
def Access.tested (a : Access) (sync : Sync) (d : Reg) : Record :=
  if sync = .tc then (if a.held then (a.loaded d.toNat).setP true else a.record.setP false) else a.loaded d.toNat

/-- The record that an access which did not trap sends on. A tested store that retired into the side log sends P = 0, as R144 has it for
cas: DESIGN CHOICE, log 126. -/
def Access.result (a : Access) : Record :=
  match a.op with
  | .ld d sy _ => a.tested sy d
  | .ldv d sy _ => a.tested sy d
  | .ldvN d _ _ => a.loaded d.toNat
  | .st _ sy _ => if sy = .tf then a.record.setP a.held else a.record
  | .stv _ sy _ => if sy = .tf then a.record.setP a.held else a.record
  | .atomAdd d _ _ m | .atomSub d _ _ m | .atomMin d _ _ m | .atomMax d _ _ m | .atomAnd d _ _ m | .atomOr d _ _ m
  | .atomXor d _ _ m | .atomSwap d _ _ m | .atomIncw d _ _ m | .atomFaddF32 d _ _ m | .atomFaddBf16x2 d _ _ m
  | .atomFmax d _ _ m => a.oldValue d m
  | .cas d _ _ m => (a.oldValue d m).setP (a.held && !a.logged)
  | .feGet d _ => a.states d
  | .gather _ _ => a.gathered
  | .src _ _ => a.loaded 0
  | .cfg d _ _ => a.record.setWords d.toNat a.words
  | _ => a.record

/-- Whether an operation acquires when it completes (R204), with the scope of its tail. -/
def acquires (i : Instr) : Bool :=
  match i with
  | .ld _ sy _ | .ldv _ sy _ | .gather sy _ | .src sy _ => sy == .w || sy == .c || sy == .tc
  | .ldvN _ _ _ => true
  | .atomAdd _ _ o _ | .atomSub _ _ o _ | .atomMin _ _ o _ | .atomMax _ _ o _ | .atomAnd _ _ o _ | .atomOr _ _ o _
  | .atomXor _ _ o _ | .atomSwap _ _ o _ | .atomIncw _ _ o _ | .atomFaddF32 _ _ o _ | .atomFaddBf16x2 _ _ o _
  | .atomFmax _ _ o _ | .cas _ _ o _ => o == .acq || o == .ar
  | .fence o _ => o == .acq || o == .ar
  | .cfg _ _ _ => true
  | _ => false

/-- Whether an operation releases before its own access (R204). -/
def releases (i : Instr) : Bool :=
  match i with
  | .st _ sy _ | .stv _ sy _ | .scatter sy _ | .sink sy _ => sy == .f || sy == .tf || sy == .s
  | .stvN _ _ _ => true
  | .feSet b _ => b
  | .atomAdd _ _ o _ | .atomSub _ _ o _ | .atomMin _ _ o _ | .atomMax _ _ o _ | .atomAnd _ _ o _ | .atomOr _ _ o _
  | .atomXor _ _ o _ | .atomSwap _ _ o _ | .atomIncw _ _ o _ | .atomFaddF32 _ _ o _ | .atomFaddBf16x2 _ _ o _
  | .atomFmax _ _ o _ | .cas _ _ o _ => o == .rel || o == .ar
  | .fence o _ => o == .rel || o == .ar
  | .copy _ | .binApp _ | .binRpl _ | .launch _ | .spaceRetire _ | .pageMap _ | .pageUnmap _ | .pageShare _ | .pageProt _
  | .tlbInv _ | .faultResume _ | .faultFail _ => true
  | _ => false

/-- An access of the fault-queue kind (R144): its record parks where its page is unmapped. -/
def faultQueueKind (i : Instr) : Bool :=
  match i with
  | .ld _ _ _ | .ldv _ _ _ | .gather _ _ | .ldvN _ _ _ | .dropN _ _ | .stvN _ _ _ | .feGet _ _ | .src _ _ | .launch _ => true
  | _ => false

end Sys2Proof.Machine
end

