-- ==== Sys2Proof/Machine/Kennel.lean ====
section
/-! DEFINITION. Machine/Kennel.lean: a region's kennel (R43, R44, R231, R351, R366) with its image in memory, the trap queue
of its controller, and the event ring of a die (R233, R382). -/

namespace Sys2Proof.Machine

/-! ### The event ring (R233) -/

/-- The reports of a die's ring written, oldest first, until one must wait: each is written at EVHEAD, or lost where the ring is full or
absent or does not take its stores. `n` bounds it by the reports there are. -/
def State.payReports (d : Nat) : Nat → State → State
  | 0, s => s
  | n + 1, s =>
    let x := s.die d
    match x.pendingReports with
    | [] => s
    | r :: rest =>
      let lose := fun (s : State) => s.setDie d { s.die d with pendingReports := rest, evLost := (s.die d).evLost + 1 }
      if x.evSize = 0 || x.evHead - x.evTail == x.evSize.zeroExtend 32 then State.payReports d n (lose s)
      else
        let at_ := x.evBase.toNat + x.evHead.toNat % x.evSize.toNat * 32
        let info : Word := r.space ++ (0 : BitVec 8) ++ BitVec.ofNat 4 r.origin ++ BitVec.ofNat 8 r.kind
        let cycle := BitVec.ofNat 64 r.cycle
        match s.storeWords x.evSpace at_ [r.seq, BitVec.ofNat 32 d, info, r.detail, lo32 r.addr, hi32 r.addr, lo32 cycle, hi32 cycle] with
        | .ok s _ => State.payReports d n (s.setDie d { s.die d with pendingReports := rest, evHead := (s.die d).evHead + 1 })
        | .wait s => s
        | other => State.payReports d n (lose other.state)

/-- A report to a die's event ring: counted in SEQ, and written in its turn, unless the ring is full or absent: it is then lost, as one
is whose stores are not accepted. -/
def State.event (s : State) (d kind origin : Nat) (space : BitVec 12) (addr : DWord) (detail : Word) : State :=
  (s.queueReport d kind origin space addr detail).payReports d ((s.die d).pendingReports.length + 1)

/-- A fault report, once for a page until fault.resume or fault.fail resolves it (R233). -/
def State.faultEvent (s : State) (space : BitVec 12) (va : Nat) (origin : Nat) : State :=
  let d := vaDie va
  let page := (space, va / 2 ^ 16)
  if (s.die d).unresolved.contains page then s
  else
    let s := s.setDie d { s.die d with unresolved := (s.die d).unresolved ++ [page] }
    s.event d 1 origin space (BitVec.ofNat 64 va) 0

/-! ### Structures of a region (R230, R233) -/

/-- Words with their byte offsets from a position. -/
def placed (at_ : Nat) : List Word → List (Nat × Word)
  | [] => []
  | w :: ws => (at_, w) :: placed (at_ + 4) ws

/-- Words of a region's structures stored by its controller, in order: a fault is reported (R233), and a word there that cannot be
corrected is an error (R225, R230). -/
def State.storeRegion (s : State) (space : BitVec 12) : List (Nat × Word) → Now Unit
  | [] => .ok s ()
  | (va, w) :: ws =>
    match s.ensureLine space va true with
    | .fault s => .fault (s.faultEvent space va 1)
    | x => x.bind fun s sl =>
      match s.view? sl space va 0 with
      | some v =>
        if v.bad.getD (va / 4 % 16) false then .error s
        else (s.accessNow space va 0 (.store .plain [w])).bind fun s _ => State.storeRegion s space ws
      | none => .denied s

/-- n words of a region's structures read by its controller, from an address on: a fault is reported (R233). -/
def State.readRegion (s : State) (space : BitVec 12) (va : Nat) : Nat → Now (List Word)
  | 0 => .ok s []
  | n + 1 =>
    match s.loadWords space va 1 with
    | .fault s => .fault (s.faultEvent space va 0)
    | x => x.bind fun s w => (State.readRegion s space (va + 4) n).bind fun s ws => .ok s (w ++ ws)

/-- Words written whole from an address on by a controller, whatever stood there: a fault is reported (R233). -/
def State.writeRegion (s : State) (space : BitVec 12) (va : Nat) : List Word → Now Unit
  | [] => .ok s ()
  | w :: ws =>
    match s.storeWords space va [w] with
    | .fault s => .fault (s.faultEvent space va 1)
    | x => x.bind fun s _ => State.writeRegion s space (va + 4) ws

/-- A region-fatal error waits to end a region: the first of them, with its structure's address (R230). -/
def State.failRegion (inst : Nat) (addr : DWord) (s : State) : State :=
  s.modLaunch inst fun l => { l with fatal := l.fatal.orElse fun _ => some addr }

/-! ### The kennel -/

/-- One bit of CRC32C (R101). -/
def crcBit (c : Word) : Word := if c.getLsbD 0 then (c >>> 1) ^^^ 0x82F63B78 else c >>> 1

/-- CRC32C of bytes from a remainder. -/
def crcBytes (c : Word) : List Byte → Word
  | [] => c
  | b :: bs =>
    let x := c ^^^ b.zeroExtend 32
    crcBytes (crcBit (crcBit (crcBit (crcBit (crcBit (crcBit (crcBit (crcBit x)))))))) bs

/-- CRC32C of a 64-bit value, least significant byte first (R43). -/
def crc64 (m : DWord) : Word := ~~~ crcBytes 0xFFFFFFFF ((List.range 8).map fun i => m.extractLsb' (8 * i) 8)

/-- Entries of a kennel: KENTRIES units of 64 (R34). -/
def Launch.kennelSize (l : Launch) : Nat := l.record.kEntries.toNat * 64
/-- Buckets of a kennel (R43). -/
def Launch.buckets (l : Launch) : Nat := if l.kennelSize = 0 then 0 else 2 ^ (l.kennelSize / 8).log2
/-- The offset of the first entry: after the header and the bucket heads, 128-byte aligned (R43). -/
def Launch.entriesAt (l : Launch) : Nat := (64 + 4 * l.buckets + 127) / 128 * 128
/-- The bucket of a granule (R43). -/
def Launch.bucket (l : Launch) (g : DWord) : Nat :=
  (crc64 ((g.extractLsb' 6 46).zeroExtend 64)).toNat % l.buckets

/-- The end of a chain (R43). -/
def chainEnd : Word := 0xFFFFFFFF
/-- A chain link: an offset, or the end of the chain. -/
def link (o : Option Nat) : Word :=
  match o with
  | some n => BitVec.ofNat 32 n
  | none => chainEnd

/-- Offsets of the entries of a bucket's chain, in order. -/
def Launch.bucketChain (l : Launch) (b : Nat) : List Nat :=
  (l.kennel.entries.filter fun e => (e.kind == .park || e.kind == .yieldEntry) && l.bucket e.granule == b).map (·.offset)
/-- Offsets of the entries of a kind, in order. -/
def Launch.kindChain (l : Launch) (k : KKind) : List Nat := (l.kennel.entries.filter (·.kind == k)).map (·.offset)
/-- Offsets of the free entries, in the order in which they are taken. -/
def Launch.freeChain (l : Launch) : List Nat :=
  l.kennel.freed ++ (List.range (l.kennelSize - l.kennel.fresh)).map fun i => l.entriesAt + 128 * (l.kennel.fresh + i)

/-- The element of a chain after an offset. -/
def nextOf (chain : List Nat) (o : Nat) : Option Nat := ((chain.dropWhile (· != o)).drop 1).head?

/-- WHERE, region part only (R44). -/
def whereRegion (x y : Nat) : Word := BitVec.ofNat 32 (y * 256 + x)

/-- The words of an entry, from its offset (R44, R351). -/
def Launch.entryWords (l : Launch) (e : KEntry) : List Word :=
  match e.kind with
  | .range => (e.words.set 1 (link (nextOf (l.kindChain .range) e.offset)))
  | k =>
    let next := if k == .fault then nextOf (l.kindChain .fault) e.offset else nextOf (l.bucketChain (l.bucket e.granule)) e.offset
    e.record.all ++ [lo32 e.record.rcw, hi32 e.record.rcw, lo32 e.granule, hi32 e.granule, 0, e.opid, whereRegion e.x e.y,
      link next, BitVec.ofNat 32 e.seq, BitVec.ofNat 32 (e.seq / 2 ^ 32), 0, 0, 0, 0, 0, 0]

/-- Entries in use: those that hold a record; an entry of the dirty-range log is not one (R43, R149, R177). -/
def inUse (es : List KEntry) : Nat := (es.filter (·.kind != .range)).length

/-- The kennel as it stands in memory: byte offsets from KENNELADDR and words (R43). The link of a free entry stands in its NEXTENT word:
DESIGN CHOICE, log 95. -/
def Launch.kennelImage (l : Launch) : List (Nat × Word) :=
  if !l.kennel.ready then []
  else
    let k := l.kennel
    let header : List Word :=
      [BitVec.ofNat 32 l.buckets, link l.freeChain.head?, BitVec.ofNat 32 (inUse k.entries), BitVec.ofNat 32 k.high,
       link (l.kindChain .fault).head?, link (l.kindChain .range).head?, BitVec.ofNat 32 (l.kindChain .range).length,
       BitVec.ofNat 32 k.lost] ++ List.replicate 8 0
    let heads := (List.range l.buckets).map fun b => link (l.bucketChain b).head?
    placed 0 (header ++ heads) ++ k.entries.flatMap (fun e => placed e.offset (l.entryWords e)) ++
      l.freeChain.map fun o => (o + 0x5C, link (nextOf l.freeChain o))

/-- The words of an image that another image does not have. -/
def imageChanges (old new : List (Nat × Word)) : List (Nat × Word) := new.filter fun p => !old.contains p

/-- The state with a region's kennel changed, its image in memory written where it changes. A fault or an uncorrectable
word ends the region (R230); words that must wait for the copy-on-write engine stay owed until the next change. -/
def State.setKennel (s : State) (inst : Nat) (k : Kennel) : State :=
  match s.launch? inst with
  | none => s
  | some l =>
    let l' := { l with kennel := k }
    let base := l.record.kennelAddr.toNat
    let words := (k.owed ++ imageChanges l.kennelImage l'.kennelImage)
    match s.storeRegion l.record.space (words.map fun p => (base + p.1, p.2)) with
    | .ok s _ => s.setLaunch inst { l' with kennel := { k with owed := [] } }
    | .wait s => s.setLaunch inst { l' with kennel := { k with owed := words } }
    | other => (other.state.setLaunch inst l').failRegion inst l.record.kennelAddr

/-- An entry of a region's kennel read by its controller: a word of it that cannot be corrected ends the region (R230). -/
def State.readEntry (s : State) (inst : Nat) (e : KEntry) : State :=
  match s.launch? inst with
  | none => s
  | some l =>
    match s.readRegion l.record.space (l.record.kennelAddr.toNat + e.offset) 32 with
    | .error s => s.failRegion inst l.record.kennelAddr
    | other => other.state

/-- The kennel words that regions owe, written where they can be now (R186): what the copy-on-write engine or a switch of domains held
up. -/
def State.payKennels (s : State) : State :=
  s.launches.foldl (fun (s : State) e =>
    match s.launch? e.1 with
    | some l => if l.kennel.owed.isEmpty then s else s.setKennel e.1 l.kennel
    | none => s) s

/-- The entry list with an entry put into the kennel, or none where no entry is free (R43). -/
def Launch.kennelTake (l : Launch) (e : KEntry) : Option Kennel :=
  match l.freeChain with
  | [] => none
  | o :: _ =>
    let k := l.kennel
    let fromFreed := !k.freed.isEmpty
    let entries := k.entries ++ [{ e with offset := o }]
    some { k with entries := entries, freed := k.freed.drop 1, fresh := if fromFreed then k.fresh else k.fresh + 1,
                  high := max k.high (inUse entries) }

/-- An entry put into a region's kennel; none where no entry is free. -/
def State.kennelPut (s : State) (inst : Nat) (e : KEntry) : Option State :=
  match s.launch? inst with
  | none => none
  | some l => (l.kennelTake e).map (s.setKennel inst)

/-- Entries of a region's kennel freed, the latest freed the first to be taken again. -/
def State.kennelFree (s : State) (inst : Nat) (p : KEntry → Bool) : State :=
  match s.launch? inst with
  | none => s
  | some l =>
    let gone := (l.kennel.entries.filter p).map (·.offset)
    if gone.isEmpty then s
    else s.setKennel inst { l.kennel with entries := l.kennel.entries.filter (fun e => !p e), freed := gone.reverse ++ l.kennel.freed }

/-- Entries of a region's kennel changed in their place. -/
def State.kennelMap (s : State) (inst : Nat) (f : KEntry → KEntry) : State :=
  match s.launch? inst with
  | none => s
  | some l => s.setKennel inst { l.kennel with entries := l.kennel.entries.map f }

/-- An entry moved to the end of the list, and so to the end of its chain, changed. -/
def State.kennelMove (s : State) (inst offset : Nat) (f : KEntry → KEntry) : State :=
  match s.launch? inst with
  | none => s
  | some l =>
    let es := l.kennel.entries
    s.setKennel inst { l.kennel with entries := es.filter (·.offset != offset) ++ (es.filter (·.offset == offset)).map f }

/-! ### The region controller's trap queue (R225) -/

/-- A trap brought to the region controller. -/
def State.raise (s : State) (inst : Nat) (t : TrapInfo) : State :=
  s.modLaunch inst fun l => { l with trapQ := l.trapQ ++ [t], lastMove := s.now }

/-- A trap at a unit. -/
def trapAt (u : UnitState) (x y unit : Nat) (r : Record) (c : Cause) (detail addr : DWord) (h : Holder) : TrapInfo :=
  { cause := c, detail := detail, addr := addr, record := r, x := x, y := y, unit := unit, block := u.block,
    opIndex := u.opIndex, holder := h }

end Sys2Proof.Machine
end

