-- ==== Sys2Proof/Machine/Home.lean ====
section
/-! DEFINITION. Machine/Home.lean: a home, a slice or a tile, performing requests: replies to their parties, waiters and the
satisfying pass (R182, R183), parking (R186), the walk of a parked granule (R187, R188), quota waiters (R194) and the scope
checker (R209). A slice and a tile share every definition; they differ in where a granule is kept. -/

namespace Sys2Proof.Machine

/-! ### Sending requests -/

/-- The record of an element's access makes a request; an engine, a controller or a walk does not (R184). -/
def Party.isRecord : Party → Bool
  | .access _ _ _ _ _ _ => true
  | _ => false

/-- A request to the tile of the issuing element's own cell (R174). -/
def Req.own (rq : Req) : Bool :=
  match rq.party, rq.loc with
  | .access _ ax ay _ _ _, .tile x y _ => ax == x && ay == y
  | _, _ => false

/-- Two requests of one element. -/
def Party.sameElement (p q : Party) : Bool :=
  match p, q with
  | .access i x y u _ _, .access j z w v _ _ => i == j && x == z && y == w && u == v
  | _, _ => false

/-- Two requests of one access, whose lanes with equal addresses are performed in order (R128). -/
def Party.sameAccess (p q : Party) : Bool :=
  match p, q with
  | .access i x y u a _, .access j z w v b _ => i == j && x == z && y == w && u == v && a == b
  | _, _ => false

/-- The banks that an operation from a tile word on needs. -/
def banksFrom (word : Nat) (op : HomeOp) : List Nat := (List.range (min 16 op.words)).map fun i => (word + i) % 16

/-- The tile takes requests for banks into its buffer: none of them is closed by a commit (R170). -/
def TileState.takesBanks (t : TileState) (bs : List Nat) : Bool := bs.all fun b => !NSet.has t.closed b

/-- The tile word that a request addresses. -/
def Req.tileWord (rq : Req) : Nat := match rq.loc with | .tile _ _ w => w | _ => 0

/-- The banks of a tile that a request touches. -/
def Req.banks (rq : Req) : List Nat := banksFrom rq.tileWord rq.op

/-- A request on its way to a tile that an older one of its list comes before: an own request behind one of its element (R174), a
scatter's lane behind one to the same word (R128). -/
def Req.behind (rq older : Req) : Bool :=
  (rq.own && older.own && rq.party.sameElement older.party) ||
  (rq.party.sameAccess older.party && rq.tileWord == older.tileWord)

/-- A request sent on its way to its home, with the next number: into the tile's buffer in issue order from the tile's own
cell (R174), otherwise over the network; a peer access goes to the die's controller (R341). -/
def State.post (s : State) (rq : Req) : State :=
  let rq := { rq with seq := s.reqSeq }
  let s := { s with reqSeq := s.reqSeq + 1 }
  match rq.loc with
  | .tile x y _ =>
    s.modTile rq.inst x y fun t =>
      if rq.own && t.takesBanks rq.banks && !t.network.any rq.behind && t.reqs.length < 32 then { t with reqs := t.reqs ++ [rq] }
      else { t with network := t.network ++ [rq] }
  | .glob va =>
    let sl := s.homeSlice va.toNat
    s.setSlice sl { s.slice sl with reqs := (s.slice sl).reqs ++ [rq] }
  | .peer va =>
    let d := vaDie va.toNat
    s.setDie d { s.die d with walkQ := (s.die d).walkQ ++ [{ slice := 0, req := rq }] }

/-- A request of a party, not yet sent. -/
def mkReq (party : Party) (space : BitVec 12) (loc : Loc) (op : HomeOp) (scope : Scope) (inst : Nat) (cell : Nat × Nat)
    (die : Nat) : Req :=
  { party := party, seq := 0, space := space, loc := loc, op := op, scope := scope, inst := inst, cell := cell, die := die,
    outside := false, arrival := 0, since := 0, retryAt := 0, resends := 0, forwarded := false, first := false }

/-! ### Replies -/

/-- The number of the access that a party's lane belongs to. -/
def Party.accessId? : Party → Option Nat
  | .access _ _ _ _ id _ => some id
  | _ => none

/-- An entry of a kennel that belongs to an access. -/
def KEntry.ofAccess (e : KEntry) (x y u id : Nat) : Bool :=
  e.x == x && e.y == y && e.unit == u &&
  ((match e.access with | some a => a.id == id | none => false) ||
   (match e.req with | some rq => rq.party.accessId? == some id | none => false))

/-- The requests that a parked entry stands for: the record's lanes that wait for the entry's granule. -/
def KEntry.lanes (e : KEntry) : List Req := e.req.toList ++ e.more

/-- An entry with these requests left. -/
def KEntry.withLanes (e : KEntry) : List Req → KEntry
  | [] => { e with req := none, more := [] }
  | r :: rs => { e with req := some r, more := rs }

/-- An entry after one of its lanes has its reply. -/
def KEntry.answered (e : KEntry) (seq : Nat) : KEntry :=
  if e.lanes.any (·.seq == seq) then { e.withLanes (e.lanes.filter (·.seq != seq)) with out := false } else e

/-- An entry that only stood for a lane that has its reply. -/
def KEntry.spent (e : KEntry) (seq : Nat) : Bool :=
  e.access.isNone && e.lanes.any (·.seq == seq) && e.lanes.all (·.seq == seq)

/-- A lane's reply written into an access. -/
def Access.setReply (a : Access) (lane : Nat) (r : Reply) : Access :=
  { a with lanes := a.lanes.map fun l => if l.lane = lane then { l with reply := some r } else l }

/-- The access with no lane answered: it is to be made again. -/
def Access.unanswered (a : Access) : Access := { a with lanes := a.lanes.map fun l => { l with reply := none, stale := false } }

/-- An access put back in its place among a source's items (R130). -/
def insertAccess (a : Access) : List Access → List Access
  | [] => [a]
  | b :: bs => if a.id < b.id then a :: b :: bs else b :: insertAccess a bs

/-- What a sink's completed store leaves (R131): its index moves on, RETIRED counts it, and its dirty range covers it, in bytes or, for
a tile stream, in region-tile words (R351). -/
def State.sinkStored (s : State) (inst x y u : Nat) (a : Access) : State :=
  let bytes := match memRefOf a.op with
    | some (_, m) => if m.space == .global then m.size.words * 4 else m.size.words
    | none => 0
  let lo := a.ea.toNat
  let s := s.modUnit inst x y u fun v => { v with sink := { v.sink with
    index := v.sink.index + 1
    lo := if v.sink.writes = 0 then lo else min v.sink.lo lo, hi := max v.sink.hi (lo + bytes), writes := v.sink.writes + 1 } }
  s.modLaunch inst fun l => { l with retired := l.retired + 1, lastMove := s.now }

/-- The operation of a source, whose items leave in their own order (R130). -/
def Access.isItem (a : Access) : Bool :=
  match a.op with
  | .src _ _ => true
  | _ => false

/-- An access back at its element with all its replies, its entries freed: an item of a source among the source's items, any other in
the resume queue (R187). It leaves, or traps, by ACCESS_COMPLETE. -/
def State.resumeAccess (s : State) (inst x y u : Nat) (a : Access) : State :=
  ((s.kennelFree inst fun f => f.ofAccess x y u a.id).modUnit inst x y u fun v =>
    if a.isItem then { v with flight := insertAccess a v.flight } else { v with resume := v.resume ++ [a] }).moved inst

/-- An element's resume queue has a free place; an access that traps goes on to no port and takes none (R187). -/
def UnitState.canResume (u : UnitState) : Bool := decide ((u.resume.filter (·.trap?.isNone)).length < 8)

/-- A parked or faulted access that has all its replies (R187): parked again where a lane faulted, otherwise back at its element,
where it may have to wait in its entry for a place of the resume queue. -/
def State.finishParked (s : State) (inst : Nat) (e : KEntry) (a : Access) : State :=
  match s.launch? inst with
  | none => s
  | some l =>
    match a.faultLane with
    | some lane =>
      let s := s.kennelMove inst e.offset fun e =>
        { e with kind := .fault, granule := lane.addr, access := some a.unanswered, req := none, more := [], out := false }
      let s := s.kennelFree inst fun f => f.offset != e.offset && f.ofAccess e.x e.y e.unit a.id
      s.modLaunch inst fun l => { l with faults := l.faults + 1 }
    | none =>
      if a.isItem || a.trap?.isSome || (l.unit e.x e.y e.unit).canResume then s.resumeAccess inst e.x e.y e.unit a
      else s.kennelMap inst fun f => if f.offset = e.offset then { f with access := some a } else f

/-- The oldest access of an element that waits in the kennel with its replies comes back, where the resume queue has room (R187). -/
def State.resumeNext (s : State) (inst x y u : Nat) : State :=
  let due := fun (e : KEntry) => e.x == x && e.y == y && e.unit == u && (match e.access with | some a => a.answered | none => false)
  match (s.launch? inst).bind fun l => (l.kennel.entries.find? due).bind fun e => e.access.map fun a => (e, a) with
  | some (e, a) => s.finishParked inst e a
  | none => s

/-- An access of an element, in progress or in the kennel. -/
def State.accessAt? (s : State) (inst x y u id : Nat) : Option Access :=
  (s.launch? inst).bind fun l =>
    ((l.unit x y u).flight.find? (·.id == id)).orElse fun _ =>
      (l.kennel.entries.find? fun (e : KEntry) => e.ofAccess x y u id && e.access.isSome).bind KEntry.access

/-- An access in progress whose lanes are answered and of which some met an unmapped page: its record parks in the fault
queue as one entry (R127, R144, R231), or traps KENNELFULL. -/
def State.faultPark (s : State) (inst x y u : Nat) (a : Access) (seq : Nat) : State :=
  match s.launch? inst, a.faultLane with
  | some l, some lane =>
    let v := l.unit x y u
    let e : KEntry := { offset := 0, kind := .fault, x := x, y := y, unit := u, port := 0, seq := seq, granule := lane.addr,
                        opid := opidOf v a.op, record := a.record, access := some a.unanswered, req := none, failed := false,
                        out := false, words := [] }
    match s.kennelPut inst e with
    | some s =>
      (s.modUnit inst x y u fun v => { v with flight := v.flight.filter (·.id != a.id) }).modLaunch inst
        fun l => { l with faults := l.faults + 1 }
    | none =>
      let full : Reply := .trap .kennelFull 0 (lane.addr &&& ~~~(63 : DWord))
      s.modUnit inst x y u fun v => { v with flight := v.flight.map fun b =>
        if b.id = a.id then { a with lanes := a.lanes.map fun t => if t.lane = lane.lane then { t with reply := some full } else t } else b }
  | _, _ => s

/-- A lane's reply brought to its access, in progress or in the kennel. -/
def State.deliverLane (s : State) (inst x y u id lane seq : Nat) (r : Reply) : State :=
  let s := s.moved inst
  match s.launch? inst with
  | none => s
  | some l =>
    match (l.unit x y u).flight.find? (·.id == id) with
    | some a =>
      let a := a.setReply lane r
      let s := s.modUnit inst x y u fun v =>
        { v with flight := completedLast id (v.flight.map fun b => if b.id = id then a else b) }
      if a.answered && a.faulted then s.faultPark inst x y u a seq else s
    | none =>
      match l.kennel.entries.find? (fun e => e.ofAccess x y u id && e.access.isSome) with
      | none => s
      | some e =>
        match e.access with
        | none => s
        | some a =>
          let a := a.setReply lane r
          if a.answered then s.finishParked inst e a
          else
            (s.kennelFree inst fun f => f.spent seq).kennelMap inst fun f =>
              if f.offset = e.offset then { f with access := some a }.answered seq else f.answered seq

/-- A reply brought to the party that made the request. A replayed write leaves the side log whatever its home answers, without a trap where
the home refuses it: DESIGN CHOICE, log 121. -/
def State.deliver (s : State) (rq : Req) (r : Reply) : State :=
  match rq.party with
  | .access inst x y u id lane => s.deliverLane inst x y u id lane rq.seq r
  | .copy page =>
    match SMap.getD s.copies page [] with
    | j :: js => { s with copies := SMap.insert s.copies page ({ j with reply := some r } :: js) }
    | [] => s
  | .kelpie d =>
    match (s.die d).kelpie with
    | j :: js => s.setDie d { s.die d with kelpie := { j with reply := some r } :: js }
    | [] => s
  | .ring d kind =>
    let x := s.die d
    match kind, r with
    | 0, .ok ws _ _ _ => s.setDie d { x with taken := some (ws.getD 0 0).toNat, taking := false, frHead := x.frHead + 1 }
    | 1, .ok _ _ _ _ => s.setDie d { x with frameReturns := x.frameReturns.drop 1, returning := false, frTail := x.frTail + 1 }
    | 2, .ok _ _ _ _ => s.setDie d { x with blockReturns := x.blockReturns.drop 1, blockReturning := false, tbTail := x.tbTail + 1 }
    | 3, .ok ws _ _ false =>
      let block := (ws.getD 0 0).toNat % 2 ^ 28 * 2 ^ 12
      let cow := match x.cow with
        | c :: cs => { c with blocks := [block] } :: cs
        | [] => []
      s.setDie d { x with cow := cow, blockTaking := false, tbHead := x.tbHead + 1 }
    | 3, _ => s.setDie d { x with blockTaking := false }
    | 0, _ => s.setDie d { x with taking := false }
    | 1, _ => s.setDie d { x with returning := false }
    | _, _ => s.setDie d { x with blockReturning := false }
  | .control inst => s.modLaunch inst fun l => { l with doneReply := some r }
  | .walk q =>
    match s.queues[q]? with
    | some w => { s with queues := s.queues.setIfInBounds q { w with phase := .asked (some r) } }
    | none => s
  | .log d =>
    let mine := fun (e : LogEntry) => e.replaying && e.req.seq == rq.seq
    let s := ((s.die d).sideLog.filter mine).foldl (fun (s : State) e => s.moved e.inst) s
    s.setDie d { s.die d with sideLog := (s.die d).sideLog.filter fun e => !mine e }
  | .way _ _ _ => s
  | .outside =>
    match rq.op, r with
    | .load _ _, .ok ws _ _ _ => { s with peerReplies := s.peerReplies ++ [ws] }
    | .load _ _, _ => { s with peerReplies := s.peerReplies ++ [[]] }
    | _, _ => s

/-! ### Homes -/

/-- A home: a slice, or the tile of a region's cell. -/
inductive Home where
  | slice (sl : Nat)
  | tile (inst x y : Nat)
  deriving DecidableEq, Repr

/-- The home that a request has reached. -/
def Req.home (rq : Req) (sl : Nat) : Home :=
  match rq.loc with
  | .tile x y _ => .tile rq.inst x y
  | _ => .slice sl

/-- Fields of a tile's row word (R162). -/
def rowReaders (w : Word) : BitVec 12 := w.extractLsb' 20 12
/-- MODEBIT. -/
def rowMode (w : Word) : Bool := w.getLsbD 19
/-- GEN. -/
def rowGenOf (w : Word) : BitVec 8 := w.extractLsb' 11 8
/-- A row word of its fields, PARKED apart. -/
def rowWord (readers : BitVec 12) (mode : Bool) (gen : BitVec 8) : Word := readers ++ bit1 mode ++ gen ++ (0 : BitVec 11)

/-- The granule of a request at its home: the granule key at a slice, the row at a tile. -/
def Req.key (rq : Req) : Nat :=
  match rq.loc with
  | .tile _ _ w => w / 16
  | _ => rq.granule

/-- The first word of its granule that a request addresses. -/
def Req.word (rq : Req) : Nat :=
  match rq.loc with
  | .tile _ _ w => w % 16
  | _ => rq.pos

/-- A bank of a tile as a transform access sees it (R306): bank word j of bank n is tile word 16j + n. -/
def TileState.xbank (t : TileState) (bank param : Nat) (rmode : BitVec 3) : XBank :=
  { param := param, rmode := rmode, words := (List.range 2048).map fun j => SMap.getD t.words (j * 16 + bank) 0,
    bad := (t.bad.filter (· % 16 == bank)).map (· / 16), writeWraps := (SMap.getD t.wraps bank (0, 0)).1,
    readWraps := (SMap.getD t.wraps bank (0, 0)).2, scales := (List.range 128).map fun r => SMap.getD t.rows (16 * r + bank) 0 }

/-- A tile with the words and row words of a transform bank written, where they changed; a word that a write has replaced can be
corrected again (R162). -/
def TileState.setXbank (t : TileState) (bank : Nat) (old new : XBank) : TileState :=
  let words := (old.words.zip new.words).zipIdx.foldl
    (fun (m : SMap Word) p => if p.1.1 = p.1.2 then m else SMap.put m 0 (p.2 * 16 + bank) p.1.2) t.words
  let rows := (old.scales.zip new.scales).zipIdx.foldl
    (fun (m : SMap Word) p => if p.1.1 = p.1.2 then m else SMap.put m 0 (16 * p.2 + bank) p.1.2) t.rows
  { t with words := words, rows := rows, bad := t.bad.filter fun w => w % 16 != bank || NSet.has new.bad (w / 16),
           wraps := SMap.put t.wraps (0, 0) bank (new.writeWraps, new.readWraps) }

/-- A row of a tile as its home sees it (R162, R192). `counts` says that the row word holds counted state: the bank that holds
it is in scratch mode. -/
def TileState.row (t : TileState) (row : Nat) (counts : Bool) (xb : Option XBank) : View :=
  let at_ := fun i => row * 16 + i
  let w := if counts then SMap.getD t.rows row 0 else 0
  let words := (List.range 16).map fun i => SMap.getD t.words (at_ i) 0
  { words := words, full := (List.range 16).map fun i => !NSet.has t.empties (at_ i),
    bad := (List.range 16).map fun i => NSet.has t.bad (at_ i),
    counted := if rowReaders w = 0 then none
               else some { words := words, readers := rowReaders w, maskMode := rowMode w, gen := rowGenOf w },
    rowGen := rowGenOf w, rowMask := rowMode w, dropped := [], tile := true, normal := true, room := true, xbank := xb }

/-- The row word that a row's counted state leaves (R162): a row without readers keeps the GEN and the MODEBIT of its last fill.
DEDUCED: log 92. -/
def View.rowWord (v : View) : Word :=
  match v.counted with
  | some c => Sys2Proof.Machine.rowWord c.readers c.maskMode c.gen
  | none => Sys2Proof.Machine.rowWord 0 v.rowMask v.rowGen

/-- A tile with a row written, and with the transform bank that the row stands for. -/
def TileState.setRow (t : TileState) (row : Nat) (counts : Bool) (old v : View) : TileState :=
  let t := { t with
    words := v.words.zipIdx.foldl (fun m p => SMap.put m 0 (row * 16 + p.2) p.1) t.words
    empties := v.full.zipIdx.foldl (fun m p => NSet.set m (row * 16 + p.2) (!p.1)) t.empties
    bad := v.bad.zipIdx.foldl (fun m p => NSet.set m (row * 16 + p.2) p.1) t.bad
    rows := if counts then SMap.put t.rows 0 row v.rowWord else t.rows }
  match old.xbank, v.xbank with
  | some b, some b' => t.setXbank (row % 16) b b'
  | _, _ => t

/-- The row word of a tile row holds counted state: its bank is in scratch mode (R162, R163). -/
def Launch.rowCounts (l : Launch) (x y row : Nat) : Bool := l.bankMode x y (row % 16) == 0

/-- A tile row of a region's cell as its home sees it. -/
def Launch.tileRow (l : Launch) (x y row : Nat) : View :=
  let t := l.tile x y
  t.row row (l.rowCounts x y row) (if l.bankMode x y (row % 16) = 4 then some (t.xbank (row % 16) (l.bankParam x y (row % 16)) l.rmode) else none)

/-- The granule at a home, where it is present; `inst` counts for the quota of a fill. -/
def State.viewAt (s : State) (h : Home) (key inst : Nat) : Option View :=
  match h with
  | .slice sl => s.view? sl (granuleSpace key) (granuleVa key) inst
  | .tile i x y => (s.launch? i).map fun l => l.tileRow x y key

/-- The granule at a home written as a request left it. -/
def State.setViewAt (s : State) (h : Home) (key inst : Nat) (old v : View) (ev : CountEvent) : State :=
  match h with
  | .slice sl => s.setView sl (granuleSpace key) (granuleVa key) inst old v ev
  | .tile i x y => s.modLaunch i fun l => l.setTile x y ((l.tile x y).setRow key (l.rowCounts x y key) old v)

/-- The waiters of a home. -/
def State.waiters (s : State) (h : Home) : List Req :=
  match h with
  | .slice sl => (s.slice sl).waiters
  | .tile i x y => match s.launch? i with
    | some l => (l.tile x y).waiters
    | none => []

/-- The state with a home's waiters written. -/
def State.setWaiters (s : State) (h : Home) (ws : List Req) : State :=
  match h with
  | .slice sl => s.setSlice sl { s.slice sl with waiters := ws }
  | .tile i x y => s.modTile i x y fun t => { t with waiters := ws }

/-- The walks of a home. -/
def State.walks (s : State) (h : Home) : List ParkWalk :=
  match h with
  | .slice sl => (s.slice sl).walks
  | .tile i x y => match s.launch? i with
    | some l => (l.tile x y).walks
    | none => []

/-- The state with a home's walks written. -/
def State.setWalks (s : State) (h : Home) (ws : List ParkWalk) : State :=
  match h with
  | .slice sl => s.setSlice sl { s.slice sl with walks := ws }
  | .tile i x y => s.modTile i x y fun t => { t with walks := ws }

/-- Places of a waiter buffer (R182). -/
def Home.capacity : Home → Nat
  | .slice _ => 1024
  | .tile _ _ _ => 16

/-- A request marked with its arrival at a home, which counts it. -/
def State.arrive (s : State) (h : Home) (rq : Req) : State × Req :=
  match h with
  | .slice sl =>
    let x := s.slice sl
    (s.setSlice sl { x with arrivals := x.arrivals + 1 }, { rq with arrival := x.arrivals, since := s.now })
  | .tile i x y =>
    match s.launch? i with
    | none => (s, rq)
    | some l =>
      let t := l.tile x y
      (s.setLaunch i (l.setTile x y { t with arrivals := t.arrivals + 1 }), { rq with arrival := t.arrivals, since := s.now })

/-- The PARKED flag of a granule. -/
def State.parkedAt (s : State) (h : Home) (key : Nat) : Bool :=
  match h with
  | .slice sl => s.granuleParked sl key
  | .tile i x y => match s.launch? i with
    | some l => NSet.has (l.tile x y).parkedRows key
    | none => false

/-- The state with a PARKED flag written. -/
def State.setParkedAt (s : State) (h : Home) (key : Nat) (b : Bool) : State :=
  match h with
  | .slice sl => s.setGranuleParked sl key b
  | .tile i x y => s.modTile i x y fun t => { t with parkedRows := NSet.set t.parkedRows key b }

/-- GRANULE of a kennel entry: the virtual address, or the tile granule key (R186). -/
def Home.granule (h : Home) (key : Nat) : DWord :=
  match h with
  | .slice _ => BitVec.ofNat 64 (granuleVa key)
  | .tile _ x y => BitVec.ofNat 64 (2 ^ 63 + (x * 2 ^ 21 + y * 2 ^ 15 + key * 16) * 4)

/-- Regions whose kennels may hold entries of a granule (R186, R187). -/
def State.parkRegions (s : State) (h : Home) (key : Nat) : List Nat :=
  match h with
  | .slice sl => ((s.slice sl).directory.filter (·.1 == key)).map (·.2)
  | .tile i _ _ => [i]

/-! ### The scope checker (R116, R209) -/

/-- The record of the last release at a granule. -/
def State.releaseAt (s : State) (h : Home) (key : Nat) : Option Release :=
  match h with
  | .slice sl => ((s.slice sl).lines.find? (·.1 == key / 2)).bind fun l => (l.2.releases.getD (key % 2) none)
  | .tile i x y =>
    match s.launch? i with
    | none => none
    | some l => (SMap.get? (l.tile x y).releases key).map fun r =>
        { scope := r.1, die := l.dieOf r.2.1 r.2.2, space := l.record.space, inst := i, cell := r.2, outside := false }

/-- The state with a release recorded at a granule. -/
def State.setReleaseAt (s : State) (h : Home) (key : Nat) (rq : Req) : State :=
  match h with
  | .slice sl =>
    match SMap.get? (s.slice sl).lines (key / 2) with
    | none => s
    | some l =>
      let r : Release := { scope := rq.scope, die := rq.die, space := rq.space, inst := rq.inst, cell := rq.cell, outside := rq.outside }
      s.setSlice sl { s.slice sl with lines := SMap.insert (s.slice sl).lines (key / 2)
                                        { l with releases := l.releases.set (key % 2) (some r) } }
  | .tile i x y => s.modTile i x y fun t => { t with releases := SMap.insert t.releases key (rq.scope, rq.cell.1, rq.cell.2) }

/-- An acquire's scope includes the releaser (R116, R209). -/
def Req.includes (rq : Req) (r : Release) : Bool :=
  if r.outside then rq.scope == .sys
  else
    match rq.scope with
    | .cell => rq.inst == r.inst && rq.cell == r.cell
    | .region => rq.inst == r.inst
    | .die => rq.die == r.die
    | .dev => true
    | .sys => true

/-- DETAIL of a SCOPE trap (R145). -/
def scopeDetail (rq : Req) (r : Release) : DWord :=
  BitVec.ofNat 64 (rq.scope.code.toNat + 8 * r.scope.code.toNat + 64 * r.die +
    256 * (if rq.inst = r.inst && !r.outside then 1 else 0))

/-! ### Performing a request -/

/-- Requests on their way to a home over the networks. -/
def State.onLinks (s : State) (h : Home) : List Req :=
  match h with
  | .slice sl => (s.slice sl).reqs
  | .tile i x y => match s.launch? i with
    | some l => (l.tile x y).network
    | none => []

/-- A request of a number is on its way again: its source has not heard of it (R333). -/
def State.unanswered (s : State) (h : Home) (seq : Nat) : Bool :=
  match h with
  | .slice _ => s.slices.any fun e => (e.2.reqs ++ e.2.missing).any (·.seq == seq)
  | .tile _ _ _ => (s.onLinks h).any (·.seq == seq)

/-- The source that a party's requests come from: an element, whatever the access (R333). -/
def Party.source : Party → Party
  | .access i x y u _ _ => .access i x y u 0 0
  | p => p

/-- Saved replies with one more, a source's last 64 kept, and with them those that it has not heard: a resent request always finds its entry
(R333). -/
def keepReplies (rs : List (Party × Nat × Nat × Reply)) (unheard : Nat → Bool) (rq : Req) (r : Reply) :
    List (Party × Nat × Nat × Reply) :=
  let mine := rs.filter fun e => e.1.source == rq.party.source
  let others := rs.filter fun e => e.1.source != rq.party.source
  (rq.party, rq.seq, rq.granule, r) :: mine.take 63 ++ (mine.drop 63).filter (fun e => unheard e.2.1) ++ others

/-- A reply sent, kept in the reply cache where the request is performed at most once (R212, R333); a lost one does not arrive. -/
def State.answer (s : State) (h : Home) (rq : Req) (r : Reply) : State :=
  let s :=
    if !rq.op.once then s
    else match h with
      | .slice sl => s.setSlice sl { s.slice sl with replies := keepReplies (s.slice sl).replies (s.unanswered h) rq r }
      | .tile i x y => s.modTile i x y fun t => { t with replies := keepReplies t.replies (s.unanswered h) rq r }
  if rq.lost then s else s.deliver rq r

/-- The reply of a line fetched for a cell's cache ways: its 32 words, its 64 KiB frame and whether its page is uncached, with
the words' states and the line's write permission (R166, R344, R345). -/
def State.lineReply (s : State) (sl : Nat) (rq : Req) : Option Reply :=
  let key := rq.granule / 2
  match s.line? sl rq.space rq.va, s.view? sl rq.space (lineVa key) rq.inst, s.view? sl rq.space (lineVa key + 64) rq.inst with
  | some l, some v, some w =>
    let words := fun (v : View) => match v.counted with | some c => c.words | none => corrected v.words v.bad
    some (.ok (words v ++ words w ++ [BitVec.ofNat 32 (l.pa / 2 ^ 16), if l.uncached then 1 else 0]) (v.full ++ w.full)
      l.writable ((v.bad ++ w.bad).any id))
  | _, _, _ => none

/-- A drop gives a quota place to the region's oldest quota waiter, or to the oldest one that has room (R194). -/
def State.holdPlace (s : State) (sl inst : Nat) : State :=
  let x := s.slice sl
  let free := fun (r : Req) => s.quotaRoom sl r.inst && decide ((x.places.filter (· == r.inst)).length < (x.quota.filter (·.inst == r.inst)).length)
  match (x.quota.find? fun r => r.inst == inst && free r).orElse (fun _ => x.quota.find? free) with
  | some r => s.setSlice sl { x with places := x.places ++ [r.inst] }
  | none => s

/-- A request performed at its home, as one step: the state after it and whether the granule's state changed; none where
its condition does not hold. A waiter is checked for scope when it is performed (R209). -/
def State.tryPerform (s : State) (h : Home) (rq : Req) : Option (State × Bool) :=
  let key := rq.key
  match s.viewAt h key rq.inst with
  | none => none
  | some v =>
    match rq.op, h with
    | .line _, .slice sl => (s.lineReply sl rq).map fun r => (s.answer h rq r, false)
    | _, _ =>
      match v.perform rq.word rq.op with
      | .wait => none
      | .quota => none
      | .trap c d => some (s.answer h rq (.trap c d (BitVec.ofNat 64 rq.va)), false)
      | .done v' r changed acq rel ev =>
        let refused := if acq then (s.releaseAt h key).filter (fun x => !rq.includes x) else none
        match refused with
        | some x => some (s.answer h rq (.trap .scope (scopeDetail rq x) (BitVec.ofNat 64 rq.va)), false)
        | none =>
          let flags : Word := BitVec.ofNat 32 ((if v.counted.isSome then 1 else 0) + (if s.parkedAt h key then 2 else 0))
          let r : Reply := match rq.op, r with
            | .feGet _, .ok _ fs a b => .ok [flags] fs a b
            | _, r => r
          let owner : Option Nat := match h with
            | .slice sl => (SMap.get? (s.slice sl).granules key).map Granule.inst
            | .tile _ _ _ => none
          let s := s.setViewAt h key rq.inst v v' ev
          let s := if rel then s.setReleaseAt h key rq else s
          let s := match ev, h with
            | .dropped _ _, .slice sl => s.holdPlace sl (owner.getD rq.inst)
            | _, _ => s
          some (s.answer h rq r, changed)

/-! ### Parking (R186) -/

/-- A loss of a presented entry (R188): the record's bud falls by 1, in every entry of it, and at 0 the record traps WAITBUDGET, its RCW
with bud 0, and leaves the kennel. That the trap record shows the budget after the loss is a DESIGN CHOICE: log 112. -/
def State.loseBudget (s : State) (inst : Nat) (e : KEntry) : State :=
  match ((e.req.bind fun r => r.party.accessId?).orElse fun _ => e.access.map (·.id)).bind fun id => s.accessAt? inst e.x e.y e.unit id with
  | none => s
  | some a =>
    let c := a.record.ctl
    let r := a.record.setCtl { c with bud := c.bud - 1 }
    if c.bud.toNat ≤ 1 then
      s.resumeAccess inst e.x e.y e.unit ((a.withRecord r).answerAll (.trap .waitBudget 0 e.granule))
    else s.kennelMap inst fun f =>
      if f.ofAccess e.x e.y e.unit a.id then { f with record := r, access := f.access.map (·.withRecord r) } else f

/-- An entry loses that is not performed because a request took the state it needed (R188), but for one behind an entry that waited
for a resume queue (R187), and but for a fill parked at a pre-emption (R194). -/
def State.unserved (s : State) (h : Home) (key inst : Nat) (e : KEntry) : State :=
  let me := (inst, e.offset)
  if !e.spared && (s.walks h).any fun w => w.granule == key && !w.waited && w.robbed.contains me then
    (s.setWalks h ((s.walks h).map fun w => if w.granule == key then { w with robbed := w.robbed.filter (· != me) } else w)).loseBudget
      inst e
  else s

/-- A request's record written to its region's kennel, as a park entry of a granule. An entry of the record for the granule takes a
lane of it beside its others, or back in its place (R187); the entry in which the record stands becomes the granule's; otherwise the
access leaves its element for a new entry. With no free entry it traps KENNELFULL. -/
def State.parkOne (s : State) (h : Home) (rq : Req) : State :=
  match rq.party with
  | .access inst x y u id _ =>
    let s := s.moved inst
    match s.launch? inst, s.accessAt? inst x y u id with
    | some l, some a =>
      let g := h.granule rq.key
      let mine := l.kennel.entries.filter fun e => e.ofAccess x y u id
      match mine.find? (fun e => e.kind == .park && e.granule == g && e.req.isSome), mine.find? (fun e => e.access.isSome && e.req.isNone) with
      | some e, _ =>
        let rq := { rq with arrival := e.seq }
        if e.lanes.any (·.seq == rq.seq) then
          (s.kennelMap inst fun f => if f.offset = e.offset then { f with out := false } else f).unserved h rq.key inst e
        else s.kennelMap inst fun f => if f.offset = e.offset then { f with more := f.more ++ [rq] } else f
      | none, some e =>
        s.kennelMove inst e.offset fun e => { e with kind := .park, granule := g, seq := rq.arrival, req := some rq, out := false }
      | none, none =>
        let v := l.unit x y u
        let e : KEntry := { offset := 0, kind := .park, x := x, y := y, unit := u, port := 0, seq := rq.arrival, granule := g,
                            opid := opidOf v a.op, record := a.record, access := v.flight.find? (·.id == id), req := some rq,
                            failed := false, out := false, words := [] }
        match s.kennelPut inst e with
        | some s => s.modUnit inst x y u fun v => { v with flight := v.flight.filter (·.id != id) }
        | none => s.deliver rq (.trap .kennelFull 0 g)
    | _, _ => s
  | _ => s

/-- A park directory pair for a region's entries of a slice granule; none where the directory is full (R186). -/
def State.directoryPair (s : State) (h : Home) (key inst : Nat) : Option State :=
  match h with
  | .tile _ _ _ => some s
  | .slice sl =>
    let x := s.slice sl
    if x.directory.contains (key, inst) then some s
    else if x.directory.length < 4096 then some (s.setSlice sl { x with directory := x.directory ++ [(key, inst)] })
    else none

/-- A waiting record parked, with its directory pair. -/
def State.parkReq (s : State) (h : Home) (rq : Req) : State :=
  match s.directoryPair h rq.key rq.inst with
  | some s => s.parkOne h rq
  | none => s.deliver rq (.trap .kennelFull 1 (h.granule rq.key))

/-- The line of a granule's slice where it is of an uncached page and no access needs it any longer (R345). -/
def State.settleAt (s : State) (h : Home) (key : Nat) : State :=
  match h with
  | .slice sl => s.settleLine sl (granuleSpace key) (granuleVa key)
  | .tile _ _ _ => s

/-- The park of a granule: every buffered waiter of it that is a record, in order of arrival, then an arriving one; PARKED
is set (R186). Engine waiters stay buffered (R184). -/
def State.parkGranule (s : State) (h : Home) (key : Nat) (extra : List Req) : State :=
  let ws := s.waiters h
  let mine := ws.filter fun r => r.key == key && r.party.isRecord
  let s := s.setWaiters h (ws.filter fun r => !(r.key == key && r.party.isRecord))
  ((mine ++ extra).foldl (fun s r => s.parkReq h r) (s.setParkedAt h key true)).settleAt h key

/-- A request that does not hold becomes a waiter (R182); a record parks where the granule is parked or the buffer is full
(R186), an engine's request is refused where the buffer is full (R184). -/
def State.enqueue (s : State) (h : Home) (rq : Req) : State :=
  let (s, rq) := s.arrive h rq
  let full := decide (h.capacity ≤ (s.waiters h).length)
  if rq.party.isRecord then
    if s.parkedAt h rq.key then (s.parkReq h rq).settleAt h rq.key
    else if full then s.parkGranule h rq.key [rq]
    else s.setWaiters h (s.waiters h ++ [rq])
  else if full then
    match h with
    | .slice sl =>
      (s.setSlice sl { s.slice sl with refused := (s.slice sl).refused ++ [{ rq with retryAt := s.now + 64 }] }).settleAt h rq.key
    | .tile i x y => s.modTile i x y fun t => { t with network := t.network ++ [{ rq with retryAt := s.now + 64 }] }
  else s.setWaiters h (s.waiters h ++ [rq])

/-- The entry of a presented fill while the fill waits in the quota queue: it holds the record, and no walk presents it (R194). -/
def State.heldOut (s : State) (rq : Req) : State :=
  match rq.party with
  | .access inst x y u id _ =>
    s.kennelMap inst fun f => if f.ofAccess x y u id then { f.answered rq.seq with out := true } else f
  | _ => s

/-- A fill whose quota is exhausted queues, or is refused where the quota queue is full (R194). -/
def State.enqueueQuota (s : State) (sl : Nat) (rq : Req) : State :=
  let (s, rq) := (s.heldOut rq).arrive (.slice sl) rq
  let x := s.slice sl
  if x.quota.length < 64 then s.setSlice sl { x with quota := x.quota ++ [rq] }
  else (s.setSlice sl { x with refused := x.refused ++ [{ rq with retryAt := s.now + 64 }] }).settleAt (.slice sl) rq.granule

/-! ### The satisfying pass and the walk -/

/-- A slice line does not permit the write of a request: it must be translated first (R343). -/
def State.needsWrite (s : State) (h : Home) (rq : Req) : Bool :=
  match h with
  | .tile _ _ _ => false
  | .slice sl =>
    match s.line? sl rq.space rq.va with
    | none => true
    | some l => rq.op.writes (s.view? sl rq.space rq.va rq.inst) rq.pos && !l.writable

/-- A request sent to its die's controller for a translation (R320, R343). -/
def State.askWalk (s : State) (sl : Nat) (rq : Req) : State :=
  let x := s.slice sl
  let s := s.setSlice sl { x with missing := x.missing ++ [rq] }
  let d := sl / 64
  s.setDie d { s.die d with walkQ := (s.die d).walkQ ++ [{ slice := sl, req := rq }] }

/-- The oldest waiter of a granule that waits for its state no longer: it can be performed, or is a fill without quota (R183, R194). -/
def State.readyWaiter (s : State) (h : Home) (key : Nat) : Option Req :=
  (s.waiters h).find? fun r => r.key == key &&
    (match s.viewAt h key r.inst with | some v => v.stirs r.word r.op | none => false)

/-- Park entries of a granule in the kennels of regions, as (instance, entry). -/
def State.parkEntries (s : State) (h : Home) (key : Nat) (insts : List Nat) : List (Nat × KEntry) :=
  insts.flatMap fun i => match s.launch? i with
    | none => []
    | some l => (l.kennel.entries.filter fun e => e.kind == .park && e.req.isSome && e.granule == h.granule key).map (i, ·)

/-- Entries that a walk would have performed on a granule as it was and cannot perform on it as it is (R188). -/
def State.robbedEntries (s : State) (h : Home) (key : Nat) (before : View) : List (Nat × Nat) :=
  match s.viewAt h key 0 with
  | none => []
  | some now =>
    (s.parkEntries h key (s.parkRegions h key)).filterMap fun (i, e) =>
      if e.lanes.any fun r => before.ready r.word r.op && !now.ready r.word r.op then some (i, e.offset) else none

/-- Entries from which a performed request took what they needed, noted in the walk that is to present them (R188). -/
def State.noteLosses (s : State) (h : Home) (key : Nat) (before : Option View) : State :=
  match before with
  | none => s
  | some v =>
    let ws := s.walks h
    if ws.any (·.granule == key) then
      let robbed := s.robbedEntries h key v
      s.setWalks h (ws.map fun w => if w.granule == key then { w with robbed := w.robbed ++ robbed } else w)
    else s

/-- The satisfying pass of a granule (R183): the oldest waiter whose condition holds is performed and leaves the buffer,
its losers noted, and the pass starts again, until none holds. A fill that finds its quota exhausted leaves for the quota queue
(R191, R194). `fuel` bounds it by the waiters there are. -/
def State.satisfy (h : Home) (key : Nat) : Nat → State → State
  | 0, s => s
  | fuel + 1, s =>
    match s.readyWaiter h key with
    | none => s
    | some r =>
      let s := s.setWaiters h ((s.waiters h).filter (·.seq != r.seq))
      match h with
      | .slice sl =>
        if s.needsWrite h r then State.satisfy h key fuel (s.askWalk sl r)
        else match s.tryPerform h r with
          | some (s', _) => State.satisfy h key fuel (s'.noteLosses h key (s.viewAt h key r.inst))
          | none => State.satisfy h key fuel (s.enqueueQuota sl r)
      | .tile _ _ _ => match s.tryPerform h r with
          | some (s', _) => State.satisfy h key fuel (s'.noteLosses h key (s.viewAt h key r.inst))
          | none => s

/-- What follows a performed request: a walk of the granule where its state changed and it is parked, the loss noted by the entries
from which the request took what they needed, and the pass (R183, R187, R188). -/
def State.afterServe (s : State) (h : Home) (key : Nat) (changed fromWalk : Bool) (before : View) : State :=
  if !changed then s
  else
    let ws := s.walks h
    let s :=
      if !s.parkedAt h key then s
      else if ws.any (·.granule == key) then
        let s := if fromWalk then s else s.noteLosses h key (some before)
        s.setWalks h ((s.walks h).map fun w => if w.granule == key then { w with again := true } else w)
      else s.setWalks h (ws ++ [{ granule := key, collected := false, todo := [], robbed := [], again := false }])
    State.satisfy h key (s.waiters h).length s

/-- The replies that a home keeps (R333). -/
def State.savedReplies (s : State) (h : Home) : List (Party × Nat × Nat × Reply) :=
  match h with
  | .slice sl => (s.slice sl).replies
  | .tile i x y => match s.launch? i with
    | some l => (l.tile x y).replies
    | none => []

/-- The saved reply to a request: it has been performed, and is not performed again (R212). -/
def State.savedReply (s : State) (h : Home) (rq : Req) : Option Reply :=
  ((s.savedReplies h).find? fun e => e.1 == rq.party && e.2.1 == rq.seq).map (·.2.2.2)

/-- A request is that of a parked entry, presented by a walk of its granule (R187). -/
def State.isPresented (s : State) (rq : Req) : Bool :=
  match rq.party with
  | .access inst x y u id _ => match s.launch? inst with
    | some l => l.kennel.entries.any fun e => e.kind == .park && e.ofAccess x y u id
    | none => false
  | _ => false

/-- A request served at its home, its line present and permitting it: performed with the pass and walk it causes, or enqueued. One that a
walk presented takes nothing from the entries behind it (R188). -/
def State.serveAt (s : State) (h : Home) (rq : Req) : State :=
  let key := rq.key
  match s.viewAt h key rq.inst with
  | none => s
  | some before =>
    match s.tryPerform h rq with
    | some (s', changed) =>
      let s := s'.afterServe h key changed (s.isPresented rq) before
      match h with
      | .slice sl => s.settleLine sl rq.space rq.va
      | .tile _ _ _ => s
    | none =>
      match h, before.perform rq.word rq.op with
      | .slice sl, .quota => s.enqueueQuota sl rq
      | _, _ => s.enqueue h rq

/-- The element that an entry's record returns to has a free place in its resume queue (R187). -/
def State.canResume (s : State) (inst : Nat) (e : KEntry) : Bool :=
  match s.launch? inst with
  | some l => (l.unit e.x e.y e.unit).canResume
  | none => false

/-- Entries in increasing SEQ. -/
def bySeq (es : List (Nat × KEntry)) : List (Nat × KEntry) := sortBy (fun a b => decide (a.2.seq ≤ b.2.seq)) es

/-- An entry presented (R187): a lane of it that can be performed is performed, as a new request would be, and the entry is presented
again for its other lanes; with none, the walk goes on by `next`. A slice whose line does not permit the access has it translated
first. -/
def State.present (s : State) (h : Home) (key inst : Nat) (e : KEntry) (next : State → State) : State :=
  let s := s.moved inst
  let stirs := fun (r : Req) => match s.viewAt h key inst with
    | some v => v.stirs r.word r.op
    | none => false
  match e.lanes.find? fun r => s.needsWrite h r, e.lanes.find? stirs with
  | some r, _ =>
    match h with
    | .slice sl => ((next s).kennelMap inst fun f => if f.offset = e.offset then { f with out := true } else f).askWalk sl r
    | .tile _ _ _ => next s
  | none, some r =>
    match s.viewAt h key inst, s.tryPerform h r, h with
    | some before, some (s', changed), _ =>
      (if e.more.isEmpty then next s' else s').afterServe h key changed true before
    | _, none, .slice sl => (next s).enqueueQuota sl r
    | _, _, _ => next s
  | none, none => (next s).unserved h key inst e

/-- One step of the unpark engine on a granule's walk (R187): collect the entries, present the next one, or end. -/
def State.unparkStep (s : State) (h : Home) (key : Nat) : State :=
  let ws := s.walks h
  match ws.find? (·.granule == key) with
  | none => s
  | some w =>
    let put := fun (s : State) (w : ParkWalk) => s.setWalks h ((s.walks h).map fun v => if v.granule == key then w else v)
    let drop := fun (s : State) => (s.setWalks h ((s.walks h).filter fun v => v.granule != key)).settleAt h key
    if !w.collected then
      let insts := s.parkRegions h key
      let all := s.parkEntries h key insts
      if all.isEmpty then
        let s := drop (s.setParkedAt h key false)
        match h with
        | .slice sl => s.setSlice sl { s.slice sl with directory := (s.slice sl).directory.filter (·.1 != key) }
        | .tile _ _ _ => s
      else
        let here := all.filter fun p => !p.2.out && (match s.launch? p.1 with | some l => l.resident | none => false)
        put s { w with collected := true, todo := (bySeq here).map fun p => (p.1, p.2.offset) }
    else
      match w.todo with
      | [] => if w.again then put s { w with collected := false, again := false, waited := false } else drop s
      | (inst, o) :: rest =>
        let next := fun (s : State) => s.setWalks h ((s.walks h).map fun v => if v.granule == key then { v with todo := rest } else v)
        match (s.launch? inst).bind fun l => l.kennel.entries.find? (·.offset == o) with
        | none => next s
        | some e =>
          if e.lanes.isEmpty || e.out then next s
          else if !s.canResume inst e then put s { w with waited := true }
          else
            let s := s.readEntry inst e
            if (s.launch? inst).all fun l => l.fatal.isSome then next s else s.present h key inst e next

/-- A walk of a granule stands at an entry whose element has no free place: the home holds the granule's requests (R187). -/
def State.walkHolds (s : State) (h : Home) (key : Nat) : Bool :=
  match (s.walks h).find? (·.granule == key) with
  | none => false
  | some w =>
    match w.todo with
    | [] => false
    | (inst, o) :: _ =>
      match (s.launch? inst).bind fun l => l.kennel.entries.find? (·.offset == o) with
      | some e => !s.canResume inst e
      | none => false

/-- The kennel words of a park of a granule are not yet written: the home holds the granule's requests (R186). -/
def State.parkOwes (s : State) (h : Home) (key : Nat) : Bool :=
  (s.parkRegions h key).any fun i => match s.launch? i with
    | some l => !l.kennel.owed.isEmpty && l.kennel.entries.any fun e => e.kind == .park && e.granule == h.granule key
    | none => false

/-- A request of a granule is being translated or filled: the granule's other requests wait behind it (R182). -/
def State.fillHolds (s : State) (h : Home) (key : Nat) : Bool :=
  match h with
  | .slice sl => (s.slice sl).missing.any (·.granule == key)
  | .tile _ _ _ => false

/-! ### Synchronising accesses within a step -/

/-- An access performed within a step at its home slice, which may hold the granule's requests (R182, R186, R187), with all that follows it
there: an acquire checked for scope, its release recorded,
its granule's waiters and parked entries served (R183, R187, R209). -/
def State.performNow (s : State) (rq : Req) : Now Reply :=
  (s.ensureLine rq.space rq.va (rq.op.writes none 0)).bind fun s sl =>
    let h := Home.slice sl
    let settled := fun (s : State) => s.settleLine sl rq.space rq.va
    if s.fillHolds h rq.key || s.walkHolds h rq.key || s.parkOwes h rq.key then .wait s
    else
    match s.viewAt h rq.key rq.inst with
    | none => .denied s
    | some v =>
      match v.perform rq.word rq.op with
      | .done v' r changed acq rel ev =>
        match (if acq then (s.releaseAt h rq.key).filter (fun x => !rq.includes x) else none) with
        | some x => .ok (settled s) (.trap .scope (scopeDetail rq x) (BitVec.ofNat 64 rq.va))
        | none =>
          let s := s.setViewAt h rq.key rq.inst v v' ev
          let s := if rel then s.setReleaseAt h rq.key rq else s
          .ok (settled (s.afterServe h rq.key changed false v)) r
      | _ => .denied (settled s)

/-! ### Removing requests -/

/-- The held places of a slice that a quota waiter of their region still stands for (R194). -/
def keptPlaces (quota : List Req) (places : List Nat) : List Nat :=
  places.foldl (fun acc i =>
    if (acc.filter (· == i)).length < (quota.filter (·.inst == i)).length then acc ++ [i] else acc) []

/-- Held places whose waiters are gone given to the oldest waiters that have room (R194). -/
def State.freePlaces (s : State) : State :=
  s.slices.foldl (fun (s : State) e =>
    let kept := keptPlaces e.2.quota e.2.places
    if kept.length = e.2.places.length then s
    else
      (e.2.places.drop kept.length).foldl (fun (s : State) i => s.holdPlace e.1 i) (s.setSlice e.1 { s.slice e.1 with places := kept })) s

/-- Lines of uncached pages that no access needs any longer leave their slices (R345). -/
def State.settleAll (s : State) : State :=
  s.slices.foldl (fun (s : State) e =>
    (e.2.lines.filter fun p => p.2.uncached).foldl (fun (s : State) p => s.settleLine e.1 (lineSpace p.1) (lineVa p.1)) s) s

/-- Every request that a test picks, removed from homes, controllers and queues, with the quota places that were held for them. -/
def State.removeReqs (s : State) (p : Req → Bool) : State :=
  let keep := fun (rs : List Req) => rs.filter fun r => !p r
  let walkKeep := fun (rs : List WalkReq) => rs.filter fun r => !p r.req
  let slice := fun (x : Slice) => { x with
    reqs := keep x.reqs, waiters := keep x.waiters, missing := keep x.missing, quota := keep x.quota, refused := keep x.refused,
    fills := x.fills.filter fun f => (keep x.missing).any (·.seq == f.1) }
  let die := fun (d : Die) => { d with
    caught := keep d.caught, catchRefused := keep d.catchRefused, walkQ := walkKeep d.walkQ, stalled := walkKeep d.stalled,
    logQ := walkKeep d.logQ,
    cow := d.cow.map fun (c : CowJob) => { c with writes := c.writes.filter fun w => !p w.2 } }
  let tile := fun (t : TileState) => { t with reqs := keep t.reqs, network := keep t.network, waiters := keep t.waiters }
  let region := fun (l : Launch) => { l with tiles := SMap.mapValues TileState.reset tile l.tiles }
  { s with
    slices := SMap.mapValues Slice.reset slice s.slices
    dies := s.dies.map die
    launches := s.launches.map fun (e : Nat × Launch) => (e.1, region e.2) }.freePlaces.settleAll

end Sys2Proof.Machine
end

