-- ==== Sys2Proof/Machine/Pool.lean ====
section
/-! DEFINITION. Machine/Pool.lean: the context pool (R369): its units, the runs that regions hold, and the table at its start. -/

namespace Sys2Proof.Machine

/-- 4 KiB units of the pool. -/
def State.poolUnits (s : State) : Nat := field s.ctxCtl 0 28 / 4
/-- Units that the pool's table takes. -/
def State.tableUnits (s : State) : Nat := (s.poolUnits + 32767) / 32768
/-- The space of the pool. -/
def State.poolSpace (s : State) : BitVec 12 := s.ctxCtl.extractLsb' 32 12

/-- Runs of units that regions hold. -/
def State.poolTaken (s : State) : List (Nat × Nat) := s.launches.filterMap fun e => e.2.context

/-- The first unit from `at_` where a run of n units is free: it passes over the runs that it meets. -/
def firstFree (taken : List (Nat × Nat)) (n : Nat) : Nat → Nat → Nat
  | 0, at_ => at_
  | fuel + 1, at_ =>
    match taken.find? fun r => decide (at_ < r.1 + r.2) && decide (r.1 < at_ + n) with
    | some r => firstFree taken n fuel (r.1 + r.2)
    | none => at_

/-- A run of n units by first fit, if the pool has one. -/
def State.poolFit (s : State) (n : Nat) : Option Nat :=
  let at_ := firstFree s.poolTaken n (s.poolTaken.length + 1) s.tableUnits
  if at_ + n ≤ s.poolUnits then some at_ else none

/-- The words of the table that cover a run of units, as the runs that regions hold leave them; a set bit is a unit in use. -/
def State.tableWords (s : State) (run : Nat × Nat) : List (Nat × Word) :=
  let used := fun (u : Nat) => decide (u < s.tableUnits) || s.poolTaken.any fun r => decide (r.1 ≤ u) && decide (u < r.1 + r.2)
  let first := run.1 / 32
  let last := (run.1 + run.2 - 1) / 32
  (List.range (last + 1 - first)).map fun k =>
    (4 * (first + k), BitVec.ofNat 32 ((List.range 32).foldl (fun (acc : Nat) b => if used (32 * (first + k) + b) then acc + 2 ^ b else acc) 0))

/-- The pool's table written where it covers a run (R369), or later, where its stores must wait. -/
def State.writeTable (s : State) (run : Nat × Nat) : State :=
  match s.storeRegion s.poolSpace ((s.tableWords run).map fun p => (s.ctxBase.toNat + p.1, p.2)) with
  | .wait s => { s with tableOwed := s.tableOwed ++ [run] }
  | done => done.state

/-- The table written where it is still to be written. -/
def State.payTable (s : State) : State := s.tableOwed.foldl (fun (s : State) run => s.writeTable run) { s with tableOwed := [] }

/-- A region's pool space freed (R369). -/
def State.freeContext (s : State) (inst : Nat) : State :=
  match (s.launch? inst).bind Launch.context with
  | none => s
  | some run => (s.modLaunch inst fun l => { l with context := none }).writeTable run

end Sys2Proof.Machine
end

