-- ==== Sys2Proof/Machine/Ops.lean ====
section
/-! DEFINITION. Machine/Ops.lean: the operations every instruction shares: finding the unit at the focus, sending records
along routes (R18 to R20, R154, R155), the treatment of a record by an operation (R68 to R71, R27), taking a trap (R225 to
R229) and returning from one (R81). -/

namespace Sys2Proof.Machine

/-- The launch and unit at the focus. -/
def State.here (s : State) : Option (Launch × UnitState) :=
  (s.launch? s.focus.inst).map fun l => (l, l.unit s.focus.x s.focus.y s.focus.unit)

/-! ### Sending along routes -/

/-- Routes of an output port, in the order the configuration gave them (R79). -/
def Launch.routesOf (l : Launch) (x y unit port : Nat) : List Route :=
  l.routes.filter fun r => r.origin == { x := x, y := y, unit := unit, port := port }

/-- The route that delivers to an input port. -/
def Launch.routeInto (l : Launch) (x y unit port : Nat) : Option Route :=
  l.routes.find? fun r => r.dest == { x := x, y := y, unit := unit, port := port }

/-- A record as it travels on a network: a control route carries one bit (R19). -/
def Route.carried (rt : Route) (r : Record) : Record := if rt.net = 2 then controlBit r else r

/-- Records that stand in the latch of a matrix tile's sequence port, where the tile looks at them (R299). -/
def Launch.inStepLatch (l : Launch) (p : Port) : Nat :=
  if p.unit = 12 && p.port = 4 && (l.mtile p.x p.y).latch.isSome then 1 else 0

/-- A route can accept a record: its registers and its destination's latch hold fewer than they can (R154). -/
def Launch.canAccept (l : Launch) (rt : Route) : Bool :=
  decide (((l.unit rt.dest.x rt.dest.y rt.dest.unit).port rt.dest.port).length + l.inStepLatch rt.dest < rt.capacity)

/-- A record put on a route. -/
def Launch.accept (l : Launch) (rt : Route) (r : Record) : Launch :=
  let u := l.unit rt.dest.x rt.dest.y rt.dest.unit
  l.setUnit rt.dest.x rt.dest.y rt.dest.unit (u.setPort rt.dest.port (u.port rt.dest.port ++ [rt.carried r]))

/-- A record leaving by a port: on every route of it, or on one of them by its number (R79). -/
structure Out where
  port : Nat
  route : Option Nat
  record : Record
  deriving DecidableEq, Repr

/-- The routes a record leaves by. -/
def Launch.outRoutes (l : Launch) (x y unit : Nat) (o : Out) : List Route :=
  let rs := l.routesOf x y unit o.port
  match o.route with
  | none => rs
  | some i => (rs[i]?).toList

/-- Every route that the records need can accept (R20, R154). -/
def Launch.canSend (l : Launch) (x y unit : Nat) (outs : List Out) : Bool :=
  outs.all fun o => (l.outRoutes x y unit o).all l.canAccept

/-- A record sent on its routes; a port without a route discards it, which counts in DROPS (R155). -/
def Launch.sendOne (l : Launch) (x y unit : Nat) (o : Out) : Launch :=
  match l.outRoutes x y unit o with
  | [] => { l with drops := l.drops + 1 }
  | rs => rs.foldl (fun l rt => l.accept rt o.record) l

/-- Records sent. -/
def Launch.send (l : Launch) (x y unit : Nat) (outs : List Out) : Launch := outs.foldl (fun l o => l.sendOne x y unit o) l

/-- A record on every route of out0. -/
def out0 (r : Record) : Out := { port := 0, route := none, record := r }
/-- A record on every route of out1. -/
def out1 (r : Record) : Out := { port := 1, route := none, record := r }

/-- The head of an input port taken. -/
def UnitState.pop (u : UnitState) (p : Nat) : UnitState := u.setPort p ((u.port p).drop 1)

/-- The trace posts of a die written, oldest first, until one must wait; one that its stores cannot make is lost. `n` bounds it by the posts
there are. -/
def State.payPosts (d : Nat) : Nat → State → State
  | 0, s => s
  | n + 1, s =>
    let x := s.die d
    let slots := field x.trCtl 0 20
    match x.pendingPosts with
    | [] => s
    | ws :: rest =>
      let gone := fun (s : State) => s.setDie d { s.die d with pendingPosts := rest }
      if !x.trCtl.getLsbD 63 || slots = 0 then State.payPosts d n (gone s)
      else
        match s.writeRegion (x.trCtl.extractLsb' 32 12) (x.trBase.toNat + x.trHead.toNat % slots * 16) ws with
        | .ok s _ => State.payPosts d n ((gone s).setDie d { (gone s).die d with trHead := (s.die d).trHead + 1 })
        | .wait s => s
        | other => State.payPosts d n (gone other.state)

/-- A trace post (R27, R374): cycle, ord, operation index and block, to the die's buffer. -/
def State.tracePost (s : State) (d : Nat) (u : UnitState) (ord : Word) : State :=
  let x := s.die d
  if !x.trCtl.getLsbD 63 || field x.trCtl 0 20 = 0 then s
  else
    let cycle := BitVec.ofNat 64 s.now
    let info : Word := (0 : BitVec 9) ++ u.opIndex ++ u.block ++ (0 : BitVec 8)
    (s.setDie d { x with pendingPosts := x.pendingPosts ++ [[info, ord, lo32 cycle, hi32 cycle]] }).payPosts d (x.pendingPosts.length + 1)

/-- What controllers owe to memory, written where it can be now: kennel words, the pool's table, reports and trace posts that a switch of
domains or the copy-on-write engine held up (R325, R336). -/
def State.payAll (s : State) : State :=
  (List.range 4).foldl (fun (s : State) d =>
    (s.payReports d (s.die d).pendingReports.length).payPosts d (s.die d).pendingPosts.length) s.payKennels.payTable

/-! ### An operation and its record -/

/-- What an operation does with the record it takes: it sends records and leaves the unit so (acc, LFSR); it traps; or it
waits. -/
inductive Effect where
  | send (u : UnitState) (outs : List Out)
  | trap (cause : Cause) (detail addr : DWord)
  | wait
  deriving DecidableEq, Repr

/-- The region's units act: it is running, draining for a pre-emption, or restored but for its sources (R370), and no region-fatal error waits (R230). -/
def Launch.acts (l : Launch) : Bool :=
  (l.phase == .running || l.phase == .preempting || (l.phase == .restoring && l.saved.isNone)) && l.fatal.isNone

/-- A unit's inputs are not held by a commit (R97). -/
def UnitState.open_ (u : UnitState) : Bool := !u.paused && !(u.flight.any fun a => u.settling.contains a.id)

/-- The operation of a unit takes records: its region acts, its head record is not held by a trap, and no commit holds its inputs, and a
YIELD operation of a region being pre-empted diverts its records instead (R366). -/
def Launch.takes (l : Launch) (u : UnitState) : Bool := l.acts && u.open_ && !u.held && !(l.phase == .preempting && u.yields)

/-- A trap of the record at the head of in0: it stays in its latch until its trap is reported (R71, R227). -/
def State.trapHead (s : State) (r : Record) (c : Cause) (detail addr : DWord) : State :=
  let f := s.focus
  match s.here with
  | none => s
  | some (_, u) =>
    (s.modUnit f.inst f.x f.y f.unit fun v => { v with held := true }).raise f.inst
      (trapAt u f.x f.y f.unit r c detail addr (.latch 0))

/-- The record an operation acts on: BREAK traps it, or clears TRAPPED where a handler sent it back (R27, R228). -/
def breakpoint (u : UnitState) (r : Record) : Option Record :=
  if u.breaks && !r.isToken then
    (if r.ctl.trapped then some (r.setCtl { r.ctl with trapped := false }) else none)
  else some r

/-- The record of an operation leaves: its latch is freed, the unit's acc, LFSR and ports are as the effect left them, the
records go out on their routes, and a TRACE operation posts (R27). -/
def State.complete (s : State) (u' : UnitState) (outs : List Out) (ord : Word) : State :=
  let f := s.focus
  match s.here with
  | none => s
  | some (l, v) =>
    let l := (l.setUnit f.x f.y f.unit ({ v with acc := u'.acc, lfsr := u'.lfsr, ins := u'.ins }.pop 0)).send f.x f.y f.unit outs
    let s := s.setLaunch f.inst { l with lastMove := s.now }
    if v.traces then s.tracePost (l.dieOf f.x f.y) v ord else s

/-- An operation of one record: the head of in0 is taken, the effect is computed, and its records leave once every route
can accept them (R20, R68). `act` is what the operation does beside its record; a fault of it is region-fatal (R91). -/
def recordStep (f : Launch → UnitState → Record → Effect) (act : Launch → Record → State → Now Unit) (s : State) :
    Host.Outcome State Fault Refusal :=
  match s.here with
  | none => .next s
  | some (l, u) =>
    match u.port 0 with
    | [] => .next s
    | r0 :: _ =>
      if !l.takes u then .next s
      else
        match breakpoint u r0 with
        | none => .next (s.trapHead r0 .brk 0 0)
        | some r =>
          match f l u r with
          | .wait => .next s
          | .trap c d a => .next (s.trapHead r0 c d a)
          | .send u' outs =>
            if !l.canSend s.focus.x s.focus.y s.focus.unit outs then .next s
            else
              match act l r s with
              | .ok s _ => .next (s.complete u' outs r.ctl.ord)
              | .wait s => .next s
              | other => .next (State.failRegion s.focus.inst l.record.baseBlk other.state)

/-- An operation that only handles its record. -/
def recordOp (f : Launch → UnitState → Record → Effect) (s : State) : Host.Outcome State Fault Refusal :=
  recordStep f (fun _ _ s => .ok s ()) s

/-- An operation that passes tokens unchanged (R69). -/
def plainOp (f : Launch → UnitState → Record → Effect) (s : State) : Host.Outcome State Fault Refusal :=
  recordOp (fun l u r => if r.isToken then .send u [out0 r] else f l u r) s

/-- An operation that only computes a record (R68, R69). -/
def computeOp (f : Record → Record) (s : State) : Host.Outcome State Fault Refusal :=
  plainOp (fun _ u r => .send u [out0 (f r)]) s

/-! ### Taking a trap (R225 to R229) -/

/-- Trap cause codes (R223). -/
def Cause.code : Cause → BitVec 8
  | .illegal => 0x01 | .brk => 0x02 | .trapop => 0x03 | .callDepth => 0x04 | .retEmpty => 0x05 | .misalign => 0x06
  | .noncanon => 0x07 | .protect => 0x08 | .attr => 0x09 | .waitBudget => 0x0A | .overread => 0x0B | .scope => 0x0C
  | .poison => 0x0D | .format => 0x0E | .bound => 0x0F | .unmapped => 0x10 | .deviceErr => 0x11 | .killed => 0x12
  | .kennelFull => 0x13 | .depth => 0x14

/-- The words of a trap record (R42). -/
def trapWords (l : Launch) (cycle : DWord) (t : TrapInfo) : List Word :=
  let place : Word := BitVec.ofNat 32 (l.absY t.y * 2 ^ 24 + l.absX t.x * 2 ^ 16 + t.y * 2 ^ 8 + t.x)
  t.record.all ++ [lo32 t.record.rcw, hi32 t.record.rcw,
    (0 : BitVec 4) ++ BitVec.ofNat 4 t.unit ++ (0 : BitVec 1) ++ t.opIndex ++ t.block ++ t.cause.code, place,
    lo32 t.addr, hi32 t.addr, lo32 t.detail, hi32 t.detail, l.record.space ++ (0 : BitVec 20), 0, lo32 cycle, hi32 cycle,
    0, 0, 0, 0]

/-- A trap record written to the region's ring, or counted as lost where the ring is full; TRAPS, TRAPLOST and FIRSTCAUSE
as the status block keeps them (R39, R42, R225). A fault or an error on either structure is region-fatal, and names it (R224, R230). -/
def State.writeTrap (s : State) (inst : Nat) (t : TrapInfo) : Now Unit :=
  match s.launch? inst with
  | none => .ok s ()
  | some l =>
    let space := l.record.space
    let status := l.record.statusAddr.toNat
    let failed := State.failRegion inst l.record.statusAddr
    ((s.readRegion space (status + 0x30) 1).failing failed).bind fun s cons =>
      let full := l.traps - cons.getD 0 0 == l.record.trapEntries.zeroExtend 32
      let first := if l.firstCause = 0 then t.cause.code else l.firstCause
      if full then
        ((s.storeRegion space [(status + 8, l.trapLost + 1)]).failing failed).bind fun s _ =>
          .ok (s.modLaunch inst fun l => { l with trapLost := l.trapLost + 1, firstCause := first }) ()
      else
        let entry := l.record.trapAddr.toNat + l.traps.toNat % l.record.trapEntries.toNat * 128
        ((s.storeRegion space (placed entry (trapWords l (s.cycles l) t))).failing (State.failRegion inst l.record.trapAddr)).bind fun s _ =>
          ((s.storeRegion space [(status + 4, l.traps + 1)]).failing failed).bind fun s _ =>
            .ok (s.modLaunch inst fun l => { l with traps := l.traps + 1, firstCause := first }) ()

/-- The trapped record taken from where it waited (R226, R227). -/
def State.release (s : State) (inst : Nat) (t : TrapInfo) : State :=
  match t.holder with
  | .latch p => s.modUnit inst t.x t.y t.unit fun u => { u.pop p with held := false }
  | .access id => s.modUnit inst t.x t.y t.unit fun u =>
      { u with flight := u.flight.filter (·.id != id), resume := u.resume.filter (·.id != id) }
  | .item =>
    let more := match s.launch? inst with
      | some l => l.trapQ.any fun q => q.holder == .item && q.x == t.x && q.y == t.y && q.unit == t.unit
      | none => false
    s.modUnit inst t.x t.y t.unit fun u => { u with held := more }
  | .sideLog => s

/-- Two rectangles of pages, by origin and width and height minus 1, share a page. -/
def overlap (ax ay aw ah bx by_ bw bh : Nat) : Bool :=
  decide (ax ≤ bx + bw) && decide (bx ≤ ax + aw) && decide (ay ≤ by_ + bh) && decide (by_ ≤ ay + ah)

/-- Pages held for a launch that a region keeps after all are held no longer (R363, R368). -/
def State.unhold (s : State) (v : Launch) : State :=
  let f := fun (w : Launch) => match w.held with
    | some (x, y) =>
      if overlap x y w.record.width.toNat w.record.height.toNat v.px v.py v.record.width.toNat v.record.height.toNat then
        { w with held := none }
      else w
    | none => w
  { s with launches := s.launches.map fun e => (e.1, f e.2) }

/-- A record put back at the head of a port, behind the record there whose trap has not been reported yet. -/
def UnitState.putBack (u : UnitState) (port : Nat) (trapped : Bool) (r : Record) : UnitState :=
  match trapped, u.port port with
  | true, q :: rest => u.setPort port (q :: r :: rest)
  | _, rs => u.setPort port (r :: rs)

/-- A pre-emption given up (R368): sources resume, records diverted at yield points go back to their ports ahead of any
other, a place that a compaction held for the region is held no longer, its pool space is freed (R369), and for 16 quantum ends the region is not chosen again; a monitor event names it. -/
def State.abandonPreempt (s : State) (inst : Nat) : State :=
  match s.launch? inst with
  | none => s
  | some l =>
    if !(l.phase == .preempting || l.wanted && l.phase == .running) then s
    else
      let ys := sortBy (fun a b => decide (b.seq ≤ a.seq)) (l.kennel.entries.filter (·.kind == .yieldEntry))
      let trapped := fun (e : KEntry) => l.trapQ.any fun t => t.x == e.x && t.y == e.y && t.unit == e.unit && t.holder == .latch e.port
      let s := ys.foldl (fun s e => s.readEntry inst e) s
      let s := ys.foldl (fun s e => s.modUnit inst e.x e.y e.unit fun u => u.putBack e.port (trapped e) e.record) s
      let s := s.kennelFree inst (·.kind == .yieldEntry)
      let s := (s.freeContext inst).modLaunch inst fun l =>
        { l with phase := .running, wanted := false, exempt := 16, moving := none, held := none }
      let s := s.unhold l
      s.event l.die 7 0 l.record.space 0 (BitVec.ofNat 32 inst)

/-- The region goes on under halt: its sources stop (R175); a pre-emption under way is given up (R368). -/
def State.beginHalt (s : State) (inst : Nat) : State :=
  (s.modLaunch inst fun l => { l with halting := true, lastMove := s.now }).abandonPreempt inst

/-- A trap can be delivered to the handler block (R227, R228); a discarded side-log entry has no record to deliver. -/
def Launch.delivers (l : Launch) (t : TrapInfo) : Bool :=
  l.record.policy == 2 && !l.halting && t.holder != .sideLog && !t.record.ctl.trapped && t.record.ctl.ret1 == 0

/-- Taking a trap, the one operation by which the region controller takes the exception at the head of its queue: the trap
record is written and counted (R42, R225), the record leaves its place, and the policy decides its fate: removed under
continue (R226), delivered under handler to the block HBLK with TRAPPED set, its block and return block saved in ret0 and ret1
and blk := HBLK (R227), removed under halt, which then begins (R175), as it does for a trap that cannot be delivered (R228).
A delivery with no free place waits with its trap record (R227). A fault on the ring or the status block is region-fatal
(R225, R230). -/
def State.takeTrap (s : State) (inst : Nat) (t : TrapInfo) : State :=
  match s.launch? inst with
  | none => s
  | some l =>
    let deliver := l.delivers t
    if deliver && decide (16 ≤ l.handlerQ.length) then s
    else
      match s.writeTrap inst t with
      | .ok s _ =>
        let s := s.modLaunch inst fun l => { l with trapQ := l.trapQ.erase t, lastMove := s.now }
        let s := s.release inst t
        if deliver then
          s.modLaunch inst fun l => { l with handlerQ := l.handlerQ ++ [t.record.delivered l.record.hblk] }
        else if l.record.policy = 0 || (l.record.policy == 2 && t.holder == .sideLog) then s
        else s.beginHalt inst
      | .wait s => s
      | other => other.state

/-- The return from a trap (R81, ret.trap): the record goes back to the block in ret0, ret1 moves up, TRAPPED stays. -/
def Record.returned (r : Record) : Record :=
  r.setCtl { r.ctl with blk := r.ctl.ret0, ret0 := r.ctl.ret1, ret1 := 0 }

end Sys2Proof.Machine
end

