-- ==== Sys2Proof/Machine/Peer.lean ====
section
/-! DEFINITION. Machine/Peer.lean: accesses in peer space (R215, R217, R341, R345, R380). A plain store is acknowledged when the port
accepts it and performed at the peer's home later. What stands at a peer's home is what the accesses of this part left there, or what
another party has written since, which is open. -/

namespace Sys2Proof.Machine

/-- The key of a word at a peer: the part and the word's address there. -/
def peerKey (part : BitVec 8) (addr i : Nat) : Nat := part.toNat * 2 ^ 62 + addr / 4 + i

/-- The words that an access finds at a peer's home from a word on: each as this part's accesses left it, unless another party has
written it since; what it finds then is what stands there. -/
def State.peerWords (s : State) (p : PeerReq) : Nat → Nat → List Word × State
  | _, 0 => ([], s)
  | i, n + 1 =>
    let key := peerKey p.part p.addr i
    let w := match SMap.get? s.peerMem key with
      | some w => if Config.peerWrote p.req.seq i then Config.peerWord p.req.seq i else w
      | none => Config.peerWord p.req.seq i
    let (ws, s) := State.peerWords { s with peerMem := SMap.insert s.peerMem key w } p (i + 1) n
    (w :: ws, s)

/-- Words written at a peer's home from word i on. -/
def State.peerPut (s : State) (p : PeerReq) : Nat → List Word → State
  | _, [] => s
  | i, w :: ws => State.peerPut { s with peerMem := SMap.insert s.peerMem (peerKey p.part p.addr i) w } p (i + 1) ws

/-- Words of a value of one word or a pair. -/
def atomWords (pair : Bool) (v : DWord) : List Word := if pair then [lo32 v, hi32 v] else [lo32 v]

/-- An access that counts as a write for protection and copy-on-write where its home is a peer: there the peer says whether a .tc load
succeeds, and so whether it writes (R199, R341). -/
def HomeOp.writesAtPeer (op : HomeOp) (seq : Nat) : Bool :=
  match op with
  | .load .tc _ => Config.peerHeld seq
  | _ => op.writes none 0

/-- A request performed at a peer's home: its reply. Full/empty states there, and the tests of .tc and .tf, are the peer's own. -/
def State.peerPerform (s : State) (p : PeerReq) : State × Reply :=
  let rq := p.req
  let fulls := fun (n : Nat) => (List.range n).map fun i => (Config.peerWord rq.seq (16 + i)).getLsbD 0
  let value := fun (ws : List Word) => pair64 (ws.getD 0 0) (ws.getD 1 0)
  match rq.op with
  | .load .tc n =>
    if Config.peerHeld rq.seq then
      let (ws, s) := s.peerWords p 0 n
      (s, .ok ws (List.replicate n true) true false)
    else (s, .ok [] [] false false)
  | .load _ n =>
    let (ws, s) := s.peerWords p 0 n
    (s, .ok ws (fulls n) true false)
  | .count _ =>
    let (ws, s) := s.peerWords p 0 16
    (s, .ok ws (List.replicate 16 true) true false)
  | .store .tf ws => if Config.peerHeld rq.seq then (s.peerPut p 0 ws, replyDone) else (s, .ok [] [] false false)
  | .store _ ws | .fill _ ws | .storeStates ws _ | .storeEmpty ws | .writeBack ws => (s.peerPut p 0 ws, replyDone)
  | .atom opcode pair x _ =>
    let (ws, s) := s.peerWords p 0 (if pair then 2 else 1)
    let new := atomValue opcode pair (value ws) x
    (s.peerPut p 0 (atomWords pair new), .ok ws [] (new != value ws) false)
  | .cas pair expected new _ =>
    let (ws, s) := s.peerWords p 0 (if pair then 2 else 1)
    let same := if pair then value ws == expected else lo32 (value ws) == lo32 expected
    (if same then s.peerPut p 0 (atomWords pair new) else s, .ok ws [] same false)
  | .feGet n => (s, .ok [Config.peerWord rq.seq 32 &&& 3] (fulls n) false false)
  | _ => (s, replyDone)

/-- A plain store, which the port accepts before the peer's home performs it (R215). -/
def HomeOp.posts : HomeOp → Bool
  | .store .plain _ => true
  | _ => false

/-- Two requests to a peer that touch a word in common. -/
def PeerReq.overlaps (p q : PeerReq) : Bool :=
  p.part == q.part && decide (p.addr < q.addr + 4 * q.req.op.words) && decide (q.addr < p.addr + 4 * p.req.op.words)

/-- Of posted stores in the order in which the port accepted them, those that a test picks, and with each the earlier ones to a word of
its: only stores to different addresses change places (R215). -/
def duePosts (due : PeerReq → Bool) : List PeerReq → List PeerReq
  | [] => []
  | p :: ps => let later := duePosts due ps; if due p || later.any p.overlaps then p :: later else later

/-- Posted stores performed at their homes, those that a test picks and what goes before them, in their order. -/
def State.peerArrive (s : State) (due : PeerReq → Bool) : State :=
  let go := duePosts due s.peerReqs
  go.foldl (fun (s : State) p => (s.peerPerform p).1) { s with peerReqs := s.peerReqs.filter fun p => !go.contains p }

/-- Every posted store performed: what a release at sys waits for (R205 step 1, R215). -/
def State.peerSettle (s : State) : State := s.peerArrive fun _ => true

/-- A request at the port of a peer: a plain store is accepted; any other is performed at the peer's home, behind the posted stores to the
same words and those that have reached their homes by then (R215). -/
def State.peerRequest (s : State) (p : PeerReq) : State × Reply :=
  if p.req.op.posts then ({ s with peerReqs := s.peerReqs ++ [p] }, replyDone)
  else (s.peerArrive fun q => q.overlaps p || Config.peerArrived s.tick q.req.seq).peerPerform p

end Sys2Proof.Machine
end

