-- ==== Sys2Proof/Machine/Ways.lean ====
section
/-! DEFINITION. Machine/Ways.lean: the cache-way banks of a cell (R110, R166): finding, filling and replacing lines, their
write-back (R203, R235, R344), and what a release and an acquire do to them (R126, R205). A line's data stands in the
words of its bank: word i of the line of set t in bank n is bank word 32t + i. -/

namespace Sys2Proof.Machine

/-- The banks of a cell's tile that are cache ways. -/
def Launch.wayBanks (l : Launch) (x y : Nat) : List Nat := (List.range 16).filter fun b => l.bankMode x y b == 1

/-- The set of an address (R166). -/
def waySet (va : Nat) : Nat := va / 128 % 64
/-- The key of a line's place: bank and set. -/
def wayKey (bank set : Nat) : Nat := bank * 64 + set
/-- The tile word of word i of a line's place. -/
def wayWord (key i : Nat) : Nat := (32 * (key % 64) + i) * 16 + key / 64

/-- The place of the line of an address, where the ways hold it. -/
def TileState.wayOf (t : TileState) (space : BitVec 12) (va : Nat) : Option (Nat × WayLine) :=
  t.ways.find? fun w => w.2.space == space && w.2.line == va / 128

/-- The words of a line's place. -/
def TileState.wayWords (t : TileState) (key : Nat) : List Word := (List.range 32).map fun i => SMap.getD t.words (wayWord key i) 0

/-- The words of a line that are uncorrectable. -/
def TileState.wayBad (t : TileState) (key : Nat) : List Bool := (List.range 32).map fun i => NSet.has t.bad (wayWord key i)

/-- A tile with words of a line's place written from word i on. -/
def TileState.setWayWords (t : TileState) (key : Nat) : Nat → List Word → TileState
  | _, [] => t
  | i, w :: ws =>
    TileState.setWayWords { t with words := SMap.put t.words 0 (wayWord key i) w, bad := NSet.remove t.bad (wayWord key i) }
      key (i + 1) ws

/-- A tile with a line touched: the newest in age, kept where its last touch had hint 10 (R166). -/
def TileState.touch (t : TileState) (key : Nat) (w : WayLine) (hint : Hint) : TileState :=
  { t with ways := SMap.insert t.ways key { w with age := t.clock, keep := hint == .keep }, clock := t.clock + 1 }

/-- A line dirty: its last store had scope cell (R166). -/
def WayLine.dirty (w : WayLine) : Bool := w.wscope == 0

/-- A granule of a slice line marked uncorrectable (R235). -/
def State.poisonGranule (s : State) (sl : Nat) (space : BitVec 12) (va : Nat) : State :=
  match s.line? sl space va with
  | some l => s.setLine sl space va { l with bad := setRange l.bad (va / 64 % 2 * 16) (List.replicate 16 true), dirty := true }
  | none => s

/-- One granule of a line written back at its slice, in one step; an uncorrectable word is charged to the space in the tag
and the granule is written poisoned (R203, R235). -/
def State.wayGranule (s : State) (space : BitVec 12) (va inst : Nat) (data : List Word) (bad : Bool) : State :=
  match s.accessNow space va inst (.writeBack data) with
  | .ok s _ =>
    if bad then
      (s.poisonGranule (s.homeSlice va) space va).event (vaDie va) 2 1 space (BitVec.ofNat 64 va) 0
    else s
  | other => other.state

/-- The 64 KiB frame that the table names for an address: none where it maps no memory of this part. -/
def State.leafFrameAt (s : State) (space : BitVec 12) (va : Nat) : Option Nat :=
  match s.walk (vaDie va) space va with
  | .leaf _ _ e => if pteAttr e = 2 then none else some ((pteAddr e + va % leafBytes (pteSize e)) / 2 ^ 16)
  | _ => none

/-- A dirty line written back, or discarded with a report where its page is no longer writable, mapped or the same frame
(R166, R344), or waiting for the copy-on-write engine or a domain switch: whether it is done, and the state. The line is clean
afterwards. -/
def State.wayWriteBack (s : State) (inst x y key : Nat) : Bool × State :=
  match s.launch? inst with
  | none => (true, s)
  | some l =>
    let t := l.tile x y
    match SMap.get? t.ways key with
    | none => (true, s)
    | some w =>
      if !w.dirty then (true, s)
      else
        let va := w.line * 128
        let words := t.wayWords key
        let bad := t.wayBad key
        let clean := fun (s : State) => s.modTile inst x y fun t =>
          { t with ways := SMap.insert t.ways key { w with wscope := 7, cow := false } }
        let report := fun (s : State) => s.event (vaDie va) 1 1 w.space (BitVec.ofNat 64 va) 0
        match s.ensureLine w.space va true with
        | .ok s sl =>
          let frame := (s.line? sl w.space va).map fun l => l.pa / 2 ^ 16
          if w.frame.isSome && frame != w.frame then (true, report (clean s))
          else
            let s := s.wayGranule w.space va inst (words.take 16) ((bad.take 16).any id)
            let s := s.wayGranule w.space (va + 64) inst (words.drop 16) ((bad.drop 16).any id)
            (true, clean s)
        | .wait s =>
          let cow := (s.die (vaDie va)).cow.any fun c => c.space == w.space && c.page == va / 2 ^ 16
          if cow && w.frame.isSome && s.leafFrameAt w.space va != w.frame then (true, report (clean s))
          else (false, if cow then s.modTile inst x y fun t => { t with ways := SMap.insert t.ways key { w with cow := true } } else s)
        | .fault s => (true, (clean s).faultEvent w.space va 1)
        | other => (true, report (clean other.state))

/-- Write-backs of lines by their places, in order, until one must wait. -/
def State.writeBackWays (s : State) (inst x y : Nat) : List Nat → Bool × State
  | [] => (true, s)
  | k :: ks =>
    match s.wayWriteBack inst x y k with
    | (true, s) => State.writeBackWays s inst x y ks
    | (false, s) => (false, s)

/-- Every dirty line of a cell's ways written back to its home (R126, R205): whether all were, and the state. -/
def State.flushWays (s : State) (inst x y : Nat) : Bool × State :=
  match s.launch? inst with
  | none => (true, s)
  | some l => s.writeBackWays inst x y (((l.tile x y).ways.filter fun w => w.2.dirty).map (·.1))

/-- The lines that an access has fetched, or is fetching, for the cell's ways are older than an acquire (R207, R208). -/
def Access.outdated (a : Access) : Access := { a with lanes := a.lanes.map fun l => { l with stale := true } }

/-- The clean lines of a cell's ways invalidated (R126, R205), and with them the lines that are on their way to the ways for an access
of the cell: no read after the acquire is served by them. -/
def State.dropClean (s : State) (inst x y : Nat) : State :=
  [6, 7].foldl (fun (s : State) u => s.modUnit inst x y u fun v => { v with flight := v.flight.map Access.outdated })
    (s.modTile inst x y fun t => { t with ways := t.ways.filter fun w => w.2.dirty })

/-- What a release at a scope does before its own access (R205): the issuing cell's dirty lines go home, and at sys the peers' homes perform
what this part has posted. -/
def State.releaseWays (s : State) (inst x y : Nat) (sc : Scope) : Bool × State :=
  if sc != .cell then (if sc == .sys then s.peerSettle else s).flushWays inst x y else (true, s)

/-- What an acquire at a scope does after its own access (R205): the issuing cell's clean lines go. -/
def State.acquireWays (s : State) (inst x y : Nat) (sc : Scope) : State :=
  if sc != .cell then s.dropClean inst x y else s

/-- The place a new line of a set takes (R166): an empty way, or the least recently used line, one kept by hint 10 only
where every line of the set was. -/
def TileState.victim (t : TileState) (banks : List Nat) (set : Nat) : Option Nat :=
  match banks.find? fun b => (SMap.get? t.ways (wayKey b set)).isNone with
  | some b => some (wayKey b set)
  | none =>
    let lines := t.ways.filter fun w => w.1 % 64 == set
    let free := lines.filter fun w => !w.2.keep
    let pool := if free.isEmpty then lines else free
    (pool.foldl (fun (best : Option (Nat × WayLine)) w => match best with
      | none => some w
      | some b => if w.2.age < b.2.age then some w else some b) none).map (·.1)

/-- A line installed in a cell's ways, its victim written back: whether it was done, and the state. A cell without ways
installs nothing. -/
def State.installWay (s : State) (inst x y : Nat) (space : BitVec 12) (va : Nat) (words : List Word) (full : List Bool)
    (writable : Bool) (frame : Nat) (hint : Hint) : Bool × State :=
  match s.launch? inst with
  | none => (true, s)
  | some l =>
    match (l.tile x y).victim (l.wayBanks x y) (waySet va) with
    | none => (true, s)
    | some key =>
      match s.wayWriteBack inst x y key with
      | (false, s) => (false, s)
      | (true, s) =>
        (true, s.modTile inst x y fun t =>
          (t.setWayWords key 0 words).touch key
            { space := space, line := va / 128, wscope := 7, writable := writable, full := full, frame := some frame, keep := false,
              age := 0 } hint)

/-- An access that the cell's ways serve (R110): global space, scope cell, hint 00 or 10, a plain form, and a tile that has
ways. -/
def Launch.wayServed (l : Launch) (x y : Nat) (m : MemRef) (plain : Bool) : Bool :=
  plain && m.space == .global && m.scope == .cell && (m.hint == .dflt || m.hint == .keep) && !(l.wayBanks x y).isEmpty

/-- Words of a line that the ways hold, read. -/
def TileState.wayRead (t : TileState) (key va n : Nat) : List Word := getRange (t.wayWords key) (va / 4 % 32) n

/-- Words stored in a line that the ways hold, with the scope of the store; full/empty bits stay (R166). A line that takes no
writes keeps its WSCOPE under a store of scope cell, which its slice performed. -/
def TileState.wayStore (t : TileState) (key : Nat) (w : WayLine) (va : Nat) (data : List Word) (sc : Scope) (hint : Hint) : TileState :=
  (t.setWayWords key (va / 4 % 32) data).touch key
    (if sc = .cell && !w.writable then w else { w with wscope := sc.code }) hint

/-- A line that an access fetched, or is fetching, for the cell's ways is older than a store of the cell: the ways do not keep it (R203). -/
def Access.outdatedAt (a : Access) (line : Nat) : Access :=
  let global := match memRefOf a.op with
    | some (_, m) => m.space == .global
    | none => false
  { a with lanes := a.lanes.map fun l => if global && l.addr.toNat / 128 == line then { l with stale := true } else l }

/-- Fetches of a line for a cell's ways overtaken by a store of the cell (R203). -/
def State.overtakeFetches (s : State) (inst x y va : Nat) : State :=
  [6, 7].foldl (fun (s : State) u =>
    s.modUnit inst x y u fun v => { v with flight := v.flight.map fun a => a.outdatedAt (va / 128) }) s

/-- A store performed at the slice updates the line in the issuing cell's ways, and records its scope there (R110). It counts as a use of
the line for its age, and leaves the mark of hint 10 as it is: DESIGN CHOICE, log 94. -/
def State.wayUpdate (s : State) (inst x y : Nat) (va : Nat) (data : List Word) (sc : Scope) : State :=
  let s := s.overtakeFetches inst x y va
  match s.launch? inst with
  | none => s
  | some l =>
    match (l.tile x y).wayOf l.record.space va with
    | some (key, w) =>
      s.modTile inst x y fun t => t.wayStore key w va data sc (if w.keep then .keep else .dflt)
    | none => s

/-- n words from an address as a plain load of an element at a scope reads them: from the cell's ways where they serve it
and hold the line, otherwise at the slices (R110). -/
def State.loadVia (s : State) (inst x y : Nat) (m : MemRef) (space : BitVec 12) (va : Nat) : Nat → Now (List Word)
  | 0 => .ok s []
  | n + 1 =>
    let held := match s.launch? inst with
      | some l => if l.wayServed x y m true then (l.tile x y).wayOf space va |>.map fun w => (l.tile x y).wayRead w.1 va 1 else none
      | none => none
    match held with
    | some ws => (State.loadVia s inst x y m space (va + 4) n).bind fun s rest => .ok s (ws ++ rest)
    | none => (s.loadWords space va 1).bind fun s ws =>
        (State.loadVia s inst x y m space (va + 4) n).bind fun s rest => .ok s (ws ++ rest)

/-- The way lines of a page whose write-back waits for the copy-on-write engine, as the service of the page leaves them: a copy gives them
its frame (R336, R344). -/
def State.rebindWays (s : State) (space : BitVec 12) (page : Nat) (frame : Option Nat) : State :=
  let line := fun (w : WayLine) =>
    if w.cow && w.space == space && w.line / 512 == page then { w with cow := false, frame := frame.orElse fun _ => w.frame } else w
  let tile := fun (t : TileState) => { t with ways := t.ways.map fun (e : Nat × WayLine) => (e.1, line e.2) }
  { s with launches := s.launches.map fun (e : Nat × Launch) => (e.1, { e.2 with tiles := SMap.mapValues TileState.reset tile e.2.tiles }) }

end Sys2Proof.Machine
end

