-- ==== Sys2Proof/Machine/Issue.lean ====
section
/-! DEFINITION. Machine/Issue.lean: an access element taking a record and making its access: effective addresses and their
checks (R106 to R108), the range scoreboard (R112), the eight places (R111), tokens (R173), the release before an access
(R205), and where each lane of it is performed (R110). -/

namespace Sys2Proof.Machine

/-! ### Effective addresses -/

/-- The index word of an access: w[a], or 0 with v = 15 (R106). -/
def indexWord (m : MemRef) (r : Record) : Word := if m.shift = 15 then 0 else r.w m.a

/-- The effective address of an index (R106): a tile word address in the tile spaces, otherwise a byte address. -/
def effectiveAddr (l : Launch) (m : MemRef) (idx : Word) : DWord :=
  match m.space with
  | .ownTile | .regionTile => (idx + m.imm8.signExtend 32 * BitVec.ofNat 32 m.size.words).zeroExtend 64
  | .global | .peer =>
    l.base m.base + (idx.zeroExtend 64 <<< (if m.shift = 15 then 0 else m.shift.toNat)) +
      m.imm8.signExtend 64 * BitVec.ofNat 64 (4 * m.size.words)

/-- A trap found at the access element: cause, DETAIL and ADDR. -/
abbrev TrapOf := Cause × DWord × DWord

/-- TX, TY and WORD of a region-tile address (R107). -/
def tilePlace (t : Nat) : Nat × Nat × Nat := (t / 2 ^ 21 % 128, t / 2 ^ 15 % 64, t % 2 ^ 15)

/-- The region-tile address of a tile word of a cell. -/
def tileAddr (x y w : Nat) : Nat := x * 2 ^ 21 + y * 2 ^ 15 + w

/-- The place of an access of n words at an effective address, or the trap of R107 or R108 with the lane where R145 puts
it. BOUND is tested first, then MISALIGN, then NONCANON. -/
def locate (l : Launch) (x y : Nat) (m : MemRef) (n : Nat) (lane : Nat) (ea : DWord) : Except TrapOf Loc :=
  let misalign : TrapOf := (.misalign, BitVec.ofNat 64 (m.size.code.toNat + 256 * lane), ea)
  let bound : TrapOf := (.bound, BitVec.ofNat 64 (ea.toNat + 2 ^ 32 * lane), ea)
  let t := ea.toNat
  match m.space with
  | .ownTile =>
    if 2 ^ 15 ≤ t then .error bound
    else if t % n ≠ 0 then .error misalign
    else .ok (.tile x y t)
  | .regionTile =>
    let (tx, ty, w) := tilePlace t
    if 2 ^ 28 ≤ t || !l.has tx ty then .error bound
    else if t % n ≠ 0 then .error misalign
    else .ok (.tile tx ty w)
  | .global | .peer =>
    if t % (4 * n) ≠ 0 then .error misalign
    else if !canonical ea then .error (.noncanon, BitVec.ofNat 64 (256 * lane), ea)
    else .ok (if m.space == .global then .glob ea else .peer ea)

/-! ### Lanes -/

/-- One lane of an access to be made: its number, its address as a trap reports it, its place, what it asks there, and
whether it is of a plain form, which cache ways may serve. -/
structure LaneReq where
  lane : Nat
  addr : DWord
  loc : Loc
  op : HomeOp
  plain : Bool
  deriving DecidableEq, Repr

/-- The bytes of a place from it on: the space of the scoreboard and the lowest byte. -/
def Loc.bytes : Loc → Nat × Nat
  | .tile x y w => (1, 4 * tileAddr x y w)
  | .glob va => (0, va.toNat)
  | .peer va => (2, va.toNat)

/-- The scoreboard entry of a lane (R112). -/
def LaneReq.range (q : LaneReq) (write : Bool) : Range :=
  let (space, lo) := q.loc.bytes
  { space := space, lo := lo, hi := lo + 4 * q.op.words, write := write }

/-- Two ranges that may not be in progress together (R112). -/
def Range.clash (a b : Range) : Bool :=
  a.space == b.space && decide (a.lo < b.hi) && decide (b.lo < a.hi) && (a.write || b.write)

/-- Whether an operation enters ranges, and as writes (R112). -/
def rangeKind (i : Instr) : Option Bool :=
  match i with
  | .ld _ _ _ | .ldv _ _ _ | .ldvN _ _ _ | .gather _ _ | .src _ _ => some false
  | .st _ _ _ | .stv _ _ _ | .stvN _ _ _ | .dropN _ _ | .feSet _ _ | .scatter _ _ | .sink _ _ => some true
  | .atomAdd _ _ _ _ | .atomSub _ _ _ _ | .atomMin _ _ _ _ | .atomMax _ _ _ _ | .atomAnd _ _ _ _ | .atomOr _ _ _ _
  | .atomXor _ _ _ _ | .atomSwap _ _ _ _ | .atomIncw _ _ _ _ | .atomFaddF32 _ _ _ _ | .atomFaddBf16x2 _ _ _ _
  | .atomFmax _ _ _ _ | .cas _ _ _ _ => some true
  | _ => none

/-- An operation that traps POISON on a poisoned record (R113). -/
def poisonTraps (i : Instr) : Bool :=
  match i with
  | .st _ _ _ | .stv _ _ _ | .stvN _ _ _ | .feSet _ _ | .scatter _ _ | .sink _ _ | .copy _ | .binApp _ | .pageMap _
  | .pageUnmap _ | .pageShare _ | .pageProt _ | .spaceRetire _ | .tlbInv _ | .faultResume _ | .faultFail _ => true
  | .atomAdd _ _ _ _ | .atomSub _ _ _ _ | .atomMin _ _ _ _ | .atomMax _ _ _ _ | .atomAnd _ _ _ _ | .atomOr _ _ _ _
  | .atomXor _ _ _ _ | .atomSwap _ _ _ _ | .atomIncw _ _ _ _ | .atomFaddF32 _ _ _ _ | .atomFaddBf16x2 _ _ _ _
  | .atomFmax _ _ _ _ | .cas _ _ _ _ => true
  | _ => false

/-! ### The scoreboard and the places -/

/-- The span of a copy's rows at one end, from its lowest to its highest byte (R112): space code, base words, stride, rows
and bytes of a row. -/
def rowSpan (space : Nat) (base : DWord) (stride : Word) (rows bytes : Nat) (write : Bool) : List Range :=
  let lo : Int := if space = 1 then 4 * (base.toNat % 2 ^ 32 : Int) else (base.toNat : Int)
  let reach : Int := stride.toInt * ((rows : Int) - 1)
  let bottom := lo + (if reach < 0 then reach else 0)
  let top := lo + (if reach < 0 then 0 else reach) + bytes
  if space ≤ 2 then [{ space := space, lo := bottom.toNat, hi := top.toNat, write := write }] else []

/-- SSPACE, DSPACE, ROWS and ROWBYTES of a copy descriptor (R135). -/
def descSSpace (d : Vector Word 16) : Nat := ((d.get 8).extractLsb' 8 4).toNat
/-- DSPACE. -/
def descDSpace (d : Vector Word 16) : Nat := ((d.get 8).extractLsb' 12 4).toNat
/-- ROWS. -/
def descRows (d : Vector Word 16) : Nat := (d.get 5).toNat
/-- ROWBYTES. -/
def descBytes (d : Vector Word 16) : Nat := (d.get 4).toNat

/-- The ranges of a copy (R112). -/
def copyRanges (d : Vector Word 16) : List Range :=
  rowSpan (descSSpace d) (pair64 (d.get 0) (d.get 1)) (d.get 6) (descRows d) (descBytes d) false ++
  rowSpan (descDSpace d) (pair64 (d.get 2) (d.get 3)) (d.get 7) (descRows d) (descBytes d) true

/-- Ranges of the copies that an element issued and that have not written their completion word (R112). -/
def State.copiesOf (s : State) (inst x y unit : Nat) : List Range :=
  s.copies.flatMap fun e => (e.2.filter fun (j : CopyJob) => j.inst == inst && j.x == x && j.y == y && j.unit == unit).flatMap
    fun j => copyRanges j.desc

/-- An access's ranges clash with one in progress at its element (R112). -/
def State.clashes (s : State) (u : UnitState) (inst x y unit : Nat) (rs : List Range) : Bool :=
  let held := u.flight.flatMap Access.pending ++ s.copiesOf inst x y unit
  rs.any fun a => held.any a.clash

/-- Accesses that hold a place of their element (R111); a token performs none (R173). -/
def UnitState.places (u : UnitState) : Nat := (u.flight.filter fun a => !a.record.isToken).length

/-- Accesses that keep an element from taking another of an operation (R111): a launch that has come back from the fault queue holds its
element as one that has just been issued does (R96). -/
def UnitState.busy (u : UnitState) (i : Instr) : Nat :=
  match i with
  | .launch _ => u.places + u.resume.length
  | _ => u.places

/-- Accesses that an element may have in progress: 8 (R111), of launch and cfg 1 (R72). -/
def placesOf (i : Instr) : Nat :=
  match i with
  | .launch _ => 1
  | .cfg _ _ _ => 1
  | _ => 8

/-- The banks of the own cell's tile that a lane needs; none where it goes elsewhere. -/
def LaneReq.ownBanks (x y : Nat) (q : LaneReq) : List Nat :=
  match q.loc with
  | .tile tx ty w => if tx == x && ty == y then banksFrom w q.op else []
  | _ => []

/-- Lanes that go to the own cell's tile have room in its request buffer, behind the requests already issued and with their banks open
(R164, R170, R174); they wait in the element otherwise. -/
def Launch.roomFor (l : Launch) (x y : Nat) (lanes : List LaneReq) : Bool :=
  let own := (lanes.map (·.ownBanks x y)).filter (!·.isEmpty)
  let t := l.tile x y
  own.isEmpty || (decide (t.reqs.length + own.length ≤ 32) && !t.network.any Req.own && own.all fun bs => t.takesBanks bs)

/-! ### Making an access -/

/-- The scope a request is performed at (R10, R116): region of a region that spans dies is dev, and a synchronising peer
access is at sys. -/
def Launch.requestScope (l : Launch) (m : MemRef) (i : Instr) : Scope :=
  if m.space == .peer && (acquires i || releases i) then .sys else l.scope m.scope

/-- One lane made: answered at once by the cell's ways where they serve it, otherwise sent to its home. A miss of the ways
asks for the line; a store to a line that takes no writes goes to the slice. -/
def State.startLane (s : State) (inst x y unit id : Nat) (i : Instr) (m : MemRef) (q : LaneReq) : State × Option Reply :=
  match s.launch? inst with
  | none => (s, none)
  | some l =>
    let rq := mkReq (.access inst x y unit id q.lane) l.record.space q.loc q.op (l.requestScope m i) inst (x, y) (l.dieOf x y)
    if !l.wayServed x y m q.plain then (s.post rq, none)
    else
      let va := rq.va
      match (l.tile x y).wayOf l.record.space va, q.op with
      | some (key, w), .load _ n =>
        let t := l.tile x y
        let words := t.wayRead key va n
        let bad := getRange (t.wayBad key) (va / 4 % 32) n
        (s.modTile inst x y fun t => t.touch key w m.hint,
         some (replyWords (corrected words bad) (getRange w.full (va / 4 % 32) n) true (bad.any (· == true))))
      | some (key, w), .store _ data =>
        if w.writable then
          ((s.overtakeFetches inst x y va).modTile inst x y fun t => t.wayStore key w va data .cell m.hint, some replyDone)
        else ((s.modTile inst x y fun t => { t with ways := SMap.erase t.ways key }).post rq, none)
      | none, .load _ _ => (s.post { rq with op := .line none }, none)
      | none, .store _ data => (s.post { rq with op := .line (some data) }, none)
      | _, _ => (s.post rq, none)

/-- Lanes made in ascending order, each reply that is there at once written into the access. -/
def State.startLanes (s : State) (inst x y unit id : Nat) (i : Instr) (m : MemRef) : List LaneReq → State
  | [] => s
  | q :: qs =>
    let (s, r) := s.startLane inst x y unit id i m q
    let s := match r with
      | some r => s.modUnit inst x y unit fun u =>
          { u with flight := u.flight.map fun a => if a.id = id then a.setReply q.lane r else a }
      | none => s
    State.startLanes s inst x y unit id i m qs

/-- An access begun: the record taken into a place, its ranges entered, its lanes made. -/
def State.startAccess (s : State) (i : Instr) (m : MemRef) (r : Record) (ea : DWord) (lanes : List LaneReq) : State :=
  let f := s.focus
  match s.here with
  | none => s
  | some (_, u) =>
    let ranges := match rangeKind i with
      | some w => lanes.map (·.range w)
      | none => []
    let a : Access := { id := u.nextId, record := r, op := i, ea := ea, ranges := ranges,
                        lanes := lanes.map fun q => { lane := q.lane, addr := q.addr, reply := none }, trapped := false, waitsFor := [] }
    let s := s.modUnit f.inst f.x f.y f.unit fun u => { u with flight := u.flight ++ [a], nextId := u.nextId + 1 }
    (s.modLaunch f.inst fun l => { l with lastMove := s.now }).startLanes f.inst f.x f.y f.unit a.id i m lanes

/-- An access whose lanes have their replies already: the record leaves by ACCESS_COMPLETE. -/
def State.answeredAccess (s : State) (i : Instr) (r : Record) (ea : DWord) (reply : Option Reply) : State :=
  let f := s.focus
  match s.here with
  | none => s
  | some (_, u) =>
    let a : Access := { id := u.nextId, record := r, op := i, ea := ea, ranges := [],
                        lanes := [{ lane := 0, addr := ea, reply := reply }], trapped := false, waitsFor := [] }
    (s.modUnit f.inst f.x f.y f.unit fun u => { u with flight := u.flight ++ [a], nextId := u.nextId + 1 }).modLaunch f.inst
      fun l => { l with lastMove := s.now }

/-- A token taken into an access element: it waits for the accesses in progress there, parked ones and records in the resume
queue among them (R173). DEDUCED: log 41. -/
def State.startToken (s : State) (i : Instr) (r : Record) : State :=
  let f := s.focus
  match s.here with
  | none => s
  | some (l, u) =>
    let away := (l.kennel.entries.filter fun e => e.x == f.x && e.y == f.y && e.unit == f.unit).filterMap fun (e : KEntry) =>
      e.access.map (·.id)
    let a : Access := { id := u.nextId, record := r, op := i, ea := 0, ranges := [], lanes := [], trapped := false,
                        waitsFor := (u.flight.filter fun b => !b.record.isToken).map (·.id) ++ u.resume.map (·.id) ++ away }
    (s.modUnit f.inst f.x f.y f.unit fun u => { u with flight := u.flight ++ [a], nextId := u.nextId + 1 }).modLaunch f.inst
      fun l => { l with lastMove := s.now }

/-- The access that a unit has just begun marked where its record came back from a breakpoint handler (R228). -/
def State.noteStep (s : State) (u : UnitState) (r0 r : Record) : State :=
  let f := s.focus
  if r = r0 then s
  else s.modUnit f.inst f.x f.y f.unit fun v =>
    { v with flight := v.flight.map fun a => if a.id = u.nextId then { a with stepped := true } else a }

/-- The head of in0 taken by an access element. -/
def State.takeHead (s : State) : State :=
  let f := s.focus
  s.modUnit f.inst f.x f.y f.unit fun u => u.pop 0

/-- What an access element does with a record: it traps, or it makes an access at an address by lanes and an action beside
them that may have to wait. -/
abbrev Plan := Launch → UnitState → Record → Except TrapOf (DWord × List LaneReq)

/-- The opcode of a unit's operation. -/
def UnitState.opcode (u : UnitState) : BitVec 8 := u.opBits.extractLsb' 40 8

/-- An access element's step on the record at its latch: BREAK and a free place (R27, R111), a token (R173), POISON (R113), the
checks of the plan, the scoreboard (R112), the release (R205), and the start, which `start` makes. -/
def accessStep (i : Instr) (m : MemRef) (plan : Plan)
    (start : Record → DWord → List LaneReq → State → Option State) (s : State) : Host.Outcome State Fault Refusal :=
  let f := s.focus
  match s.here with
  | none => .next s
  | some (l, u) =>
    match u.port 0 with
    | [] => .next s
    | r0 :: _ =>
      if !l.takes u then .next s
      else if r0.isToken then .next (s.takeHead.startToken i r0)
      else if placesOf i ≤ u.busy i then .next s
      else
        match breakpoint u r0 with
        | none => .next (s.trapHead r0 .brk 0 0)
        | some r =>
          if poisonTraps i && r.ctl.poison then
            .next (s.trapHead r0 .poison (u.opcode.zeroExtend 64) (effectiveAddr l m (indexWord m r)))
          else
            match plan l u r with
            | .error (c, d, a) => .next (s.trapHead r0 c d a)
            | .ok (ea, lanes) =>
              let ranges := match rangeKind i with
                | some w => lanes.map (·.range w)
                | none => []
              if s.clashes u f.inst f.x f.y f.unit ranges || !l.roomFor f.x f.y lanes then .next s
              else
                match (if releases i then s.releaseWays f.inst f.x f.y (l.requestScope m i) else (true, s)) with
                | (false, s) => .next s
                | (true, s) =>
                  match start r ea lanes s with
                  | none => .next s
                  | some s => .next (s.noteStep u r0 r)

/-- An access that is made by its lanes alone. -/
def accessOp (i : Instr) (m : MemRef) (plan : Plan) (s : State) : Host.Outcome State Fault Refusal :=
  accessStep i m plan (fun r ea lanes s => some (s.takeHead.startAccess i m r ea lanes)) s

/-- The plan of an access of one lane at the address of the tail, x and y the issuing cell. -/
def planOne (s : State) (m : MemRef) (n : Nat) (plain : Bool) (op : Record → HomeOp) : Plan := fun l _ r => do
  let ea := effectiveAddr l m (indexWord m r)
  let loc ← locate l s.focus.x s.focus.y m n 0 ea
  return (ea, [{ lane := 0, addr := ea, loc := loc, op := op r, plain := plain }])

end Sys2Proof.Machine
end

