-- ==== Sys2Proof/Machine/MemoryOps.lean ====
section
/-! DEFINITION. Machine/MemoryOps.lean: loads, stores, counted accesses, atomics, full/empty operations, prefetch, fence, gather
and scatter as access elements issue them (R114 to R128), and the launch instruction's read (R96). What each does at its
home stands in Machine/View.lean, and the record that leaves in Machine/Access.lean. -/

namespace Sys2Proof.Machine

/-! ### Loads and stores (R115) -/

/-- ld (R115). -/
def execLd (d : Reg) (sync : Sync) (m : MemRef) (s : State) : Host.Outcome State Fault Refusal :=
  accessOp (.ld d sync m) m (planOne s m m.size.words (sync == .plain) fun _ => .load sync m.size.words) s

/-- st (R115). -/
def execSt (d : Reg) (sync : Sync) (m : MemRef) (s : State) : Host.Outcome State Fault Refusal :=
  accessOp (.st d sync m) m
    (planOne s m m.size.words (sync == .plain) fun r => .store sync (r.slice d.toNat m.size.words)) s

/-- ldv (R115). -/
def execLdv (d : Reg) (sync : Sync) (m : MemRef) (s : State) : Host.Outcome State Fault Refusal :=
  accessOp (.ldv d sync m) m (planOne s m m.size.words (sync == .plain) fun _ => .load sync m.size.words) s

/-- stv (R115). -/
def execStv (d : Reg) (sync : Sync) (m : MemRef) (s : State) : Host.Outcome State Fault Refusal :=
  accessOp (.stv d sync m) m
    (planOne s m m.size.words (sync == .plain) fun r => .store sync (r.slice d.toNat m.size.words)) s

/-! ### Counted granules (R118 to R120) -/

/-- ldv.n (R119). -/
def execLdvN (d b : Reg) (m : MemRef) (s : State) : Host.Outcome State Fault Refusal :=
  accessOp (.ldvN d b m) m (planOne s m 16 false fun r => .count (r.w b)) s

/-- ILLEGAL with a sub-cause at an effective address (R145). -/
def illegalAt (sub : Nat) (ea : DWord) : TrapOf := (.illegal, BitVec.ofNat 64 sub, ea)

/-- The plan of stv.n (R118): its address, a reader count that is not 0, and a QUOTA for a global fill. -/
def planFill (s : State) (b : Reg) (m : MemRef) : Plan := fun l u r => do
  let (ea, lanes) ← planOne s m 16 false (fun r => .fill (r.w b) r.all) l u r
  if ctlReaders (r.w b) = 0 then throw (illegalAt 3 ea)
  if m.space == .global && l.record.quota == 0 then throw (illegalAt 9 ea)
  return (ea, lanes)

/-- stv.n (R118). -/
def execStvN (d b : Reg) (m : MemRef) (s : State) : Host.Outcome State Fault Refusal :=
  accessOp (.stvN d b m) m (planFill s b m) s

/-- drop.n (R120). -/
def execDropN (b : Reg) (m : MemRef) (s : State) : Host.Outcome State Fault Refusal :=
  accessOp (.dropN b m) m (planOne s m 16 false fun r => .done (r.w b)) s

/-! ### Atomics (R121, R122) -/

/-- The plan of an atomic: its opcode, and the operand of one word or a pair. -/
def planAtomic (s : State) (opcode : BitVec 8) (b : Reg) (o : Order) (m : MemRef) : Plan :=
  planOne s m m.size.words false fun r =>
    .atom opcode (m.size == .pair) (if m.size == .pair then r.pair b.toNat else (r.w b).zeroExtend 64) o

/-- atom.add (R121). -/
def execAtomAdd (d b : Reg) (o : Order) (m : MemRef) (s : State) : Host.Outcome State Fault Refusal :=
  accessOp (.atomAdd d b o m) m (planAtomic s 0x84 b o m) s
/-- atom.sub (R121). -/
def execAtomSub (d b : Reg) (o : Order) (m : MemRef) (s : State) : Host.Outcome State Fault Refusal :=
  accessOp (.atomSub d b o m) m (planAtomic s 0x85 b o m) s
/-- atom.min (R121). -/
def execAtomMin (d b : Reg) (o : Order) (m : MemRef) (s : State) : Host.Outcome State Fault Refusal :=
  accessOp (.atomMin d b o m) m (planAtomic s 0x86 b o m) s
/-- atom.max (R121). -/
def execAtomMax (d b : Reg) (o : Order) (m : MemRef) (s : State) : Host.Outcome State Fault Refusal :=
  accessOp (.atomMax d b o m) m (planAtomic s 0x87 b o m) s
/-- atom.and (R121). -/
def execAtomAnd (d b : Reg) (o : Order) (m : MemRef) (s : State) : Host.Outcome State Fault Refusal :=
  accessOp (.atomAnd d b o m) m (planAtomic s 0x88 b o m) s
/-- atom.or (R121). -/
def execAtomOr (d b : Reg) (o : Order) (m : MemRef) (s : State) : Host.Outcome State Fault Refusal :=
  accessOp (.atomOr d b o m) m (planAtomic s 0x89 b o m) s
/-- atom.xor (R121). -/
def execAtomXor (d b : Reg) (o : Order) (m : MemRef) (s : State) : Host.Outcome State Fault Refusal :=
  accessOp (.atomXor d b o m) m (planAtomic s 0x8A b o m) s
/-- atom.swap (R121). -/
def execAtomSwap (d b : Reg) (o : Order) (m : MemRef) (s : State) : Host.Outcome State Fault Refusal :=
  accessOp (.atomSwap d b o m) m (planAtomic s 0x8B b o m) s
/-- atom.incw (R121). -/
def execAtomIncw (d b : Reg) (o : Order) (m : MemRef) (s : State) : Host.Outcome State Fault Refusal :=
  accessOp (.atomIncw d b o m) m (planAtomic s 0x8C b o m) s
/-- atom.fadd.f32 (R121). -/
def execAtomFaddF32 (d b : Reg) (o : Order) (m : MemRef) (s : State) : Host.Outcome State Fault Refusal :=
  accessOp (.atomFaddF32 d b o m) m (planAtomic s 0x8D b o m) s
/-- atom.fadd.bf16x2 (R121). -/
def execAtomFaddBf16x2 (d b : Reg) (o : Order) (m : MemRef) (s : State) : Host.Outcome State Fault Refusal :=
  accessOp (.atomFaddBf16x2 d b o m) m (planAtomic s 0x8E b o m) s
/-- atom.fmax (R121). -/
def execAtomFmax (d b : Reg) (o : Order) (m : MemRef) (s : State) : Host.Outcome State Fault Refusal :=
  accessOp (.atomFmax d b o m) m (planAtomic s 0x8F b o m) s

/-- The expected and the new value of a cas (R122). -/
def casOperands (b : Reg) (m : MemRef) (r : Record) : DWord × DWord :=
  if m.size == .pair then (r.pair b.toNat, r.pair (b.toNat + 2))
  else ((r.at b.toNat).zeroExtend 64, (r.at (b.toNat + 1)).zeroExtend 64)

/-- cas (R122). -/
def execCas (d b : Reg) (o : Order) (m : MemRef) (s : State) : Host.Outcome State Fault Refusal :=
  accessOp (.cas d b o m) m
    (planOne s m m.size.words false fun r => .cas (m.size == .pair) (casOperands b m r).1 (casOperands b m r).2 o) s

/-! ### State, prefetch and fences (R123 to R126) -/

/-- fe.set.e and fe.set.f (R123). -/
def execFeSet (full : Bool) (m : MemRef) (s : State) : Host.Outcome State Fault Refusal :=
  accessOp (.feSet full m) m (planOne s m m.size.words false fun _ => .feSet full m.size.words) s

/-- fe.get (R124). -/
def execFeGet (d : Reg) (m : MemRef) (s : State) : Host.Outcome State Fault Refusal :=
  accessOp (.feGet d m) m (planOne s m m.size.words false fun _ => .feGet m.size.words) s

/-- The plan of pref (R125): the line is asked for; an address that would trap does nothing. -/
def planPref (s : State) (m : MemRef) : Plan := fun l u r =>
  match planOne s m 1 false (fun _ => .line none) l u r with
  | .ok p => .ok p
  | .error _ => .ok (effectiveAddr l m (indexWord m r), [])

/-- pref (R125). -/
def execPref (m : MemRef) (s : State) : Host.Outcome State Fault Refusal := accessOp (.pref m) m (planPref s m) s

/-- The tail of a fence: only its scope is not zero (R126). -/
def fenceRef (scope : Scope) : MemRef :=
  { shift := 0, a := 0, base := 0, space := .global, scope := scope, size := .word, hint := .dflt, imm8 := 0 }

/-- fence (R126): its release writes the cell's dirty lines back before the record is taken; its acquire drops the clean lines
when the record leaves. -/
def execFence (o : Order) (scope : Scope) (s : State) : Host.Outcome State Fault Refusal :=
  accessOp (.fence o scope) (fenceRef scope) (fun _ _ _ => .ok (0, [])) s

/-! ### Gather and scatter (R127, R128) -/

/-- The index of a skipped lane. -/
def skipped : Word := 0xFFFFFFFF

/-- The lanes of a gather or scatter: number, index word and operation; the first lane that fails its checks traps. A lane addresses one
word, whatever the size of the tail: it is aligned to a word, its imm8 is scaled as the tail's size says, and MISALIGN reports that size.
DESIGN CHOICE: log 109. -/
def planLanes (s : State) (m : MemRef) (plain : Bool) (items : Record → List (Nat × Word × HomeOp)) : Plan := fun l _ r => do
  let lanes ← ((items r).filter fun i => i.2.1 != skipped).mapM fun (lane, idx, op) => do
    let ea := effectiveAddr l m idx
    let loc ← locate l s.focus.x s.focus.y m 1 lane ea
    return { lane := lane, addr := ea, loc := loc, op := op, plain := plain : LaneReq }
  return ((lanes.head?.map (·.addr)).getD 0, lanes)

/-- gather (R127). -/
def execGather (sync : Sync) (m : MemRef) (s : State) : Host.Outcome State Fault Refusal :=
  accessOp (.gather sync m) m
    (planLanes s m (sync == .plain) fun r => (List.range 16).map fun i => (i, r.at i, .load sync 1)) s

/-- scatter (R128). -/
def execScatter (sync : Sync) (m : MemRef) (s : State) : Host.Outcome State Fault Refusal :=
  accessOp (.scatter sync m) m
    (planLanes s m (sync == .plain) fun r => (List.range 8).map fun i => (i, r.at (2 * i), .store sync [r.at (2 * i + 1)])) s

/-! ### launch (R96) -/

/-- The plan of launch: DEPTH before anything is released or read, then the plain read of the launch record. -/
def planLaunch (s : State) (m : MemRef) : Plan := fun l u r =>
  if l.record.level = 7 then .error (.depth, 7, effectiveAddr l m (indexWord m r))
  else planOne s m 16 true (fun _ => .load .plain 16) l u r

/-- launch (R96): the read issues here; the child is queued when it completes. -/
def execLaunch (m : MemRef) (s : State) : Host.Outcome State Fault Refusal := accessOp (.launch m) m (planLaunch s m) s

end Sys2Proof.Machine
end

