-- ==== Sys2Proof/Machine/Sources.lean ====
section
/-! DEFINITION. Machine/Sources.lean: the sources cnt (R87 to R90) and src (R129, R130), the sink (R131), their dirty ranges
(R351), and a record leaving its access element when its access is complete (R111, R130, R187). -/

namespace Sys2Proof.Machine

/-! ### Leaving a unit -/

/-- Records sent from a unit, where its routes can accept them; a TRACE operation posts (R20, R27). -/
def State.depart (s : State) (inst x y unit : Nat) (outs : List Out) (ord : Word) : Option State :=
  match s.launch? inst with
  | none => none
  | some l =>
    if !l.canSend x y unit outs then none
    else
      let l := l.send x y unit outs
      let u := l.unit x y unit
      let s := s.setLaunch inst { l with lastMove := s.now }
      some (if u.traces then s.tracePost (l.dieOf x y) u ord else s)

/-- The record of a cfg that has rewritten its own element sent by the routes of the old operation, where they can accept it (R97). -/
def State.departBy (s : State) (inst x y : Nat) (rs : List Route) (traces : Bool) (u : UnitState) (r : Record) : Option State :=
  match s.launch? inst with
  | none => none
  | some l =>
    if !rs.all l.canAccept then none
    else
      let l := if rs.isEmpty then { l with drops := l.drops + 1 } else rs.foldl (fun l rt => l.accept rt r) l
      let s := s.setLaunch inst { l with lastMove := s.now }
      some (if traces then s.tracePost (l.dieOf x y) u r.ctl.ord else s)

/-! ### The dirty-range log (R351) -/

/-- A stream's range deposited as one entry, or counted as lost where no entry is free. -/
def State.deposit (s : State) (inst x y unit : Nat) (kind : Nat) (tile : Bool) (lo hi writes : Nat) : State :=
  match s.launch? inst with
  | none => s
  | some l =>
    let info := BitVec.ofNat 32 (unit * 2 ^ 24 + kind * 2 ^ 16 + (if tile then 256 else 0))
    let words : List Word := [BitVec.ofNat 32 (min writes (2 ^ 32 - 1)), 0, info, whereRegion x y, BitVec.ofNat 32 lo,
      BitVec.ofNat 32 (lo / 2 ^ 32), BitVec.ofNat 32 hi, BitVec.ofNat 32 (hi / 2 ^ 32)] ++ List.replicate 24 0
    let e : KEntry := { offset := 0, kind := .range, x := x, y := y, unit := unit, port := 0, seq := 0, granule := 0, opid := 0,
                        record := Record.zero 0, access := none, req := none, failed := false, out := false, words := words }
    match s.kennelPut inst e with
    | some s => s
    | none => s.setKennel inst { l.kennel with lost := l.kennel.lost + 1 }

/-- Whether a stream operation addresses tiles. -/
def tileStream (m : MemRef) : Bool := m.space == .ownTile || m.space == .regionTile

/-- The address fields of a stream operation, if the unit is a src or a sink. -/
def streamRef : Option Instr → Option (Bool × MemRef)
  | some (.src _ m) => some (true, m)
  | some (.sink _ m) => some (false, m)
  | _ => none

/-- The range that a stream has written since its last deposit, deposited (R351). -/
def State.depositStream (s : State) (inst x y unit kind : Nat) : State :=
  match s.launch? inst with
  | none => s
  | some l =>
    let u := l.unit x y unit
    match streamRef u.op with
    | some (true, m) =>
      if u.src.writes = 0 then s
      else (s.deposit inst x y unit kind (tileStream m) u.src.lo u.src.hi u.src.writes).modUnit inst x y unit
        fun v => { v with src := { v.src with lo := 0, hi := 0, writes := 0 } }
    | some (false, m) =>
      if u.sink.writes = 0 then s
      else (s.deposit inst x y unit kind (tileStream m) u.sink.lo u.sink.hi u.sink.writes).modUnit inst x y unit
        fun v => { v with sink := { v.sink with lo := 0, hi := 0, writes := 0 } }
    | none => s

/-- Accesses of a unit that stand in the kennel. -/
def Launch.awayOf (l : Launch) (x y unit : Nat) : List KEntry :=
  l.kennel.entries.filter fun e => e.x == x && e.y == y && e.unit == unit && (e.kind == .park || e.kind == .fault)

/-- A complete sink whose stores have all been acknowledged deposits its range (R131, R351). -/
def State.sinkSettled (s : State) (inst x y unit : Nat) : State :=
  match s.launch? inst with
  | none => s
  | some l =>
    let u := l.unit x y unit
    if u.sink.complete && u.flight.isEmpty && (l.awayOf x y unit).isEmpty then s.depositStream inst x y unit 0 else s

/-! ### cnt (R87 to R90) -/

/-- The bounds a cnt of m levels uses; levels at and above m behave as bound 1 (R87). -/
def cntBounds (levels : BitVec 2) (n : Nat × Nat × Nat) : Nat × Nat × Nat :=
  (n.1, if levels.toNat ≥ 2 then n.2.1 else 1, if levels.toNat ≥ 3 then n.2.2 else 1)

/-- A run has no step: a used bound is 0 (R89). -/
def emptyRun (n : Nat × Nat × Nat) : Bool := n.1 == 0 || n.2.1 == 0 || n.2.2 == 0

/-- The counters after a step, none after the last (R89). -/
def cntNext (n c : Nat × Nat × Nat) : Option (Nat × Nat × Nat) :=
  if c.1 + 1 < n.1 then some (c.1 + 1, c.2.1, c.2.2)
  else if c.2.1 + 1 < n.2.1 then some (0, c.2.1 + 1, c.2.2)
  else if c.2.2 + 1 < n.2.2 then some (0, 0, c.2.2 + 1)
  else none

/-- The words w0 to w3 of a step (R89). -/
def cntWords (n c : Nat × Nat × Nat) : List Word :=
  if emptyRun n then [0, 0, 0, 0x18]
  else
    let bit := fun (b : Bool) (k : Nat) => if b then k else 0
    let e0 := c.1 + 1 == n.1
    let e1 := c.2.1 + 1 == n.2.1
    let e2 := c.2.2 + 1 == n.2.2
    [BitVec.ofNat 32 c.1, BitVec.ofNat 32 c.2.1, BitVec.ofNat 32 c.2.2,
     BitVec.ofNat 32 (bit e0 1 + bit e1 2 + bit e2 4 + bit (e0 && e1 && e2) 8)]

/-- The first block of a source: k3 [7:0] (R87, R129). -/
def UnitState.firstBlock (u : UnitState) : BitVec 8 := (u.k 3).extractLsb' 0 8

/-- The step record of a run (R89). -/
def cntRecord (l : Launch) (u : UnitState) (n : Nat × Nat × Nat) : Record :=
  let from_ := u.src.bound.getD (Record.zero 0)
  let rcw := sourceRcw u.firstBlock l.record.budget false from_.ctl.poison (BitVec.ofNat 32 u.src.sent)
  ({ from_ with rcw := rcw }).setWords 0 (cntWords n u.src.counters)

/-- The token of a source: zero words and an ordinal (R89, R130). -/
def sourceToken (l : Launch) (u : UnitState) (ord : Nat) : Record :=
  Record.zero (sourceRcw u.firstBlock l.record.budget true false (BitVec.ofNat 32 ord))

/-- A trap of the record at the head of an input port: it stays in its latch until its trap is reported (R227). -/
def State.trapPort (s : State) (port : Nat) (u : UnitState) (r : Record) (c : Cause) (d ad : DWord) : State :=
  let f := s.focus
  (s.modUnit f.inst f.x f.y f.unit fun v => { v with held := true }).raise f.inst (trapAt u f.x f.y f.unit r c d ad (.latch port))

/-- cnt (R88, R89, R90, R175): a bound record starts a run, a run sends its next step record, the stream ends with a token. A bound record
that reaches it with BREAK set traps (R27, R236). A region that halts lets a bound run send its remaining steps: DEDUCED, log 127. -/
def execCnt (levels : BitVec 2) (s : State) : Host.Outcome State Fault Refusal :=
  let f := s.focus
  match s.here with
  | none => .next s
  | some (l, u) =>
    let c := u.src
    let set := fun (s : State) (c : SrcState) => s.modUnit f.inst f.x f.y f.unit fun u => { u with src := c }
    let bound := (l.routeInto f.x f.y f.unit 1).isSome
    let token := sourceToken l u c.sent
    let finish : State :=
      match s.depart f.inst f.x f.y f.unit [out0 token] token.ctl.ord with
      | some s => set s { c with finished := true, running := false, sent := c.sent + 1 }
      | none => s
    if !l.acts || !u.open_ || u.held || l.phase != .running || c.finished then .next s
    else if c.running && !(l.halting && !bound) then
      let r := cntRecord l u c.bounds
      match s.depart f.inst f.x f.y f.unit [out0 r] r.ctl.ord with
      | none => .next s
      | some s =>
        let c := { c with sent := c.sent + 1 }
        match (if emptyRun c.bounds then none else cntNext c.bounds c.counters) with
        | some next => .next (set s { c with counters := next })
        | none => .next (set s { c with running := false, ending := c.ending || !bound, bound := none, counters := (0, 0, 0) })
    else if c.ending || l.halting then .next finish
    else if !bound then .next (set s { c with running := true, bounds := cntBounds levels c.bounds, counters := (0, 0, 0) })
    else
      match u.port 1 with
      | [] => .next s
      | r0 :: _ =>
        match breakpoint u r0 with
        | none => .next (s.trapPort 1 u r0 .brk 0 0)
        | some r =>
          let s := (s.modUnit f.inst f.x f.y f.unit fun u => u.pop 1).modLaunch f.inst fun l => { l with lastMove := s.now }
          if r.isToken then .next (set s { c with ending := true })
          else
            let n := ((r.at 0).toNat, (r.at 1).toNat, (r.at 2).toNat)
            .next (set s { c with running := true, bound := some r, bounds := cntBounds levels n, counters := (0, 0, 0) })

/-! ### FIFO banks (R133, R167) -/

/-- Bank word j of bank n, as a tile word. -/
def bankWord (n j : Nat) : Nat := j * 16 + n
/-- The tile row whose row word is row word r of bank n. -/
def bankRow (n r : Nat) : Nat := 16 * r + n

/-- The index of a FIFO bank's oldest entry. -/
def TileState.fifoHead (t : TileState) (n : Nat) : Nat := (rowReaders (SMap.getD t.rows (bankRow n 0) 0)).toNat
/-- The number of a FIFO bank's entries. -/
def TileState.fifoCount (t : TileState) (n : Nat) : Nat := (rowReaders (SMap.getD t.rows (bankRow n 1) 0)).toNat

/-- A tile with the READERS field and MODEBIT of row word r of a bank written. -/
def TileState.setBankRow (t : TileState) (n r : Nat) (readers : Option Nat) (mode : Option Bool) : TileState :=
  let w := SMap.getD t.rows (bankRow n r) 0
  let w' := rowWord (match readers with | some v => BitVec.ofNat 12 v | none => rowReaders w) (mode.getD (rowMode w)) (rowGenOf w)
  { t with rows := SMap.put t.rows 0 (bankRow n r) w' }

/-- A tile word as a bank reads it: 0 where it cannot be corrected (R113, R162). -/
def TileState.wordAt (t : TileState) (w : Nat) : Word := if NSet.has t.bad w then 0 else SMap.getD t.words w 0

/-- Sixteen words of bank-row r of a bank. -/
def TileState.bankRowWords (t : TileState) (n r : Nat) : List Word := (List.range 16).map fun i => t.wordAt (bankWord n (16 * r + i))

/-- Some word of bank-row r of a bank cannot be corrected. -/
def TileState.bankRowBad (t : TileState) (n r : Nat) : Bool := (List.range 16).any fun i => NSet.has t.bad (bankWord n (16 * r + i))

/-- A tile with words of a bank written from bank word j on. -/
def TileState.setBankWords (t : TileState) (n : Nat) : Nat → List Word → TileState
  | _, [] => t
  | j, w :: ws =>
    TileState.setBankWords { t with words := SMap.put t.words 0 (bankWord n j) w, bad := NSet.remove t.bad (bankWord n j) } n (j + 1) ws

/-- The oldest entry of a FIFO bank and whether it is an end marker, with the tile after its removal. -/
def TileState.fifoTake (t : TileState) (n : Nat) : Option (List Word × Bool × TileState) :=
  if t.fifoCount n = 0 then none
  else
    let h := t.fifoHead n
    some (t.bankRowWords n h, rowMode (SMap.getD t.rows (bankRow n h) 0),
      ((t.setBankRow n h none (some false)).setBankRow n 0 (some ((h + 1) % 128)) none).setBankRow n 1 (some (t.fifoCount n - 1)) none)

/-- The oldest entry of a FIFO bank has a word that cannot be corrected: what takes it is poisoned (R113, R162). -/
def TileState.fifoBad (t : TileState) (n : Nat) : Bool := t.bankRowBad n (t.fifoHead n)

/-- A FIFO bank with an entry appended; none where it is full. -/
def TileState.fifoPut (t : TileState) (n : Nat) (words : List Word) (marker : Bool) : Option TileState :=
  if 128 ≤ t.fifoCount n then none
  else
    let r := (t.fifoHead n + t.fifoCount n) % 128
    some (((t.setBankWords n (16 * r) words).setBankRow n r none (some marker)).setBankRow n 1 (some (t.fifoCount n + 1)) none)

/-! ### src (R129, R130) -/

/-- The address of an item: stride in words in the tile spaces, in bytes otherwise (R130). -/
def itemAddr (l : Launch) (m : MemRef) (j : Nat) (stride : DWord) : DWord :=
  let ea := effectiveAddr l m 0 + BitVec.ofNat 64 j * stride
  if tileStream m then (lo32 ea).zeroExtend 64 else ea

/-- The bank a src pops: ea's bank in the own tile, where it is in FIFO mode (R130). An ea outside the tile names no bank: the item's
checks trap it (R107). -/
def srcBank (l : Launch) (x y : Nat) (m : MemRef) : Option Nat :=
  let ea := (effectiveAddr l m 0).toNat
  if m.space == .ownTile && decide (ea < 2 ^ 15) && l.bankMode x y (ea % 16) == 2 then some (ea % 16) else none

/-- The record of item j before its words (R130). -/
def itemRecord (l : Launch) (u : UnitState) (j : Nat) : Record :=
  Record.zero (sourceRcw u.firstBlock l.record.budget false false (BitVec.ofNat 32 j))

/-- An item of a FIFO src popped: its record, or the end of the source at an end marker (R130). -/
def srcPop (i : Instr) (l : Launch) (u : UnitState) (bank : Nat) (s : State) : State :=
  let f := s.focus
  match (l.tile f.x f.y).fifoTake bank with
  | none => s
  | some (words, marker, t) =>
    let s := s.modTile f.inst f.x f.y fun _ => t
    if marker then s.modUnit f.inst f.x f.y f.unit fun u => { u with src := { u.src with ending := true } }
    else
      (s.answeredAccess i (itemRecord l u u.src.issued) 0 (some (.ok words [] true ((l.tile f.x f.y).fifoBad bank)))).modUnit f.inst f.x f.y f.unit
        fun u => { u with src := { u.src with issued := u.src.issued + 1 } }

/-- An item of a src issued as a load, or trapped by its checks (R130). -/
def srcLoad (i : Instr) (sync : Sync) (m : MemRef) (l : Launch) (u : UnitState) (s : State) : State :=
  let f := s.focus
  let ea := itemAddr l m u.src.issued u.src.stride
  let r := itemRecord l u u.src.issued
  match locate l f.x f.y m m.size.words 0 ea with
  | .error (c, d, a) =>
    (s.modUnit f.inst f.x f.y f.unit fun u => { u with held := true, src := { u.src with issued := u.src.issued + 1 } }).raise
      f.inst (trapAt u f.x f.y f.unit r c d a .item)
  | .ok loc =>
    let q : LaneReq := { lane := 0, addr := ea, loc := loc, op := .load sync m.size.words, plain := sync == .plain }
    if !l.roomFor f.x f.y [q] then s
    else
      (s.startAccess i m r (BitVec.ofNat 64 (if tileStream m then loc.bytes.2 / 4 else ea.toNat)) [q]).modUnit f.inst f.x f.y f.unit
        fun u => { u with src := { u.src with issued := u.src.issued + 1 } }

/-- src (R130, R175): it issues its next item, or sends its token once every item it issued has been sent. -/
def execSrc (sync : Sync) (m : MemRef) (s : State) : Host.Outcome State Fault Refusal :=
  let f := s.focus
  match s.here with
  | none => .next s
  | some (l, u) =>
    let c := u.src
    let bank := srcBank l f.x f.y m
    let spent := c.ending || l.halting || decide (c.count ≤ c.issued)
    if !l.acts || !u.open_ || l.phase != .running || c.finished || u.held then .next s
    else if !spent then
      if u.flight.length ≥ (if bank.isSome then 1 else 8) then .next s
      else
        match bank with
        | some b => .next (srcPop (.src sync m) l u b s)
        | none => .next (srcLoad (.src sync m) sync m l u s)
    else if !u.flight.isEmpty || !(l.awayOf f.x f.y f.unit).isEmpty then .next s
    else
      let token := sourceToken l u c.issued
      match s.depart f.inst f.x f.y f.unit [out0 token] token.ctl.ord with
      | none => .next s
      | some s =>
        .next ((s.modUnit f.inst f.x f.y f.unit fun u => { u with src := { u.src with finished := true, sent := u.src.sent + 1 } }).depositStream
          f.inst f.x f.y f.unit 0)

/-! ### sink (R131) -/

/-- The slot of a sink's next record (R131). No rule says which one a ring of no slots has: a free value. -/
def SinkState.slotNow (k : SinkState) : Nat := if k.slots = 0 then Config.emptyRing k.index else k.index % k.slots

/-- A sink's store of its next slot, or the trap of its record as it arrived (R131, R113). -/
def sinkRecord (sync : Sync) (m : MemRef) (l : Launch) (u : UnitState) (r0 r : Record) (s : State) : State :=
  let f := s.focus
  let n := m.size.words
  let slot := u.sink.slotNow
  let step := if tileStream m then n else 4 * n
  let ea0 := effectiveAddr l m 0 + BitVec.ofNat 64 (slot * step)
  let ea := if tileStream m then (lo32 ea0).zeroExtend 64 else ea0
  if u.sink.complete then s.trapHead r0 .illegal 8 ea
  else if r.ctl.poison then s.trapHead r0 .poison (u.opcode.zeroExtend 64) ea
  else
    match locate l f.x f.y m n 0 ea with
    | .error (c, d, a) => s.trapHead r0 c d a
    | .ok loc =>
      let q : LaneReq := { lane := 0, addr := ea, loc := loc, op := .store sync (r.slice 0 n), plain := sync == .plain }
      if s.clashes u f.inst f.x f.y f.unit [q.range true] || !l.roomFor f.x f.y [q] then s
      else
        match (if releases (.sink sync m) then s.releaseWays f.inst f.x f.y (l.requestScope m (.sink sync m)) else (true, s)) with
        | (false, s) => s
        | (true, s) =>
          let at_ := if tileStream m then loc.bytes.2 / 4 else ea.toNat
          (s.takeHead.startAccess (.sink sync m) m r (BitVec.ofNat 64 at_) [q]).noteStep u r0 r

/-- A sink has no store in progress, parked or on its way back. -/
def Launch.sinkIdle (l : Launch) (x y unit : Nat) (u : UnitState) : Bool :=
  u.flight.isEmpty && u.resume.isEmpty && (l.awayOf x y unit).isEmpty

/-- sink (R131): a token is counted, and the last one completes the sink; any other record is stored in its slot. Records are written in
order of arrival, and the index moves after the store: the next store is made when the one before it is complete. DEDUCED: log 93. -/
def execSink (sync : Sync) (m : MemRef) (s : State) : Host.Outcome State Fault Refusal :=
  let f := s.focus
  match s.here with
  | none => .next s
  | some (l, u) =>
    match u.port 0 with
    | [] => .next s
    | r0 :: _ =>
      if !l.takes u then .next s
      else if r0.isToken then
        let expected := (u.fld 6).toNat
        let s := s.takeHead.modUnit f.inst f.x f.y f.unit fun u =>
          { u with sink := { u.sink with tokens := u.sink.tokens + 1, complete := u.sink.complete || u.sink.tokens + 1 == expected } }
        let s := s.modLaunch f.inst fun l => { l with lastMove := s.now }
        .next ((if u.traces then s.tracePost (l.dieOf f.x f.y) u r0.ctl.ord else s).sinkSettled f.inst f.x f.y f.unit)
      else if !l.sinkIdle f.x f.y f.unit u then .next s
      else
        match breakpoint u r0 with
        | none => .next (s.trapHead r0 .brk 0 0)
        | some r => .next (sinkRecord sync m l u r0 r s)

/-! ### ACCESS_COMPLETE (R111) -/

/-- The words that a lane of a storing access stores. -/
def storeData (i : Instr) (r : Record) (lane : Nat) : Option (List Word) :=
  match i with
  | .st d _ m => some (r.slice d.toNat m.size.words)
  | .stv d _ m => some (r.slice d.toNat m.size.words)
  | .stvN _ _ _ => some r.all
  | .scatter _ _ => some [r.at (2 * lane + 1)]
  | .sink _ m => some (r.slice 0 m.size.words)
  | _ => none

/-- Words that a lane of an access loads. -/
def loadCount (i : Instr) (m : MemRef) : Nat :=
  match i with
  | .gather _ _ => 1
  | _ => m.size.words

/-- A lane's reply replaced; a lane that is asked for again has a line of its own time. -/
def State.setLane (s : State) (inst x y unit id lane : Nat) (r : Option Reply) : State :=
  s.modUnit inst x y unit fun u => { u with flight := completedLast id (u.flight.map fun a =>
    if a.id = id then { a with lanes := a.lanes.map fun l => if l.lane = lane then { l with reply := r, stale := false } else l } else a) }

/-- A lane performed in a line that the ways hold: a load reads it, a store writes it where it takes writes; none where the lane must
go to the slice (R166, R203). -/
def State.laneInWay (s : State) (inst x y : Nat) (space : BitVec 12) (i : Instr) (r : Record) (m : MemRef) (lane : LaneState) :
    Option (State × Reply) :=
  let va := lane.addr.toNat
  let t := match s.launch? inst with
    | some l => l.tile x y
    | none => TileState.reset
  match t.wayOf space va, storeData i r lane.lane with
  | some (key, w), some data =>
    if w.writable then
      some ((s.overtakeFetches inst x y va).modTile inst x y fun t => t.wayStore key w va data .cell m.hint, replyDone)
    else none
  | some (key, w), none =>
    let n := loadCount i m
    let bad := getRange (t.wayBad key) (va / 4 % 32) n
    some (s.modTile inst x y fun t => t.touch key w m.hint,
      replyWords (corrected (t.wayRead key va n) bad) (getRange w.full (va / 4 % 32) n) true (bad.any (· == true)))
  | none, _ => none

/-- A lane whose line has come for the cell's ways (R166). Where the ways hold the line by now, the lane is performed in it, and the
fetched words go. Otherwise the line is installed and the lane performed in it, or the lane is performed on the line's words; where
the ways cannot take it (an uncached page, a word that cannot be corrected, no way) the lane is sent to the slice as it stands, and a
line that an acquire has overtaken is not kept: a store fetches it again (R207, R208). -/
def State.settleLane (s : State) (inst x y unit : Nat) (a : Access) (m : MemRef) (lane : LaneState) (ws : List Word)
    (full : List Bool) (writable poison : Bool) : State :=
  match s.launch? inst with
  | none => s
  | some l =>
    let space := l.record.space
    let va := lane.addr.toNat
    let frame := (ws.getD 32 0).toNat
    let fits := !poison && ws.getD 33 0 == 0 && !(l.wayBanks x y).isEmpty
    let here := ((l.tile x y).wayOf space va).isSome
    let put := fun (s : State) (r : Option Reply) => s.setLane inst x y unit a.id lane.lane r
    let again := fun (s : State) (op : HomeOp) =>
      (put s none).post (mkReq (.access inst x y unit a.id lane.lane) space (.glob lane.addr) op (l.requestScope m a.op) inst
        (x, y) (l.dieOf x y))
    let install := fun (s : State) => s.installWay inst x y space va (ws.take 32) full writable frame m.hint
    let inWay := fun (s : State) (op : HomeOp) => match s.laneInWay inst x y space a.op a.record m lane with
      | some (s, r) => put s (some r)
      | none => again s op
    match a.op, storeData a.op a.record lane.lane with
    | .pref _, _ =>
      if fits && !here && !lane.stale && (m.hint == .dflt || m.hint == .keep) then
        match install s with
        | (true, s) => put s (some replyDone)
        | (false, s) => s
      else put s (some replyDone)
    | _, some data =>
      if here then inWay s (.store .plain data)
      else if !fits || !writable then again s (.store .plain data)
      else if lane.stale then again s (.line (some data))
      else
        match install s with
        | (false, s) => s
        | (true, s) => inWay s (.store .plain data)
    | _, none =>
      let n := loadCount a.op m
      if here then inWay s (.load .plain n)
      else if poison then again s (.load .plain n)
      else
        let r := replyWords (getRange ws (va / 4 % 32) n) (getRange full (va / 4 % 32) n) true false
        if fits && !lane.stale && Config.allocate s.tick then
          match install s with
          | (true, s) => put s (some r)
          | (false, s) => s
        else put s (some r)

/-- Whether an access acquired: its form does, and a .tc form held (R204). -/
def Access.acquired (a : Access) : Bool :=
  acquires a.op &&
  (match a.op with
   | .ld _ sy _ | .ldv _ sy _ => sy != .tc || a.held
   | _ => true)

/-- A completed store seen by the issuing cell's ways: a store at the slice updates the line there; a cell-scope store that a
line without write permission sent to the slice drops that line (R110). -/
def State.storedWays (s : State) (inst x y : Nat) (a : Access) : State :=
  match s.launch? inst, memRefOf a.op with
  | some l, some (sy, m) =>
    if m.space != .global || (l.wayBanks x y).isEmpty then s
    else
      a.lanes.foldl (fun (s : State) (lane : LaneState) =>
        match storeData a.op a.record lane.lane, lane.reply with
        | some data, some (.ok _ _ h _) =>
          if sy = Sync.code .tf && !h then s
          else if l.wayServed x y m (sy == 0) then
            match (l.tile x y).wayOf l.record.space lane.addr.toNat with
            | some (key, w) =>
              if w.writable then s
              else (s.overtakeFetches inst x y lane.addr.toNat).modTile inst x y fun t => { t with ways := SMap.erase t.ways key }
            | none => s
          else s.wayUpdate inst x y lane.addr.toNat data (l.scope m.scope)
        | _, _ => s) s
  | _, _ => s

/-- A child launch record as launch queues it (R96): LEVEL one more than its parent's, SYSTEM clear. -/
def childRecord (l : Launch) (ws : List Word) : LaunchRec :=
  { LaunchRec.ofWords ws with level := l.record.level + 1, system := false }

/-- A child queued at the element's die; none while its queue of 256 is full (R96). -/
def State.queueChild (s : State) (l : Launch) (x y : Nat) (a : Access) : Option State :=
  let d := l.dieOf x y
  let q := (s.die d).children
  if 256 ≤ q.length then none
  else some (s.setDie d { s.die d with children := q ++
    [{ record := childRecord l a.words, addr := a.ea, parent := l.inst, parentSpace := l.record.space, px := l.px, py := l.py,
       w := l.record.width.toNat, h := l.record.height.toNat }] })

/-- A launch's child queued, once, whether or not its record can leave (R96); none while it must wait. -/
def State.launchQueued (s : State) (inst : Nat) (l : Launch) (x y unit : Nat) (a : Access) : Option State :=
  if a.queued then some s
  else
    let mark := fun (b : Access) => if b.id = a.id then { b with queued := true } else b
    (s.queueChild l x y a).map fun s => s.modUnit inst x y unit fun u => { u with flight := u.flight.map mark, resume := u.resume.map mark }

/-- The record that a launch sends: POISON where its read met a word that could not be corrected (R113). -/
def launchSent (a : Access) : Record := if a.replies.any (·.2.poisoned) then a.record.setPoison true else a.record

/-- An item of a src with .c adds to its dirty range the words that it consumed (R351); one popped from a FIFO bank has no range and writes
none of the stream's words. DEDUCED: log 119. -/
def SrcState.wrote (c : SrcState) (a : Access) : SrcState :=
  match a.op with
  | .src .c m =>
    let at_ := a.ea.toNat
    let n := if tileStream m then m.size.words else 4 * m.size.words
    if a.ranges.isEmpty then c
    else { c with lo := if c.writes = 0 then at_ else min c.lo at_, hi := max c.hi (at_ + n), writes := c.writes + 1 }
  | _ => c

/-- An access removed from its element; one that waits for a place of the resume queue comes back. -/
def State.endAccess (s : State) (inst x y unit id : Nat) : State :=
  (s.modUnit inst x y unit fun u =>
    { u with flight := u.flight.filter (·.id != id), resume := u.resume.filter (·.id != id) }).resumeNext inst x y unit

/-- The record of an access as it arrived (R222). -/
def Access.arrived (a : Access) : Record := if a.stepped then a.record.setCtl { a.record.ctl with trapped := true } else a.record

/-- A trap of an access that its home answered: what other lanes of it have stored is in the cell's ways too (R110), and the record waits in its place, an item of a src in the source, which issues no further
item, until the trap is reported (R222, R227). -/
def State.trapAccess (s : State) (inst x y unit : Nat) (u : UnitState) (a : Access) (c : Cause) (d ad : DWord) : State :=
  let s := s.storedWays inst x y a
  match a.op with
  | .src _ _ =>
    ((s.endAccess inst x y unit a.id).modUnit inst x y unit fun u => { u with held := true }).raise inst
      (trapAt u x y unit a.record c d ad .item)
  | _ =>
    let mark := fun (b : Access) => if b.id = a.id then { b with trapped := true } else b
    (s.modUnit inst x y unit fun u => { u with flight := u.flight.map mark, resume := u.resume.map mark }).raise inst
      (trapAt u x y unit a.arrived c d ad (.access a.id))

/-- A completed access leaves: its record goes on, or its store is counted, or its item is sent in its turn, also in a region that halts
(R175 step 2; DEDUCED, log 128). -/
def State.leaveAccess (s : State) (inst x y unit : Nat) (l : Launch) (u : UnitState) (a : Access) : State :=
  let sc := match a.op, memRefOf a.op with
    | .fence _ sc, _ => sc
    | _, some (_, m) => l.requestScope m a.op
    | _, none => .cell
  let done := fun (s : State) =>
    let s := (s.storedWays inst x y a).endAccess inst x y unit a.id
    if a.acquired then s.acquireWays inst x y sc else s
  let go := fun (s : State) (r : Record) =>
    match s.depart inst x y unit [out0 r] r.ctl.ord with
    | some s => done s
    | none => s
  match a.op with
  | .sink _ _ =>
    let s := (done s).sinkStored inst x y unit a
    (if u.traces then s.tracePost (l.dieOf x y) u a.record.ctl.ord else s).sinkSettled inst x y unit
  | .src _ _ =>
    let later := (l.awayOf x y unit).any fun e => match e.access with | some b => decide (b.id < a.id) | none => false
    let first := (u.flight.all fun b => decide (a.id ≤ b.id)) && !later
    if !first then s
    else
      match s.depart inst x y unit [out0 a.result] a.result.ctl.ord with
      | none => s
      | some s => (done s).modUnit inst x y unit fun v =>
          { v with src := { (v.src.wrote a) with sent := v.src.sent + 1 } }
  | .launch _ => match s.launchQueued inst l x y unit a with
    | some s => go s (launchSent a)
    | none => s
  | .cfg _ _ _ =>
    match a.leaves with
    | some (rs, traces) => match s.departBy inst x y rs traces u a.result with
      | some s => done s
      | none => s
    | none => go s a.result
  | _ => go s a.result

/-- An access that leaves its element as it completes, in the order of completion (R111): no trap keeps it, it is no token, and no item of a
source, whose items leave in their own order. -/
def Access.leavesInOrder (a : Access) : Bool :=
  let traps := match a.op with
    | .pref _ => false
    | _ => a.trap?.isSome
  a.complete && !a.trapped && !(a.record.isToken && a.lanes.isEmpty) && !a.isItem && !traps

/-- ACCESS_COMPLETE (R111, R130, R173, R187): an access that has all its replies ends at its element: a line that came for the
cell's ways is put to use, a trap goes to the region controller, a token goes once the accesses before it have completed, any
other record leaves, in the order of completion. An access of the resume queue traps, or leaves in order of resumption. -/
def execAccessComplete (inst x y unit id : Nat) (s : State) : Host.Outcome State Fault Refusal :=
  match s.launch? inst with
  | none => .next s
  | some l =>
    let u := l.unit x y unit
    if !l.acts then .next s
    else
      match u.flight.find? (·.id == id) with
      | none =>
        match u.resume.find? (·.id == id) with
        | none => .next s
        | some a =>
          if a.trapped then .next s
          else
            match a.trap? with
            | some (c, d, ad) => .next (s.trapAccess inst x y unit u a c d ad)
            | none =>
              if (u.resume.takeWhile (·.id != id)).any (·.trap?.isNone) then .next s
              else .next (s.leaveAccess inst x y unit l u a)
      | some a =>
        if a.trapped || !a.answered then .next s
        else if a.record.isToken && a.lanes.isEmpty then
          let waits := a.waitsFor.any fun i =>
            u.flight.any (·.id == i) || u.resume.any (·.id == i) || l.kennel.entries.any fun e => e.ofAccess x y unit i
          if waits then .next s
          else
            match s.depart inst x y unit [out0 a.record] a.record.ctl.ord with
            | some s => .next (s.endAccess inst x y unit id)
            | none => .next s
        else
          match a.lanes.findSome? (fun (q : LaneState) => q.line?.map fun r => (q, r)), memRefOf a.op with
          | some (q, ws, fs, h, p), some (_, m) => .next (s.settleLane inst x y unit a m q ws fs h p)
          | _, _ =>
            let behind := !a.isItem && (u.flight.takeWhile (·.id != id)).any Access.leavesInOrder
            match a.op, a.trap? with
            | .pref _, _ => .next (if behind then s else s.leaveAccess inst x y unit l u a)
            | _, some (c, d, ad) => .next (s.trapAccess inst x y unit u a c d ad)
            | _, none => .next (if behind then s else s.leaveAccess inst x y unit l u a)

end Sys2Proof.Machine
end

