-- ==== Sys2Proof/Machine/Banks.lean ====
section
/-! DEFINITION. Machine/Banks.lean: FIFO and reorder banks (R132 to R134, R167, R168). The bank's words and row words hold all
of its state, laid out as R167 and R168 give. -/

namespace Sys2Proof.Machine

/-- A bank in the wrong mode (R132). -/
def wrongMode (bank : Nat) : Effect := .trap .illegal 5 (BitVec.ofNat 64 bank)

/-- fifo.push (R133): a free entry is waited for; a token appends an end marker with words zero. -/
def execFifoPush (bank : BitVec 4) (s : State) : Host.Outcome State Fault Refusal :=
  let f := s.focus
  let n := bank.toNat
  recordStep
    (fun l u r =>
      if l.bankMode f.x f.y n ≠ 2 then wrongMode n
      else if 128 ≤ (l.tile f.x f.y).fifoCount n then .wait
      else .send u [out0 r])
    (fun l r s =>
      let words := if r.isToken then List.replicate 16 0 else r.all
      match (l.tile f.x f.y).fifoPut n words r.isToken with
      | some t => .ok (s.modTile f.inst f.x f.y fun _ => t) ()
      | none => .wait s) s

/-- fifo.pop (R133): an entry is waited for; an end marker gives zero words and EOS; a token passes and pops nothing. -/
def execFifoPop (bank : BitVec 4) (s : State) : Host.Outcome State Fault Refusal :=
  let f := s.focus
  let n := bank.toNat
  recordStep
    (fun l u r =>
      if r.isToken then .send u [out0 r]
      else if l.bankMode f.x f.y n ≠ 2 then wrongMode n
      else
        match (l.tile f.x f.y).fifoTake n with
        | none => .wait
        | some (words, marker, _) =>
          let r := r.setWords 0 (if marker then List.replicate 16 0 else words)
          let r := if (l.tile f.x f.y).fifoBad n && !marker then r.setPoison true else r
          .send u [out0 (if marker then r.setEos true else r)])
    (fun l r s =>
      if r.isToken then .ok s ()
      else
        match (l.tile f.x f.y).fifoTake n with
        | some (_, _, t) => .ok (s.modTile f.inst f.x f.y fun _ => t) ()
        | none => .wait s) s

/-! ### Reorder banks (R134, R168) -/

/-- A word of a bank by bank-row and word. -/
def TileState.bankWordAt (t : TileState) (n row i : Nat) : Word := t.wordAt (bankWord n (16 * row + i))

/-- The expected ordinal e. -/
def TileState.expected (t : TileState) (n : Nat) : Word := t.bankWordAt n 126 0

/-- Slot k of a reorder bank is occupied. -/
def TileState.slotUsed (t : TileState) (n k : Nat) : Bool := (t.bankWordAt n 127 (k / 32)).getLsbD (k % 32)

/-- The slots in use, ascending. -/
def TileState.slotsUsed (t : TileState) (n : Nat) : List Nat := (List.range 112).filter fun k => t.slotUsed n k

/-- The record in a slot, poisoned where a word of it or of its RCW cannot be corrected (R113, R162). -/
def TileState.slotRecord (t : TileState) (n k : Nat) : Record :=
  let row := 112 + k / 8
  let i := 2 * (k % 8)
  let r := Record.ofWords (t.bankRowWords n k) (pair64 (t.bankWordAt n row i) (t.bankWordAt n row (i + 1)))
  let bad := fun (j : Nat) => NSet.has t.bad (bankWord n (16 * row + j))
  if t.bankRowBad n k || bad i || bad (i + 1) then r.setPoison true else r

/-- The slot that holds an ordinal. -/
def TileState.slotOf (t : TileState) (n : Nat) (ord : Word) : Option Nat :=
  (t.slotsUsed n).find? fun k => (t.slotRecord n k).ctl.ord == ord

/-- A tile with the expected ordinal of a bank written. -/
def TileState.setExpected (t : TileState) (n : Nat) (e : Word) : TileState := t.setBankWords n (16 * 126) [e]

/-- A tile with a slot's bit and the number of records held written. -/
def TileState.markSlot (t : TileState) (n k : Nat) (used : Bool) : TileState :=
  let w := t.bankWordAt n 127 (k / 32)
  let bit := (1 : Word) <<< (k % 32)
  let t := t.setBankWords n (16 * 127 + k / 32) [if used then w ||| bit else w &&& ~~~bit]
  t.setBankWords n (16 * 126 + 1) [BitVec.ofNat 32 (t.slotsUsed n).length]

/-- A record held in the lowest free slot; none where all 112 are taken. -/
def TileState.hold (t : TileState) (n : Nat) (r : Record) : Option TileState :=
  match (List.range 112).find? fun k => !t.slotUsed n k with
  | none => none
  | some k =>
    let t := t.setBankWords n (16 * k) r.all
    let t := t.setBankWords n (16 * (112 + k / 8) + 2 * (k % 8)) [lo32 r.rcw, hi32 r.rcw]
    some (t.markSlot n k true)

/-- A record whose turn it is leaves (R134): sent, or removed and counted under pdrop with P = 0; a token resets e. None where
the routes cannot accept it. -/
def State.inTurn (s : State) (n : Nat) (pdrop : Bool) (r : Record) : Option State :=
  let f := s.focus
  let advance := fun (s : State) => s.modTile f.inst f.x f.y fun t => t.setExpected n (if r.isToken then 0 else t.expected n + 1)
  if pdrop && !r.isToken && !r.ctl.p then
    let s := s.modLaunch f.inst fun l => { l with drops := l.drops + 1, lastMove := s.now }
    some (advance (match s.here with
      | some (l, u) => if u.traces then s.tracePost (l.dieOf f.x f.y) u r.ctl.ord else s
      | none => s))
  else (s.depart f.inst f.x f.y f.unit [out0 r] r.ctl.ord).map advance

/-- What becomes of the record at a reorder's latch (R134, R168): `r0` as it arrived, `r` as the operation takes it. -/
def reorderHead (n : Nat) (pdrop : Bool) (l : Launch) (r0 r : Record) (s : State) : State :=
  let f := s.focus
  let t := l.tile f.x f.y
  let e := (t.expected n).toNat
  let ord := r.ctl.ord.toNat
  if ord = e then
    match s.inTurn n pdrop r with
    | some s => s.takeHead
    | none => s
  else if ord < e || (t.slotOf n r.ctl.ord).isSome then s.trapHead r0 .illegal 6 (BitVec.ofNat 64 n)
  else if e + 2048 ≤ ord then s
  else
    match t.hold n r with
    | some t => (s.takeHead.modTile f.inst f.x f.y fun _ => t).modLaunch f.inst fun l => { l with lastMove := s.now }
    | none => s

/-- reorder and reorder.pdrop (R134): a held record whose ordinal is due is sent first; otherwise the record at the latch is
sent, held, trapped, or waits. -/
def execReorder (bank : BitVec 4) (pdrop : Bool) (s : State) : Host.Outcome State Fault Refusal :=
  let f := s.focus
  let n := bank.toNat
  match s.here with
  | none => .next s
  | some (l, u) =>
    let t := l.tile f.x f.y
    let due := if l.bankMode f.x f.y n = 3 then t.slotOf n (t.expected n) else none
    match due with
    | some k =>
      if !l.acts then .next s
      else
        match s.inTurn n pdrop (t.slotRecord n k) with
        | some s => .next (s.modTile f.inst f.x f.y fun t => t.markSlot n k false)
        | none => .next s
    | none =>
      match u.port 0 with
      | [] => .next s
      | r0 :: _ =>
        if !l.takes u then .next s
        else
          match breakpoint u r0 with
          | none => .next (s.trapHead r0 .brk 0 0)
          | some r =>
            if l.bankMode f.x f.y n ≠ 3 then .next (s.trapHead r0 .illegal 5 (BitVec.ofNat 64 n))
            else .next (reorderHead n pdrop l r0 r s)

end Sys2Proof.Machine
end

