-- ==== Sys2Proof/Machine/Loops.lean ====
section
/-! DEFINITION. Machine/Loops.lean: the paths of routes (R18, R154), the route graph of a region, and the loops of its carries
(R157). -/

namespace Sys2Proof.Machine

/-! ### Paths -/

/-- The cell that a step along a heading reaches: 0 north, 1 east, 2 south, 3 west; none outside a region of w by h cells. -/
def stepCell (w h heading x y : Nat) : Option (Nat × Nat) :=
  match heading with
  | 0 => if y = 0 then none else some (x, y - 1)
  | 1 => if x + 1 < w then some (x + 1, y) else none
  | 2 => if y + 1 < h then some (x, y + 1) else none
  | _ => if x = 0 then none else some (x - 1, y)

/-- A route as its turns take it (R18): the cells it visits, the latency of R154 without seams, the 6-bit destination in the
last cell, and the turns after it. -/
structure RoutePath where
  cells : List (Nat × Nat)
  length : Nat
  dest : Nat
  rest : List (BitVec 2)
  deriving DecidableEq, Repr

/-- ⌈n / d⌉. -/
def ceilDiv (n d : Nat) : Nat := (n + d - 1) / d

/-- The path from a cell along a heading (R18, R154): `run` hops of the straight run in hand, `sum` the latency of the runs and
turns before it, `cells` the cells visited. The hop of a turn belongs to no straight run: a run is a stretch of 00 turns. -/
def pathFrom (w h : Nat) : List (BitVec 2) → (heading x y run sum : Nat) → List (Nat × Nat) → Option RoutePath
  | [], _, _, _, _, _, _ => none
  | t :: ts, heading, x, y, run, sum, cells =>
    if t = 3 then
      match ts with
      | a :: b :: c :: rest =>
        some { cells := cells ++ [(x, y)], length := sum + ceilDiv run 8, dest := (a ++ b ++ c : BitVec 6).toNat, rest := rest }
      | _ => none
    else
      let turned := t != 0
      let heading := if t = 1 then (heading + 3) % 4 else if t = 2 then (heading + 1) % 4 else heading
      match stepCell w h heading x y with
      | none => none
      | some (x', y') =>
        if turned then pathFrom w h ts heading x' y' 0 (sum + ceilDiv run 8 + 1) (cells ++ [(x, y)])
        else pathFrom w h ts heading x' y' (run + 1) sum (cells ++ [(x, y)])

/-- The path of a route's turns from its origin cell. -/
def pathOf (w h x y : Nat) (heading : BitVec 2) (turns : List (BitVec 2)) : Option RoutePath :=
  pathFrom w h turns heading.toNat x y 0 0 []

/-- Seams that a list of cells crosses, by the dies of its cells. -/
def seamsOf (die : Nat × Nat → Nat) : List (Nat × Nat) → Nat
  | a :: b :: cs => (if die a = die b then 0 else 1) + seamsOf die (b :: cs)
  | _ => 0

/-- Records that a route and its destination latch hold together (R154): λ, or the whole records of a scalar route's beats and
the latch. -/
def routeCapacity (net : BitVec 2) (latency : Nat) : Nat :=
  let n := max 1 latency
  if net = 0 then ceilDiv (n - 1) 18 + 1 else n

/-- The capacity of a route without its seams (R157). -/
def Route.seamless (l : Launch) (rt : Route) : Nat :=
  match pathOf l.cellsX l.cellsY rt.origin.x rt.origin.y rt.heading rt.turns with
  | some p => routeCapacity rt.net p.length
  | none => 1

/-! ### The route graph -/

/-- A place in the route graph: an element, a tile, or a slot of a router. -/
abbrev RNode := Nat × Nat × Nat × Nat

/-- The place that a port belongs to. -/
def Port.node (p : Port) : RNode := (p.x, p.y, p.unit, if 8 ≤ p.unit && decide (p.unit ≤ 10) then p.port / 2 else 0)

/-- One step outward along edges from a set of places, a place left out. -/
def widen (edges : List (RNode × RNode)) (stop : RNode) (seen : List RNode) : List RNode :=
  edges.foldl (fun seen e => if seen.contains e.1 && e.2 != stop && !seen.contains e.2 then seen ++ [e.2] else seen) seen

/-- Places reached along edges, none through the place left out. -/
def reach (edges : List (RNode × RNode)) (stop : RNode) : Nat → List RNode → List RNode
  | 0, seen => seen
  | fuel + 1, seen => reach edges stop fuel (widen edges stop seen)

/-- The places on the loop of a carry, with the carry itself (R157). -/
def Launch.loopNodes (l : Launch) (x y unit slot : Nat) : List RNode :=
  let me : RNode := (x, y, unit, slot)
  let edges := l.routes.map fun r => (r.origin.node, r.dest.node)
  let n := l.routes.length + 1
  let first := ((l.routesOf x y unit (2 * slot)).map fun r => r.dest.node).filter (· != me)
  let last := ((l.routes.filter fun r => r.dest == { x := x, y := y, unit := unit, port := 2 * slot + 1 }).map
    fun r => r.origin.node).filter (· != me)
  let ahead := reach edges me n first.eraseDups
  let behind := reach (edges.map fun e => (e.2, e.1)) me n last.eraseDups
  me :: ahead.filter behind.contains

/-- A port takes loop records of a carry: it is not the carry's in0. -/
def loopPort (x y unit slot : Nat) (p : Port) : Bool := p != { x := x, y := y, unit := unit, port := 2 * slot }

/-- The routes of a carry's loop. -/
def Launch.loopRoutes (l : Launch) (x y unit slot : Nat) : List Route :=
  let nodes := l.loopNodes x y unit slot
  l.routes.filter fun r => nodes.contains r.origin.node && nodes.contains r.dest.node && loopPort x y unit slot r.dest

/-- S of R157: the input latches on the loop and the records that its routes hold without seams. -/
def Launch.loopRoom (l : Launch) (x y unit slot : Nat) : Nat :=
  (l.loopRoutes x y unit slot).foldl (fun n r => n + r.seamless l) 0

/-- A carry whose loop passes the checks of R157: a path leads back to in1, the route into in1 starts on the loop, and L is at
most S. -/
def Launch.carryOk (l : Launch) (x y unit slot : Nat) (capacity : Nat) : Bool :=
  let nodes := l.loopNodes x y unit slot
  match l.routeInto x y unit (2 * slot + 1) with
  | none => false
  | some r =>
    nodes.contains r.origin.node && (r.origin.node != (x, y, unit, slot) || r.origin.port == 2 * slot) &&
    decide (capacity ≤ l.loopRoom x y unit slot)

/-- Records that a unit on a loop holds away from its ports: in progress, resumed, in the kennel, or in its reorder bank; at a matrix tile,
the step record in its latch and that of the firing in progress. -/
def Launch.heldIn (l : Launch) (x y unit : Nat) : Nat :=
  let u := l.unit x y unit
  let bank := match u.op with
    | some (.reorder b _) => ((l.tile x y).slotsUsed b.toNat).length
    | _ => 0
  let t := l.mtile x y
  let steps := if unit = 12 then (if t.latch.isSome then 1 else 0) + (if t.firing.isSome then 1 else 0) else 0
  u.flight.length + u.resume.length + ((l.awayOf x y unit).filter (·.access.isSome)).length + bank + steps

/-- O of R157: the number of records on a carry's loop. -/
def Launch.occupancy (l : Launch) (x y unit slot : Nat) : Nat :=
  let routes := l.loopRoutes x y unit slot
  let inPorts := routes.foldl (fun n r => n + ((l.unit r.dest.x r.dest.y r.dest.unit).port r.dest.port).length) 0
  let elements := (l.loopNodes x y unit slot).filter fun n => decide (n.2.2.1 ≤ 7) || n.2.2.1 == 12
  let diverted := (l.kennel.entries.filter fun e => e.kind == .yieldEntry &&
    routes.any fun r => r.dest == { x := e.x, y := e.y, unit := e.unit, port := e.port }).length
  inPorts + diverted + elements.foldl (fun n e => n + l.heldIn e.1 e.2.1 e.2.2.1) 0

end Sys2Proof.Machine
end

