-- ==== Sys2Proof/Machine/Homes.lean ====
section
/-! DEFINITION. Machine/Homes.lean: the steps of the homes: a tile and a slice serving requests (R164, R182, R310, R326), lines
filled (R178, R235), translations (R341, R144, R345), parking and unparking (R186, R187), laggards (R196), quota waiters and
refused requests (R184, R194), the side log (R232) and link resends (R333). -/

namespace Sys2Proof.Machine

/-- An element of a list removed by its index. -/
def dropAt {α : Type} (xs : List α) (k : Nat) : List α := xs.take k ++ xs.drop (k + 1)

/-- A home by its number: slices 0 to 255, then the tiles of each instance. -/
def homeOf (n : Nat) : Home :=
  if n < 256 then .slice n
  else
    let m := n - 256
    .tile (m / 8192) (m % 8192 % 128) (m % 8192 / 128)

/-- The operation of the access that a party's lane belongs to, in progress or in the kennel. -/
def State.accessOp? (s : State) (p : Party) : Option Instr :=
  match p with
  | .access inst x y u id _ => (s.accessAt? inst x y u id).map (·.op)
  | _ => none

/-! ### A tile (R164) -/

/-- Plain loads and stores, which transform banks take (R310). -/
def streamsTo (i : Option Instr) : Bool :=
  match i with
  | some (.ld _ _ _) | some (.st _ _ _) | some (.ldv _ _ _) | some (.stv _ _ _) | none => true
  | _ => false

/-- A request as its tile performs it (R163, R310): one to a transform bank goes to the row that stands for the bank, where a
plain access takes from or appends to the stream; one that touches any other bank out of scratch mode is illegal. -/
def State.tileForm (s : State) (l : Launch) (rq : Req) : Option Req :=
  match rq.loc with
  | .tile x y w =>
    let bank := w % 16
    if l.bankMode x y bank = 4 then
      let there := { rq with loc := .tile x y (16 * bank + bank) }
      match rq.op with
      | .load .plain n => if streamsTo (s.accessOp? rq.party) then some { there with op := .streamRead n } else none
      | .store .plain ws => if streamsTo (s.accessOp? rq.party) then some { there with op := .streamWrite ws } else none
      | .feGet _ => some there
      | _ => none
    else if rq.banks.any fun b => l.bankMode x y b != 0 then none
    else some rq
  | _ => some rq

/-- A request served at its tile; one that has been performed receives its saved reply (R212). -/
def State.serveTile (s : State) (l : Launch) (inst x y : Nat) (rq : Req) : State :=
  match s.savedReply (.tile inst x y) rq with
  | some r => s.deliver rq r
  | none =>
    match s.tileForm l rq with
    | some rq => s.serveAt (.tile inst x y) rq
    | none => s.deliver rq (.trap .illegal 5 0)

/-- TILE_REQUEST_SERVE (R164): the k-th request of the tile's buffer is served where no older request needs one of its banks;
past the buffer, a request of the network is taken into it, those of an own element in the order they were made (R174), none for a
bank that a commit has closed (R170). -/
def execTileRequestServe (inst x y k : Nat) (s : State) : Host.Outcome State Fault Refusal :=
  match s.launch? inst with
  | none => .next s
  | some l =>
    let t := l.tile x y
    match t.reqs[k]? with
    | some rq =>
      let older := (t.reqs.take k).flatMap Req.banks
      if rq.banks.any older.contains || s.walkHolds (.tile inst x y) rq.key || s.parkOwes (.tile inst x y) rq.key then .next s
      else .next ((s.modTile inst x y fun t => { t with reqs := dropAt t.reqs k }).serveTile l inst x y rq)
    | none =>
      let j := k - t.reqs.length
      match t.network[j]? with
      | some rq =>
        if decide (32 ≤ t.reqs.length) || decide (s.now < rq.retryAt) || (t.network.take j).any rq.behind || !t.takesBanks rq.banks then
          .next s
        else .next (s.modTile inst x y fun t => { t with reqs := t.reqs ++ [rq], network := dropAt t.network j })
      | none => .next s

/-! ### A slice (R182, R326) -/

/-- A held quota place is kept for a waiter of the granule, which is performed first (R194). -/
def Slice.placeHolds (x : Slice) (key : Nat) : Bool :=
  x.places.any fun i => match x.quota.find? (·.inst == i) with
    | some r => r.granule == key
    | none => false

/-- A request caught by a switch of domains, or refused by a full catch buffer (R325 step 2). -/
def State.catchReq (s : State) (rq : Req) : State :=
  let d := vaDie rq.va
  let x := s.die d
  if x.caught.length < 512 then s.setDie d { x with caught := x.caught ++ [rq] }
  else s.setDie d { x with catchRefused := x.catchRefused ++ [{ rq with retryAt := s.now + 64 }] }

/-- A request behind an older one on its way to a slice: lanes of one access to one granule keep their order (R128), and a request that
a switch has caught comes before any other of its granule (R325). -/
def Req.queuedAfter (rq older : Req) : Bool := (older.party.sameAccess rq.party || older.first) && older.granule == rq.granule

/-- A replayed write comes behind one of its page that was logged before it and has not reached its home (R143, R232). -/
def State.replaysAfter (s : State) (rq : Req) : Bool :=
  match rq.party with
  | .log _ => s.slices.any fun e => (e.2.reqs ++ e.2.missing).any fun r =>
      r.party == rq.party && r.space == rq.space && r.va / 2 ^ 16 == rq.va / 2 ^ 16 && decide (r.seq < rq.seq)
  | _ => false

/-- SLICE_REQUEST_SERVE (R182, R183, R326): the k-th request on its way to a slice arrives there, behind those that come before it. It
is caught by a switch, forwarded to its home under the live map, answered from the reply cache, sent to be translated, or performed or
enqueued. -/
def execSliceRequestServe (sl k : Nat) (s : State) : Host.Outcome State Fault Refusal :=
  let x := s.slice sl
  match x.reqs[k]? with
  | none => .next s
  | some rq =>
    let key := rq.granule
    let taken := s.setSlice sl { x with reqs := dropAt x.reqs k }
    let home := s.homeSlice rq.va
    if (x.reqs.take k).any rq.queuedAfter || s.replaysAfter rq then .next s
    else if s.caught? rq.va then .next (taken.catchReq rq)
    else if home ≠ sl then
      .next (taken.setSlice home { taken.slice home with reqs := (taken.slice home).reqs ++ [{ rq with forwarded := true }] })
    else
      match s.savedReply (.slice sl) rq with
      | some r => .next (taken.deliver rq r)
      | none =>
        if s.fillHolds (.slice sl) key || x.placeHolds key || s.walkHolds (.slice sl) key || s.parkOwes (.slice sl) key then .next s
        else if s.needsWrite (.slice sl) rq then .next (taken.askWalk sl rq)
        else .next (taken.serveAt (.slice sl) rq)

/-- A line that a fill evicts: the part chooses, among the lines that may go (R178). -/
def State.victimLine (s : State) (sl : Nat) (keep : Nat) : Option Nat :=
  match Config.evict s.tick with
  | some n => ((s.slice sl).freeLines keep)[n]?
  | none => none

/-- SLICE_LINE_FILL (R178, R320, R343): the k-th translated line comes with its states, evicting another where the part chooses or the
slice is full, and the request that asked for it is served, behind those of its granule that came before it (R182). -/
def execSliceLineFill (sl k : Nat) (s : State) : Host.Outcome State Fault Refusal :=
  let x := s.slice sl
  match x.fills[k]? with
  | none => .next s
  | some (seq, pa, writable, uncached) =>
    match x.missing.find? (·.seq == seq) with
    | none => .next (s.setSlice sl { x with fills := dropAt x.fills k })
    | some rq =>
      if (x.missing.takeWhile (·.seq != seq)).any (·.granule == rq.granule) || s.parkOwes (.slice sl) rq.granule then .next s
      else
        let s := match s.victimLine sl (rq.granule / 2) with
          | some v => s.dropLine sl v
          | none => s
        match (if (s.line? sl rq.space rq.va).isSome then some s else s.makeRoom sl (rq.granule / 2)) with
        | none => .next s
        | some s =>
          let x := s.slice sl
          let s := s.setSlice sl { x with fills := dropAt x.fills k, missing := x.missing.filter (·.seq != seq) }
          let s := s.fillLine sl rq.space rq.va pa writable uncached
          if s.needsWrite (.slice sl) rq then .next (s.askWalk sl rq) else .next (s.serveAt (.slice sl) rq)

/-! ### Translation (R341) -/

/-- A request no longer waiting for its line. -/
def State.unmiss (s : State) (sl : Nat) (rq : Req) : State :=
  let x := s.slice sl
  s.setSlice sl { x with missing := x.missing.filter (·.seq != rq.seq) }

/-- A faulted request whose page is not mapped (R144, R233): a prefetch ends, an access of the fault-queue kind learns of it, any
other write goes to the side log, a replayed write is logged again at the tail, and an engine waits. -/
def State.faultReq (s : State) (w : WalkReq) : State :=
  let rq := w.req
  let d := vaDie rq.va
  let report := fun (origin : Nat) (s : State) => s.faultEvent rq.space rq.va origin
  match rq.party with
  | .access _ _ _ _ _ _ =>
    match s.accessOp? rq.party with
    | some (.pref _) => s.deliver rq replyDone
    | some i =>
      if faultQueueKind i then report 0 (s.deliver rq .fault)
      else report 1 (s.setDie d { s.die d with logQ := (s.die d).logQ ++ [w] })
    | none => s
  | .kelpie _ =>
    match rq.op with
    | .atom _ _ _ _ => report 1 (s.setDie d { s.die d with logQ := (s.die d).logQ ++ [w] })
    | _ => report 2 (s.setDie d { s.die d with stalled := (s.die d).stalled ++ [w] })
  | .log d' =>
    let x := s.die d'
    let mine := (x.sideLog.filter fun e => e.req.seq == rq.seq).map fun (e : LogEntry) => { e with replaying := false }
    report 1 (s.setDie d' { x with sideLog := x.sideLog.filter (fun e => e.req.seq != rq.seq) ++ mine })
  | .outside => s
  | _ => report 2 (s.setDie d { s.die d with stalled := (s.die d).stalled ++ [w] })

/-- TRANSLATION_WALK (R341, R345, R336): the k-th pending translation of a die is made: its line is ready to be filled, or a
peer answers, or the request traps, faults or waits for the copy-on-write engine. A table or a page beyond the die's memory is
a place that does not exist. -/
def execTranslationWalk (die k : Nat) (s : State) : Host.Outcome State Fault Refusal :=
  let x := s.die die
  match x.walkQ[k]? with
  | none => .next s
  | some w =>
    let rq := w.req
    let toPeer := match rq.loc with | .peer _ => true | _ => false
    let s := s.setDie die { x with walkQ := dropAt x.walkQ k }
    let write := if toPeer then rq.op.writesAtPeer rq.seq else rq.op.writes (s.view? w.slice rq.space rq.va rq.inst) rq.pos
    let gone := fun (s : State) => if toPeer then s.unmiss w.slice rq else (s.unmiss w.slice rq).settleLine w.slice rq.space rq.va
    let ends := fun (s : State) (r : Reply) => (gone s).deliver rq r
    match s.translate rq.space rq.va write toPeer with
    | (s, .ok pa wr un) =>
      let x := s.slice w.slice
      .next (s.setSlice w.slice { x with fills := x.fills ++ [(rq.seq, pa, wr, un)] })
    | (s, .peer part addr) =>
      let (s, r) := s.peerRequest { part := part, addr := addr, req := rq }
      .next (s.deliver rq r)
    | (s, .fault) => .next ((gone s).faultReq w)
    | (s, .protect) => .next (ends s (.trap .protect 1 0))
    | (s, .attr a) => .next (ends s (.trap .attr (a.zeroExtend 64) 0))
    | (s, .cow) => .next (s.cowAdd rq.space rq.va (some (w.slice, rq)))
    | (s, .deviceErr) => .next (ends s (.trap .deviceErr 3 0))
    | (_, .hole) => .fault .physicalHole

/-! ### Parking and unparking -/

/-- The die of a home. -/
def State.homeDie (s : State) (h : Home) : Nat :=
  match h with
  | .slice sl => sl / 64
  | .tile i x y => match s.launch? i with
    | some l => l.dieOf x y
    | none => 0

/-- The oldest buffered record of a granule. -/
def State.oldestWaiter (s : State) (h : Home) (key : Nat) : Option Req :=
  (s.waiters h).find? fun r => r.key == key && r.party.isRecord

/-- PARK_TIMEOUT (R185, R186): the oldest buffered waiter of a granule has waited PARKAFTER cycles, and its waiters park. -/
def execParkTimeout (home granule : Nat) (s : State) : Host.Outcome State Fault Refusal :=
  let h := homeOf home
  match s.oldestWaiter h granule with
  | none => .next s
  | some r =>
    let limit := max 16 (s.die (s.homeDie h)).parkAfter.toNat
    if s.now - r.since < limit then .next s else .next (s.parkGranule h granule [])

/-- A step of a granule's walk, its line brought to the slice first where a page operation took it away (R178, R343). -/
def State.walkStepAt (s : State) (h : Home) (key : Nat) : State :=
  match h with
  | .slice sl =>
    if (s.line? sl (granuleSpace key) (granuleVa key)).isSome then s.unparkStep h key
    else match s.ensureLine (granuleSpace key) (granuleVa key) false with
      | .ok s _ => s.unparkStep h key
      | other => other.state
  | .tile _ _ _ => s.unparkStep h key

/-- UNPARK_WALK (R187, R188): the walk of a parked granule takes one step. -/
def execUnparkWalk (home granule : Nat) (s : State) : Host.Outcome State Fault Refusal :=
  let h := homeOf home
  let caught := match h with
    | .slice _ => s.caught? (granuleVa granule)
    | .tile _ _ _ => false
  if s.fillHolds h granule || s.parkOwes h granule || caught then .next s else .next (s.walkStepAt h granule)

/-- LAGGARD_EVENT (R185, R196, R382): the k-th resident granule of a slice has kept its readers for LAGGARD cycles. -/
def execLaggardEvent (sl k : Nat) (s : State) : Host.Outcome State Fault Refusal :=
  let x := s.slice sl
  let limit := (s.die (sl / 64)).laggard.toNat
  match x.granules[k]? with
  | none => .next s
  | some (key, g) =>
    if limit = 0 || g.laggard || decide (s.now - g.since < limit) then .next s
    else
      let s := s.setSlice sl { x with granules := SMap.insert x.granules key { g with laggard := true } }
      .next (s.event (sl / 64) 3 0 (granuleSpace key) (BitVec.ofNat 64 (granuleVa key))
        ((0 : BitVec 11) ++ bit1 g.maskMode ++ g.readers ++ g.gen))

/-! ### Quota waiters and refused requests -/

/-- QUOTA_WAITER_FILL (R194): the k-th quota waiter, the oldest of its region, takes the place held for it, which stays held while its
line or the right to write it is not there yet. One whose page takes no fill gives the place to the next. -/
def execQuotaWaiterFill (sl k : Nat) (s : State) : Host.Outcome State Fault Refusal :=
  let x := s.slice sl
  match x.quota[k]? with
  | none => .next s
  | some rq =>
    if !x.places.contains rq.inst || (x.quota.take k).any (·.inst == rq.inst) || s.fillHolds (.slice sl) rq.granule ||
       s.walkHolds (.slice sl) rq.granule || s.parkOwes (.slice sl) rq.granule then .next s
    else
      let leave := fun (s : State) =>
        let x := s.slice sl
        s.setSlice sl { x with quota := x.quota.filter (·.seq != rq.seq), places := x.places.erase rq.inst }
      match s.ensureLine rq.space rq.va true with
      | .ok s _ => .next ((leave s).serveAt (.slice sl) rq)
      | .wait s => .next s
      | other => .next (((leave other.state).holdPlace sl rq.inst).askWalk sl rq)

/-- The k-th refused request of a slice presented again once its 64 cycles have passed. -/
def State.presentAgain (s : State) (sl k : Nat) (record : Bool) : State :=
  let x := s.slice sl
  match x.refused[k]? with
  | none => s
  | some rq =>
    if rq.party.isRecord != record || decide (s.now < rq.retryAt) then s
    else s.setSlice sl { x with refused := dropAt x.refused k, reqs := x.reqs ++ [rq] }

/-- FILL_RETRY (R194): a fill that found the quota queue full is presented again. -/
def execFillRetry (sl k : Nat) (s : State) : Host.Outcome State Fault Refusal := .next (s.presentAgain sl k true)

/-- ENGINE_WAITER_RETRY (R184): an engine's request that found the buffer full is presented again. -/
def execEngineWaiterRetry (sl k : Nat) (s : State) : Host.Outcome State Fault Refusal := .next (s.presentAgain sl k false)

/-! ### The side log and links -/

/-- A store of words from a word offset on as parts of at most two words. -/
def storeParts (sync : Sync) : Nat → List Word → List (Nat × HomeOp)
  | at_, a :: b :: rest => (at_, .store sync [a, b]) :: storeParts sync (at_ + 2) rest
  | at_, [a] => [(at_, .store sync [a])]
  | _, [] => []

/-- The parts in which a faulting write enters the side log, with their word offsets: an entry keeps at most two data words, so that a wider
store takes an entry for each pair (R232). DESIGN CHOICE: log 120. -/
def HomeOp.logParts : HomeOp → List (Nat × HomeOp)
  | .store sync ws => storeParts sync 0 ws
  | .line (some ws) => storeParts .plain 0 ws
  | op => [(0, op)]

/-- The side-log entries of a faulting write (R232). -/
def State.logEntries (s : State) (rq : Req) : List LogEntry :=
  let parts := fun (e : LogEntry) => rq.op.logParts.map fun p =>
    let va : DWord := BitVec.ofNat 64 (rq.va + 4 * p.1)
    { e with req := { rq with op := p.2, loc := .glob va }, addr := va }
  match rq.party with
  | .access inst x y u id _ =>
    match s.launch? inst with
    | none => []
    | some l =>
      let v := l.unit x y u
      let record := match s.accessAt? inst x y u id with
        | some a => a.record
        | none => Record.zero 0
      parts { req := rq, inst := inst, record := record, addr := 0, x := x, y := y, unit := u, block := v.block,
              opIndex := v.opIndex, replaying := false }
  | .kelpie d =>
    match (s.die d).kelpie with
    | j :: _ => parts { req := rq, inst := j.inst, record := j.record, addr := 0, x := j.x, y := j.y, unit := j.unit,
                        block := j.block, opIndex := j.opIndex, replaying := false }
    | [] => []
  | _ => []

/-- SIDE_LOG_ENTER (R144, R232): the k-th faulting write of a die enters its side log, and its record goes on; it waits while the
log of 4,096 entries has no room for it. Lanes of one access enter in their order (R128). -/
def execSideLogEnter (die k : Nat) (s : State) : Host.Outcome State Fault Refusal :=
  let x := s.die die
  match x.logQ[k]? with
  | none => .next s
  | some w =>
    let es := s.logEntries w.req
    if es.isEmpty then .next (s.setDie die { x with logQ := dropAt x.logQ k })
    else if decide (4096 < x.sideLog.length + es.length) || (x.logQ.take k).any (fun v => v.req.party.sameAccess w.req.party) then .next s
    else .next ((s.setDie die { x with logQ := dropAt x.logQ k, sideLog := x.sideLog ++ es }).deliver w.req .logged)

/-- The state with the requests on their way to a home written. -/
def State.setOnLinks (s : State) (h : Home) (rs : List Req) : State :=
  match h with
  | .slice sl => s.setSlice sl { s.slice sl with reqs := rs }
  | .tile i x y => s.modTile i x y fun t => { t with network := rs }

/-- A request performed at its home with its reply lost, where its home would perform it as it arrives: its sender sends it again (R212). -/
def State.unheard (s : State) (h : Home) (k : Nat) (rq : Req) : Option State :=
  let key := rq.key
  let open_ := match h with
    | .slice sl =>
      let x := s.slice sl
      s.homeSlice rq.va == sl && !s.caught? rq.va && !(x.reqs.take k).any rq.queuedAfter && !s.replaysAfter rq && !x.placeHolds key &&
      !s.needsWrite h rq
    | .tile i x y =>
      let t := match s.launch? i with
        | some l => l.tile x y
        | none => TileState.reset
      t.takesBanks rq.banks && !(t.network.take k).any rq.behind && !rq.banks.any (t.reqs.flatMap Req.banks).contains
  if !open_ || (s.savedReply h rq).isSome || s.fillHolds h key || s.walkHolds h key || s.parkOwes h key then none
  else
    ((s.launch? rq.inst).bind fun l => s.tileForm l rq).bind fun rq =>
      (s.viewAt h rq.key rq.inst).bind fun before =>
        (s.tryPerform h { rq with lost := true }).map fun p => p.1.afterServe h rq.key p.2 false before

/-- A residency report that its transport cannot deliver after its retries is dropped, and a link event says so (R380, R382). -/
def State.dropReport (s : State) (j : Nat) : State :=
  match s.reports[j]? with
  | none => s
  | some (d, _) => { s with reports := dropAt s.reports j }.event d 5 0 0 0 ((Config.failedLink s.tick).zeroExtend 32 ||| 0x10000)

/-- A link reported failed, and retired (R21, R333). -/
def State.retireLink (s : State) (die : Nat) (space : BitVec 12) : State :=
  let link := Config.failedLink s.tick
  { s.event die 5 0 space 0 (link.zeroExtend 32) with retiredLinks := s.retiredLinks ++ [link.toNat] }

/-- A reply to the access has crossed a link to its element: not one of its own tile, nor of its cell's ways. -/
def Access.overLinks (l : Launch) (x y : Nat) (a : Access) : Bool :=
  match memRefOf a.op with
  | some (_, m) => m.space != .ownTile && !l.wayServed x y m true && !a.trapped && a.lanes.any fun q => match q.reply with
      | some (.ok _ _ _ _) => true
      | _ => false
  | none => false

/-- Replies on their way to the elements of a cell, with the element's unit: from slices, tiles, peers and controllers, whatever their
requests met there. -/
def State.repliesOnLinks (s : State) (h : Home) : List (Nat × Access) :=
  match h with
  | .slice _ => []
  | .tile i x y =>
    match s.launch? i with
    | some l => [6, 7].flatMap fun unit => ((l.unit x y unit).flight.filter (Access.overLinks l x y)).map (unit, ·)
    | none => []

/-- The j-th reply on its way to a cell is lost with its link: its access ends with DEVICEERR, though its home has performed it (R212). -/
def State.loseReply (s : State) (h : Home) (j : Nat) : State :=
  match h, (s.repliesOnLinks h)[j]? with
  | .tile i x y, some (unit, a) =>
    match s.launch? i with
    | some l =>
      let a' := { a with lanes := a.lanes.map fun q => { q with reply := some (.trap .deviceErr 1 q.addr) } }
      (s.modUnit i x y unit fun u => { u with flight := u.flight.map fun b => if b.id = a.id then a' else b }).retireLink (l.dieOf x y) l.record.space
    | none => s
  | _, _ => s

/-- LINK_RESEND (R212, R333): a packet of the k-th request on its way to a home is discarded and sent again, at most 16 times: the request,
or the reply to a copy of it that its home has performed. On a link that exhausts its resends, or that is dead, the access ends with
DEVICEERR and the link is reported and retired. Past the requests, k counts the residency reports that have been sent (R380), and past
them the replies on their way to the elements of a cell, whose link may be dead: log 118. -/
def execLinkResend (home k : Nat) (dead : Bool) (s : State) : Host.Outcome State Fault Refusal :=
  let h := homeOf home
  match (s.onLinks h)[k]? with
  | none =>
    let j := k - (s.onLinks h).length
    .next (if !dead then s else if j < s.reports.length then s.dropReport j else s.loseReply h (j - s.reports.length))
  | some rq =>
    if rq.own then .next s
    else if !dead && decide (rq.resends < 16) then
      let s := if Config.replyLost s.tick then (s.unheard h k rq).getD s else s
      .next (s.setOnLinks h ((s.onLinks h).map fun r => if r.seq = rq.seq then { r with resends := r.resends + 1 } else r))
    else
      .next (((s.setOnLinks h (dropAt (s.onLinks h) k)).deliver rq (.trap .deviceErr 1 0)).retireLink rq.die rq.space)

end Sys2Proof.Machine
end

