-- ==== Sys2Proof/Machine/Monitors.lean ====
section
/-! DEFINITION. Machine/Monitors.lean: the histogram units of a die, and how a sample is recorded (R383). -/

namespace Sys2Proof.Machine

/-- A histogram unit of a die. -/
def Die.histogram (x : Die) (u : Nat) : Histogram := x.histograms[u]?.getD Histogram.reset

/-- The state with a histogram unit written. -/
def State.setHistogram (s : State) (d u : Nat) (h : Histogram) : State :=
  s.setDie d { s.die d with histograms := (s.die d).histograms.setIfInBounds u h }

/-- The bin of a sample: 0 for 0, otherwise min(31, ⌊log₂ v′⌋ + 1) of the shifted sample. -/
def histogramBin (shift : Nat) (v : Word) : Nat :=
  let w := v.toNat / 2 ^ shift
  if w = 0 then 0 else min 31 (Nat.log2 w + 1)

/-- A sample recorded: extremes, count, and the bin, which saturates. -/
def Histogram.record (h : Histogram) (v : Word) : Histogram :=
  let b := histogramBin (field h.config 8 5) v
  let old := h.bins[b]?.getD 0
  { h with min := if v < h.min then v else h.min, max := if h.max < v then v else h.max, count := h.count + 1,
           bins := h.bins.setIfInBounds b (if old = 0xFFFFFFFF then old else old + 1) }

/-- A unit takes samples of a source and a space. -/
def Histogram.takes (h : Histogram) (source : BitVec 8) (space : BitVec 12) : Bool :=
  h.config.getLsbD 63 && source.toNat == field h.config 0 8 && decide (1 ≤ source.toNat) && decide (source.toNat ≤ 10) &&
  (!h.config.getLsbD 35 || space == h.config.extractLsb' 36 12)

/-- A sample of a source, charged to a space, reaches a unit: it is recorded, or with FREEZE counted as dropped. -/
def State.sampleAt (s : State) (d : Nat) (source : BitVec 8) (space : BitVec 12) (v : Word) (u : Nat) : State :=
  let h := (s.die d).histogram u
  if !h.takes source space then s
  else if h.config.getLsbD 62 then s.setHistogram d u { h with dropped := h.dropped + 1 }
  else s.setHistogram d u (h.record v)

/-- A sample reaches every unit of a die. -/
def State.sample (s : State) (d : Nat) (source : BitVec 8) (space : BitVec 12) (v : Word) : State :=
  (List.range 16).foldl (fun (s : State) u => s.sampleAt d source space v u) s

end Sys2Proof.Machine
end

