-- ==== Sys2Proof/Machine/Matrix.lean ====
section
/-! DEFINITION. Machine/Matrix.lean: matrix tiles: register images and their life (R285, R287, R297), step records and firings
(R288, R289, R298 to R302), and the commands mtcfg, tload, mzero, mdrain and mrel (R286, R287, R290, R291). The tile is
unit 12 of its cell; its sequence port is port 4 of that unit. -/

namespace Sys2Proof.Machine

/-! ### Registers -/

/-- FMT, rows and columns of a shape (R285). -/
def shapeFmt (sh : Shape) : Fmt := Fmt.ofCode (sh.extractLsb' 16 4)
/-- Rows of a shape. -/
def shapeRows (sh : Shape) : Nat := (sh.extractLsb' 9 7).toNat + 1
/-- Columns of a shape. -/
def shapeCols (sh : Shape) : Nat := (sh.extractLsb' 0 9).toNat + 1
/-- Bits of an image of a shape. -/
def shapeBits (sh : Shape) : Nat := shapeRows sh * shapeCols sh * (shapeFmt sh).width
/-- Records of an image (R285). -/
def shapeRecords (sh : Shape) : Nat := ceilDiv (shapeBits sh) 512
/-- A shape that a register takes (R62, R286). -/
def shapeFits (sh : Shape) : Bool := decide ((sh.extractLsb' 16 4).toNat ≤ 13) && decide (shapeBits sh ≤ 131072)

/-- Registers of a tile by target: 0 to 7 tile registers, 8 to 11 scale vectors (R287). -/
def MatrixTile.target (t : MatrixTile) (n : Nat) : TileReg :=
  if n < 8 then t.regs[n]?.getD TileReg.reset else t.vecs[n - 8]?.getD TileReg.reset

/-- A tile with a register written. -/
def MatrixTile.setTarget (t : MatrixTile) (n : Nat) (r : TileReg) : MatrixTile :=
  if n < 8 then { t with regs := t.regs.setIfInBounds n r } else { t with vecs := t.vecs.setIfInBounds (n - 8) r }

/-- Records that fill a target: a scale vector takes 8 (R285). -/
def targetRecords (n : Nat) (r : TileReg) : Nat := if n < 8 then shapeRecords r.shape else 8

/-- A register's words written from word i on. -/
def writeImage (m : SMap Word) : Nat → List Word → SMap Word
  | _, [] => m
  | i, w :: ws => writeImage (SMap.put m 0 i w) (i + 1) ws

/-- Element i of an image, packed by R240. -/
def TileReg.code (r : TileReg) (width i : Nat) : Nat :=
  let j := i * width / 32
  ((SMap.getD r.data j 0).toNat + 2 ^ 32 * (SMap.getD r.data (j + 1) 0).toNat) / 2 ^ (i * width % 32) % 2 ^ width

/-- The rows of a register's image. -/
def TileReg.rowsOf (r : TileReg) : List (List Nat) :=
  let w := (shapeFmt r.shape).width
  let n := shapeCols r.shape
  (List.range (shapeRows r.shape)).map fun i => (List.range n).map fun k => r.code w (i * n + k)

/-- A register that a firing may read: FULL, and in mask mode with reader 0 still to come (R288). -/
def TileReg.ready (r : TileReg) : Bool := r.state == .full && (!r.maskMode || r.readers.getLsbD 0)

/-- Reader 0 counted in a FULL register: one left with no readers becomes EMPTY (R288, R297). A count of 0, which only a register filled
for no readers has (log 64), goes on to 4,095: DESIGN CHOICE, log 64. -/
def TileReg.readOnce (r : TileReg) : TileReg :=
  if r.state != .full then r
  else
  let left := if r.maskMode then r.readers &&& ~~~(1 : BitVec 12) else r.readers - 1
  { r with readers := left, state := if left = 0 then .empty else r.state }

/-! ### The firing operation -/

/-- The firing operations (R289). -/
inductive FireKind where
  | mma | mmap
  | msca (v k : BitVec 2)
  deriving DecidableEq, Repr

/-- The firing operation in unit 12, if it holds one (R54). -/
def firingOp (u : UnitState) : Option (FireOp × FireKind) :=
  if u.opBits = 0 then none
  else
    match u.op with
    | some (.mma o) => some (o, .mma)
    | some (.mmap o) => some (o, .mmap)
    | some (.msca o v k) => some (o, .msca v k)
    | _ => none

/-- STRICT of the tile mode word (R31). -/
def UnitState.strict (u : UnitState) : Bool := (u.fld 12).getLsbD 0
/-- ISAT of the tile mode word. -/
def UnitState.isat (u : UnitState) : Bool := (u.fld 12).getLsbD 1

/-- A step record that never fires: EMPTY, a token, or any where the tile holds no firing operation (R54, R299). -/
def neverFires (u : UnitState) (r : Record) : Bool := r.isToken || (r.at 3).getLsbD 4 || (firingOp u).isNone

/-- The registers that a step record selects (R298): tA, tB, cD, and vS, 4 where the operation has none. -/
def selected (o : FireOp) (k : FireKind) (r : Record) : Nat × Nat × Nat × Nat :=
  let w := r.at 4
  ((o.a ^^^ w.extractLsb' 0 3).toNat, (o.b ^^^ w.extractLsb' 4 3).toNat, (o.d ^^^ w.extractLsb' 8 2).toNat,
   match k with
   | .msca v _ => (v ^^^ w.extractLsb' 12 2).toNat
   | _ => 4)

/-- The first t2 code 10 of a register: its row and column (R224). -/
def TileReg.badCode (r : TileReg) : Option (Nat × Nat) :=
  (r.rowsOf.zipIdx.findSome? fun (row, i) => (row.findIdx? (· == 2)).map fun k => (i, k))

/-- What stops a firing before it begins (R288, R224): BOUND by its shapes, or FORMAT under STRICT. -/
def firingTrap (u : UnitState) (t : MatrixTile) (o : FireOp) (a b : Nat) : Option (Cause × DWord) :=
  let ra := t.target a
  let rb := t.target b
  let bound : DWord := BitVec.ofNat 64 (o.a.toNat + 8 * o.b.toNat + 256 * (Fmt.code o.fmt).toNat + 2 ^ 31)
  if a = b || shapeFmt ra.shape != o.fmt || shapeFmt rb.shape != o.fmt || shapeCols ra.shape != shapeCols rb.shape then
    some (.bound, bound)
  else if u.strict && o.fmt == .t2 then
    let at_ := fun (n : Nat) (p : Nat × Nat) => BitVec.ofNat 64 (n + 2 ^ 8 * p.1 + 2 ^ 16 * p.2 + 2 ^ 31)
    match ra.badCode, rb.badCode with
    | some p, _ => some (.format, at_ a p)
    | none, some p => some (.format, at_ b p)
    | none, none => none
  else none

/-! ### Step records -/

/-- A step record as the operation of unit 12 takes it: none where its BREAK traps the record (R27, R31). -/
def MatrixTile.passes (u : UnitState) (r : Record) : Option Record := if (firingOp u).isNone then some r else breakpoint u r

/-- The state with a matrix tile and DROPS: its latch's record removed where it never fires and no firing is in progress
(R299), unless it meets a BREAK operation (R27). -/
def State.removeEmptyStep (s : State) (inst x y : Nat) : State :=
  match s.launch? inst with
  | none => s
  | some l =>
    let t := l.mtile x y
    match t.latch, t.firing with
    | some (r, _), none =>
      if neverFires (l.unit x y 12) r && (MatrixTile.passes (l.unit x y 12) r).isSome then
        s.setLaunch inst { l.setMtile x y { t with latch := none } with drops := l.drops + 1, lastMove := s.now }
      else s
    | _, _ => s

/-- STEP_RECORD_ARRIVAL (R290, R299): the oldest record on its way reaches the sequence port, where one that never fires is
removed once earlier firings have completed. -/
def execStepRecordArrival (inst x y : Nat) (s : State) : Host.Outcome State Fault Refusal :=
  match s.launch? inst with
  | none => .next s
  | some l =>
    let t := l.mtile x y
    let u := l.unit x y 12
    if !l.acts || !u.open_ || u.held then .next s
    else
      match t.latch, u.port 4 with
      | none, r :: _ =>
        let l := (l.setUnit x y 12 (u.pop 4)).setMtile x y { t with latch := some (r, t.arrived), arrived := t.arrived + 1 }
        .next ((s.setLaunch inst { l with lastMove := s.now }).removeEmptyStep inst x y)
      | _, _ => .next (s.removeEmptyStep inst x y)

/-- A firing on an accumulator waits for the commands on it that were accepted before its step record arrived, and for a drain of
it (R290). -/
def MatrixTile.accFree (t : MatrixTile) (acc number : Nat) : Bool :=
  !(t.cmds.any fun c => !c.token && c.acc == acc && decide (c.after ≤ number)) &&
  !(match t.drain with | some d => d.acc == acc | none => false)

/-- A trap of the step record in a tile's latch, which it leaves. -/
def State.trapStep (s : State) (inst x y : Nat) (u : UnitState) (r : Record) (c : Cause) (d : DWord) : State :=
  let s := s.modMtile inst x y fun t => { t with latch := none }
  (s.modUnit inst x y 12 fun u => { u with held := true }).raise inst (trapAt u x y 12 r c d 0 .item)

/-- A format's K block (R289). -/
def kBlock (f : Fmt) : Nat :=
  match f with
  | .fp32 => 8
  | .fp16 | .bf16 => 64
  | .e5m2 | .e4m3 | .s8 | .n8 | .e8m0 => 128
  | .e3m2 | .e2m3 | .e2m1 | .s4 | .n4 => 256
  | .s2 | .t2 => 512

/-- Cycles of a firing over k columns at a LEVEL: ⌈64·⌈k/B⌉ × 8 / (8 − LEVEL)⌉ (R289, R381). -/
def firingLength (f : Fmt) (k level : Nat) : Nat := ceilDiv (64 * ceilDiv k (kBlock f) * 8) (8 - level)

/-- FIRING_BEGIN (R27, R288, R298, R300): the step record in the latch traps BREAK where the operation has the flag, begins its firing,
traps, or goes where the tile holds no firing operation by now (R54). -/
def execFiringBegin (inst x y : Nat) (s : State) : Host.Outcome State Fault Refusal :=
  match s.launch? inst with
  | none => .next s
  | some l =>
    let t := l.mtile x y
    let u := l.unit x y 12
    match t.latch, t.firing, firingOp u with
    | some (r0, n), none, some (o, k) =>
      if !l.acts || u.held then .next s
      else
        match breakpoint u r0 with
        | none => .next (s.trapStep inst x y u r0 .brk 0)
        | some r =>
          let (a, b, c, v) := selected o k r
          let vReady := v == 4 || (t.target (8 + v)).ready
          if neverFires u r then .next (s.removeEmptyStep inst x y)
          else if !((t.target a).ready && (t.target b).ready && vReady) || !t.accFree c n then .next s
          else
            match firingTrap u t o a b with
            | some (cause, d) => .next (s.trapStep inst x y u r0 cause d)
            | none =>
              let f : Firing := { step := r, number := n, a := a, b := b, c := c, v := v, written := false,
                                  length := firingLength o.fmt (shapeCols (t.target a).shape) s.level.toNat }
              .next ((s.modMtile inst x y fun t => { t with latch := none, firing := some f }).modLaunch inst
                fun l => { l with lastMove := s.now })
    | some _, none, none => .next (if !l.acts || u.held then s else s.removeEmptyStep inst x y)
    | _, _, _ => .next s

/-! ### Arithmetic (R289, R301, R302) -/

/-- The group length of a floating format (R301). -/
def groupLength (f : Fmt) : Nat :=
  match f with
  | .fp32 => 4 | .fp16 => 16 | .bf16 => 16 | _ => 32

/-- Lists of consecutive elements of a length. -/
def groupsOf {α : Type} (n : Nat) : Nat → List α → List (List α)
  | 0, _ => []
  | fuel + 1, xs => if xs.isEmpty then [] else xs.take n :: groupsOf n fuel (xs.drop n)

/-- The base-2 exponent of the largest magnitude among products, none where all are zero. -/
def topExp (ps : List Val) : Option Int :=
  let m := ps.foldl (fun m p => maxFrac m p.mag) (0, 1)
  if m.1 = 0 then none else some (floorLog2 m.1 m.2)

/-- A product's magnitude cut to a multiple of 2^e. -/
def cutTo (e : Int) (p : Val) : Val :=
  match p with
  | .fin neg a b =>
    if a = 0 then p
    else
      let (x, y) := scaleFrac a b (-e)
      let q := x / y
      if q = 0 then .fin false 0 1
      else
        let (c, d) := scaleFrac q 1 e
        .fin neg c d
  | v => v

/-- The products of a group aligned to its 64-bit window, for FP16, BF16 and FP32 (R301). -/
def windowed (f : Fmt) (ps : List Val) : List Val :=
  match f, topExp ps with
  | .fp32, some e | .fp16, some e | .bf16, some e => ps.map (cutTo (e - 63))
  | _, _ => ps

/-- The exact sum of products, −0 only where every one is −0 (R301). -/
def exactSum : List Val → Val
  | [] => .fin false 0 1
  | p :: ps => ps.foldl (Val.add .rne) p

/-- A group sum rounded to FP32 (R301). -/
def groupSum (f : Fmt) (ps : List Val) : Nat :=
  let finite := ps.all Val.finite
  convert .fp32 .rne false 0 (exactSum (if finite then windowed f ps else ps))

/-- One rounded addition in FP32. -/
def addF32 (x s : Nat) : Nat := convert .fp32 .rne false 0 (Val.add .rne (Fmt.value .fp32 x) (Fmt.value .fp32 s))

/-- Group sums added in the order that a firing's tile, configuration, format and shape fix (R302). -/
def addGroups (key : Nat → Nat) (start : Nat) (sums : List Nat) : Nat :=
  let order := sortBy (fun a b => decide (key a.2 ≤ key b.2)) sums.zipIdx
  order.foldl (fun x p => addF32 x p.1) start

/-- The products of two rows of a floating format. -/
def products (f : Fmt) (xs ys : List Nat) : List Val := xs.zipWith (fun a b => Val.mul (f.value a) (f.value b)) ys

/-- An element of a floating accumulation (R302). -/
def accumulateF (f : Fmt) (key : Nat → Nat) (start : Nat) (xs ys : List Nat) : Nat :=
  addGroups key start ((groupsOf (groupLength f) xs.length (products f xs ys)).map (groupSum f))

/-- An element of an integer accumulation (R302). -/
def accumulateI (f : Fmt) (isat : Bool) (start : Nat) (xs ys : List Nat) : Nat :=
  let sum := (xs.zipWith (fun a b => f.intOf a * f.intOf b) ys).foldl (· + ·) (0 : Int)
  narrow isat 32 (signedOf 32 start + sum)

/-- An element that a firing accumulates onto a start value. -/
def accumulated (f : Fmt) (isat : Bool) (key : Nat → Nat) (start : Nat) (xs ys : List Nat) : Nat :=
  if f.floats then accumulateF f key start xs ys else accumulateI f isat start xs ys

/-- msca's scaling of P by vS[i] · kS onto cD (R289). -/
def scaleOnto (f : Fmt) (c p v k : Nat) : Nat :=
  let sigma := convert .fp32 .rne false 0 (Val.mul (Fmt.value .fp32 v) (Fmt.value .fp32 k))
  let pv := if f.floats then Fmt.value .fp32 p
            else Fmt.value .fp32 (convert .fp32 .rne false 0 (Val.ofInt (signedOf 32 p)))
  convert .fp32 .rne false 0 (Val.add .rne (Fmt.value .fp32 c) (Val.mul (Fmt.value .fp32 sigma) pv))

/-- The accumulator after a firing (R289): elements outside its M rows and N columns stay. -/
def fired (f : Fmt) (kind : FireKind) (isat : Bool) (key : Nat → Nat) (kword : Nat → Word) (a b v : TileReg)
    (c : SMap Word) : SMap Word :=
  let bs := b.rowsOf
  a.rowsOf.zipIdx.foldl (fun (c : SMap Word) (xs, i) =>
    bs.zipIdx.foldl (fun (c : SMap Word) (ys, j) =>
      let at_ := i * 128 + j
      let old := (SMap.getD c at_ 0).toNat
      let new := match kind with
        | .mma => accumulated f isat key old xs ys
        | .mmap => accumulated f isat key 0 xs ys
        | .msca _ k => scaleOnto f old (accumulated f isat key 0 xs ys) (SMap.getD v.data i 0).toNat (kword k.toNat).toNat
      SMap.put c 0 at_ (BitVec.ofNat 32 new)) c) c

/-- A firing in progress writes its accumulator (R289, R234). -/
def State.fire (s : State) (o : FireOp) (kind : FireKind) : Host.Outcome State Fault Refusal :=
  let f := s.focus
  match s.here with
  | none => .next s
  | some (l, u) =>
    let t := l.mtile f.x f.y
    match t.firing with
    | none => .next s
    | some g =>
      if !l.acts || g.written then .next s
      else
        let a := t.target g.a
        let b := t.target g.b
        let v := if g.v < 4 then t.target (8 + g.v) else TileReg.reset
        let acc := t.accs[g.c]?.getD { data := [], poisoned := false }
        let tile := l.absY f.y * 128 + l.absX f.x
        let key := fun q => Config.groupKey tile t.epoch (Fmt.code o.fmt).toNat (shapeRows a.shape * 128 + shapeRows b.shape)
          (shapeCols a.shape) q
        let data := fired o.fmt kind u.isat key u.k a b v acc.data
        let poisoned := acc.poisoned || a.poisoned || b.poisoned || (decide (g.v < 4) && v.poisoned)
        .next (s.modMtile f.inst f.x f.y fun t =>
          { t with accs := t.accs.setIfInBounds g.c { data := data, poisoned := poisoned }, firing := some { g with written := true } })

/-- mma (R289). -/
def execMma (o : FireOp) (s : State) : Host.Outcome State Fault Refusal := s.fire o .mma
/-- mmap (R289). -/
def execMmap (o : FireOp) (s : State) : Host.Outcome State Fault Refusal := s.fire o .mmap
/-- msca (R289). -/
def execMsca (o : FireOp) (v k : BitVec 2) (s : State) : Host.Outcome State Fault Refusal := s.fire o (.msca v k)

/-- FIRING_COMPLETE (R27, R288, R299): the firing counts as reader 0 of its operands, its step record is removed, and so is a step
record behind it that never fires; a TRACE operation posts, and the firing's length is a sample (R383). -/
def execFiringComplete (inst x y : Nat) (s : State) : Host.Outcome State Fault Refusal :=
  match s.launch? inst with
  | none => .next s
  | some l =>
    match (l.mtile x y).firing with
    | none => .next s
    | some g =>
      if !l.acts || !g.written then .next s
      else
        let once := fun (t : MatrixTile) (n : Nat) => t.setTarget n (t.target n).readOnce
        let s := s.modMtile inst x y fun t =>
          let t := once (once t g.a) g.b
          { (if g.v < 4 then once t (8 + g.v) else t) with firing := none }
        let u := l.unit x y 12
        let s := if u.traces then s.tracePost (l.dieOf x y) u g.step.ctl.ord else s
        let s := s.sample (l.dieOf x y) 8 l.record.space (BitVec.ofNat 32 g.length)
        .next ((s.modLaunch inst fun l => { l with lastMove := s.now }).removeEmptyStep inst x y)

/-! ### Operand ports (R287, R297) -/

/-- A record taken into the target of a port's oldest binding. -/
def MatrixTile.take (t : MatrixTile) (port : Nat) (b : Binding) (rest : List Binding) (r : Record) : MatrixTile :=
  let g := t.target b.target
  let words := shapeRecords g.shape * 16
  let image := r.all.take (words - 16 * g.taken)
  let poison := r.ctl.poison || (g.taken != 0 && g.tainted)
  let g := { g with data := writeImage g.data (16 * g.taken) (if b.target < 8 then image else r.all) }
  if g.taken + 1 = targetRecords b.target g then
    { t.setTarget b.target { g with state := .full, readers := b.readers, maskMode := b.mask, poisoned := poison, filler := none, taken := 0,
                                    tainted := false } with
      binds := t.binds.setIfInBounds port rest }
  else t.setTarget b.target { g with state := .filling, filler := some (.port port), taken := g.taken + 1, tainted := poison }

/-- OPERAND_PORT_FILL (R287, R297): the head of an operand port is taken by its oldest binding's target; a token is removed. -/
def execOperandPortFill (inst x y port : Nat) (s : State) : Host.Outcome State Fault Refusal :=
  match s.launch? inst with
  | none => .next s
  | some l =>
    let u := l.unit x y 12
    let t := l.mtile x y
    match u.port port with
    | [] => .next s
    | r :: _ =>
      let popped := fun (s : State) => (s.modUnit inst x y 12 fun u => u.pop port).modLaunch inst fun l => { l with lastMove := s.now }
      if !l.acts || decide (4 ≤ port) then .next s
      else if r.isToken then .next (popped s)
      else
        match t.binds[port]?.getD [] with
        | [] => .next s
        | b :: rest =>
          let g := t.target b.target
          if g.state == .empty || (g.state == .filling && g.filler == some (.port port)) then
            .next ((popped s).modMtile inst x y fun t => t.take port b rest r)
          else .next s

/-! ### Commands (R286, R287, R290, R291) -/

/-- A command in an access element, whose record leaves when its tile accepts it: `plan` its checks, `accept` the tile after
accepting it, none where it waits. -/
def commandOp (i : Instr) (plan : MatrixTile → Record → Option TrapOf) (accept : MatrixTile → Record → Option MatrixTile)
    (s : State) : Host.Outcome State Fault Refusal :=
  let f := s.focus
  accessStep i (fenceRef .cell)
    (fun l _ r => match plan (l.mtile f.x f.y) r with
      | some t => .error t
      | none => .ok (0, []))
    (fun r _ _ s =>
      match s.here with
      | none => none
      | some (l, _) =>
        (accept (l.mtile f.x f.y) r).map fun t =>
          (s.modMtile f.inst f.x f.y fun _ => t).takeHead.answeredAccess i r 0 (some replyDone)) s

/-- The shape that mtcfg writes: its constant, or w0 where the constant is 0 (R286). -/
def mtcfgShape (shape : Shape) (r : Record) : Shape := if shape = 0 then (r.at 0).extractLsb' 0 20 else shape

/-- Copies of a region that name a tile register (R286). -/
def State.copyNames (s : State) (inst x y t : Nat) : Bool :=
  s.copies.any fun e => e.2.any fun (j : CopyJob) => j.inst == inst && descDSpace j.desc == 3 &&
    (tilePlace (j.desc.get 2).toNat).1 == x && (tilePlace (j.desc.get 2).toNat).2.1 == y && (j.desc.get 2).toNat % 8 == t

/-- mtcfg (R286): waits until its register is EMPTY and nothing names it; a shape that does not fit traps BOUND. -/
def execMtcfg (t : BitVec 3) (shape : Shape) (s : State) : Host.Outcome State Fault Refusal :=
  let f := s.focus
  commandOp (.mtcfg t shape)
    (fun _ r => let sh := mtcfgShape shape r; if shapeFits sh then none else some (.bound, sh.zeroExtend 64, 0))
    (fun tile r =>
      let g := tile.target t.toNat
      let named := (tile.binds.toList.any fun bs => bs.any fun b => b.target == t.toNat) || s.copyNames f.inst f.x f.y t.toNat
      if g.state != .empty || named then none
      else some (tile.setTarget t.toNat { g with shape := mtcfgShape shape r })) s

/-- tload (R287): a binding joins its port's queue of 4. -/
def execTload (target : BitVec 4) (mask : Bool) (readers : BitVec 12) (port : BitVec 2) (s : State) :
    Host.Outcome State Fault Refusal :=
  commandOp (.tload target mask readers port) (fun _ _ => none)
    (fun tile _ =>
      let bs := tile.binds[port.toNat]?.getD []
      let b : Binding := { target := target.toNat, mask := mask, readers := readers }
      if 4 ≤ bs.length then none else some { tile with binds := tile.binds.setIfInBounds port.toNat (bs ++ [b]) }) s

/-- Commands a tile has accepted and that have not ended. -/
def MatrixTile.queued (t : MatrixTile) : Nat := t.cmds.length + (if t.drain.isSome then 1 else 0)

/-- A command accepted into the tile's queue of 8 (R290). -/
def MatrixTile.accept (t : MatrixTile) (c : TileCmd) : Option MatrixTile :=
  if 8 ≤ t.queued then none else some { t with cmds := t.cmds ++ [{ c with after := t.arrived }] }

/-- mzero (R290). -/
def execMzero (c : BitVec 2) (s : State) : Host.Outcome State Fault Refusal :=
  commandOp (.mzero c) (fun _ _ => none)
    (fun t _ => t.accept { drain := false, acc := c.toNat, after := 0, fmt := 0, w0 := 0, token := false, blk := 0 }) s

/-- mdrain (R290): a token makes the tile send a token after its drains, and passes on. -/
def execMdrain (c : BitVec 2) (fmt : Fmt) (s : State) : Host.Outcome State Fault Refusal :=
  let f := s.focus
  let cmd : TileCmd := { drain := true, acc := c.toNat, after := 0, fmt := Fmt.code fmt, w0 := 0, token := false, blk := 0 }
  let token := match s.here with
    | some (l, u) => match u.port 0 with
      | r :: _ => if l.takes u && r.isToken then some (l, r) else none
      | [] => none
    | none => none
  match token with
  | some (l, r) =>
    match (l.mtile f.x f.y).accept { cmd with token := true, blk := r.ctl.blk } with
    | none => .next s
    | some t => .next ((s.modMtile f.inst f.x f.y fun _ => t).takeHead.startToken (.mdrain c fmt) r)
  | none =>
    commandOp (.mdrain c fmt)
      (fun _ r =>
        let w := r.at 0
        if w.extractLsb' 24 8 != 0 || decide (128 < (w.extractLsb' 0 8).toNat + (w.extractLsb' 8 8).toNat) then
          some (.bound, w.zeroExtend 64, 0)
        else none)
      (fun t r => t.accept { cmd with w0 := r.at 0 }) s

/-- What mrel releases of a FULL register: the register after it, or the OVERREAD's DETAIL (R291). In mask mode it may name bit 0, which R297
leaves to firings alone: DESIGN CHOICE, log 130. -/
def TileReg.released (g : TileReg) (w : BitVec 12) : Except DWord TileReg :=
  let spent := fun (reader : Nat) => BitVec.ofNat 64 (g.gen.toNat + 256 * reader + (if g.maskMode then 4096 else 0))
  let left : BitVec 12 := if w = 0 then 0 else if g.maskMode then g.readers &&& ~~~w else g.readers - w
  let after : TileReg := { g with readers := left, state := if left = 0 then .empty else g.state }
  if w = 0 then .ok after
  else if g.maskMode then
    match (List.range 12).find? fun i => w.getLsbD i && !g.readers.getLsbD i with
    | some i => .error (spent i)
    | none => .ok after
  else if g.readers.toNat < w.toNat then .error (spent 0)
  else .ok after

/-- A firing in progress reads a register of its tile. -/
def MatrixTile.reads (t : MatrixTile) (n : Nat) : Bool :=
  match t.firing with
  | some g => g.a == n || g.b == n
  | none => false

/-- mrel (R291). A release that would empty a register that a firing is reading waits for the firing: the register stays FULL throughout
it (R300). DEDUCED: log 96. -/
def execMrel (t : BitVec 3) (s : State) : Host.Outcome State Fault Refusal :=
  let w := fun (r : Record) => (r.at 0).extractLsb' 0 12
  commandOp (.mrel t)
    (fun tile r =>
      let g := tile.target t.toNat
      if g.state != .full then none
      else match g.released (w r) with
        | .error d => some (.overread, d, 0)
        | .ok _ => none)
    (fun tile r =>
      let g := tile.target t.toNat
      if g.state != .full then none
      else match g.released (w r) with
        | .error _ => none
        | .ok g => if tile.reads t.toNat && g.state == .empty then none else some (tile.setTarget t.toNat g)) s

/-! ### mzero and mdrain acting (R290) -/

/-- Every firing whose step record arrived before a command was accepted has completed. -/
def MatrixTile.inOrder (t : MatrixTile) (c : TileCmd) : Bool :=
  (match t.firing with | some g => decide (c.after ≤ g.number) | none => true) &&
  (match t.latch with | some (_, n) => decide (c.after ≤ n) | none => true)

/-- The first command of a kind that may act: in the order of firings, and behind no earlier command on its accumulator. -/
def MatrixTile.nextCmd (t : MatrixTile) (drain : Bool) : Option (Nat × TileCmd) :=
  match t.cmds.zipIdx.find? fun c => c.1.drain == drain with
  | none => none
  | some (c, i) =>
    let behind := !c.token && (t.cmds.take i).any fun e => !e.token && e.acc == c.acc
    if behind || (!c.token && !t.inOrder c) then none else some (i, c)

/-- MZERO_ACT (R290): the oldest mzero that may act sets its accumulator to zero bits and clears its mark. -/
def execMzeroAct (inst x y : Nat) (s : State) : Host.Outcome State Fault Refusal :=
  match s.launch? inst with
  | none => .next s
  | some l =>
    let t := l.mtile x y
    match t.nextCmd false with
    | none => .next s
    | some (i, c) =>
      let draining := match t.drain with | some d => d.acc == c.acc | none => false
      if !l.acts || draining then .next s
      else .next (s.modMtile inst x y fun t =>
        { t with cmds := t.cmds.eraseIdx i, accs := t.accs.setIfInBounds c.acc { data := [], poisoned := false } })

/-- Columns of a result record by output format: 16, 32 or 64 (R290). -/
def drainColumns (fmt : BitVec 4) : Nat := if fmt = 0 then 16 else if fmt.toNat ≤ 2 then 32 else 64

/-- A value of an accumulator in a drain's output format (R290). -/
def drained (fmt : BitVec 4) (integer : Bool) (w : Word) : Nat :=
  if fmt = 0 then w.toNat
  else convert (Fmt.ofCode fmt) .rne true 0 (if integer then Val.ofInt w.toInt else Fmt.value .fp32 w.toNat)

/-- The result record of a drain in progress. -/
def drainRecord (l : Launch) (t : MatrixTile) (d : Drain) : Record :=
  let acc := t.accs[d.acc]?.getD { data := [], poisoned := false }
  let n := drainColumns d.fmt
  let vs := (List.range n).map fun i => drained d.fmt d.integer (SMap.getD acc.data (d.row * 128 + d.part * n + i) 0)
  Record.ofWords (streamWords 16 (packElements (512 / n) vs)) (sourceRcw d.blk l.record.budget false acc.poisoned t.resultOrd)

/-- The drain after a record: the next part, the next row, or none. -/
def Drain.next (d : Drain) : Option Drain :=
  if d.part + 1 < 128 / drainColumns d.fmt then some { d with part := d.part + 1 }
  else if d.row + 1 < d.rowEnd then some { d with row := d.row + 1, part := 0 }
  else none

/-- The firing operation in unit 12 has an integer format. -/
def UnitState.integerFiring (u : UnitState) : Bool :=
  match firingOp u with
  | some (o, _) => !o.fmt.floats
  | none => false

/-- MDRAIN_ACT (R290): a drain begins, sends its next record, or a token follows the drains before it. -/
def execMdrainAct (inst x y : Nat) (s : State) : Host.Outcome State Fault Refusal :=
  match s.launch? inst with
  | none => .next s
  | some l =>
    let t := l.mtile x y
    let u := l.unit x y 12
    if !l.acts then .next s
    else
      let send := fun (r : Record) (f : MatrixTile → MatrixTile) =>
        match s.depart inst x y 12 [out0 r] r.ctl.ord with
        | some s => s.modMtile inst x y fun t => f { t with resultOrd := t.resultOrd + 1 }
        | none => s
      match t.drain with
      | some d => .next (send (drainRecord l t d) fun t => { t with drain := d.next })
      | none =>
        match t.nextCmd true with
        | none => .next s
        | some (i, c) =>
          let gone := fun (t : MatrixTile) => { t with cmds := t.cmds.eraseIdx i }
          if c.token then
            .next (send (Record.zero (sourceRcw c.blk l.record.budget true false t.resultOrd)) gone)
          else
            let first := (c.w0.extractLsb' 0 8).toNat
            let count := (c.w0.extractLsb' 8 8).toNat
            let d : Drain := { acc := c.acc, fmt := c.fmt, row := first, rowEnd := first + count, part := 0,
                               blk := c.w0.extractLsb' 16 8, integer := u.integerFiring }
            .next (s.modMtile inst x y fun t => { gone t with drain := if count = 0 then none else some d })

end Sys2Proof.Machine
end

