-- ==== Sys2Proof/Machine/Engines.lean ====
section
/-! DEFINITION. Machine/Engines.lean: the copy engine (R135 to R137, R198, R312, R313) and Kelpie (R138 to R140, R314, R315).
An engine's accesses are requests to the homes, as a record's are; its waits are ordinary waiters there (R184). -/

namespace Sys2Proof.Machine

/-- A scope code as a scope. -/
def scopeOf (n : Nat) : Scope := Scope.ofCode (BitVec.ofNat 3 n)

/-- ILLEGAL with sub-cause 7 and a word index (R135, R145). -/
def requestInvalid (word : Nat) (ea : DWord) : TrapOf := (.illegal, BitVec.ofNat 64 (7 + 256 * word), ea)

/-- A page-absolute index of the page that holds a region cell. -/
def Launch.pageOf (l : Launch) (x y : Nat) : Nat := (l.py + y / 8) * 16 + (l.px + x / 8)

/-- The die of a page index. -/
def dieOfPage (page : Nat) : Nat := pageDie (page % 16) (page / 16)

/-! ### Copy descriptors (R135) -/

/-- Fields of descriptor word 8. -/
def descSMode (d : Vector Word 16) : Nat := ((d.get 8).extractLsb' 0 4).toNat
/-- DMODE. -/
def descDMode (d : Vector Word 16) : Nat := ((d.get 8).extractLsb' 4 4).toNat
/-- COUNT. -/
def descCount (d : Vector Word 16) : Bool := (d.get 8).getLsbD 16
/-- SCOPE. -/
def descScope (d : Vector Word 16) : Nat := ((d.get 8).extractLsb' 17 3).toNat
/-- SRC. -/
def descSrc (d : Vector Word 16) : DWord := pair64 (d.get 0) (d.get 1)
/-- DST. -/
def descDst (d : Vector Word 16) : DWord := pair64 (d.get 2) (d.get 3)

/-- The first byte of row r at a tile end: 4 × its region-tile word, by the stride (R135). -/
def tileRowByte (word : Word) (stride : Word) (r : Nat) : Int := 4 * (word.toNat : Int) + (r : Int) * stride.toInt

/-- A row lies within one tile of a cell of the region (R135, R107). -/
def tileRowOk (l : Launch) (word stride : Word) (bytes r : Nat) : Bool :=
  let lo := tileRowByte word stride r
  if lo < 0 then false
  else
    let b := lo.toNat
    let (tx, ty, _) := tilePlace (b / 4)
    decide (b / 4 < 2 ^ 28) && l.has tx ty && b / 2 ^ 17 == (b + bytes - 1) / 2 ^ 17

/-- An end of a copy is aligned to 4 bytes, or to 64 under COUNT, in every row. -/
def endAligned (space : Nat) (addr : DWord) (stride : Word) (rows align : Nat) : Bool :=
  (if space = 1 then 4 * addr.toNat % align == 0 else addr.toNat % align == 0) &&
  (rows == 1 || stride.toNat % 4 == 0)

/-- Every row of a tile end lies within one tile of the region. -/
def rowsInTiles (l : Launch) (d : Vector Word 16) (word stride : Word) : Bool :=
  (List.range (descRows d)).all fun r => tileRowOk l word stride (descBytes d) r

/-- The checks of R135, lowest word first: the word that fails. Peer space where PEER is off (`peer` false) is a code that word 8 may not
hold (R376). DEDUCED: log 91. -/
def copyBad (peer : Bool) (l : Launch) (d : Vector Word 16) : Option Nat :=
  let ss := descSSpace d
  let ds := descDSpace d
  let rows := descRows d
  let bytes := descBytes d
  let count := descCount d
  let sizes := decide (1 ≤ rows) && decide (rows ≤ 2 ^ 20) && decide (4 ≤ bytes) && decide (bytes ≤ 2 ^ 24)
  let w8 := d.get 8
  let reg := d.get 2
  let dst := if ds = 3 then decide (reg.toNat < 2 ^ 28) && (reg.extractLsb' 3 12 == 0) && l.has (tilePlace reg.toNat).1 (tilePlace reg.toNat).2.1
             else endAligned ds (descDst d) (d.get 7) rows (if count then 64 else 4) &&
                  (ds != 1 || !sizes || rowsInTiles l d reg (d.get 7))
  let src := endAligned ss (descSrc d) (d.get 6) rows (if count then 64 else 4) && (ss != 1 || !sizes || rowsInTiles l d (d.get 0) (d.get 6))
  let checks : List (Bool × Nat) :=
    [(src, 0), (dst, 2),
     (decide (4 ≤ bytes) && decide (bytes ≤ 2 ^ 24) && bytes % 4 == 0 && (!count || bytes == 64), 4),
     (decide (1 ≤ rows) && decide (rows ≤ 2 ^ 20), 5),
     (!count || (d.get 7).toNat % 64 == 0, 7),
     (w8.extractLsb' 20 12 == 0 && decide (descScope d ≤ 4) && decide (ds ≤ 3) && decide (ss ≤ 2) && decide (descDMode d ≤ 3) &&
       decide (descSMode d ≤ 2) && (peer || (ss != 2 && ds != 2)) && !(descDMode d == 3 && descSMode d != 0) && (!count || decide (ds ≤ 1)), 8),
     (d.get 10 == 0, 10)]
  (checks.find? fun c => !c.1).map (·.2)

/-- The plan of copy: its completion word's address and its descriptor (R135). -/
def planCopy (s : State) (m : MemRef) : Plan := fun l _ r => do
  let ea := effectiveAddr l m (indexWord m r)
  let _ ← locate l s.focus.x s.focus.y m 1 0 ea
  match copyBad (s.feature 7) l r.words with
  | some w => throw (requestInvalid w ea)
  | none => return (ea, [])

/-- copy (R135, R136): the descriptor joins the queue of the issuing page's engine, and the record leaves. -/
def execCopy (m : MemRef) (s : State) : Host.Outcome State Fault Refusal :=
  accessStep (.copy m) m (planCopy s m)
    (fun r ea _ s =>
      let f := s.focus
      match s.here with
      | none => none
      | some (l, u) =>
        let page := l.pageOf f.x f.y
        let q := SMap.getD s.copies page []
        if 16 ≤ q.length || s.clashes u f.inst f.x f.y f.unit (copyRanges r.words) then none
        else
          let j : CopyJob := { desc := r.words, completion := ea, space := l.record.space, inst := f.inst, x := f.x, y := f.y, unit := f.unit,
                               started := false, row := 0, offset := 0, phase := 0, data := [], states := [], reply := none, status := 0 }
          let s := s.takeHead.answeredAccess (.copy m) r ea (some replyDone)
          some { s with copies := SMap.insert s.copies page (q ++ [j]) }) s

/-! ### The copy engine -/

/-- The state with the job at the head of a page's queue written, or gone. -/
def State.setCopy (s : State) (page : Nat) (j : Option CopyJob) : State :=
  let rest := (SMap.getD s.copies page []).drop 1
  let q := match j with | some j => j :: rest | none => rest
  { s with copies := SMap.put s.copies [] page q }

/-- The tile register a copy names: cell and target (R135). -/
def CopyJob.register (j : CopyJob) : Nat × Nat × Nat :=
  let w := (j.desc.get 2).toNat
  ((tilePlace w).1, (tilePlace w).2.1, w % 8)

/-- A copy stopped with a status: its completion word comes next (R137). -/
def CopyJob.stop (j : CopyJob) (status : Nat) : CopyJob := { j with status := status, phase := 4, reply := none }

/-- The address of the unit in hand at an end: a byte address, in the tile spaces 4 × the region-tile word. -/
def endByte (space : Nat) (addr : DWord) (stride : Word) (row offset : Nat) : Int :=
  (if space = 1 then tileRowByte (lo32 addr) stride row else (addr.toNat : Int) + (row : Int) * stride.toInt) + offset

/-- A tile end names a transform bank: its address selects the bank, and strides and offsets do not move it (R310). -/
def Launch.streamEnd (l : Launch) (space : Nat) (addr : DWord) : Bool :=
  space = 1 && (let (x, y, w) := tilePlace (lo32 addr).toNat; l.bankMode x y (w % 16) == 4)

/-- The byte of the unit in hand at an end, in the tile spaces 4 × a region-tile word. -/
def Launch.endAt (l : Launch) (space : Nat) (addr : DWord) (stride : Word) (row offset : Nat) : Int :=
  if l.streamEnd space addr then 4 * ((lo32 addr).toNat : Int) else endByte space addr stride row offset

/-- The byte of the unit in hand at a copy's source. -/
def CopyJob.srcAt (l : Launch) (j : CopyJob) (offset : Nat) : Int :=
  l.endAt (descSSpace j.desc) (descSrc j.desc) (j.desc.get 6) j.row offset

/-- The byte of the unit in hand at a copy's destination. -/
def CopyJob.dstAt (l : Launch) (j : CopyJob) (offset : Nat) : Int :=
  l.endAt (descDSpace j.desc) (descDst j.desc) (j.desc.get 7) j.row offset

/-- The cell in which an end of a copy's present row lies, where it is a tile's. -/
def endCell (space : Nat) (byte : Int) : Option (Nat × Nat) :=
  if space = 1 then
    let p := tilePlace (byte.toNat / 4)
    some (p.1, p.2.1)
  else none

/-- The cells that a copy's present row takes part in. -/
def CopyJob.rowCells (l : Launch) (j : CopyJob) : List (Nat × Nat) :=
  (endCell (descSSpace j.desc) (j.srcAt l 0)).toList ++ (endCell (descDSpace j.desc) (j.dstAt l 0)).toList

/-- The bank mode that a tile end meets at a byte; none for another space. -/
def endBank (l : Launch) (space : Nat) (byte : Int) : Option (Nat × Nat) :=
  if space = 1 then
    let (tx, ty, w) := tilePlace (byte.toNat / 4)
    some (w % 16, l.bankMode tx ty (w % 16))
  else none

/-- The end is a transform bank, whose stream takes any unit (R310). -/
def isStream (b : Option (Nat × Nat)) : Bool := match b with | some (_, 4) => true | _ => false

/-- Words of the unit in hand: a granule where the alignment of both ends and the rest of the row allow, otherwise one (R136). -/
def CopyJob.unitWords (l : Launch) (j : CopyJob) : Nat :=
  let d := j.desc
  let sb := j.srcAt l j.offset
  let db := j.dstAt l j.offset
  let sOk := sb % 64 == 0 || isStream (endBank l (descSSpace d) sb)
  let dOk := descDSpace d == 3 || db % 64 == 0 || isStream (endBank l (descDSpace d) db)
  if sOk && dOk && decide (j.offset + 64 ≤ descBytes d) then 16 else 1

/-- The banks that a row meets at a tile end: of a transform end the one that its address selects (R310). -/
def rowBanks (l : Launch) (space : Nat) (byte : Int) (words : Nat) (granules : Bool) : List (Nat × Nat) :=
  if space ≠ 1 then []
  else
    let (tx, ty, w) := tilePlace (byte.toNat / 4)
    let mode := fun (b : Nat) => (b % 16, l.bankMode tx ty (b % 16))
    if l.bankMode tx ty (w % 16) = 4 then [mode w]
    else if granules then (List.range 16).map mode ++ (List.range (words % 16)).map fun i => mode (w + i)
    else (List.range (min 16 words)).map fun i => mode (w + i)

/-- A row would meet a bank that its mode cannot use (R313). -/
def CopyJob.misfit (l : Launch) (j : CopyJob) : Bool :=
  let d := j.desc
  let granules := ({ j with offset := 0 }).unitWords l == 16
  let words := descBytes d / 4
  let bad := fun (mode : Nat) (b : Nat × Nat) => b.2 == 1 || b.2 == 2 || b.2 == 3 || (b.2 == 4 && mode != 0)
  (rowBanks l (descSSpace d) (j.srcAt l 0) words granules).any (bad (descSMode d)) ||
  (rowBanks l (descDSpace d) (j.dstAt l 0) words granules).any
    (bad (if descCount d then 1 else descDMode d))

/-- A copy runs on whatever the state of its region (R312); only what is written into a tile of the region needs the region's pages (R366
step 3). -/
def CopyJob.mayRun (l : Launch) (j : CopyJob) : Bool := l.resident || !(descDSpace j.desc == 1 || descDSpace j.desc == 3)

/-- A region as its copies find it: the tiles of one that is away are those that were saved (R171, R312). DESIGN CHOICE: log 100. -/
def Launch.imaged (l : Launch) : Launch :=
  match l.saved with
  | some v => { l with units := v.units, tiles := v.tiles }
  | none => l

/-- The head of a page's copy queue with its launch. -/
def State.copyHead (s : State) (page : Nat) : Option (Launch × CopyJob) :=
  match SMap.getD s.copies page [] with
  | j :: _ => (s.launch? j.inst).map fun l => (l.imaged, j)
  | [] => none

/-- The size of a copy is not its register's, where it names one (R312, R313). -/
def CopyJob.wrongSize (l : Launch) (j : CopyJob) : Bool :=
  descDSpace j.desc == 3 &&
  (let (x, y, t) := j.register
   targetRecords t ((l.mtile x y).target t) * 64 != descRows j.desc * descBytes j.desc)

/-- COPY_START (R312, R313, R297): the next copy of a page's queue starts, or ends with MISFIT before it has touched anything; one into a
tile register enters it once it is EMPTY. A start is no movement (R175). -/
def execCopyStart (page : Nat) (s : State) : Host.Outcome State Fault Refusal :=
  match s.copyHead page with
  | none => .next s
  | some (l, j) =>
    if j.started || !j.mayRun l then .next s
    else
      let start := fun (s : State) (j : CopyJob) => s.setCopy page (some { j with started := true })
      if j.wrongSize l || j.misfit l then .next (start s (j.stop 6))
      else if descDSpace j.desc = 3 then
        let (x, y, t) := j.register
        let g := (l.mtile x y).target t
        if g.state != .empty then .next s
        else .next (start (s.modMtile j.inst x y fun m => m.setTarget t { g with state := .filling, filler := some .copy, taken := 0 }) j)
      else .next (start s j)

/-- The place of an end of a copy. -/
def endLoc (space : Nat) (byte : Int) : Loc :=
  if space = 1 then
    let (x, y, w) := tilePlace (byte.toNat / 4)
    .tile x y w
  else if space = 2 then .peer (BitVec.ofInt 64 byte)
  else .glob (BitVec.ofInt 64 byte)

/-- A byte address of a global or peer end is canonical. -/
def endCanonical (space : Nat) (byte : Int) : Bool := space = 1 || canonical (BitVec.ofInt 64 byte)

/-- A request of a page's copy engine; one to a peer is at sys (R116, R215). -/
def State.copyPost (s : State) (page : Nat) (l : Launch) (j : CopyJob) (loc : Loc) (op : HomeOp) : State :=
  let sc := match loc with | .peer _ => .sys | _ => l.scope (scopeOf (descScope j.desc))
  s.post (mkReq (.copy page) j.space loc op sc j.inst (j.x, j.y) (dieOfPage page))

/-- The status that a reply stops a copy with, if it does (R137, R198, R313). -/
def stopStatus (r : Reply) : Option Nat :=
  match r with
  | .ok _ _ _ true => some 3
  | .ok _ _ _ false => none
  | .trap .illegal d _ => some (if d = 5 then 6 else if d = 4 then 4 else 7)
  | .trap .deviceErr _ _ => some 2
  | .trap .unmapped _ _ => some 1
  | .trap _ _ _ => some 7
  | .fault => some 1
  | .logged => none
  | .killed => some 5

/-- What SMODE asks at the source home (R198). -/
def sourceOp (mode n : Nat) : HomeOp := .load (if mode = 1 then .w else if mode = 2 then .c else .plain) n

/-- What DMODE, or COUNT, asks at the destination home (R198). -/
def destOp (d : Vector Word 16) (data : List Word) (states : List Bool) : HomeOp :=
  if descCount d then .fill (d.get 9) data
  else if descDMode d = 3 then .storeStates data states
  else .store (if descDMode d = 1 then .s else if descDMode d = 2 then .f else .plain) data

/-- A copy past a written unit, at the next unit or row. -/
def CopyJob.advance (j : CopyJob) : CopyJob :=
  let o := j.offset + 4 * (if descCount j.desc then 0 else j.data.length)
  let j := { j with data := [], states := [], reply := none, phase := 0 }
  if descBytes j.desc ≤ o || descCount j.desc then { j with row := j.row + 1, offset := 0 } else { j with offset := o }

/-- The unit in hand written into its tile register; its last unit makes the register FULL (R297). -/
def State.copyToRegister (s : State) (page : Nat) (j : CopyJob) : State :=
  let (x, y, t) := j.register
  let at_ := (j.row * descBytes j.desc + j.offset) / 4
  let total := descRows j.desc * descBytes j.desc / 4
  let c := j.desc.get 9
  let s := s.modMtile j.inst x y fun m =>
    let g := m.target t
    let g := { g with data := writeImage g.data at_ j.data }
    m.setTarget t (if at_ + j.data.length = total then
      { g with state := .full, readers := ctlReaders c, maskMode := ctlMask c, gen := ctlGen c,
               poisoned := false, filler := none }
      else g)
  (s.setCopy page (some j.advance)).moved j.inst

/-- A commit changes banks of a tile that a copy's next row takes part in: the row begins after the change (R170, R313). -/
def CopyJob.shut (l : Launch) (j : CopyJob) : Bool :=
  j.offset == 0 && j.data.isEmpty && (j.rowCells l).any fun c => !(l.tile c.1 c.2).closed.isEmpty

/-- The next unit read from a tile of a region that is away: performed on the tile as it was saved, where it need not wait (R312). -/
def State.copyFromSaved (s : State) (page : Nat) (l : Launch) (j : CopyJob) (loc : Loc) (op : HomeOp) : State :=
  match loc with
  | .tile x y _ =>
    let rq := mkReq (.copy page) j.space loc op .region j.inst (j.x, j.y) 0
    let reply := fun (s : State) (r : Reply) => s.setCopy page (some { j with phase := 1, reply := some r })
    match s.tileForm l rq with
    | none => reply s (.trap .illegal 5 0)
    | some rq =>
      let v := l.tileRow x y rq.key
      match v.perform rq.word rq.op with
      | .done v' r _ _ _ _ =>
        let t := (l.tile x y).setRow rq.key (l.rowCounts x y rq.key) v v'
        let keep := fun (k : Saved) => if v' = v then k else { k with tiles := SMap.put k.tiles TileState.reset (cellKey x y) t }
        reply (s.modLaunch j.inst fun l => { l with saved := l.saved.map keep }) r
      | .trap c d => reply s (.trap c d 0)
      | _ => s
  | _ => s

/-- A copy takes its next step: it asks for its next unit, or completes. -/
def State.copyNext (s : State) (page : Nat) (l : Launch) (j : CopyJob) : State :=
  let d := j.desc
  if descRows d ≤ j.row then s.setCopy page (some (j.stop 0))
  else if j.shut l then s
  else if j.offset = 0 && j.data.isEmpty && j.misfit l then s.setCopy page (some (j.stop 6))
  else
    let at_ := if descCount d then 4 * j.data.length else j.offset
    let byte := j.srcAt l at_
    if !endCanonical (descSSpace d) byte then s.setCopy page (some (j.stop 7))
    else
      let n := if descCount d then (if j.data.isEmpty then j.unitWords l else 1) else j.unitWords l
      let loc := endLoc (descSSpace d) byte
      let op := sourceOp (descSMode d) n
      if l.saved.isSome && descSSpace d == 1 then s.copyFromSaved page l j loc op
      else (s.setCopy page (some { j with phase := 1, reply := none })).copyPost page l j loc op

/-- A copy writes the unit it has read, as COUNT, DMODE or its register ask. A count of 0 readers in COUNTED stops it at its first fill, with
the status that a counted fill of none has: DESIGN CHOICE, log 125. -/
def State.copyWrite (s : State) (page : Nat) (l : Launch) (j : CopyJob) : State :=
  let d := j.desc
  let byte := j.dstAt l j.offset
  if descDSpace d = 3 then s.copyToRegister page j
  else if !endCanonical (descDSpace d) byte then s.setCopy page (some (j.stop 7))
  else if descCount d && (ctlReaders (d.get 9) == 0 || (descDSpace d == 0 && l.record.quota == 0)) then s.setCopy page (some (j.stop 7))
  else (s.setCopy page (some { j with phase := 3, reply := none })).copyPost page l j (endLoc (descDSpace d) byte) (destOp d j.data j.states)

/-- The completion word of an engine operation (R137). -/
def completionWord (status count : Nat) : Word := BitVec.ofNat 32 (2 ^ 31 + status * 2 ^ 24 + count % 2 ^ 24)

/-- COPY_UNIT (R136, R198, R312): the started copy of a page takes its next step: a unit's read or write, or its completion store,
after which it leaves the queue. A unit that stops the copy leaves the units of its row before it written, as R137 has it; R198 says of the
row that it is not written: DESIGN CHOICE, log 99. -/
def execCopyUnit (page : Nat) (s : State) : Host.Outcome State Fault Refusal :=
  match s.copyHead page with
  | none => .next s
  | some (l, j) =>
    if !j.started || (!j.mayRun l && decide (j.phase < 4)) then .next s
    else
      match j.phase, j.reply with
      | 0, _ => .next (s.copyNext page l j)
      | 1, some r =>
        match stopStatus r, r with
        | some st, _ => .next ((s.setCopy page (some (j.stop st))).moved j.inst)
        | none, .ok ws fs _ _ =>
          let j := { j with data := j.data ++ ws, states := j.states ++ fs, reply := none }
          let whole := !descCount j.desc || decide (16 ≤ j.data.length)
          .next ((s.setCopy page (some { j with phase := if whole then 2 else 0 })).moved j.inst)
        | none, _ => .next s
      | 2, _ => .next (s.copyWrite page l j)
      | 3, some r =>
        match stopStatus r with
        | some st => .next ((s.setCopy page (some (j.stop st))).moved j.inst)
        | none => .next ((s.setCopy page (some j.advance)).moved j.inst)
      | 4, _ =>
        .next ((s.peerSettle.setCopy page (some { j with phase := 5, reply := none })).copyPost page l j (.glob j.completion)
          (.store .s [completionWord j.status j.row]))
      | 5, some _ => .next ((s.setCopy page none).moved j.inst)
      | _, _ => .next s

/-! ### Kelpie: issue (R139, R140) -/

/-- The record of a bin.app or bin.rpl joins the queue of the Kelpie of its bin set's die; it leaves once that has accepted it. -/
def kelpieOp (i : Instr) (m : MemRef) (replay : Bool) (check : Record → Option Nat) (s : State) : Host.Outcome State Fault Refusal :=
  accessStep i m
    (fun l _ r => do
      let ea := effectiveAddr l m (indexWord m r)
      let _ ← locate l s.focus.x s.focus.y m 16 0 ea
      match check r with
      | some w => throw (requestInvalid w ea)
      | none => return (ea, []))
    (fun r ea _ s =>
      let f := s.focus
      match s.here with
      | none => none
      | some (l, u) =>
        let j : KelpieJob := { replay := replay, set := ea, record := r, space := l.record.space, scope := l.scope m.scope, inst := f.inst,
                               x := f.x, y := f.y, unit := f.unit, id := u.nextId, block := u.block, opIndex := u.opIndex, desc := [],
                               done := 0, total := 0, asked := false, reply := none, stall := none, status := 0, ending := false }
        let s := s.takeHead.answeredAccess i r ea none
        let d := vaDie ea.toNat
        some (s.setDie d { s.die d with kelpie := (s.die d).kelpie ++ [j] })) s

/-- bin.app (R139). -/
def execBinApp (m : MemRef) (s : State) : Host.Outcome State Fault Refusal :=
  kelpieOp (.binApp m) m false (fun r => if (r.at 0).extractLsb' 0 3 = 0 then some 0 else none) s

/-- bin.rpl (R140). -/
def execBinRpl (m : MemRef) (s : State) : Host.Outcome State Fault Refusal :=
  kelpieOp (.binRpl m) m true
    (fun r =>
      if (r.at 1).extractLsb' 0 1 == 0 && !addrOk (r.pair 2) 4 then some 2
      else if !addrOk (r.pair 4) 4 then some 4
      else none) s

/-! ### Kelpie: bin sets (R138) -/

/-- Word i of a bin set's descriptor. -/
def KelpieJob.word (j : KelpieJob) (i : Nat) : Word := j.desc.getD i 0
/-- A 64-bit field of a bin set's descriptor, by its first word. -/
def KelpieJob.field64 (j : KelpieJob) (i : Nat) : Nat := (pair64 (j.word i) (j.word (i + 1))).toNat
/-- BINCAP. -/
def KelpieJob.binCap (j : KelpieJob) : Nat := (j.word 6).toNat
/-- NBINS. -/
def KelpieJob.nBins (j : KelpieJob) : Nat := (j.word 7).toNat
/-- CHUNKSHIFT. -/
def KelpieJob.chunkShift (j : KelpieJob) : Nat := ((j.word 8).extractLsb' 0 8).toNat
/-- OP. -/
def KelpieJob.opCode (j : KelpieJob) : Nat := ((j.word 8).extractLsb' 8 4).toNat
/-- SCOPE. -/
def KelpieJob.setScope (j : KelpieJob) : Nat := ((j.word 8).extractLsb' 12 3).toNat

/-- The first word of a bin set that is invalid (R138). -/
def binSetBad (ws : List Word) : Option Nat :=
  let w := fun (i : Nat) => ws.getD i 0
  let a := fun (i : Nat) => pair64 (w i) (w (i + 1))
  let info := w 8
  let checks : List (Bool × Nat) :=
    [(addrOk (a 0) 4, 0), (addrOk (a 2) 8, 2), (addrOk (a 4) 4, 4), (decide (1 ≤ (w 6).toNat) && decide ((w 6).toNat ≤ 2 ^ 24), 6),
     (decide (1 ≤ (w 7).toNat) && decide ((w 7).toNat ≤ 2 ^ 20), 7),
     (info.extractLsb' 15 17 == 0 && decide ((info.extractLsb' 12 3).toNat ≤ 4) && decide ((info.extractLsb' 8 4).toNat ≤ 5) &&
       decide ((info.extractLsb' 0 8).toNat ≤ 24), 8)] ++
    (List.range 5).map fun i => (w (11 + i) == 0, 11 + i)
  (checks.find? fun c => !c.1).map (·.2)

/-- The atomic that an OP applies: its opcode (R138, R314). -/
def binAtomic (op : Nat) : BitVec 8 :=
  if op = 1 then 0x8D else if op = 2 then 0x86 else if op = 3 then 0x87 else if op = 4 then 0x89 else if op = 5 then 0x8B else 0x84

/-- The fill word of a bin. -/
def KelpieJob.fillAt (j : KelpieJob) (b : Nat) : Nat := j.field64 4 + 4 * b
/-- The entry of a bin. -/
def KelpieJob.entryAt (j : KelpieJob) (b n : Nat) : Nat := j.field64 2 + (b * j.binCap + n) * 8

/-- The state with the job at the head of a Kelpie written, or gone. -/
def State.setKelpie (s : State) (d : Nat) (j : Option KelpieJob) : State :=
  let x := s.die d
  let rest := x.kelpie.drop 1
  s.setDie d { x with kelpie := match j with | some j => j :: rest | none => rest }

/-- A reply to the record of a bin.app or bin.rpl. -/
def State.kelpieAnswer (s : State) (j : KelpieJob) (r : Reply) : State := s.deliverLane j.inst j.x j.y j.unit j.id 0 0 r

/-- The trap that stops a bin.app or bin.rpl which Kelpie has not accepted. -/
def kelpieTrap (status : Nat) (set : DWord) : Reply :=
  if status = 1 then .trap .unmapped 0 set
  else if status = 7 then .trap .attr 2 set
  else .trap .deviceErr 3 set

/-- A job stopped by an access of its own (R137): a record not accepted traps, a pair goes without effect, a replay ends. -/
def State.kelpieStop (s : State) (d : Nat) (j : KelpieJob) (status : Nat) : State :=
  if j.desc.isEmpty then (s.setKelpie d none).kelpieAnswer j (kelpieTrap status j.set)
  else if j.replay then s.setKelpie d (some { j with status := status, ending := true, asked := false, reply := none, stall := none })
  else s.setKelpie d (some { j with done := j.done + 1, asked := false, reply := none, stall := none })

/-- One access of a Kelpie at a slice, within its step: a page that is not mapped is reported and waited for (R144, R233). -/
def State.kelpieAccess (s : State) (d : Nat) (j : KelpieJob) (va : Nat) (op : HomeOp) (go : State → List Word → State) : State :=
  match s.accessNow j.space va j.inst op with
  | .ok s r => if r.poisoned then s.kelpieStop d j 3 else go s r.words
  | .wait s => s
  | .fault s => (s.faultEvent j.space va 2).setKelpie d (some { j with stall := some (va / 2 ^ 16) })
  | .denied s => s.kelpieStop d j 7
  | .error s => s.kelpieStop d j 2
  | .hole s => s.kelpieStop d j 2

/-- A replay's chunk runs past the end of its tile, or its tile is not of the region (R314). -/
def chunkBad (l : Launch) (j : KelpieJob) : Bool :=
  let c := (j.record.at 2).toNat
  let (x, y, w) := tilePlace c
  (j.record.at 1).getLsbD 0 && (decide (2 ^ 28 ≤ c) || !l.has x y || decide (2 ^ 15 < w + 2 ^ j.chunkShift))

/-- A job accepted: its descriptor read and checked; a replay takes the entries its bin then holds (R139, R140). -/
def State.kelpieAccept (s : State) (d : Nat) (l : Launch) (j : KelpieJob) : State :=
  s.kelpieAccess d j j.set.toNat (.load .plain 16) fun s ws =>
    let a := { j with desc := ws, stall := none }
    let invalid := fun (w : Nat) => (s.setKelpie d none).kelpieAnswer j (.trap .illegal (BitVec.ofNat 64 (7 + 256 * w)) j.set)
    match binSetBad ws with
    | some w => invalid w
    | none =>
      if !j.replay then (s.setKelpie d (some { a with total := ((j.record.at 0).extractLsb' 0 3).toNat })).kelpieAnswer j replyDone
      else if decide (a.nBins ≤ (j.record.at 0).toNat) then invalid 0
      else if chunkBad l a then invalid 2
      else
        s.kelpieAccess d j (a.fillAt (j.record.at 0).toNat) (.load .plain 1) fun s fill =>
          (s.setKelpie d (some { a with total := (fill.getD 0 0).toNat })).kelpieAnswer j replyDone

/-- An application asked for: a relaxed atomic at its home (R139, R140, R314). -/
def State.kelpieApply (s : State) (d : Nat) (j : KelpieJob) (loc : Loc) (value : Word) (sc : Scope) : State :=
  (s.setKelpie d (some { j with asked := true, reply := none, stall := none })).post
    (mkReq (.kelpie d) j.space loc (.atom (binAtomic j.opCode) false (value.zeroExtend 64) .relaxed) sc j.inst (j.x, j.y) d)

/-- A word of a bin set counted up by 1. -/
def State.kelpieCount (s : State) (d : Nat) (j : KelpieJob) (offset : Nat) (go : State → State) : State :=
  let va := j.set.toNat + offset
  s.kelpieAccess d j va (.load .plain 1) fun s ws =>
    s.kelpieAccess d j va (.store .plain [ws.getD 0 0 + 1]) fun s _ => go s

/-- One pair of an accepted bin.app (R139). -/
def State.kelpiePair (s : State) (d : Nat) (j : KelpieJob) : State :=
  let index := j.record.at (2 * (j.done + 1))
  let value := j.record.at (2 * (j.done + 1) + 1)
  let b := index.toNat / 2 ^ j.chunkShift
  let next := { j with done := j.done + 1, asked := false, reply := none, stall := none }
  if j.nBins ≤ b then s.kelpieCount d j 0x28 fun s => s.setKelpie d (some next)
  else
    s.kelpieAccess d j (j.fillAt b) (.load .plain 1) fun s fill =>
      let n := (fill.getD 0 0).toNat
      if n = j.binCap then
        s.kelpieApply d j (.glob (BitVec.ofNat 64 (j.field64 0) + BitVec.ofNat 64 (4 * index.toNat))) value j.scope
      else
        s.kelpieAccess d j (j.entryAt b n) (.store .plain [index, value]) fun s _ =>
          s.kelpieAccess d j (j.fillAt b) (.store .plain [BitVec.ofNat 32 (n + 1)]) fun s _ => (s.setKelpie d (some next)).moved j.inst

/-- KELPIE_APPEND (R139): the bin.app at a Kelpie's head is accepted, applies its next pair, or ends. An application to TARGET that its home
has performed counts in OVERFLOW; one that it denied has no effect (R137). -/
def execKelpieAppend (die : Nat) (s : State) : Host.Outcome State Fault Refusal :=
  match (s.die die).kelpie with
  | [] => .next s
  | j :: _ =>
    if j.replay then .next s
    else if j.desc.isEmpty then
      match s.launch? j.inst with
      | some l => .next (s.kelpieAccept die l j)
      | none => .next (s.setKelpie die none)
    else if j.total ≤ j.done then .next (s.setKelpie die none)
    else if !j.asked then .next (s.kelpiePair die j)
    else
      match j.reply with
      | none => .next s
      | some r =>
        let next := fun (s : State) => (s.setKelpie die (some { j with done := j.done + 1, asked := false, reply := none, stall := none })).moved j.inst
        match stopStatus r with
        | some _ => .next (next s)
        | none => .next (s.kelpieCount die j 0x24 next)

/-- A replay's next entry applied to its chunk (R140, R314). -/
def State.kelpieEntry (s : State) (d : Nat) (l : Launch) (j : KelpieJob) : State :=
  s.kelpieAccess d j (j.entryAt (j.record.at 0).toNat j.done) (.load .plain 2) fun s ws =>
    let offset := (ws.getD 0 0).toNat % 2 ^ j.chunkShift
    let loc : Loc := if (j.record.at 1).getLsbD 0 then
        let (x, y, w) := tilePlace ((j.record.at 2).toNat + offset)
        .tile x y w
      else .glob (j.record.pair 2 + BitVec.ofNat 64 (4 * offset))
    s.kelpieApply d j loc (ws.getD 1 0) (l.scope (scopeOf j.setScope))

/-- The completion store of a replay asked for (R140). -/
def State.kelpieFinish (s : State) (d : Nat) (l : Launch) (j : KelpieJob) : State :=
  (s.setKelpie d (some { j with asked := true, ending := true, reply := none, stall := none })).post
    (mkReq (.kelpie d) j.space (.glob (j.record.pair 4)) (.store .s [completionWord j.status j.done]) (l.scope (scopeOf j.setScope)) j.inst
      (j.x, j.y) d)

/-- KELPIE_REPLAY (R140): the bin.rpl at a Kelpie's head is accepted, applies its next entry, clears its fill word and writes its
completion word, or ends. -/
def execKelpieReplay (die : Nat) (s : State) : Host.Outcome State Fault Refusal :=
  match (s.die die).kelpie with
  | [] => .next s
  | j :: _ =>
    if !j.replay then .next s
    else
      match s.launch? j.inst with
      | none => .next (s.setKelpie die none)
      | some l =>
        let tile := (j.record.at 1).getLsbD 0
        if j.desc.isEmpty then .next (s.kelpieAccept die l j)
        else if j.asked then
          match j.reply, j.ending with
          | none, _ => .next s
          | some _, true => .next ((s.setKelpie die none).moved j.inst)
          | some r, false =>
            match stopStatus r with
            | some st => .next (s.kelpieStop die j st)
            | none => .next ((s.setKelpie die (some { j with done := j.done + 1, asked := false, reply := none })).moved j.inst)
        else if j.ending then .next (s.kelpieFinish die l j)
        else if j.done < j.total then
          if tile && !l.resident then .next s else .next (s.kelpieEntry die l j)
        else
          .next (s.kelpieAccess die j (j.fillAt (j.record.at 0).toNat) (.store .plain [0]) fun s _ => s.kelpieFinish die l j)

end Sys2Proof.Machine
end

