-- ==== Sys2Proof/Machine/Paging.lean ====
section
/-! DEFINITION. Machine/Paging.lean: the privileged page, space and fault operations (R141 to R143, R214, R342, R343, R346, R349,
R352), the free-frame and table-block rings (R335, R349, R350), and the copy-on-write engine (R336, R347). Tables are read and
written by their die's controller only, each operation on an entry in one step. -/

namespace Sys2Proof.Machine

/-! ### Slice lines of a page -/

/-- Whether a line key lies in pages [lo, hi) of a space, in bytes of virtual address. -/
def lineWithin (space : BitVec 12) (lo hi key : Nat) : Bool :=
  lineSpace key == space && decide (lo ≤ lineVa key) && decide (lineVa key < hi)

/-- Keys of the lines of a slice within a range of a space. -/
def State.linesWithin (s : State) (sl : Nat) (space : BitVec 12) (lo hi : Nat) : List Nat :=
  ((s.slice sl).lines.map (·.1)).filter (lineWithin space lo hi)

/-- The slices of a die. -/
def dieSlices (d : Nat) : List Nat := (List.range 64).map (64 * d + ·)

/-- Slice lines of a range of a space on a die written back and invalidated (R343). A counted granule of a line stays resident, apart from
the frame. DEDUCED: log 104. -/
def State.flushLines (s : State) (d : Nat) (space : BitVec 12) (lo hi : Nat) : State :=
  (dieSlices d).foldl (fun (s : State) sl => (s.linesWithin sl space lo hi).foldl (fun (s : State) k => s.dropLine sl k) s) s

/-- Accesses that wait in the slices of a die at addresses of a range are translated again (R214, R342): they go back to the controller. -/
def State.rewait (s : State) (d : Nat) (space : BitVec 12) (lo hi : Nat) : State :=
  ((dieSlices d).foldl (fun (s : State) sl =>
    let x := s.slice sl
    let here := fun (r : Req) => r.space == space && decide (lo ≤ r.va) && decide (r.va < hi)
    let rs := (x.waiters ++ x.quota).filter here
    if rs.isEmpty then s
    else
      let s := s.setSlice sl { x with waiters := x.waiters.filter (!here ·), quota := x.quota.filter (!here ·) }
      rs.foldl (fun (s : State) r => s.askWalk sl r) s) s).freePlaces

/-- Slice lines of a range of a space on a die lose write permission (R336, R343). What was written in them before stands in the
frame then (R353: a write before page.share is performed in the frame), so dirty lines are written back. DEDUCED: log 43. -/
def State.unwriteLines (s : State) (d : Nat) (space : BitVec 12) (lo hi : Nat) : State :=
  (dieSlices d).foldl (fun (s : State) sl =>
    (s.linesWithin sl space lo hi).foldl (fun (s : State) k =>
      let s := s.writeBack sl k
      let x := s.slice sl
      s.setSlice sl { x with lines := x.lines.map fun (e : Nat × Line) => if e.1 = k then (e.1, { e.2 with writable := false }) else e }) s) s

/-- Translations of a range that have not been used yet are made again (R214, R342): their requests go back to the controller. -/
def State.retranslate (s : State) (d : Nat) (space : BitVec 12) (lo hi : Nat) : State :=
  (dieSlices d).foldl (fun (s : State) sl =>
    let x := s.slice sl
    let stale := x.missing.filter fun r => r.space == space && decide (lo ≤ r.va) && decide (r.va < hi) && x.fills.any (·.1 == r.seq)
    if stale.isEmpty then s
    else
      let s := s.setSlice sl { x with fills := x.fills.filter fun f => !stale.any (·.seq == f.1) }
      s.setDie d { s.die d with walkQ := (s.die d).walkQ ++ stale.map fun r => { slice := sl, req := r } }) s

/-- TLB and walk-cache entries of a range removed on its die (R342). -/
def State.forgetRange (s : State) (d : Nat) (space : BitVec 12) (lo hi : Nat) : State :=
  (s.setDie d ((s.die d).forget space lo hi)).retranslate d space lo hi

/-- A parked flag is set in a run of frames: in a slice line that holds a sector of it, or in memory, unless a dirty line holds what the
sector's flags have become since; a clean line, of another space that shares the frame too, hides none (R142, R199). -/
def State.framesParked (s : State) (d first n : Nat) : Bool :=
  let lo := first * 2 ^ 16
  let hi := (first + n) * 2 ^ 16
  let lines := (dieSlices d).flatMap fun sl => (s.slice sl).lines.filter fun e => decide (lo ≤ e.2.pa) && decide (e.2.pa < hi)
  lines.any (fun e => e.2.parked.any (· == true)) ||
  s.parked.any fun k =>
    let key := k * 64
    decide (memKey d lo ≤ key) && decide (key < memKey d hi) && !lines.any fun e => e.2.dirty && memKey d e.2.pa / 128 == key / 128

/-! ### Returns to the rings (R335, R349) -/

/-- The slot of a ring: its address, none where the ring has no slots. -/
def ringSlot (base : DWord) (size : Nat) (n : Word) : Option Nat :=
  if size = 0 then none else some (base.toNat + n.toNat % size * 4)

/-- The free-frame ring is in use. -/
def Die.frEnabled (x : Die) : Bool := x.frCtl.getLsbD 0
/-- The slot of the free-frame ring that a counter names. -/
def Die.frSlot (x : Die) (n : Word) : Option Nat := ringSlot x.frBase (field x.frCtl 8 20) n
/-- The space of the free-frame ring. -/
def Die.frSpace (x : Die) : BitVec 12 := x.frCtl.extractLsb' 32 12
/-- The slot of the table-block ring that a counter names. -/
def Die.tbSlot (x : Die) (n : Word) : Option Nat := ringSlot x.tbBase (field x.tbCtl 0 20) n
/-- The space of the table-block ring. -/
def Die.tbSpace (x : Die) : BitVec 12 := x.tbCtl.extractLsb' 32 12

/-- An access of a die's controller to one of its rings, at dev scope. -/
def ringReq (d kind : Nat) (space : BitVec 12) (va : Nat) (op : HomeOp) : Req :=
  mkReq (.ring d kind) space (.glob (BitVec.ofNat 64 va)) op .dev 0 (0, 0) d

/-- A word given back to a ring by a .f store of the controller: at once where its slot is empty, and by `later` where it must wait as an
engine waiter, or for its page. -/
def State.giveBack (s : State) (d kind : Nat) (space : BitVec 12) (va : Nat) (w : Word) (done later : State → State) : State :=
  match s.performNow (ringReq d kind space va (.store .f [w])) with
  | .ok s _ => done s
  | .fault s => later (s.faultEvent space va 2)
  | other => later other.state

/-- A frame given back to its ring (R335): in its turn, behind the returns that wait. -/
def State.frameBack (s : State) (d f : Nat) : State :=
  let x := s.die d
  let later := fun (s : State) => s.setDie d { s.die d with frameReturns := (s.die d).frameReturns ++ [f] }
  match x.frSlot x.frTail with
  | some va =>
    if !x.frEnabled || !x.frameReturns.isEmpty then later s
    else
      s.giveBack d 1 x.frSpace va (BitVec.ofNat 32 (f % 2 ^ 24)) (fun s => s.setDie d { s.die d with frTail := (s.die d).frTail + 1 }) later
  | none => later s

/-- A table block given back to its ring (R349): in its turn, behind the returns that wait. -/
def State.blockBack (s : State) (d b : Nat) : State :=
  let x := s.die d
  let later := fun (s : State) => s.setDie d { s.die d with blockReturns := (s.die d).blockReturns ++ [b] }
  match x.tbSlot x.tbTail with
  | some va =>
    if !x.blockReturns.isEmpty then later s
    else
      s.giveBack d 2 x.tbSpace va (BitVec.ofNat 32 (b / 2 ^ 12 % 2 ^ 28)) (fun s => s.setDie d { s.die d with tbTail := (s.die d).tbTail + 1 })
        later
  | none => later s

/-! ### Frame counts (R346) -/

/-- A count that an operation lowers: at 255 it stays, at 0 the frame goes back to its ring. -/
def State.frameDown (s : State) (d f : Nat) : State :=
  let n := s.frameCount d f
  if n = 255 || n = 0 then s
  else
    let s := s.setFrameCount d f (n - 1)
    if n = 1 then s.frameBack d f else s

/-- A count that page.share raises: at 255 it is sticky, and a monitor event names the frame. -/
def State.frameUp (s : State) (d f : Nat) : State :=
  let n := s.frameCount d f
  if n = 255 then s
  else
    let s := s.setFrameCount d f (n + 1)
    if n = 254 then s.event d 4 0 0 (BitVec.ofNat 64 f) 0 else s

/-- The frames that a valid local leaf names; none otherwise. -/
def localRun (e : DWord) : List Nat := if pteV e && pteLeaf e && pteAttr e != 2 then leafRun e else []

/-! ### The walk to a level (R141) -/

/-- Where a walk to a page size's level ends. -/
inductive Found where
  /-- the entry at the level: its address and value, valid leaf or zero -/
  | entry (at_ : Nat) (e : DWord)
  /-- an entry with V = 0 above the level -/
  | missing
  | badPte (e : DWord)
  | level (e : DWord)
  | deviceErr
  deriving DecidableEq, Repr

/-- The walk from a table of a level down to a page size's level. -/
def State.findFrom (s : State) (d va target : Nat) : Nat → Nat → Found
  | level, table =>
    let at_ := table + tableIndex level va * 8
    if !inDie at_ 8 || s.entryBad (memKey d at_) then .deviceErr
    else
      let e := s.readDword (memKey d at_)
      if !pteOk level e then .badPte e
      else if level = target then (if pteV e && !pteLeaf e then .level e else .entry at_ e)
      else if !pteV e then .missing
      else if pteLeaf e then .level e
      else
        match level with
        | 0 => .level e
        | l + 1 => State.findFrom s d va target l (pteAddr e)

/-- The walk of an address of a space to a page size's level. -/
def State.find (s : State) (space : BitVec 12) (va target : Nat) : Found :=
  s.findFrom (vaDie va) va target 3 (s.root (vaDie va) space)

/-! ### Table blocks (R349) -/

/-- What a take from the table-block ring gives: what was taken; an empty slot; a wait; an acquire that is too narrow (R209); or a slot whose
word cannot be corrected. -/
inductive Take (α : Type) where
  | got (s : State) (x : α)
  | empty (s : State)
  | wait (s : State)
  | scope (s : State) (detail addr : DWord)
  | error (s : State)

/-- The take of a split waits in the buffer of its slot's home: the slot is empty (R347). -/
def State.splitWaits (s : State) (d : Nat) : Bool :=
  (dieSlices d).any fun sl => (s.slice sl).waiters.any fun r => r.party == .ring d 3

/-- A block taken from a die's table-block ring, by a .tc load at dev scope (R349): an empty slot takes nothing. The scope checker's answer
ends the operation: DEDUCED, log 107. -/
def State.takeBlock (s : State) (d : Nat) : Take Nat :=
  let x := s.die d
  match x.tbSlot x.tbHead with
  | none => .empty s
  | some va =>
    if x.blockTaking then (if s.splitWaits d then .empty s else .wait s)
    else
      match s.performNow (ringReq d 2 x.tbSpace va (.load .tc 1)) with
      | .ok s (.ok ws _ true false) =>
        .got (s.setDie d { s.die d with tbHead := (s.die d).tbHead + 1 }) ((ws.getD 0 0).toNat % 2 ^ 28 * 2 ^ 12)
      | .ok s (.ok _ _ true true) => .error s
      | .ok s (.trap _ detail addr) => .scope s detail addr
      | .ok s _ => .empty s
      | .wait s => .wait s
      | .fault s => .wait (s.faultEvent x.tbSpace va 2)
      | .error s => .error s
      | .denied s => .error s
      | .hole s => .error s

/-- The lines of the ring's next n slots brought to their slices for takes: nothing is taken before all of them are there. -/
def State.ringLines (s : State) (d : Nat) : Nat → Word → Now Unit
  | 0, _ => .ok s ()
  | n + 1, head =>
    let x := s.die d
    match x.tbSlot head with
    | none => .ok s ()
    | some va =>
      match s.ensureLine x.tbSpace va true with
      | .fault s => .wait (s.faultEvent x.tbSpace va 2)
      | y => y.bind fun s _ => State.ringLines s d n (head + 1)

/-- A table block written by its controller: 64-bit words from its start on, the others zero (R339, R347, R349). -/
def State.fillBlock (s : State) (d pa : Nat) (es : List DWord) : State :=
  let key := memKey d pa
  let s := (List.range 16).foldl (fun (s : State) i => s.mendTag (key / 256 + i)) s
  let words := es.flatMap fun e => [lo32 e, hi32 e]
  ((s.writeWords key (words ++ List.replicate (1024 - words.length) 0)).setBad key (List.replicate 1024 false)).compressRun key 16

/-- A table block zeroed. -/
def State.zeroBlock (s : State) (d pa : Nat) : State := s.fillBlock d pa []

/-- A pointer entry to a block (R340). -/
def pointerEntry (pa : Nat) : DWord := BitVec.ofNat 64 (pa / 2 ^ 12 * 2 ^ 12 + 1)

/-- The pointer entries from a table of a level down to a page size's level built of blocks, where they are missing: the entry's
address at the level (R349). -/
def State.buildFrom (s : State) (d va target : Nat) : Nat → Nat → List Nat → State × Nat
  | level, table, blocks =>
    let at_ := table + tableIndex level va * 8
    if level ≤ target then (s, at_)
    else
      match level with
      | 0 => (s, at_)
      | l + 1 =>
        let e := s.readDword (memKey d at_)
        if pteV e then State.buildFrom s d va target l (pteAddr e) blocks
        else
          match blocks with
          | [] => (s, at_)
          | b :: rest =>
            let s := (s.zeroBlock d b).writeDword (memKey d at_) (pointerEntry b)
            State.buildFrom s d va target l b rest

/-- How many levels are missing on the way to a page size's level. -/
def State.missingFrom (s : State) (d va target : Nat) : Nat → Nat → Nat
  | level, table =>
    if level ≤ target then 0
    else
      match level with
      | 0 => 0
      | l + 1 =>
        let e := s.readDword (memKey d (table + tableIndex level va * 8))
        if pteV e then State.missingFrom s d va target l (pteAddr e) else level - target

/-- n blocks taken from the ring one after another; where it runs empty, or a take fails, those taken go back at once (R349). -/
def State.takeAll (s : State) (d : Nat) : Nat → List Nat → Take (List Nat)
  | 0, got => .got s got
  | n + 1, got =>
    let back := fun (s : State) => got.foldl (fun (s : State) b => s.blockBack d b) s
    match s.takeBlock d with
    | .got s b => State.takeAll s d n (got ++ [b])
    | .empty s => .empty (back s)
    | .wait s => .wait (back s)
    | .scope s detail addr => .scope (back s) detail addr
    | .error s => .error (back s)

/-- n blocks taken from the ring once its slots can be taken. -/
def State.takeBlocks (s : State) (d n : Nat) : Take (List Nat) :=
  match s.ringLines d n (s.die d).tbHead with
  | .ok s _ => s.takeAll d n []
  | .wait s => .wait s
  | other => .error other.state

/-- The entry of an address at a page size's level, missing pointer entries built (R349). -/
def State.entryFor (s : State) (space : BitVec 12) (va target : Nat) : Take Nat :=
  let d := vaDie va
  let root := s.root d space
  match s.takeBlocks d (s.missingFrom d va target 3 root) with
  | .got s blocks =>
    let (s, at_) := s.buildFrom d va target 3 root blocks
    .got s at_
  | .empty s => .empty s
  | .wait s => .wait s
  | .scope s detail addr => .scope s detail addr
  | .error s => .error s

/-! ### Page operations (R141, R142) -/

/-- What a page operation answers: STATUS, CURPTE and w12 to w13 of the fault operations, a DEVICEERR trap, or a SCOPE trap at the
table-block ring. -/
inductive PageResult where
  | status (st : Nat) (cur : DWord)
  | counts (entries writes : Nat)
  | deviceErr
  | scope (detail addr : DWord)
  deriving DecidableEq, Repr

/-- The words w12 to w15 that a result writes (R141, R143). -/
def PageResult.words : PageResult → List Word
  | .status st cur => [lo32 cur, hi32 cur, BitVec.ofNat 32 st, 0]
  | .counts a b => [BitVec.ofNat 32 a, BitVec.ofNat 32 b, 0, 0]
  | .deviceErr => []
  | .scope _ _ => []

/-- A page operation at a controller: the state it leaves and its result, none where the record must wait. -/
abbrev PageOp := BitVec 12 → Nat → Nat → Record → State → State × Option PageResult

/-- A page operation goes on at the entry that it has found or built, with NOTABLE where the ring runs empty (R349). -/
def Take.entry (x : Take Nat) (cur : DWord) (go : State → Nat → State × Option PageResult) : State × Option PageResult :=
  match x with
  | .got s at_ => go s at_
  | .empty s => (s, some (.status 7 cur))
  | .wait s => (s, none)
  | .scope s detail addr => (s, some (.scope detail addr))
  | .error s => (s, some .deviceErr)

/-- The page size's level of a request. -/
def pageLevel (r : Record) : Nat := ((r.at 0).extractLsb' 12 2).toNat
/-- Bytes of a page of a level. -/
def levelBytes (level : Nat) : Nat := if level = 0 then 2 ^ 16 else if level = 1 then 2 ^ 21 else 2 ^ 30
/-- The space of a request. -/
def pageSpace (r : Record) : BitVec 12 := (r.at 0).extractLsb' 0 12

/-- The copy-on-write engine holds an entry or a frame: the pair it serves has begun (R336). -/
def State.pageHeld (s : State) (d : Nat) (space : BitVec 12) (lo hi : Nat) (frames : List Nat) : Bool :=
  let x := s.die d
  match x.cow with
  | [] => false
  | c :: _ =>
    let begun := c.begun || x.taking || x.taken.isSome
    let frame := match s.walk d c.space (c.page * 2 ^ 16) with
      | .leaf _ _ e => leafRun e
      | _ => []
    begun && ((c.space == space && decide (lo ≤ c.page * 2 ^ 16) && decide (c.page * 2 ^ 16 < hi)) || frames.any fun f => frame.contains f)

/-- A leaf replaced or its permissions changed, with what R214, R336, R342 and R343 ask of the slices and the TLB: where it no longer names
its frame, its lines go and the accesses that wait at them are translated again; where it no longer permits writes, or its D is cleared
(R214, R221), its lines take no writes. -/
def State.changeLeaf (s : State) (space : BitVec 12) (va level at_ : Nat) (old new : DWord) : State :=
  let d := vaDie va
  let lo := va / levelBytes level * levelBytes level
  let hi := lo + levelBytes level
  let s := (s.writeDword (memKey d at_) new).forgetRange d space lo hi
  let moved := pteV old && (!pteV new || pteAddr old != pteAddr new || pteAttr old != pteAttr new)
  let revokes := pteV old && ((pteW old && !pteW new) || (!pteCow old && pteCow new) || (pteD old && !pteD new))
  if moved then (s.flushLines d space lo hi).rewait d space lo hi
  else if revokes then s.unwriteLines d space lo hi
  else s

/-- The counts of the frames that a leaf names from now on, each 0 before (R346). -/
def State.framesNamed (s : State) (d : Nat) (fs : List Nat) : State := fs.foldl (fun (s : State) f => s.setFrameCount d f 1) s

/-- The counts of the frames that a leaf names no longer (R346). -/
def State.framesLeft (s : State) (d : Nat) (fs : List Nat) : State := fs.foldl (fun (s : State) f => s.frameDown d f) s

/-- page.map (R142). -/
def pageMap (space : BitVec 12) (va level : Nat) (r : Record) (s : State) : State × Option PageResult :=
  let d := vaDie va
  let old := r.pair 4
  let new := r.pair 2
  let lo := va / levelBytes level * levelBytes level
  let go := fun (cur : DWord) =>
    let namesNew := localRun new
    let namesOld := localRun cur
    let differ := namesNew != namesOld
    let malformed := if pteV new then !(pteOk level new && pteLeaf new && s.frameOk d new) else new != 0
    if s.pageHeld d space lo (lo + levelBytes level) (namesNew ++ namesOld) then (s, none)
    else if cur ≠ old then (s, some (PageResult.status 2 cur))
    else if malformed then (s, some (.status 4 cur))
    else if differ && namesNew.any (fun f => s.frameCount d f != 0) then (s, some (.status 3 cur))
    else if differ && !namesOld.isEmpty && s.framesParked d (leafFrame cur) (leafFrames (pteSize cur)) then (s, some (.status 1 cur))
    else if !pteV new && !pteV cur then (s, some (.status 0 cur))
    else (s.entryFor space va level).entry cur fun s at_ =>
      let s := if differ then s.framesNamed d namesNew else s
      let s := s.changeLeaf space va level at_ cur new
      (if differ then s.framesLeft d namesOld else s, some (.status 0 cur))
  match s.find space va level with
  | .deviceErr => (s, some .deviceErr)
  | .badPte e => (s, some (.status 4 e))
  | .level e => (s, some (.status 8 e))
  | .missing => go 0
  | .entry _ e => go e

/-- page.unmap (R142). -/
def pageUnmap (space : BitVec 12) (va level : Nat) (_ : Record) (s : State) : State × Option PageResult :=
  let d := vaDie va
  let lo := va / levelBytes level * levelBytes level
  match s.find space va level with
  | .deviceErr => (s, some .deviceErr)
  | .badPte e => (s, some (.status 4 e))
  | .level e => (s, some (.status 8 e))
  | .missing => (s, some (.status 5 0))
  | .entry at_ e =>
    let run := localRun e
    if s.pageHeld d space lo (lo + levelBytes level) run then (s, none)
    else if !pteV e then (s, some (.status 5 e))
    else if !run.isEmpty && s.framesParked d (leafFrame e) (leafFrames (pteSize e)) then (s, some (.status 1 e))
    else ((s.changeLeaf space va level at_ e 0).framesLeft d run, some (.status 0 e))

/-- page.share (R142, R346). -/
def pageShare (space : BitVec 12) (va level : Nat) (r : Record) (s : State) : State × Option PageResult :=
  let d := vaDie va
  let from_ := (r.at 1).extractLsb' 0 12
  let src := (r.pair 2).toNat
  let slo := src / levelBytes level * levelBytes level
  let lo := va / levelBytes level * levelBytes level
  let target := fun (sa : Nat) (se cur : DWord) =>
    if s.pageHeld d space lo (lo + levelBytes level) (localRun se) then (s, none)
    else if pteV cur then (s, some (PageResult.status 6 cur))
    else if pteAttr se = 2 then (s, some (.status 4 cur))
    else (s.entryFor space va level).entry cur fun s at_ =>
      let s := s.changeLeaf space va level at_ 0 (setBitAt (setBitAt se 1 false) 4 true)
      let s := (if pteW se then s.changeLeaf from_ src level sa se (setBitAt se 4 true) else s).forgetRange d from_ slo (slo + levelBytes level)
      ((leafRun se).foldl (fun (s : State) f => s.frameUp d f) s, some (.status 0 cur))
  let found := fun (sa : Nat) (se : DWord) =>
    match s.find space va level with
    | .deviceErr => (s, some PageResult.deviceErr)
    | .badPte e => (s, some (.status 4 e))
    | .level e => (s, some (.status 8 e))
    | .missing => target sa se 0
    | .entry _ e => target sa se e
  if vaDie src ≠ d then (s, some (.status 4 0))
  else
    match s.find from_ src level with
    | .deviceErr => (s, some .deviceErr)
    | .badPte e => (s, some (.status 4 e))
    | .level e => (s, some (.status 8 e))
    | .missing => (s, some (.status 5 0))
    | .entry sa se =>
      if s.pageHeld d from_ slo (slo + levelBytes level) [] then (s, none)
      else if !pteV se then (s, some (.status 5 se))
      else found sa se

/-- The bits that page.prot changes: W, ATTR and COW (R142). -/
def protMask : DWord := 0x1E

/-- page.prot (R142, R346): write is not set on a frame whose count is above 1. A leaf that becomes a peer's names its frames no longer; one
that ceases to be a peer's names frames whose counts must be 0, as page.map asks. DEDUCED: log 105. -/
def pageProt (space : BitVec 12) (va level : Nat) (r : Record) (s : State) : State × Option PageResult :=
  let d := vaDie va
  let new := r.pair 2
  let lo := va / levelBytes level * levelBytes level
  match s.find space va level with
  | .deviceErr => (s, some .deviceErr)
  | .badPte e => (s, some (.status 4 e))
  | .level e => (s, some (.status 8 e))
  | .missing => (s, some (.status 5 0))
  | .entry at_ e =>
    let namesOld := localRun e
    let namesNew := localRun new
    let joins := namesOld.isEmpty && !namesNew.isEmpty
    let leaves := !namesOld.isEmpty && namesNew.isEmpty
    let writes := pteW new && (!pteW e || !pteCow new)
    if s.pageHeld d space lo (lo + levelBytes level) (namesOld ++ namesNew) then (s, none)
    else if !pteV e then (s, some (.status 5 e))
    else if !(pteV new && pteOk level new && pteLeaf new && s.frameOk d new) || (new &&& ~~~protMask) != (e &&& ~~~protMask) then
      (s, some (.status 4 e))
    else if joins && namesNew.any (fun f => s.frameCount d f != 0) then (s, some (.status 3 e))
    else if writes && namesOld.any (fun f => decide (1 < s.frameCount d f)) then (s, some (.status 3 e))
    else
      let s := if joins then s.framesNamed d namesNew else s
      let s := s.changeLeaf space va level at_ e new
      (if leaves then s.framesLeft d namesOld else s, some (.status 0 e))

/-- tlb.inv (R143). -/
def tlbInvalidate (space : BitVec 12) (va level : Nat) (r : Record) (s : State) : State × Option PageResult :=
  let n := (r.at 1).toNat
  let d := vaDie va
  let s := if n = 0 then s.forgetRange d space (d * 2 ^ 50) ((d + 1) * 2 ^ 50) else s.forgetRange d space va (va + n * levelBytes level)
  (s, some (.status 0 0))

/-- The trap that a discarded side-log entry raises (R229, R143): w0 and w1 the data, other words and the RCW zero. -/
def sideLogTrap (e : LogEntry) : TrapInfo :=
  let data : List Word := match e.req.op with
    | .store _ ws => ws.take 2
    | .atom _ _ v _ => [lo32 v, hi32 v]
    | .cas _ _ v _ => [lo32 v, hi32 v]
    | _ => []
  { cause := .unmapped, detail := 1, addr := e.addr, record := Record.ofWords data 0, x := e.x, y := e.y, unit := e.unit,
    block := e.block, opIndex := e.opIndex, holder := .sideLog }

/-- What lane i of an access of the fault-queue kind asks at its home. -/
def faultLaneOp (i : Instr) (r : Record) : Option HomeOp :=
  match i with
  | .ld _ sy m | .ldv _ sy m | .src sy m => some (.load sy m.size.words)
  | .gather sy _ => some (.load sy 1)
  | .ldvN _ b _ => some (.count (r.w b))
  | .dropN b _ => some (.done (r.w b))
  | .stvN _ b _ => some (.fill (r.w b) r.all)
  | .feGet _ m => some (.feGet m.size.words)
  | .launch _ => some (.load .plain 16)
  | _ => none

/-- A fault-queue entry read and reissued: every lane of its access is made again, and the entry waits for them (R143, R127). One that cannot
be read ends its region (R230). -/
def State.reissue (s : State) (inst : Nat) (e : KEntry) : State :=
  let s := s.readEntry inst e
  match (s.launch? inst).filter (·.fatal.isNone), e.access with
  | some l, some a =>
    match faultLaneOp a.op a.record, memRefOf a.op with
    | some op, some (_, m) =>
      let s := (s.kennelMap inst fun f =>
        if f.offset = e.offset then { f with access := some a.unanswered, req := none, more := [], out := true } else f).moved inst
      a.lanes.foldl (fun (s : State) (q : LaneState) =>
        let loc : Loc := if m.space == .peer then .peer q.addr else .glob q.addr
        s.post (mkReq (.access inst e.x e.y e.unit a.id q.lane) l.record.space loc op (l.requestScope m a.op) inst (e.x, e.y)
          (l.dieOf e.x e.y))) s
    | _, _ => s
  | _, _ => s

/-- A fault-queue entry that fault.fail ends: its access comes back to its element to trap UNMAPPED (R143, R227). -/
def State.failEntry (s : State) (inst : Nat) (e : KEntry) : State :=
  let s := s.readEntry inst e
  match (s.launch? inst).filter (·.fatal.isNone), e.access with
  | some _, some a => s.resumeAccess inst e.x e.y e.unit (a.answerAll (.trap .unmapped 0 e.granule))
  | _, _ => s

/-- Fault-queue entries of a space's regions within a range, of resident and away regions. -/
def State.faultEntries (s : State) (space : BitVec 12) (lo hi : Nat) : List (Nat × KEntry) :=
  s.launches.flatMap fun (i, l) =>
    if l.record.space != space then []
    else (l.kennel.entries.filter fun e => e.kind == .fault && !e.out && decide (lo ≤ e.granule.toNat) && decide (e.granule.toNat < hi)).map (i, ·)

/-- A side-log entry within a range of a space that is not being replayed. -/
def LogEntry.within (e : LogEntry) (space : BitVec 12) (lo hi : Nat) : Bool :=
  e.req.space == space && !e.replaying && decide (lo ≤ e.addr.toNat) && decide (e.addr.toNat < hi)

/-- A side-log entry replayed: its write is sent again (R143, R232). -/
def State.replayLog (s : State) (d : Nat) (e : LogEntry) : State :=
  let rq := { e.req with party := .log d, seq := s.reqSeq, resends := 0 }
  let x := s.die d
  let mark := fun (f : LogEntry) => if f = e then { f with req := rq, replaying := true } else f
  (s.setDie d { x with sideLog := x.sideLog.map mark }).post rq

/-- An engine's request that waits for a page of a range (R144). -/
def WalkReq.within (w : WalkReq) (space : BitVec 12) (lo hi : Nat) : Bool :=
  w.req.space == space && decide (lo ≤ w.req.va) && decide (w.req.va < hi)

/-- Reports of a range resolved (R233). -/
def State.resolve (s : State) (d : Nat) (space : BitVec 12) (lo hi : Nat) : State :=
  s.setDie d { s.die d with unresolved := (s.die d).unresolved.filter fun p =>
    !(p.1 == space && decide (lo ≤ p.2 * 2 ^ 16) && decide (p.2 * 2 ^ 16 < hi)) }

/-- Kelpie jobs that wait for a page of a range: tried again, or stopped with UNMAPPED. -/
def State.kelpieResolve (s : State) (d : Nat) (space : BitVec 12) (lo hi : Nat) (fail : Bool) : State :=
  match (s.die d).kelpie with
  | j :: _ =>
    match j.stall with
    | some p =>
      if j.space == space && decide (lo ≤ p * 2 ^ 16) && decide (p * 2 ^ 16 < hi) then
        if fail then s.kelpieStop d j 1 else s.setKelpie d (some { j with stall := none })
      else s
    | none => s
  | [] => s

/-- Walks that wait for a page of a range: tried again, or marked as failed (R357). -/
def State.walkResolve (s : State) (space : BitVec 12) (lo hi : Nat) (fail : Bool) : State :=
  { s with queues := s.queues.map fun (w : HostQueue) => match w.stall with
    | some p =>
      if w.space == space && decide (lo ≤ p * 2 ^ 16) && decide (p * 2 ^ 16 < hi) then { w with stall := none, failed := fail } else w
    | none => w }

/-- An engine's request that waited for a page goes to its home again (R144), a peer access to its die's controller. -/
def State.askAgain (s : State) (w : WalkReq) : State :=
  match w.req.loc with
  | .peer va =>
    let d := vaDie va.toNat
    s.setDie d { s.die d with walkQ := (s.die d).walkQ ++ [w] }
  | _ =>
    let sl := s.homeSlice w.req.va
    s.setSlice sl { s.slice sl with reqs := (s.slice sl).reqs ++ [w.req] }

/-- fault.resume (R143). -/
def faultResume (space : BitVec 12) (va level : Nat) (_ : Record) (s : State) : State × Option PageResult :=
  let d := vaDie va
  let hi := va + levelBytes level
  let entries := s.faultEntries space va hi
  let logs := (s.die d).sideLog.filter fun e => e.within space va hi
  let s := s.resolve d space va hi
  let s := entries.foldl (fun (s : State) p => match s.launch? p.1 with
    | some l => if l.resident then s.reissue p.1 p.2 else s
    | none => s) s
  let s := logs.foldl (fun (s : State) e => s.replayLog d e) s
  let x := s.die d
  let back := x.stalled.filter fun w => w.within space va hi
  let s := s.setDie d { x with stalled := x.stalled.filter fun w => !w.within space va hi }
  let s := back.foldl (fun (s : State) w => s.askAgain w) s
  ((s.kelpieResolve d space va hi false).walkResolve space va hi false, some (.counts entries.length logs.length))

/-- An engine's request that fault.fail answers: a copy's, and a walk's (R143, R357). -/
def Party.fails : Party → Bool
  | .copy _ => true
  | .walk _ => true
  | .kelpie _ => true
  | _ => false

/-- fault.fail (R143). -/
def faultFail (space : BitVec 12) (va level : Nat) (r : Record) (s : State) : State × Option PageResult :=
  let d := vaDie va
  let hi := va + levelBytes level
  let entries := s.faultEntries space va hi
  let logs := if (r.at 1).getLsbD 0 then (s.die d).sideLog.filter fun e => e.within space va hi else []
  let s := s.resolve d space va hi
  let s := entries.foldl (fun (s : State) p => match s.launch? p.1 with
    | some l => if l.resident then s.failEntry p.1 p.2
                else s.kennelMap p.1 fun f => if f.offset = p.2.offset then { f with failed := true } else f
    | none => s) s
  let s := s.setDie d { s.die d with sideLog := (s.die d).sideLog.filter fun e => !logs.contains e }
  let s := logs.foldl (fun (s : State) e => s.raise e.inst (sideLogTrap e)) s
  let x := s.die d
  let gone := x.stalled.filter fun w => w.within space va hi && w.req.party.fails
  let s := s.setDie d { x with stalled := x.stalled.filter fun w => !(w.within space va hi && w.req.party.fails) }
  let s := gone.foldl (fun (s : State) w => (s.unmiss w.slice w.req).deliver w.req (.trap .unmapped 0 (BitVec.ofNat 64 w.req.va))) s
  ((s.kelpieResolve d space va hi true).walkResolve space va hi true, some (.counts entries.length logs.length))

/-- A privileged operation at its access element (R141): its checks, the release, and the operation at the owning die's controller in
one step, with its result written into the record. -/
def pageOp (i : Instr) (m : MemRef) (f : PageOp) (s : State) :
    Host.Outcome State Fault Refusal :=
  accessStep i m
    (fun l _ r =>
      let ea := effectiveAddr l m (indexWord m r)
      if pageLevel r = 3 || (r.at 0).extractLsb' 14 18 != 0 then .error (requestInvalid 0 ea)
      else if ea.toNat % levelBytes (pageLevel r) ≠ 0 then .error (.misalign, BitVec.ofNat 64 m.size.code.toNat, ea)
      else if !canonical ea then .error (.noncanon, 0, ea)
      else .ok (ea, []))
    (fun r ea _ s =>
      match f (pageSpace r) ea.toNat (pageLevel r) r s with
      | (s, none) => some s
      | (s, some .deviceErr) => some (s.takeHead.answeredAccess i r ea (some (.trap .deviceErr 3 ea)))
      | (s, some (.scope detail addr)) => some (s.takeHead.answeredAccess i r ea (some (.trap .scope detail addr)))
      | (s, some res) => some (s.takeHead.answeredAccess i (r.setWords 12 res.words) ea (some replyDone))) s

/-- page.map (R142). -/
def execPageMap (m : MemRef) (s : State) : Host.Outcome State Fault Refusal := pageOp (.pageMap m) m pageMap s
/-- page.unmap (R142). -/
def execPageUnmap (m : MemRef) (s : State) : Host.Outcome State Fault Refusal := pageOp (.pageUnmap m) m pageUnmap s
/-- page.share (R142). -/
def execPageShare (m : MemRef) (s : State) : Host.Outcome State Fault Refusal := pageOp (.pageShare m) m pageShare s
/-- page.prot (R142). -/
def execPageProt (m : MemRef) (s : State) : Host.Outcome State Fault Refusal := pageOp (.pageProt m) m pageProt s
/-- tlb.inv (R143). -/
def execTlbInv (m : MemRef) (s : State) : Host.Outcome State Fault Refusal := pageOp (.tlbInv m) m tlbInvalidate s
/-- fault.resume (R143). -/
def execFaultResume (m : MemRef) (s : State) : Host.Outcome State Fault Refusal := pageOp (.faultResume m) m faultResume s
/-- fault.fail (R143). -/
def execFaultFail (m : MemRef) (s : State) : Host.Outcome State Fault Refusal := pageOp (.faultFail m) m faultFail s

/-! ### space.retire (R143, R352) -/

/-- space.retire (R143): ea is its completion word; the record leaves at acceptance. -/
def execSpaceRetire (m : MemRef) (s : State) : Host.Outcome State Fault Refusal :=
  accessStep (.spaceRetire m) m
    (fun l _ r => do
      let ea := effectiveAddr l m (indexWord m r)
      if pageLevel r = 3 || (r.at 0).extractLsb' 14 18 != 0 then throw (requestInvalid 0 ea)
      let _ ← locate l s.focus.x s.focus.y m 1 0 ea
      return (ea, []))
    (fun r ea _ s =>
      match s.here with
      | none => none
      | some (l, _) =>
        let q : Retire := { space := pageSpace r, completion := ea, reqSpace := l.record.space, scope := l.scope m.scope, inst := s.focus.inst,
                            die := vaDie ea.toNat, worked := false }
        some { s.takeHead.answeredAccess (.spaceRetire m) r ea (some replyDone) with retires := s.retires ++ [q] }) s

/-- Table blocks below an entry of a level, and leaves, walked depth first: every block and every valid local leaf. -/
def State.subtree (s : State) (d : Nat) : Nat → Nat → List Nat × List DWord
  | level, table =>
    (List.range (tableEntries level)).foldl (fun (acc : List Nat × List DWord) i =>
      let e := s.readDword (memKey d (table + i * 8))
      if !pteV e then acc
      else if pteLeaf e then (acc.1, acc.2 ++ [e])
      else
        match level with
        | 0 => acc
        | l + 1 =>
          let (bs, ls) := State.subtree s d l (pteAddr e)
          (acc.1 ++ pteAddr e :: bs, acc.2 ++ ls)) ([], [])

/-- A space retired on one die (R352): translations, lines, counted granules and drop history gone, leaves unmapped, blocks returned, the
root zeroed; none where the copy-on-write engine holds a leaf of it or a frame that it names (R336). -/
def State.retireOn (s : State) (space : BitVec 12) (d : Nat) : Option State :=
  let lo := d * 2 ^ 50
  let hi := (d + 1) * 2 ^ 50
  let root := s.root d space
  let (blocks, leaves) := s.subtree d 3 root
  let frames := leaves.flatMap localRun
  if s.pageHeld d space lo hi frames then none
  else
    let s := ((s.forgetRange d space lo hi).flushLines d space lo hi).rewait d space lo hi
    let s := (dieSlices d).foldl (fun (s : State) sl =>
      let x := s.slice sl
      s.setSlice sl { x with history := x.history.filter (fun h => granuleSpace h.1 != space),
                             granules := x.granules.filter fun g => granuleSpace g.1 != space }) s
    let s := blocks.foldl (fun (s : State) b => s.blockBack d b) (s.framesLeft d frames)
    some ((List.range (tableEntries 3)).foldl (fun (s : State) i =>
      if s.readDword (memKey d (root + i * 8)) = 0 then s else s.writeDword (memKey d (root + i * 8)) 0) s)

/-- A region of a space is placed, resident or away (R352). -/
def State.spaceLive (s : State) (space : BitVec 12) : Bool :=
  s.launches.any fun e => e.2.record.space == space && e.2.phase != .waiting

/-- SPACE_RETIRE_RUN (R352): a retirement works on each die in turn once no region of its space is left, and then writes its
completion word; frames and blocks go back to their rings (R335, R349). DEDUCED: log 42. -/
def execSpaceRetireRun (k : Nat) (s : State) : Host.Outcome State Fault Refusal :=
  match s.retires[k]? with
  | none => .next s
  | some q =>
    if !q.worked then
      if s.spaceLive q.space then .next s
      else
        match s.retireOn q.space q.dies with
        | none => .next s
        | some s => .next { s with retires := s.retires.set k { q with dies := q.dies + 1, worked := decide (3 ≤ q.dies) } }
    else
      match s.performNow (mkReq (.ring q.die 2) q.reqSpace (.glob q.completion) (.store .s [completionWord 0 0]) q.scope q.inst (0, 0) q.die) with
      | .ok s _ => .next (({ s with retires := s.retires.eraseIdx k }).moved q.inst)
      | .wait s => .next s
      | .fault s => .next (s.faultEvent q.reqSpace q.completion.toNat 2)
      | other => .next { other.state with retires := other.state.retires.eraseIdx k }

/-! ### The rings (R335, R349, R350) -/

/-- A request of a die's controller to a ring. -/
def State.ringPost (s : State) (d kind : Nat) (space : BitVec 12) (va : Nat) (op : HomeOp) : State := s.post (ringReq d kind space va op)

/-- A leaf names a frame of this die whose count is above 1 (R336); a peer's leaf names none (R346). -/
def State.leafShared (s : State) (d : Nat) (e : DWord) : Bool := (localRun e).any fun f => decide (1 < s.frameCount d f)

/-- The pair that the copy-on-write engine serves needs a frame: its page is a shared 64 KiB leaf with COW set (R336). -/
def State.needsFrame (s : State) (d : Nat) : Bool :=
  match (s.die d).cow with
  | [] => false
  | c :: _ =>
    match s.walk d c.space (c.page * 2 ^ 16) with
    | .leaf _ level e => level == 0 && pteCow e && s.leafShared d e
    | _ => false

/-- FREE_FRAME_TAKE (R335, R350): the engine asks its ring for a frame by a .c load; it waits while the ring is not in use. -/
def execFreeFrameTake (die : Nat) (s : State) : Host.Outcome State Fault Refusal :=
  let x := s.die die
  if !s.needsFrame die || x.taking || x.taken.isSome || !x.frEnabled then .next s
  else
    match x.frSlot x.frHead with
    | none => .next s
    | some va => .next ((s.setDie die { x with taking := true }).ringPost die 0 x.frSpace va (.load .c 1))

/-- FREE_FRAME_RETURN (R335, R350): a frame whose count reached 0 goes back by a .f store. -/
def execFreeFrameReturn (die : Nat) (s : State) : Host.Outcome State Fault Refusal :=
  let x := s.die die
  match x.frameReturns, x.frSlot x.frTail with
  | f :: _, some va =>
    if x.returning || !x.frEnabled then .next s
    else .next ((s.setDie die { x with returning := true }).ringPost die 1 x.frSpace va (.store .f [BitVec.ofNat 32 (f % 2 ^ 24)]))
  | _, _ => .next s

/-- TABLE_BLOCK_RETURN (R349): a table block goes back by a .f store of its address. -/
def execTableBlockReturn (die : Nat) (s : State) : Host.Outcome State Fault Refusal :=
  let x := s.die die
  match x.blockReturns, x.tbSlot x.tbTail with
  | b :: _, some va =>
    if x.blockReturning then .next s
    else .next ((s.setDie die { x with blockReturning := true }).ringPost die 2 x.tbSpace va
      (.store .f [BitVec.ofNat 32 (b / 2 ^ 12 % 2 ^ 28)]))
  | _, _ => .next s

/-- FRPUSH (R350): a frame of count 0 below FTFRAMES joins the returns; any other is refused. -/
def execFrpush (die : Nat) (frame : BitVec 24) (s : State) : Host.Outcome State Fault Refusal :=
  let x := s.die die
  if s.inReset then .next s
  else if decide (x.ftFrames.toNat ≤ frame.toNat) || s.frameCount die frame.toNat != 0 then .next (s.setDie die { x with frRefused := true })
  else .next ((s.setDie die { x with frRefused := false }).frameBack die frame.toNat)

/-! ### Copy-on-write (R336, R347) -/

/-- Granules of a range of a space that the write-back of its lines charges with an error and reports (R235). -/
def State.lostGranules (s : State) (d : Nat) (space : BitVec 12) (lo hi : Nat) : List Nat :=
  (dieSlices d).flatMap fun sl => (s.linesWithin sl space lo hi).flatMap fun k =>
    match SMap.get? (s.slice sl).lines k with
    | some l => if l.dirty then l.badHalves.map fun h => lineVa k + 64 * h else []
    | none => []

/-- One granule of a frame copied to another with its states and parked flag; one with an uncorrectable word is written poisoned
and reported, charged to the space, unless the write-back of its line has reported it (R336, R235). -/
def State.copyGranule (s : State) (d : Nat) (space : BitVec 12) (va f g : Nat) (reported : List Nat) (i : Nat) : State :=
  let a := memKey d (f * 2 ^ 16 + 64 * i)
  let b := memKey d (g * 2 ^ 16 + 64 * i)
  let bad := (s.wordsBad a 16).any (· == true)
  let s := s.mendTag (b / 256)
  let s' := ((s.writeWords b (s.readWords a 16)).setFull b (s.wordsFull a 16)).setParked b (s.sectorParked a)
  let s' := s'.setBad b (List.replicate 16 bad)
  if bad && !reported.contains (va + 64 * i) then s'.event d 2 0 space (BitVec.ofNat 64 (va + 64 * i)) 0 else s'

/-- The service of a 64 KiB page ends: its writes are translated again, on the copy's frame where there is one (R336, R214, R344); a table
block that it took and does not need goes back. -/
def State.cowRelease (s : State) (d : Nat) (c : CowJob) (frame : Option Nat) : State :=
  let s := c.blocks.foldl (fun (s : State) b => s.blockBack d b) s
  let x := s.die d
  (s.setDie d { x with cow := x.cow.drop 1, walkQ := x.walkQ ++ c.writes.map fun w => { slice := w.1, req := w.2 } }).rebindWays c.space c.page
    frame

/-- A page copied to a frame that the engine took, and remapped there writable (R336). -/
def State.cowCopy (s : State) (d : Nat) (c : CowJob) (entry : Nat) (e : DWord) (g : Nat) : State :=
  let va := c.page * 2 ^ 16
  let f := leafFrame e
  let reported := s.lostGranules d c.space va (va + 2 ^ 16)
  let s := (s.flushLines d c.space va (va + 2 ^ 16)).rewait d c.space va (va + 2 ^ 16)
  let s := (List.range 1024).foldl (fun (s : State) i => s.copyGranule d c.space va f g reported i) s
  let s := s.compressRun (memKey d (g * 2 ^ 16)) 256
  let keep := e &&& ~~~(0x0000FFFFFFFFF000 : DWord)
  let e' := setBitAt (setBitAt (keep ||| BitVec.ofNat 64 (g * 2 ^ 16)) 1 true) 4 false
  let s := (s.writeDword (memKey d entry) e').setFrameCount d g 1
  let s := (s.frameDown d f).forgetRange d c.space va (va + 2 ^ 16)
  (s.setDie d { s.die d with taken := none }).cowRelease d c (some g)

/-- The pair that an engine serves, at the head of its queue, written. -/
def State.setCowHead (s : State) (d : Nat) (c : CowJob) : State :=
  s.setDie d { s.die d with cow := c :: (s.die d).cow.drop 1 }

/-- A leaf of 2 MiB or 1 GiB split into the leaves of a block, each with the old leaf's W, COW, ATTR, A and D (R347). -/
def State.cowSplit (s : State) (d : Nat) (c : CowJob) (entry level : Nat) (e : DWord) (block : Nat) : State :=
  let small := level - 1
  let n := if level = 2 then 512 else 32
  let flags := e &&& 0x27F
  let leaf := fun (i : Nat) => flags ||| (BitVec.ofNat 64 (128 * small)) ||| BitVec.ofNat 64 (pteAddr e + i * levelBytes small)
  let s := (s.setCowHead d { c with blocks := [] }).fillBlock d block ((List.range n).map leaf)
  let lo := c.page * 2 ^ 16 / levelBytes level * levelBytes level
  (s.writeDword (memKey d entry) (pointerEntry block)).forgetRange d c.space lo (lo + levelBytes level)

/-- A table block asked for, to split a leaf: a .c load of the ring's next slot, which waits as an engine waiter where the ring is empty
(R347, R349). -/
def State.askBlock (s : State) (d : Nat) : State :=
  let x := s.die d
  match x.tbSlot x.tbHead with
  | some va => if x.blockTaking then s else (s.setDie d { x with blockTaking := true }).ringPost d 3 x.tbSpace va (.load .c 1)
  | none => s

/-- COW_SERVICE (R336, R347): the pair at the head of a die's copy-on-write engine takes its next step, its leaf held from its first: a
larger leaf is split, once a table block is there, a shared page is copied, once a frame is there, a page of count 1, or a peer's, which has
no count, is reclaimed without a copy (R346), and a page that no longer has COW set lets its writes be translated again. -/
def execCowService (die : Nat) (s : State) : Host.Outcome State Fault Refusal :=
  match (s.die die).cow with
  | [] => .next s
  | c :: _ =>
    match s.walk die c.space (c.page * 2 ^ 16) with
    | .leaf entry level e =>
      if !pteCow e then .next (s.cowRelease die c none)
      else if level ≠ 0 then
        match c.blocks with
        | b :: _ => .next (s.cowSplit die c entry level e b)
        | [] => .next ((s.setCowHead die { c with begun := true }).askBlock die)
      else if s.leafShared die e then
        match (s.die die).taken with
        | some g => .next (s.cowCopy die c entry e g)
        | none => .next (s.setCowHead die { c with begun := true })
      else
        let va := c.page * 2 ^ 16
        let e' := setBitAt (setBitAt e 1 true) 4 false
        .next (((s.writeDword (memKey die entry) e').forgetRange die c.space va (va + 2 ^ 16)).cowRelease die c none)
    | _ => .next (s.cowRelease die c none)

end Sys2Proof.Machine
end

