-- ==== Sys2Proof/Machine/Regions.lean ====
section
/-! DEFINITION. Machine/Regions.lean: the region controller: reporting traps (R225 to R228), delivering to the handler (R227),
idle spans under halt (R175, R229), and the end of a region (R160, R195, R230, R238) with its status block, completion word and
residency reports (R39 to R41, R358). -/

namespace Sys2Proof.Machine

/-! ### Residency reports (R358) -/

/-- Launches in the waiting set at a PRI. -/
def State.waitingAt (s : State) (pri : BitVec 2) : Nat :=
  (s.launches.filter fun e => e.2.phase == .waiting && e.2.record.pri == pri).length

/-- A residency report of a die, sent to the packet's source. -/
def State.report (s : State) (die : Nat) (tag : DWord) (pri : BitVec 2) (event status origin inst : Nat) : State :=
  let x := s.die die
  let info := BitVec.ofNat 32 (event * 2 ^ 24 + status * 2 ^ 16 + origin * 2 ^ 9)
  let cycle := BitVec.ofNat 64 s.now
  let words : List Word := [x.reportSeq, BitVec.ofNat 32 (s.waitingAt pri), info, BitVec.ofNat 32 inst, lo32 tag, hi32 tag, lo32 cycle, hi32 cycle]
  { s.setDie die { x with reportSeq := x.reportSeq + 1 } with reports := s.reports ++ [(die, words)] }

/-- The residency report of an event of a launch, where a peer sent it. -/
def State.reportLaunch (s : State) (inst event status : Nat) : State :=
  match s.launch? inst with
  | none => s
  | some l =>
    match l.origin with
    | .peer die tag =>
      let origin := if event = 3 || event = 5 then l.py * 16 + l.px else 0
      s.report die tag l.record.pri event status origin (if inst < 2 ^ 32 then inst else 0)
    | _ => s

/-! ### Traps (R225 to R228) -/

/-- TRAP_REPORT (R225 to R228): the k-th trap at the region controller, the first of its element, is taken. -/
def execTrapReport (inst k : Nat) (s : State) : Host.Outcome State Fault Refusal :=
  match s.launch? inst with
  | none => .next s
  | some l =>
    match l.trapQ[k]? with
    | none => .next s
    | some t =>
      let earlier := (l.trapQ.take k).any fun e => e.x == t.x && e.y == t.y && e.unit == t.unit
      if !l.acts || earlier then .next s else .next (s.takeTrap inst t)

/-- HANDLER_DELIVER (R227): the oldest record waiting for the handler enters in0 of e5 at region cell (0, 0), once that latch is
free. -/
def execHandlerDeliver (inst : Nat) (s : State) : Host.Outcome State Fault Refusal :=
  match s.launch? inst with
  | none => .next s
  | some l =>
    match l.handlerQ with
    | [] => .next s
    | r :: rest =>
      let u := l.unit 0 0 5
      if !l.acts || !(u.port 0).isEmpty then .next s
      else .next (s.setLaunch inst { l.setUnit 0 0 5 (u.setPort 0 [r]) with handlerQ := rest, lastMove := s.now })

/-! ### Waiting records -/

/-- A request made for a record of a region. -/
def Req.ofRegion (inst : Nat) (r : Req) : Bool :=
  match r.party with
  | .access i _ _ _ _ _ => i == inst
  | _ => false

/-- Requests that wait at homes (R175, R194, R336): buffered, for quota, refused, presented again after that, or for the copy-on-write
engine. A write that finds the side log full waits in its access element instead (R232). -/
def State.waitingReqs (s : State) : List Req :=
  (s.slices.flatMap fun e => e.2.waiters ++ e.2.quota ++ e.2.refused ++ e.2.reqs.filter (·.retryAt != 0)) ++
  (s.launches.flatMap fun e => e.2.tiles.flatMap fun t => t.2.waiters) ++
  (s.dies.toList.flatMap fun d => d.cow.flatMap fun c => c.writes.map (·.2))

/-- The access of a request. -/
def Req.access (r : Req) : Nat × Nat × Nat × Nat :=
  match r.party with
  | .access _ x y u id _ => (x, y, u, id)
  | _ => (0, 0, 0, 0)

/-- Entries of a region's kennel that hold a record: parked, faulted or diverted; the further lanes of an access hold none. -/
def Launch.kennelRecords (l : Launch) : List KEntry :=
  l.kennel.entries.filter fun e => (e.kind == .park || e.kind == .fault) && e.access.isSome || e.kind == .yieldEntry

/-- A region has a record waiting at a home, parked, or in its fault queue (R160). -/
def State.regionWaits (s : State) (inst : Nat) (l : Launch) : Bool :=
  s.waitingReqs.any (Req.ofRegion inst) || l.kennel.entries.any fun e => e.kind == .park || e.kind == .fault

/-- A region's side-log entries. -/
def State.sideLogOf (s : State) (inst : Nat) : List LogEntry := s.dies.toList.flatMap fun d => d.sideLog.filter (·.inst == inst)

/-- A region's side-log entries discarded, and their replays. -/
def State.dropSideLog (s : State) (inst : Nat) : State :=
  let gone := (s.sideLogOf inst).map (·.req.seq)
  let s := { s with dies := s.dies.map fun (d : Die) => { d with sideLog := d.sideLog.filter (·.inst != inst) } }
  s.removeReqs fun r => (match r.party with | .log _ => true | _ => false) && gone.contains r.seq

/-- Every record of a region that waits at a home, is parked or faulted, removed and counted in DROPS (R175 step 4, R229). -/
def State.removeWaiting (s : State) (inst : Nat) (l : Launch) : State :=
  let accesses := ((s.waitingReqs.filter (Req.ofRegion inst)).map Req.access).eraseDups
  let gone := accesses.filter fun a => (l.unit a.1 a.2.1 a.2.2.1).flight.any (·.id == a.2.2.2)
  let parked := (l.kennelRecords.filter (·.kind != .yieldEntry)).length
  let ids := accesses ++ l.kennel.entries.filterMap fun (e : KEntry) => e.access.map fun a => (e.x, e.y, e.unit, a.id)
  let s := s.removeReqs fun r => Req.ofRegion inst r && ids.contains (Req.access r)
  let s := gone.foldl (fun (s : State) a => s.modUnit inst a.1 a.2.1 a.2.2.1 fun u => { u with flight := u.flight.filter (·.id != a.2.2.2) }) s
  let s := s.kennelFree inst fun e => e.kind == .park || e.kind == .fault
  s.modLaunch inst fun l => { l with drops := l.drops + BitVec.ofNat 64 (gone.length + parked), lastMove := s.now }

/-! ### Sinks and reorder banks -/

/-- Units of a region that hold a sink. -/
def Launch.sinks (l : Launch) : List (Nat × UnitState) :=
  l.units.filter fun e => match e.2.op with | some (.sink _ _) => true | _ => false

/-- Every sink is complete (R160). -/
def Launch.complete (l : Launch) : Bool := l.sinks.all (·.2.sink.complete)

/-- Reorder banks of a region that can advance (R229): cell, bank and the lowest held ordinal; each holds records, not its expected
one, and none below it. -/
def Launch.advancing (l : Launch) : List (Nat × Nat × Nat × Word) :=
  l.tiles.flatMap fun e =>
    let x := e.1 % 128
    let y := e.1 / 128
    (List.range 16).filterMap fun b =>
      if l.bankMode x y b ≠ 3 then none
      else
        let ords := (e.2.slotsUsed b).map fun k => (e.2.slotRecord b k).ctl.ord
        let exp := (e.2.expected b).toNat
        match ords with
        | [] => none
        | o :: os =>
          let low := os.foldl (fun (m : Word) w => if w.toNat < m.toNat then w else m) o
          if exp < low.toNat then some (x, y, b, low) else none

/-- Reorder banks advanced to their lowest held ordinals. -/
def State.advanceBanks (s : State) (inst : Nat) (bs : List (Nat × Nat × Nat × Word)) : State :=
  (bs.foldl (fun (s : State) b => s.modTile inst b.1 b.2.1 fun t => t.setExpected b.2.2.1 b.2.2.2) s).moved inst

/-! ### Ending -/

/-- Records in the latches of a unit; a token at an operand port is no record that counts (R287). -/
def UnitState.waitingIn (u : UnitState) (unit : Nat) : Nat :=
  u.ins.foldl (fun n p => n + (p.2.filter fun r => !(unit == 12 && decide (p.1 < 4) && r.isToken)).length) 0

/-- Records of a region in its fabric: in ports, in progress, resumed, in reorder banks, at matrix tiles, items of sources whose trap is not
reported, and records that wait for the handler. -/
def Launch.fabricRecords (l : Launch) : Nat :=
  let units := l.units.foldl (fun n (e : Nat × UnitState) =>
    let u := e.2
    let x := e.1 / 16 % 128
    let y := e.1 / 16 / 128
    let held := match u.op with
      | some (.reorder b _) => ((l.tile x y).slotsUsed b.toNat).length
      | _ => 0
    n + u.waitingIn (e.1 % 16) + u.flight.length + u.resume.length + held) 0
  let tiles := l.matrix.foldl (fun n (e : Nat × MatrixTile) =>
    n + (if e.2.latch.isSome then 1 else 0) + (if e.2.firing.isSome then 1 else 0)) 0
  units + tiles + l.handlerQ.length + (l.trapQ.filter (·.holder == .item)).length

/-- A region without records: its ports, accesses, tiles' steps and queues empty. -/
def Launch.emptied (l : Launch) : Launch :=
  { l with
    units := SMap.mapValues UnitState.reset (fun u => { u with ins := [], flight := [], resume := [], held := false }) l.units
    matrix := SMap.mapValues MatrixTile.reset (fun t => { t with latch := none, firing := none, cmds := [], drain := none }) l.matrix
    handlerQ := [], trapQ := [], cfgs := [] }

/-- The counted granules of a region that remain in slices: slice and granule key. -/
def State.countedOf (s : State) (inst : Nat) : List (Nat × Nat) :=
  s.slices.flatMap fun e => (e.2.granules.filter fun g => g.2.inst == inst).map fun g => (e.1, g.1)

/-- A resident granule written back as a .s store of its words and gone, its quota place released (R195): whether that is done, and the
state; it waits where a write of its page must. A granule whose page takes no write is gone and reported, and its waiters are served as after any
change of state (R183). DEDUCED: log 106. -/
def State.writeBackCounted (s : State) (sl key inst : Nat) : Bool × State :=
  match SMap.get? (s.slice sl).granules key with
  | none => (true, s)
  | some g =>
    let space := granuleSpace key
    let va := granuleVa key
    let gone := fun (s : State) =>
      (s.setSlice sl { s.slice sl with granules := SMap.erase (s.slice sl).granules key }).holdPlace sl inst
    let after := fun (s : State) => match s.viewAt (.slice sl) key inst with
      | some v => (s.afterServe (.slice sl) key true false v).settleLine sl space va
      | none => s
    match s.ensureLine space va true with
    | .wait s => (false, s)
    | .fault s => (true, (after (gone s)).faultEvent space va 1)
    | .ok s _ =>
      let s := gone s
      let h : Home := .slice sl
      match s.viewAt h key inst with
      | none => (true, s)
      | some v =>
        match v.perform 0 (.store .s g.words) with
        | .done v' _ _ _ _ ev => (true, ((s.setViewAt h key inst v v' ev).afterServe h key true false v).settleLine sl space va)
        | _ => (true, s)
    | other => (true, (after (gone other.state)).event (vaDie va) 1 1 space (BitVec.ofNat 64 va) 0)

/-- The counted granules of a region written back, in order, until one must wait. -/
def State.flushCounted (s : State) (inst : Nat) : List (Nat × Nat) → Bool × State
  | [] => (true, s)
  | g :: gs =>
    match s.writeBackCounted g.1 g.2 inst with
    | (true, s) => State.flushCounted s inst gs
    | (false, s) => (false, s)

/-- Rows of a region's tiles that hold counted state, by tile granule key. -/
def Launch.countedRows (l : Launch) : List Nat :=
  l.tiles.flatMap fun e =>
    let x := e.1 % 128
    let y := e.1 / 128
    (e.2.rows.filter fun r => l.rowCounts x y r.1 && rowReaders r.2 != 0).map fun r => ((Home.tile 0 x y).granule r.1).toNat

/-- The counted granules and rows that remain counted as under-read, with the lowest of their addresses (R195). -/
def State.underRead (s : State) (inst : Nat) (l : Launch) : State :=
  let addrs := (s.countedOf inst).map (fun g => granuleVa g.2) ++ l.countedRows
  let low := addrs.foldl (fun m a => min m a) (addrs.headD 0)
  s.modLaunch inst fun l => { l with underRead := BitVec.ofNat 32 addrs.length, underAddr := BitVec.ofNat 64 low }

/-- Every dirty cache-way line of a region written back: whether all were. -/
def State.flushRegionWays (s : State) (inst : Nat) : List Nat → Bool × State
  | [] => (true, s)
  | k :: ks =>
    match s.flushWays inst (k % 128) (k / 128) with
    | (true, s) => State.flushRegionWays s inst ks
    | (false, s) => (false, s)

/-- Every stream of a region deposits the range it has written (R351). -/
def State.depositAll (s : State) (inst kind : Nat) (l : Launch) : State :=
  l.units.foldl (fun (s : State) e => s.depositStream inst (e.1 / 16 % 128) (e.1 / 16 / 128) (e.1 % 16) kind) s

/-- The fields of the status block that the controller writes, by offset (R39, R238). -/
def Launch.statusBlock (l : Launch) (cycles : DWord) : List (Nat × Word) :=
  [(0x00, l.preempts ++ l.firstCause ++ l.status), (0x04, l.traps), (0x08, l.trapLost), (0x0C, l.underRead),
   (0x10, lo32 l.underAddr), (0x14, hi32 l.underAddr), (0x18, lo32 l.drops), (0x1C, hi32 l.drops),
   (0x20, lo32 l.retired), (0x24, hi32 l.retired), (0x28, lo32 cycles), (0x2C, hi32 cycles), (0x34, l.faults),
   (0x38, l.loadErr), (0x3C, l.cmdIndex)]

/-- The completion word of a launch (R41). -/
def statusWord (status : BitVec 8) : Word := BitVec.ofNat 32 (2 ^ 31 + status.toNat)

/-- The filling store to DONEADDR asked for, with release at DSCOPE (R41). -/
def State.postDone (s : State) (inst : Nat) : State :=
  match s.launch? inst with
  | none => s
  | some l =>
    let s := s.setLaunch inst { l with stage := 3, doneReply := none }
    s.post (mkReq (.control inst) l.record.space (.glob l.record.doneAddr) (.store .f [statusWord l.status])
      (l.scope (scopeOf l.record.dscope.toNat)) inst (0, 0) l.die)

/-! ### Region-fatal errors and kills (R230) -/

/-- The trap record of a region-fatal ending (R230 step 4): WORDS, RCW, WHERE, BLOCK, OPINDEX and UNIT zero. -/
def fatalWords (l : Launch) (cycle : DWord) (cause : Cause) (detail addr : DWord) : List Word :=
  List.replicate 18 0 ++ [(cause.code).zeroExtend 32, 0, lo32 addr, hi32 addr, lo32 detail, hi32 detail,
    l.record.space ++ (0 : BitVec 20), 0, lo32 cycle, hi32 cycle, 0, 0, 0, 0]

/-- The trap record of a region-fatal ending written and counted, or counted as lost where the ring is full or has failed (R230 step 4).
A TRAPCONS that cannot be read counts as 0: DESIGN CHOICE, log 97. -/
def State.fatalTrap (s : State) (inst : Nat) (l : Launch) (cause : Cause) (detail addr : DWord) : Now Unit :=
  let space := l.record.space
  let first := fun (l : Launch) => if l.firstCause = 0 then cause.code else l.firstCause
  let lost := fun (s : State) => s.modLaunch inst fun l => { l with trapLost := l.trapLost + 1, firstCause := first l }
  let store := fun (s : State) (cons : Word) =>
    if l.traps - cons == l.record.trapEntries.zeroExtend 32 then Now.ok (lost s) ()
    else
      let entry := l.record.trapAddr.toNat + l.traps.toNat % l.record.trapEntries.toNat * 128
      match s.storeRegion space (placed entry (fatalWords l (s.cycles l) cause detail addr)) with
      | .ok s _ => .ok (s.modLaunch inst fun l => { l with traps := l.traps + 1, firstCause := first l }) ()
      | .wait s => .wait s
      | other => .ok (lost other.state) ()
  if cause == .deviceErr && addr == l.record.trapAddr then .ok (lost s) ()
  else
    match s.readRegion space (l.record.statusAddr.toNat + 0x30) 1 with
    | .ok s cons => store s (cons.getD 0 0)
    | .wait s => .wait s
    | other => store other.state 0

/-- A region-fatal error or a kill has ended a launch: its one trap record has been written, or counted as lost (R230 step 4). -/
def Launch.fatallyEnded (l : Launch) : Bool := l.status == 0x09 || l.status == 0x0A

/-- The status block written and the completion store asked for. A fault or an uncorrectable error on the block is region-fatal: the trap
record of a launch that has run names the block, unless its ending has given one, and the status is DEVICEERR (R230). -/
def State.finish (s : State) (inst : Nat) : State :=
  match s.launch? inst with
  | none => s
  | some l =>
    let base := l.record.statusAddr.toNat
    match s.storeRegion l.record.space ((l.statusBlock (s.cycles l)).map fun p => (base + p.1, p.2)) with
    | .ok s _ => s.postDone inst
    | .wait s => s
    | other =>
      match (if l.committed && !l.fatallyEnded then other.state.fatalTrap inst l .deviceErr 2 l.record.statusAddr else .ok other.state ()) with
      | .wait s => s
      | done => (done.state.modLaunch inst fun l => { l with status := 0x0A }).postDone inst

/-- A launch ended without having run (R35, R355, R372, R237): its status, and the failing command. Its pages are freed when its
completion word is written; every other field of its status block is 0. -/
def State.endUnrun (s : State) (inst : Nat) (status : BitVec 8) (cmdIndex loadErr : Word) : State :=
  (s.modLaunch inst fun l =>
    { l.emptied with phase := .completing, stage := 2, status := status, cmdIndex := cmdIndex, loadErr := loadErr, loader := none,
                     wanted := false, held := none, moving := none,
                     committed := false, retired := 0, drops := 0, faults := 0, preempts := 0, traps := 0, trapLost := 0,
                     firstCause := 0, underRead := 0, underAddr := 0, tiles := [], units := [], matrix := [], routes := [] }).finish inst

/-- The end of a region without a drain (R230 steps 1 and 2): its records removed and counted, its side log discarded. The engines (step 3),
the trap record (step 4) and steps 1 and 3 to 8 of R160 follow at REGION_END. -/
def State.endFatal (s : State) (inst : Nat) (status : BitVec 8) (cause : Cause) (detail addr : DWord) : State :=
  match s.launch? inst with
  | none => s
  | some l =>
    let count := l.fabricRecords + l.kennelRecords.length
    let s := ((s.freeContext inst).removeReqs (Req.ofRegion inst)).dropSideLog inst
    let s := s.modLaunch inst fun l =>
      { l.emptied with drops := l.drops + BitVec.ofNat 64 count, phase := .completing, stage := 1, status := status, fatal := none,
                       lastTrap := some (cause, detail, addr), loader := none, saved := none, wanted := false, held := none, moving := none }
    let s := s.kennelFree inst fun e => e.kind != .range
    { s with dies := s.dies.map fun (d : Die) => { d with kelpie := d.kelpie.filter fun j => !(j.inst == inst && j.desc.isEmpty) } }

/-- A request of an engine that waits at a home, or for its page (R230 step 3). -/
def State.engineWaits (s : State) (p : Party) : Bool :=
  s.waitingReqs.any (·.party == p) || s.dies.toList.any fun d => (d.stalled ++ d.logQ).any (·.req.party == p)

/-- The engine operations of a region that still wait end with KILLED (R230 step 3). -/
def State.killEngines (s : State) (inst : Nat) : State :=
  let s := s.copies.foldl (fun (s : State) e =>
    match s.copyHead e.1 with
    | some (l, j) =>
      if j.inst != inst || decide (4 ≤ j.phase) then s
      else if s.engineWaits (.copy e.1) || !j.mayRun l || (descSSpace j.desc == 1 && !l.hasPages) || !j.started && descDSpace j.desc == 3 then
        (s.removeReqs fun r => r.party == .copy e.1).setCopy e.1 (some { j.stop 5 with started := true })
      else s
    | none => s) s
  (List.range 4).foldl (fun (s : State) d => match (s.die d).kelpie with
    | j :: _ => if j.inst == inst && j.replay && j.stall.isSome && !j.ending then s.kelpieStop d j 5 else s
    | [] => s) s

/-- A region's engine operations that have not written their completion word (R160 step 1). -/
def State.enginesOf (s : State) (inst : Nat) : Bool :=
  s.copies.any (fun e => e.2.any fun (j : CopyJob) => j.inst == inst) ||
  s.dies.toList.any (fun d => d.kelpie.any fun (j : KelpieJob) => j.inst == inst) || s.retires.any (·.inst == inst)

/-- Something remains to be done for an access that has its replies: a fetched line to be put to use, a trap to be brought to the region
controller, a sink's store to be counted, a launch's child to be queued. -/
def Access.due (a : Access) : Bool :=
  let traps := match a.op with
    | .pref _ => false
    | _ => a.trap?.isSome
  let stores := match a.op with
    | .sink _ _ => true
    | .launch _ => !a.queued
    | _ => false
  !a.trapped && (a.lanes.any (·.line?.isSome) || traps || stores)

/-- Every access of a region has been acknowledged, and what its acknowledgement brings about is done (R160 step 1). -/
def Launch.acknowledged (l : Launch) : Bool :=
  l.units.all fun e => (e.2.flight.all fun a => a.answered && !a.due) && e.2.resume.all fun a => !a.due

/-! ### REGION_END (R160) -/

/-- A region may begin to end: its sinks are complete, or a span under halt found nothing left to remove; no record waits, no trap is
unreported, and every access, engine operation and logged write has ended (R160, R175 step 5, R232). -/
def State.mayEnd (s : State) (inst : Nat) (l : Launch) : Bool :=
  l.phase == .running && (l.complete || l.halting && l.spent) && !s.regionWaits inst l && l.trapQ.isEmpty && l.cfgs.isEmpty && l.acknowledged &&
  !s.enginesOf inst && (s.sideLogOf inst).isEmpty

/-- What the acknowledged accesses of records that have not left yet have written: the cache ways of their cells see it (R110), and so do
the dirty ranges of their sources (R351). -/
def State.storedAll (s : State) (inst : Nat) (l : Launch) : State :=
  l.units.foldl (fun (s : State) e =>
    let x := e.1 / 16 % 128
    let y := e.1 / 16 / 128
    (e.2.flight ++ e.2.resume).foldl (fun (s : State) a =>
      (s.storedWays inst x y a).modUnit inst x y (e.1 % 16) fun u => { u with src := u.src.wrote a }) s) s

/-- Steps 2 and 3 of R160: the records still in the fabric are discarded and counted, and the counted granules that are to be written back
counted. -/
def State.beginEnd (s : State) (inst : Nat) (l : Launch) : State :=
  let n := l.fabricRecords
  let s := ((s.storedAll inst l).freeContext inst).modLaunch inst fun l =>
    { l.emptied with drops := l.drops + BitVec.ofNat 64 n, phase := .completing, stage := 2,
                     status := if l.halting then 0x08 else 0, wanted := false, held := none, moving := none }
  s.underRead inst l

/-- UNDERREAD is reported where no other ending applies (R40). -/
def Launch.withStatus (l : Launch) : Launch := if l.status = 0 && l.underRead ≠ 0 then { l with status := 0x0B } else l

/-- The write-backs of step 3 and steps 4 to 7 of R160. -/
def State.reportEnd (s : State) (inst : Nat) (l : Launch) : State :=
  match s.flushCounted inst (s.countedOf inst) with
  | (false, s) => s
  | (true, s) =>
    match s.flushRegionWays inst (l.tiles.map (·.1)) with
    | (false, s) => s
    | (true, s) => ((s.depositAll inst 0 l).modLaunch inst Launch.withStatus).finish inst

/-- The trap record of a region-fatal ending or a kill, once its engine operations have ended (R230 steps 3 and 4). -/
def State.reportFatal (s : State) (inst : Nat) : Now Unit :=
  match s.launch? inst with
  | none => .ok s ()
  | some l =>
    match l.lastTrap with
    | none => .ok s ()
    | some (c, d, a) => (s.fatalTrap inst l c d a).bind fun s _ => .ok (s.modLaunch inst fun l => { l with lastTrap := none }) ()

/-- A region-fatal error that is found while the region ends (R230): until the status block is written, the status is DEVICEERR and the
region's one trap record names the structure, unless it has been given already; where a kill's record is still to be written, it is this. -/
def State.completeFatal (s : State) (inst : Nat) (l : Launch) (a : DWord) : State :=
  let given := l.stage = 3 ∨ l.fatallyEnded = true
  match (if given then .ok s () else s.fatalTrap inst l .deviceErr 2 a) with
  | .wait s => s
  | done => done.state.modLaunch inst fun l =>
      { l with fatal := none, status := if l.stage = 3 then l.status else 0x0A,
               lastTrap := l.lastTrap.map fun t => if t.1 == .deviceErr then t else (.deviceErr, 2, a) }

/-- A launch that ended at its acceptance: it has no instance number of its own, and its two reports go together (R355, R358). -/
def unaccepted (inst : Nat) : Bool := decide (2 ^ 32 ≤ inst)

/-- REGION_END (R160, R175, R230): a region whose work is done, or that a fatal error or a kill has ended, goes on to its next steps:
write-backs, dirty ranges, the status block, the completion store, and the freeing of its pages. -/
def execRegionEnd (inst : Nat) (s : State) : Host.Outcome State Fault Refusal :=
  match s.launch? inst with
  | none => .next s
  | some l =>
    match l.fatal with
    | some a =>
      if l.phase == .completing then
        .next (s.completeFatal inst l a)
      else .next (s.endFatal inst 0x0A .deviceErr 2 a)
    | none =>
      if l.phase == .completing then
        if l.stage = 1 then
          let s := s.killEngines inst
          if s.enginesOf inst then .next s
          else
            match s.reportFatal inst with
            | .wait s => .next s
            | done => .next ((done.state.underRead inst l).modLaunch inst fun l => { l with stage := 2 })
        else if l.stage = 2 then .next (s.reportEnd inst l)
        else
          match l.doneReply with
          | none => .next s
          | some _ =>
            let s := (if unaccepted inst then s.reportLaunch inst 1 0 else s).reportLaunch inst 6 l.status.toNat
            let rest := SMap.erase s.launches inst
            .next { s with launches := rest, killing := (if s.killing = some inst then none else s.killing),
                           warm := s.warm && !rest.isEmpty }
      else if s.mayEnd inst l then .next (s.beginEnd inst l)
      else .next s

/-- HALT_IDLE_SPAN (R175, R229): after 256 cycles without movement under halt, reorder banks advance; with none to advance, the
records that wait are removed and the side log is discarded; with nothing to remove, the region ends at once (R175 step 5). -/
def execHaltIdleSpan (inst : Nat) (s : State) : Host.Outcome State Fault Refusal :=
  match s.launch? inst with
  | none => .next s
  | some l =>
    if !l.halting || l.phase != .running || l.fatal.isSome || decide (s.now - l.lastMove < 256) then .next s
    else if !l.advancing.isEmpty then .next (s.advanceBanks inst l.advancing)
    else
      let logs := s.sideLogOf inst
      if !s.regionWaits inst l && logs.isEmpty then .next (s.modLaunch inst fun l => { l with spent := true })
      else
        let s := (s.removeWaiting inst l).dropSideLog inst
        .next (logs.foldl (fun (s : State) e => s.raise inst (sideLogTrap e)) s)

end Sys2Proof.Machine
end

