-- ==== Sys2Proof/Machine/Numbering.lean ====
section
/-! DEFINITION. Machine/Numbering.lean: the routes that route commands give (R18, R19), and the numbering of operations by block
and index (R152). -/

namespace Sys2Proof.Machine

/-! ### Routes (R18, R19) -/

/-- The page-local cells that hold a matrix tile (R8). -/
def tileCell (x y : Nat) : Bool := localCell x y == 11 || localCell x y == 43

/-- A port of a unit exists on a network, as an output or as an input (R19). -/
def portOk (x y unit port : Nat) (net : BitVec 2) (output : Bool) : Bool :=
  if net = 3 then false
  else if unit ≤ 7 then decide (port ≤ 1) && (output || port == 1 || net != 2)
  else if unit ≤ 10 then decide (port ≤ 3) && net.toNat == unit - 8
  else if unit = 12 && tileCell x y then
    if output then port == 0 && net == 1 else decide (port ≤ 3) && (net == 1 || (net == 0 && port == 0))
  else false

/-- The six turns of a route head, first to last (R18). -/
def headTurns (t : BitVec 12) : List (BitVec 2) := (List.range 6).map fun k => t.extractLsb' (10 - 2 * k) 2
/-- The thirteen turns of a continuation. -/
def moreTurns (t : BitVec 26) : List (BitVec 2) := (List.range 13).map fun k => t.extractLsb' (24 - 2 * k) 2

/-- The route that a head and its continuations give, from a cell of a region; none where R18 or R19 refuses it. -/
def Launch.routeOf (l : Launch) (x y unit port : Nat) (net heading : BitVec 2) (turns : BitVec 12) (more : List (BitVec 26)) :
    Option Route :=
  let ts := headTurns turns ++ more.flatMap moreTurns
  match pathOf l.cellsX l.cellsY x y heading ts with
  | none => none
  | some p =>
    let (dx, dy) := p.cells.getLastD (x, y)
    let unit' := p.dest / 4
    let port' := p.dest % 4
    let inLast := decide (p.rest.length < (if more.isEmpty then 6 else 13))
    if !portOk x y unit port net true || !portOk dx dy unit' port' net false || !inLast || p.rest.any (· != 0) then none
    else
      let latency := p.length + seamsOf (fun c => l.dieOf c.1 c.2) p.cells
      some { origin := { x := x, y := y, unit := unit, port := port },
             dest := { x := dx, y := dy, unit := unit', port := if unit' = 12 && net = 0 then 4 else port' },
             net := net, capacity := routeCapacity net latency, heading := heading, turns := ts }

/-- A route regenerated around what is retired, without a change of its origin or destination (R21): where nothing is retired it is the
route itself; none where it cannot be regenerated. -/
def Launch.regenerate (l : Launch) (links units : List Nat) (rt : Route) : Option Route :=
  if links.isEmpty && units.isEmpty then some rt
  else
    match Config.regenerated links units (l.absY rt.origin.y * 128 + l.absX rt.origin.x) rt.heading rt.turns with
    | none => none
    | some (heading, turns) =>
      match pathOf l.cellsX l.cellsY rt.origin.x rt.origin.y heading turns with
      | none => none
      | some p =>
        if p.cells.getLast? == some (rt.dest.x, rt.dest.y) && p.dest == rt.dest.unit * 4 + rt.dest.port % 4 then
          some { rt with heading := heading, turns := turns,
                         capacity := routeCapacity rt.net (p.length + seamsOf (fun c => l.dieOf c.1 c.2) p.cells) }
        else none

/-- The cells of a route. -/
def Route.cells (l : Launch) (rt : Route) : List (Nat × Nat) :=
  match pathOf l.cellsX l.cellsY rt.origin.x rt.origin.y rt.heading rt.turns with
  | some p => p.cells
  | none => []

/-! ### Operations of units -/

/-- The opcode of a unit of a region. -/
def Launch.opcodeAt (l : Launch) (p : Port) : BitVec 8 := (l.unit p.x p.y p.unit).opcode

/-- An input port of an access element that holds sink. -/
def Launch.sinkPort (l : Launch) (p : Port) : Bool := (p.unit == 6 || p.unit == 7) && l.opcodeAt p == 0x99

/-- A unit that holds a source: cnt or src (R152). -/
def UnitState.isSource (u : UnitState) : Bool := u.opcode == 0x1E || u.opcode == 0x98

/-! ### Numbering (R152) -/

/-- The block and index that a unit reports. -/
abbrev OpNumber := BitVec 8 × Nat

/-- Places reached from a place of the walk, in the order of its routes. -/
def Launch.walkNext (l : Launch) (n : RNode) : List RNode :=
  let (x, y, unit, slot) := n
  let rs :=
    if 8 ≤ unit && decide (unit ≤ 10) then l.routesOf x y unit (2 * slot) ++ l.routesOf x y unit (2 * slot + 1)
    else
      let op := (l.unit x y unit).opcode
      if unit ≤ 7 && (op == 0x09 || op == 0x0C) then []
      else if unit ≤ 7 && op == 0x0A then l.routesOf x y unit 0
      else l.routesOf x y unit 0 ++ l.routesOf x y unit 1
  (rs.filter fun r => !l.sinkPort r.dest).map fun r => r.dest.node

/-- The walk of a block, breadth-first: the places still to visit, those seen, the numbers given, and the next index. A router's slot counts
as a place of its own, so that what lies behind it is reached a level later, and the walk does not go on past a cnt in bound mode that it
reaches, which is a source. DESIGN CHOICE: log 111. -/
def Launch.walkBlock (l : Launch) (blk : BitVec 8) :
    Nat → List RNode → List RNode → SMap OpNumber → Nat → SMap OpNumber × Nat
  | 0, _, _, nums, i => (nums, i)
  | _ + 1, [], _, nums, i => (nums, i)
  | fuel + 1, n :: rest, seen, nums, i =>
    if seen.contains n then Launch.walkBlock l blk fuel rest seen nums i
    else
      let (x, y, unit, _) := n
      if 8 ≤ unit then Launch.walkBlock l blk fuel (rest ++ l.walkNext n) (seen ++ [n]) nums i
      else if (SMap.get? nums (unitKey x y unit)).isSome || (l.unit x y unit).isSource then
        Launch.walkBlock l blk fuel rest (seen ++ [n]) nums i
      else
        Launch.walkBlock l blk fuel (rest ++ l.walkNext n) (seen ++ [n]) (SMap.insert nums (unitKey x y unit) (blk, i)) (i + 1)

/-- Entries of blocks: the places that emits, forks, sources and the handler bring records to (R152, R227). -/
def Launch.entries (l : Launch) : List (BitVec 8 × RNode) :=
  let handler : List (BitVec 8 × RNode) := if l.record.policy = 2 then [(l.record.hblk, (0, 0, 5, 0))] else []
  handler ++ l.units.flatMap fun e =>
    let unit := e.1 % 16
    let x := e.1 / 16 % 128
    let y := e.1 / 16 / 128
    let u := e.2
    if 8 ≤ unit then []
    else if u.opcode = 0x09 then
      (l.routesOf x y unit 0).zipIdx.map fun p => ((u.k 0).extractLsb' (8 * p.2) 8, p.1.dest.node)
    else if u.opcode = 0x0A then (l.routesOf x y unit 1).map fun r => (u.opBits.extractLsb' 16 8, r.dest.node)
    else if u.isSource then (l.routesOf x y unit 0).map fun r => (u.firstBlock, r.dest.node)
    else []

/-- The numbers of a region's operations, and the blocks whose walks number more than 128. -/
def Launch.numbers (l : Launch) : SMap OpNumber × List (BitVec 8) :=
  let es := l.entries
  let fuel := es.length + l.routes.length + 1
  (List.range 256).foldl (fun (acc : SMap OpNumber × List (BitVec 8)) b =>
    let blk := BitVec.ofNat 8 b
    let starts := (es.filter (·.1 == blk)).map (·.2)
    if starts.isEmpty then acc
    else
      let (nums, n) := l.walkBlock blk fuel starts [] acc.1 0
      (nums, if 128 < n then acc.2 ++ [blk] else acc.2)) ([], [])

/-- The number a unit reports: a source its first block and 127, an operation that no walk reaches block 0xFF and 127. -/
def numberOf (nums : SMap OpNumber) (key : Nat) (u : UnitState) : OpNumber :=
  if u.isSource then (u.firstBlock, 127) else (SMap.get? nums key).getD (0xFF, 127)

/-- A region whose element operations report their numbers. -/
def Launch.renumbered (l : Launch) : Launch :=
  let nums := l.numbers.1
  ((l.units.map (·.1)) ++ nums.map (·.1)).eraseDups.foldl (fun (m : Launch) key =>
    if 8 ≤ key % 16 then m
    else
      let u := SMap.getD m.units key UnitState.reset
      let n := numberOf nums key u
      { m with units := SMap.put m.units UnitState.reset key { u with block := n.1, opIndex := BitVec.ofNat 7 n.2 } }) l

end Sys2Proof.Machine
end

