-- ==== Sys2Proof/Machine/Checks.lean ====
section
/-! DEFINITION. Machine/Checks.lean: the checks that the loader makes of a group at its commit (R8, R12 to R20, R27 to R31, R54,
R65 to R67, R79, R84, R87, R88, R129, R131, R152, R155, R157, R160, R170, R227, R307, R355). -/

namespace Sys2Proof.Machine

/-! ### Failures (R40, R67) -/

/-- A failure of a load: its status, the index of the command that contributes it, and LOADERR. -/
abbrev LoadFail := Nat × Nat × Word

/-- The rank of a status in the table of R40. -/
def statusRank (status : Nat) : Nat := [4, 5, 6, 7, 2, 1, 3, 10, 9, 8, 11, 0].idxOf status

/-- The failure that is reported: the highest-ranked status, and of it the lowest command index (R67). -/
def worstFail : List LoadFail → Option LoadFail
  | [] => none
  | e :: es =>
    match worstFail es with
    | none => some e
    | some b =>
      if statusRank b.1 < statusRank e.1 || (b.1 == e.1 && decide (b.2.1 < e.2.1)) then some b else some e

/-- LOADERR of a page, cell, unit and field (R39). -/
def loadErrOf (x y unit fld : Nat) : Word :=
  BitVec.ofNat 32 ((y / 8 * 16 + x / 8) * 2 ^ 24 + localCell x y * 2 ^ 16 + unit * 2 ^ 12 + fld * 2 ^ 8)

/-- BADOP of a command that is no field write. -/
def badCommand (index : Nat) : LoadFail := (1, index, 0)

/-! ### Staged commands -/

/-- The region cell that a command of a group names. -/
def Staged.place (g : Staged) (cell : BitVec 6) : Nat × Nat := (g.px * 8 + cell.toNat % 8, g.py * 8 + cell.toNat / 8)

/-- The unit and field that a staged field write names: x, y, unit, field, value. -/
def Staged.write? (g : Staged) : Option (Nat × Nat × Nat × Nat × BitVec 16) :=
  match g.cmd with
  | .fieldWrite cell unit fld v => let (x, y) := g.place cell; some (x, y, unit.toNat, fld.toNat, v)
  | _ => none

/-- A configuration command may name the unit at the cell (R8, R376). -/
def State.unitExists (s : State) (x y unit : Nat) : Bool := unit ≤ 11 || (unit == 12 && tileCell x y && s.feature 3)

/-- A field write that names a unit it may not (R8, R15). -/
def State.writeFail (s : State) (g : Staged) : Option LoadFail :=
  match g.write? with
  | none => none
  | some (x, y, unit, fld, _) =>
    if unit = 13 && localCell x y == 0 then some (2, g.index, loadErrOf x y unit fld)
    else if !s.unitExists x y unit then some (1, g.index, loadErrOf x y unit fld)
    else none

/-- The field writes of a group that name a unit of theirs. -/
def State.writes (s : State) (gs : List Staged) : List (Nat × Nat × Nat × Nat × Nat × BitVec 16) :=
  (gs.filter fun g => (s.writeFail g).isNone).filterMap fun g => g.write?.map fun w => (g.index, w)

/-- Route heads of a group with their continuations. -/
def routeCommands : List Staged → List (Staged × List (BitVec 26))
  | [] => []
  | g :: gs =>
    match g.cmd with
    | .routeHead _ _ _ _ _ _ =>
      let more := (gs.takeWhile fun (h : Staged) => match h.cmd with | .routeHead _ _ _ _ _ _ => false | _ => true).filterMap
        fun (h : Staged) => match h.cmd with | .routeContinuation t => some t | _ => none
      (g, more) :: routeCommands gs
    | _ => routeCommands gs

/-- The route that a head of a group gives, between units that exist (R8, R376), as the loader regenerates it (R21). -/
def State.stagedRoute (s : State) (l : Launch) (g : Staged) (more : List (BitVec 26)) : Option Route :=
  match g.cmd with
  | .routeHead cell unit port net heading turns =>
    let (x, y) := g.place cell
    match l.routeOf x y unit.toNat port.toNat net heading turns more with
    | some r =>
      if s.unitExists r.origin.x r.origin.y r.origin.unit && s.unitExists r.dest.x r.dest.y r.dest.unit then
        l.regenerate s.retiredLinks s.retired r
      else none
    | none => none
  | _ => none

/-- LOADERR of a unit that a route names and that the part does not have there (R8); 0 of any other. -/
def State.unitErr (s : State) (x y unit : Nat) : Word :=
  if s.unitExists x y unit || (unit == 13 && localCell x y == 0) then 0 else loadErrOf x y unit 0

/-- LOADERR of a head that gives no route: the unit that it, or the destination in its turns, names where R8 refuses that unit; field 0.
DEDUCED: log 26. -/
def State.headUnitErr (s : State) (l : Launch) (g : Staged) (more : List (BitVec 26)) : Word :=
  match g.cmd with
  | .routeHead cell unit _ _ heading turns =>
    let (x, y) := g.place cell
    let own := s.unitErr x y unit.toNat
    if own != 0 then own
    else
      match pathOf l.cellsX l.cellsY x y heading (headTurns turns ++ more.flatMap moreTurns) with
      | some p => let (dx, dy) := p.cells.getLastD (x, y); s.unitErr dx dy (p.dest / 4)
      | none => 0
  | _ => 0

/-- The routes of a group with the indices of their heads. -/
def State.stagedRoutes (s : State) (l : Launch) (gs : List Staged) : List (Nat × Route) :=
  (routeCommands gs).filterMap fun p => (s.stagedRoute l p.1 p.2).map fun r => (p.1.index, r)

/-! ### The configuration a group would leave -/

/-- A unit with a field written. -/
def UnitState.setFld (u : UnitState) (n : Nat) (v : BitVec 16) : UnitState := { u with fields := u.fields.setIfInBounds n v }

/-- A region with the fields of a group written (R14). -/
def Launch.withWrites (l : Launch) (ws : List (Nat × Nat × Nat × Nat × Nat × BitVec 16)) : Launch :=
  ws.foldl (fun (l : Launch) w =>
    let (_, x, y, unit, fld, v) := w
    l.setUnit x y unit ((l.unit x y unit).setFld fld v)) l

/-- A region with the routes of a group, which replace every route their origin ports had (R14). -/
def Launch.withRoutes (l : Launch) (rs : List (Nat × Route)) : Launch :=
  let origins := rs.map fun r => r.2.origin
  { l with routes := (l.routes.filter fun r => !origins.contains r.origin) ++ rs.map (·.2) }

/-! ### Blame (R67) -/

/-- What the report of a failure needs: the commands that last wrote each field of the stream's, the group's field writes, its
routes, and the index of its commit. -/
structure Blame where
  writers : SMap Nat
  writes : List (Nat × Nat × Nat × Nat × Nat × BitVec 16)
  routes : List (Nat × Route)
  commit : Nat
  deriving DecidableEq, Repr

/-- The failure of a field: the command that last wrote it; where no command of the stream did, the group's last write to the unit. -/
def Blame.field (b : Blame) (status x y unit fld : Nat) : LoadFail :=
  match SMap.get? b.writers (unitKey x y unit * 16 + fld) with
  | some i => (status, i, loadErrOf x y unit fld)
  | none =>
    match (b.writes.filter fun w => w.2.1 == x && w.2.2.1 == y && w.2.2.2.1 == unit).getLast? with
    | some w => (status, w.1, loadErrOf x y unit w.2.2.2.2.1)
    | none => (status, b.commit, 0)

/-- The failure of the routes of a port: the group's first head for it, or its commit. -/
def Blame.route (b : Blame) (p : Port) : LoadFail :=
  match b.routes.find? (·.2.origin == p) with
  | some r => badCommand r.1
  | none => badCommand b.commit

/-! ### Field values (R15, R27 to R31) -/

/-- A field's value is not in its range. -/
def State.fieldBad (s : State) (unit fld : Nat) (u : UnitState) : Bool :=
  let v := (u.fld fld).toNat
  if unit ≤ 7 || unit = 12 then
    if fld = 3 then decide (8 ≤ v)
    else if unit = 12 && fld = 12 then decide (4 ≤ v)
    else decide ((if unit = 12 then 13 else 15) ≤ fld) && v != 0
  else if unit ≤ 10 then
    let kind := (u.fld (fld % 2)).toNat / 2 ^ 13
    if 4 ≤ fld then v != 0
    else if fld < 2 then v % 2 ^ 13 != 0 || decide (4 ≤ kind)
    else if kind = 1 then decide (2 ≤ v)
    else if kind = 3 then decide (v < 3) || decide (255 < v)
    else v != 0
  else
    let mode := v / 2 ^ 13
    decide (5 ≤ mode) || (mode == 4 && !s.feature 6) || v / 128 % 32 != 0 || (mode != 4 && v % 128 != 0)

/-- The fields of a written unit whose values are out of range; a slot's parameter is checked with its kind. -/
def State.fieldFails (s : State) (l : Launch) (b : Blame) : List LoadFail :=
  (b.writes.flatMap fun w =>
    let (_, x, y, unit, fld, _) := w
    let u := l.unit x y unit
    let fs := if 8 ≤ unit && decide (unit ≤ 10) && decide (fld < 2) then [fld, fld + 2] else [fld]
    (fs.filter fun f => s.fieldBad unit f u).map fun f => b.field 1 x y unit f).eraseDups

/-! ### Operations (R54, R65, R66) -/

/-- A unit may hold an opcode (R54, R58 to R63). -/
def unitHolds (op : BitVec 8) (x y unit : Nat) : Bool :=
  let c := op.toNat
  let access := unit == 6 || unit == 7
  if c = 0x17 || c = 0x1F || (0x80 ≤ c && decide (c ≤ 0x9F)) || (0xB0 ≤ c && decide (c ≤ 0xB7)) then access
  else if c = 0x1C || c = 0x1D || c = 0x1E || (0x40 ≤ c && decide (c ≤ 0x6A)) then decide (unit ≤ 5)
  else if 0x72 ≤ c && c ≤ 0x74 then unit == 12
  else if 0x70 ≤ c && c ≤ 0x77 then access && tileCell x y
  else decide (unit ≤ 7)

/-- The feature that enables an opcode (R376). -/
def featureOf (op : BitVec 8) : Nat :=
  let c := op.toNat
  if 0x40 ≤ c && c ≤ 0x54 then 1
  else if 0x60 ≤ c && c ≤ 0x6A then 2
  else if 0x70 ≤ c && c ≤ 0x77 then 3
  else if c = 0x93 then 4
  else if 0x9D ≤ c && c ≤ 0x9F then 5
  else if 0xB0 ≤ c && c ≤ 0xB7 then 8
  else 0

/-- A .n form: ldv or stv with sync code 6 (R119, R118). -/
def UnitState.counted (u : UnitState) : Bool :=
  (u.opcode == 0x82 || u.opcode == 0x83) && (u.opBits.extractLsb' 15 3).toNat == 6

/-- The most significant bit of an operation that offends, if any: by the encoding, by the unit, or by a feature (R376: a .n form by
COUNTED alone). DEDUCED: log 21. -/
def State.opBadBit (s : State) (x y unit : Nat) (u : UnitState) : Option Nat :=
  let op := u.opcode
  let coded : List Nat := match decodeOp u.opBits with
    | .error bit => [bit]
    | .ok _ => []
  let memory := (0x80 ≤ op.toNat && decide (op.toNat ≤ 0x9F) && op != 0x95) || (0xB0 ≤ op.toNat && decide (op.toNat ≤ 0xB7))
  let absent := (if memory && u.opBits.extractLsb' 18 2 == 3 && !s.feature 7 then [19] else []) ++
    (if u.counted && !s.feature 4 then [17] else [])
  let high := if unitHolds op x y unit && (u.counted || s.feature (featureOf op)) then [] else [40 + op.toNat.log2]
  (coded ++ absent ++ high).max?

/-- Constants with bits that must be zero: the field of the most significant of them. -/
def badConstant (j : Nat) (bits : Word) : List Nat :=
  if bits = 0 then [] else [4 + 2 * j + (if 2 ^ 16 ≤ bits.toNat then 1 else 0)]

/-- A constant that names a base register where its flag is set (R87, R129, R131). -/
def flaggedConstant (u : UnitState) (flag j : Nat) : List Nat :=
  if (u.k 3).getLsbD flag then badConstant j (u.k j &&& 0xFFFFFFF0) else []

/-- The constants of an operation that are out of range, as fields (R80, R87, R129, R131). -/
def constantFails (u : UnitState) : List Nat :=
  let op := u.opcode
  if op = 0x07 then badConstant 0 (u.k 0 &&& 0xFFFFFF00)
  else if op = 0x1E then
    badConstant 3 (u.k 3 &&& 0xFFFFF800) ++ flaggedConstant u 8 0 ++ flaggedConstant u 9 1 ++ flaggedConstant u 10 2
  else if op = 0x98 then badConstant 3 (u.k 3 &&& 0xFFFFFC00) ++ flaggedConstant u 8 0 ++ flaggedConstant u 9 1
  else if op = 0x99 then
    let slots := (u.k 0).toNat
    badConstant 3 (u.k 3 &&& 0xFFFFFEFF) ++
    (if (u.k 3).getLsbD 8 then flaggedConstant u 8 0
     else if 1 ≤ slots && slots ≤ 2 ^ 20 then [] else [if 2 ^ 16 ≤ slots then 5 else 4]) ++
    badConstant 1 (u.k 1 &&& 0xFFFF0000) ++ (if u.fld 6 = 0 then [6] else []) ++ badConstant 2 (u.k 2)
  else []

/-- The units that a group writes. -/
def Blame.units (b : Blame) : List (Nat × Nat × Nat) := (b.writes.map fun w => (w.2.1, w.2.2.1, w.2.2.2.1)).eraseDups

/-- The bits of an operation that offend against its unit's routes: those of emit's mask that have no route (R79), the opcode of a retire
that does not end at a sink (R84), of a source that a route enters (R88, R129), and of a handler entry that takes no record (R227). -/
def Launch.routeBits (l : Launch) (x y unit : Nat) (u : UnitState) : List Nat :=
  let out := l.routesOf x y unit 0
  let into := fun (p : Nat) => (l.routeInto x y unit p).isSome
  let op := u.opcode
  let mask := (u.opBits.extractLsb' 12 4).toNat
  let handler := x == 0 && y == 0 && unit == 5 && l.record.policy == 2 && (into 0 || op == 0x1A || op == 0x1E)
  (if op = 0x09 && decide (mask / 2 ^ out.length ≠ 0) then [12 + mask.log2] else []) ++
  (if (op = 0x0C && out.any fun r => !l.sinkPort r.dest) || (op = 0x1E && into 0) || (op = 0x98 && (into 0 || into 1)) || handler
   then [40 + op.toNat.log2] else [])

/-- The failures of the operation of a unit (R54, R65, R66, R79, R84, R88, R129, R227): what its encoding, its unit and its features deny
is checked where the group writes the unit; of all its offending bits the most significant is blamed (R67). -/
def State.opFails (s : State) (l : Launch) (b : Blame) (x y unit : Nat) : List LoadFail :=
  let u := l.unit x y unit
  let written := b.units.contains (x, y, unit)
  if 7 < unit && (unit != 12 || u.opBits == 0) then []
  else
    let system := 0xB0 ≤ u.opcode.toNat && u.opcode.toNat ≤ 0xB7
    let coded := if written then (s.opBadBit x y unit u).toList else []
    let routed := if unit ≤ 7 then l.routeBits x y unit u else []
    (if written && system && !l.record.system then [b.field 2 x y unit 2] else []) ++
    (if written then (constantFails u).map fun f => b.field 1 x y unit f else []) ++
    (match (coded ++ routed).max? with
     | some bit => [b.field 1 x y unit (bit / 16)]
     | none => [])

/-! ### Routes (R18 to R20) and the operations they meet -/

/-- Edges that a region's routes cross, with the network and the origin port of each. -/
def Launch.edges (l : Launch) : List (BitVec 2 × (Nat × Nat) × (Nat × Nat) × Port) :=
  (l.routes.flatMap fun r =>
    let cs := r.cells l
    (cs.zip (cs.drop 1)).map fun e => (r.net, e.1, e.2, r.origin)).eraseDups

/-- Edges that would need a third channel (R20). -/
def Launch.crowded (l : Launch) : List (BitVec 2 × (Nat × Nat) × (Nat × Nat) × Port) :=
  let es := l.edges
  es.filter fun e => decide (2 < (es.filter fun f => f.1 == e.1 && f.2.1 == e.2.1 && f.2.2.1 == e.2.2.1).length)

/-- A control route ends at in1 of an element that holds zip, or at unit 10 (R19). -/
def Launch.controlOk (l : Launch) (r : Route) : Bool :=
  r.net != 2 || r.dest.unit == 10 || (r.dest.port == 1 && decide (r.dest.unit ≤ 7) && l.opcodeAt r.dest == 0x1A)

/-- The failures of a region's routes (R18 to R20). -/
def Launch.routeFails (l : Launch) (b : Blame) : List LoadFail :=
  let origins := (l.routes.map (·.origin)).eraseDups
  let many := origins.filter fun p => decide (4 < (l.routes.filter (·.origin == p)).length)
  let clash := l.routes.filter fun r => decide (1 < (l.routes.filter (·.dest == r.dest)).length)
  let clashFails := (clash.filter fun r => b.routes.any (·.2 == r)).map fun r => b.route r.origin
  many.map b.route ++
  (if clash.isEmpty then [] else if clashFails.isEmpty then [badCommand b.commit] else clashFails) ++
  (l.routes.filter fun r => !l.controlOk r).map (fun r => b.route r.origin) ++
  l.crowded.map fun e => (1, (b.route e.2.2.2).2.1, loadErrOf e.2.1.1 e.2.1.2 0 0)

/-- The heads of a group that give no route (R8, R12, R18, R19, R21). -/
def State.headFails (s : State) (l : Launch) (gs : List Staged) : List LoadFail :=
  (routeCommands gs).filterMap fun p =>
    match s.stagedRoute l p.1 p.2 with
    | some _ => none
    | none => some (1, p.1.index, s.headUnitErr l p.1 p.2)

/-- The failures of steer slots without a route (R155). -/
def Launch.steerFails (l : Launch) (b : Blame) (x y unit : Nat) (u : UnitState) : List LoadFail :=
  let out := fun (p : Nat) => l.routesOf x y unit p
  if 8 ≤ unit && decide (unit ≤ 10) then
    ([0, 1].filter fun t => (u.fld t).toNat / 2 ^ 13 == 1 && (out (2 * t)).isEmpty && (out (2 * t + 1)).isEmpty).map
      fun t => b.field 1 x y unit t
  else []

/-- The units whose operations a group's checks look at: those it writes, the region's, and the handler entry. -/
def Launch.checkedUnits (l : Launch) (b : Blame) : List (Nat × Nat × Nat) :=
  (b.units ++ l.units.map (fun (e : Nat × UnitState) => (e.1 / 16 % 128, e.1 / 16 / 128, e.1 % 16)) ++ [(0, 0, 5)]).eraseDups

/-! ### Preloads (R16) -/

/-- The bank and row of a preload command: x, y, bank, row. -/
def Staged.preload? (g : Staged) : Option (Nat × Nat × Nat × Nat) :=
  match g.cmd with
  | .preload cell bank row _ => let (x, y) := g.place cell; some (x, y, bank.toNat, row.toNat)
  | _ => none

/-- The failures of a group's preloads. -/
def Launch.preloadFails (l : Launch) (gs : List Staged) : List LoadFail :=
  gs.filterMap fun g =>
    match g.preload? with
    | none => none
    | some (x, y, bank, row) =>
      if l.bankMode x y bank != 0 || decide (2048 < row + g.data.length) then some (badCommand g.index) else none

/-! ### The last group (R152, R157, R160, R355) -/

/-- YIELD on an operation that is neither a source nor the first of its block (R27, R152). -/
def Launch.yieldFails (l : Launch) (b : Blame) (nums : SMap OpNumber) : List LoadFail :=
  l.units.filterMap fun e =>
    let unit := e.1 % 16
    let misplaced := unit == 12 || (decide (unit ≤ 7) && !e.2.isSource && (numberOf nums e.1 e.2).2 != 0)
    if e.2.yields && misplaced then some (b.field 1 (e.1 / 16 % 128) (e.1 / 16 / 128) unit 3) else none

/-- The failures of the numbering: a block of more than 128 operations, blamed on its 129th (R152). -/
def numberFails (b : Blame) (nums : SMap OpNumber) (spent : List (BitVec 8)) : List LoadFail :=
  nums.filterMap fun e =>
    if e.2.2 = 128 && spent.contains e.2.1 then some (b.field 1 (e.1 / 16 % 128) (e.1 / 16 / 128) (e.1 % 16) 2) else none

/-- Carries that the checks of R157 refuse. -/
def Launch.carryFails (l : Launch) (b : Blame) : List LoadFail :=
  l.units.flatMap fun e =>
    let unit := e.1 % 16
    let x := e.1 / 16 % 128
    let y := e.1 / 16 / 128
    if unit < 8 || decide (10 < unit) then []
    else
      ([0, 1].filter fun t => (e.2.fld t).toNat / 2 ^ 13 == 3 && !l.carryOk x y unit t ((e.2.fld (2 + t)).toNat % 256)).map
        fun t => b.field 1 x y unit t

/-- A region holds a sink (R160). -/
def Launch.hasSink (l : Launch) : Bool := l.units.any fun e => (e.1 % 16 == 6 || e.1 % 16 == 7) && e.2.opcode == 0x99

/-- The failures of the last group of a stream; a launch at PRI 0 or 1 without yield points is NOYIELD (R355). -/
def Launch.lastFails (l : Launch) (b : Blame) (isCfg : Bool) : List LoadFail :=
  let (nums, spent) := l.numbers
  numberFails b nums spent ++ l.yieldFails b nums ++ l.carryFails b ++
  (if !isCfg && !l.hasYield && decide (l.record.pri.toNat ≤ 1) then [(6, 0, 0)] else [])

/-! ### Bank changes (R170, R307) -/

/-- A tile with the states, row words and scope-checker records of a bank cleared (R170, R209), and its words where `data` says so. -/
def TileState.clearBank (t : TileState) (n : Nat) (data : Bool) : TileState :=
  { t with words := if data then t.words.filter fun w => w.1 % 16 != n else t.words
           bad := if data then t.bad.filter fun w => w % 16 != n else t.bad
           empties := t.empties.filter fun w => w % 16 != n
           rows := t.rows.filter fun r => r.1 % 16 != n
           parkedRows := t.parkedRows.filter fun r => r % 16 != n
           releases := t.releases.filter fun r => r.1 % 16 != n
           wraps := SMap.erase t.wraps n }

/-- A bank may leave its mode (R170). -/
def TileState.mayLeave (t : TileState) (n mode : Nat) : Bool :=
  match mode with
  | 0 => !(t.waiters.any fun r => r.banks.contains n) && !(t.parkedRows.any fun r => r % 16 == n) &&
         !(t.rows.any fun r => r.1 % 16 == n && rowReaders r.2 != 0)
  | 2 => t.fifoCount n == 0
  | 3 => (t.slotsUsed n).isEmpty && t.expected n == 0
  | _ => true

/-- The banks that a group changes from one mode to another: x, y, bank, the mode it leaves. -/
def bankChanges (old new : Launch) (b : Blame) : List (Nat × Nat × Nat × Nat) :=
  ((b.writes.filter fun w => w.2.2.2.1 == 11).map fun w => (w.2.1, w.2.2.1, w.2.2.2.2.1)).eraseDups.filterMap fun p =>
    let mode := old.bankMode p.1 p.2.1 p.2.2
    if mode = new.bankMode p.1 p.2.1 p.2.2 then none else some (p.1, p.2.1, p.2.2, mode)

/-- The failures of a group's bank changes. -/
def bankFails (old new : Launch) (b : Blame) : List LoadFail :=
  (bankChanges old new b).filterMap fun c =>
    let (x, y, n, mode) := c
    let t := old.tile x y
    let xbankOk := new.bankMode x y n != 4 || (t.xbank n (new.bankParam x y n) new.rmode).ok
    if t.mayLeave n mode && xbankOk then none else some (b.field 1 x y 11 n)

/-- The failures of a group, its bank changes apart. -/
def State.groupFails (s : State) (old new : Launch) (gs : List Staged) (b : Blame) (last isCfg : Bool) : List LoadFail :=
  gs.filterMap s.writeFail ++ s.fieldFails new b ++ (new.checkedUnits b).flatMap (fun u => s.opFails new b u.1 u.2.1 u.2.2) ++
  s.headFails old gs ++ new.routeFails b ++
  new.units.flatMap (fun e => new.steerFails b (e.1 / 16 % 128) (e.1 / 16 / 128) (e.1 % 16) e.2) ++ new.preloadFails gs ++
  (if (last || isCfg) && !new.hasSink then [badCommand b.commit] else []) ++
  (if last then new.lastFails b isCfg else [])

end Sys2Proof.Machine
end

