-- ==== Sys2Proof/Machine/Loader.lean ====
section
/-! DEFINITION. Machine/Loader.lean: the loader: reading a configuration stream, staging the commands of a group and applying it at
its commit (R13 to R17, R65 to R67, R170, R237), the start of a region (R39, R43, R165, R293), and cfg (R97). -/

namespace Sys2Proof.Machine

/-! ### The loader in hand -/

/-- The loader that reads for a region: that of its launch, or that of its oldest cfg (R97). -/
def Launch.loading? (l : Launch) : Option Loader :=
  match l.loader with
  | some ld => some ld
  | none => l.cfgs.head?

/-- A region with its loader in hand written. -/
def Launch.setLoading (l : Launch) (ld : Loader) : Launch :=
  match l.loader with
  | some _ => { l with loader := some ld }
  | none => { l with cfgs := ld :: l.cfgs.drop 1 }

/-- A region's loader reads: its launch is loading, or the region acts. -/
def Launch.loads (l : Launch) : Bool := (l.phase == .loading && l.fatal.isNone) || l.acts

/-- A loader at the start of a stream. -/
def Loader.start (addr : DWord) (length : Nat) (space : BitVec 12) (scope : Scope) (cfg : Option (Nat × Nat × Nat × Nat)) : Loader :=
  { addr := addr, length := length, pos := 0, space := space, scope := scope, inGroup := false, groupStart := 0, px := 0, py := 0,
    staged := [], sums := [], failures := [], committed := 0, writers := [], cfg := cfg }

/-! ### Reading the stream (R97, R237) -/

/-- What reading a word of a stream gives: words, a wait, the status and index of the word that cannot be read, or an acquire that is too
narrow for the word's last release (R209). -/
inductive Fetched where
  | ok (s : State) (ws : List Word)
  | wait (s : State)
  | fail (s : State) (status index : Nat)
  | scope (s : State) (detail addr : DWord)

/-- The acquire that a cfg makes at a word of its stream, at the scope of its tail (R97, R204); a launch makes none. -/
def State.streamAcquire (s : State) (ld : Loader) (va : Nat) : Option Req :=
  let inst := s.focus.inst
  match ld.cfg, s.launch? inst with
  | some (x, y, unit, id), some l =>
    some (mkReq (.access inst x y unit id 0) ld.space (.glob (BitVec.ofNat 64 va)) (.load .w 1) ld.scope inst (x, y) (l.dieOf x y))
  | _, _ => none

/-- DETAIL of a stream's word at its slice where its acquire does not include the last releaser (R209). -/
def State.streamRefused (s : State) (ld : Loader) (va : Nat) : Option DWord :=
  (s.streamAcquire ld va).bind fun rq =>
    ((s.releaseAt (.slice (s.homeSlice va)) rq.key).filter fun x => !rq.includes x).map fun x => scopeDetail rq x

/-- n words of a stream from an index on. A fault is reported in the die's event ring (R233). -/
def State.streamWords (s : State) (ld : Loader) (index : Nat) : Nat → Fetched
  | 0 => .ok s []
  | n + 1 =>
    let va := ld.addr.toNat + 4 * index
    match s.loadWords ld.space va 1 with
    | .ok s ws =>
      match s.streamRefused ld va with
      | some detail => .scope s detail (BitVec.ofNat 64 va)
      | none =>
        match State.streamWords s ld (index + 1) n with
        | .ok s rest => .ok s (ws ++ rest)
        | other => other
    | .wait s => .wait s
    | .fault s => .fail (s.faultEvent ld.space va 0) 4 index
    | .denied s => .fail s 4 index
    | .error s => .fail s 0x0A index
    | .hole s => .fail s 0x0A index

/-! ### The end of a load -/

/-- A region whose units take records again after a commit, and whose tiles take requests for every bank (R97, R170 step 4). -/
def Launch.released (l : Launch) : Launch :=
  { l with units := SMap.mapValues UnitState.reset (fun u => { u with paused := false }) l.units
           tiles := SMap.mapValues TileState.reset (fun t => { t with closed := [] }) l.tiles }

/-- A region whose cfgs, that in progress and those that wait behind it, keep the routes and TRACE of their elements' old operations, by
which their records leave where a commit rewrites those elements (R97). That a cfg which waits keeps them is a DESIGN CHOICE: log 28. -/
def Launch.keepLeaving (l : Launch) : Launch :=
  (l.cfgs.filterMap (·.cfg)).foldl (fun (l : Launch) c =>
    let (x, y, unit, id) := c
    let u := l.unit x y unit
    let old := (l.routesOf x y unit 0, u.traces)
    l.setUnit x y unit { u with flight := u.flight.map fun a =>
      if a.id = id && a.leaves.isNone then { a with leaves := some old } else a }) l

/-- The record of a cfg answered, and the next cfg of the region taken up (R97). -/
def State.cfgAnswer (s : State) (inst : Nat) (r : Reply) : State :=
  match s.launch? inst with
  | none => s
  | some l =>
    match l.cfgs with
    | [] => s
    | ld :: rest =>
      let s := s.setLaunch inst { l with cfgs := rest }
      match ld.cfg with
      | some (x, y, unit, id) => s.deliverLane inst x y unit id 0 0 r
      | none => s

/-- The record of a cfg answered with its result pair (R97). -/
def State.cfgDone (s : State) (inst : Nat) (result : List Word) : State := s.cfgAnswer inst (.ok result [] true false)

/-- A region goes on under the groups that a cfg has committed, the cfg ended by a failure (R97, R152). -/
def Launch.cfgEnded (l : Launch) (ld : Loader) : Launch := if ld.committed = 0 then l.released else l.released.renumbered

/-- A cfg whose acquire at its stream is too narrow ends, and its record traps SCOPE (R97, R209). DEDUCED: log 108. -/
def State.cfgScope (s : State) (inst : Nat) (detail addr : DWord) : State :=
  match s.launch? inst with
  | none => s
  | some l =>
    match l.cfgs with
    | ld :: _ => (s.setLaunch inst (l.cfgEnded ld)).cfgAnswer inst (.trap .scope detail addr)
    | [] => s

/-- A load that fails: a launch ends with its status (R35, R67, R237); a cfg ends with the failure in its result pair, its region
going on under the groups that were committed (R97, R152). -/
def State.loadFail (s : State) (inst : Nat) (e : LoadFail) : State :=
  match s.launch? inst with
  | none => s
  | some l =>
    match l.loader, l.cfgs with
    | some _, _ => s.endUnrun inst (BitVec.ofNat 8 e.1) (BitVec.ofNat 32 e.2.1) e.2.2
    | none, ld :: _ => (s.setLaunch inst (l.cfgEnded ld)).cfgDone inst [BitVec.ofNat 32 (e.2.1 * 256 + e.1), e.2.2]
    | none, [] => s

/-! ### Staging (R13) -/

/-- The loader's step on a command: outside a group, the load fails; inside, the command is staged as `take` says, and the load
fails where the stream then ends inside the group. `outside` is the status and LOADERR of the command outside a group: BADOP, with a field
write's place on page (0, 0) (R13; log 26), but BADPRIV for a write to unit 13, the higher of the two in R40's table (R15). -/
def stageCommand (outside : Nat × Word) (take : Launch → Loader → Loader) (s : State) : State :=
  let inst := s.focus.inst
  match s.launch? inst with
  | none => s
  | some l =>
    match l.loading? with
    | none => s
    | some ld =>
      if !l.loads then s
      else if !ld.inGroup then s.loadFail inst (outside.1, ld.pos, outside.2)
      else
        let ld' := { take l ld with pos := (take l ld).pos + 1 }
        if ld'.pos < ld'.length then s.setLaunch inst (l.setLoading ld')
        else s.loadFail inst ((worstFail (ld'.failures ++ [badCommand ld'.groupStart])).getD (badCommand ld'.groupStart))

/-- A loader with a command and its data words staged. -/
def Loader.stage (ld : Loader) (i : Instr) (data : List Word) : Loader :=
  let g : Staged := { index := ld.pos, px := ld.px, py := ld.py, cmd := i, data := data }
  { ld with staged := ld.staged ++ [g], sums := ld.sums ++ ((encodeCommand i).toList ++ data), pos := ld.pos + data.length }

/-- A loader that has seen a command which changes nothing else. -/
def Loader.note (ld : Loader) (i : Instr) : Loader := { ld with sums := ld.sums ++ (encodeCommand i).toList }

/-- A loader with a failure of the command in hand. -/
def Loader.fails (ld : Loader) (status : Nat) : Loader := { ld with failures := ld.failures ++ [(status, ld.pos, 0)] }

/-- A word that is no command (R13, R15 to R18): BADOP at its index. -/
def State.loaderReject (s : State) (w : Word) : State :=
  stageCommand (1, 0) (fun _ ld => { ld.fails 1 with sums := ld.sums ++ [w] }) s

/-- A field write staged (R14, R15). -/
def execFieldWrite (cell : BitVec 6) (unit fld : BitVec 4) (value : BitVec 16) (s : State) : Host.Outcome State Fault Refusal :=
  let system := cell = 0 ∧ unit = 13
  .next (stageCommand (if system then 2 else 1, loadErrOf (cell.toNat % 8) (cell.toNat / 8) unit.toNat fld.toNat)
    (fun _ ld => ld.stage (.fieldWrite cell unit fld value) []) s)

/-- A route head staged (R18). -/
def execRouteHead (cell : BitVec 6) (unit : BitVec 4) (port net heading : BitVec 2) (turns : BitVec 12) (s : State) :
    Host.Outcome State Fault Refusal :=
  .next (stageCommand (1, 0) (fun _ ld => ld.stage (.routeHead cell unit port net heading turns) []) s)

/-- A continuation staged; one with no head to belong to fails (R18). -/
def execRouteContinuation (turns : BitVec 26) (s : State) : Host.Outcome State Fault Refusal :=
  .next (stageCommand (1, 0) (fun _ ld =>
    let ld' := if (routeCommands ld.staged).isEmpty then ld.fails 1 else ld
    ld'.stage (.routeContinuation turns) []) s)

/-- page (R16): a page of the rectangle becomes current. -/
def execPage (px : BitVec 4) (py : BitVec 3) (s : State) : Host.Outcome State Fault Refusal :=
  .next (stageCommand (1, 0) (fun l ld =>
    let ld := ld.note (.page px py)
    if px.toNat ≤ l.record.width.toNat && decide (py.toNat ≤ l.record.height.toNat) then { ld with px := px.toNat, py := py.toNat }
    else ld.fails 1) s)

/-- checksum (R16): compared with the CRC of the group's words before it. -/
def execChecksum (sum : BitVec 24) (s : State) : Host.Outcome State Fault Refusal :=
  .next (stageCommand (1, 0) (fun _ ld =>
    let bytes := ld.sums.flatMap fun w => (List.range 4).map fun i => w.extractLsb' (8 * i) 8
    let crc := ~~~ crcBytes 0xFFFFFFFF bytes
    let ld' := ld.note (.checksum sum)
    if crc.extractLsb' 0 24 = sum then ld' else ld'.fails 3) s)

/-- preload (R16, R17): staged with the data words that follow it. -/
def execPreload (cell : BitVec 6) (bank : BitVec 4) (row : BitVec 11) (countM1 : BitVec 5) (s : State) :
    Host.Outcome State Fault Refusal :=
  let i : Instr := .preload cell bank row countM1
  let n := countM1.toNat + 1
  match s.launch? s.focus.inst with
  | none => .next s
  | some l =>
    match l.loading? with
    | none => .next s
    | some ld =>
      if !l.loads || !ld.inGroup then .next (stageCommand (1, 0) (fun _ ld => ld) s)
      else
        let room := ld.length - (ld.pos + 1)
        match s.streamWords ld (ld.pos + 1) (min n room) with
        | .ok s ws => .next (stageCommand (1, 0) (fun _ ld => ld.stage i ws) s)
        | .wait s => .next s
        | .fail s status index => .next (s.loadFail s.focus.inst (status, index, 0))
        | .scope s detail addr => .next (s.cfgScope s.focus.inst detail addr)

/-- begin (R13, R16): it opens a group, with page (0, 0) current; inside a group it fails. -/
def execBegin (s : State) : Host.Outcome State Fault Refusal :=
  let inst := s.focus.inst
  match s.launch? inst with
  | none => .next s
  | some l =>
    match l.loading? with
    | none => .next s
    | some ld =>
      if !l.loads then .next s
      else if ld.inGroup then .next (stageCommand (1, 0) (fun _ ld => (ld.note .begin).fails 1) s)
      else
        let ld' : Loader := { ld with inGroup := true, groupStart := ld.pos, px := 0, py := 0, staged := [], failures := [],
                                      sums := (encodeCommand .begin).toList }
        .next (stageCommand (1, 0) (fun _ ld => ld) (s.setLaunch inst (l.setLoading ld')))

/-! ### Applying a group -/

/-- A bound, count or stride constant: a base register's value where its flag is set (R87, R129, R131). -/
def constantOr (l : Launch) (u : UnitState) (flag j : Nat) : DWord :=
  if (u.k 3).getLsbD flag then l.base ((u.k j).extractLsb' 0 4) else (u.k j).signExtend 64

/-- A source with the bounds, the count and the stride of its constants (R87, R129). -/
def sourceConfigured (l : Launch) (u : UnitState) (c : SrcState) : SrcState :=
  let n := fun (flag j : Nat) => (lo32 (constantOr l u flag j)).toNat
  if u.opcode = 0x1E then { c with bounds := if c.running then c.bounds else (n 8 0, n 9 1, n 10 2) }
  else if u.opcode = 0x98 then { c with count := n 8 0, stride := constantOr l u 9 1 }
  else c

/-- A unit as a commit leaves it: acc and the LFSR are reloaded where the group wrote ACC or SEED (R14, R28), a source or sink
that is new starts, and one that was there keeps its position. -/
def unitConfigured (l : Launch) (unit : Nat) (old u : UnitState) (written : List Nat) : UnitState :=
  let same := old.opcode == u.opcode
  let u := if unit ≤ 7 && (written.contains 12 || written.contains 13) then { u with acc := u.fld 13 ++ u.fld 12 } else u
  let u := if unit ≤ 7 && written.contains 14 then { u with lfsr := if u.fld 14 = 0 then 1 else u.fld 14 } else u
  let src := if same then u.src else SrcState.reset
  let sink := if same then u.sink else SinkState.reset
  let slots := (lo32 (constantOr l u 8 0)).toNat
  { u with src := sourceConfigured l u src, sink := if u.opcode = 0x99 then { sink with slots := slots } else sink,
           settling := u.flight.map (·.id) }

/-- A region with the units of a group configured; the first configuration of a matrix tile's order of sums goes with every write to
it (R302). -/
def Launch.configured (old new : Launch) (b : Blame) : Launch :=
  let l := b.units.foldl (fun (l : Launch) p =>
    let (x, y, unit) := p
    let written := (b.writes.filter fun w => w.2.1 == x && w.2.2.1 == y && w.2.2.2.1 == unit).map fun w => w.2.2.2.2.1
    let l := l.setUnit x y unit (unitConfigured l unit (old.unit x y unit) (l.unit x y unit) written)
    if unit = 12 then l.setMtile x y { l.mtile x y with epoch := (l.mtile x y).epoch + 1 } else l) new
  l.released

/-- A tile with a bank arrived in a mode (R170). -/
def arriveBank (l : Launch) (t : TileState) (n mode param : Nat) : TileState :=
  let t := t.clearBank n (mode == 0)
  match mode with
  | 3 => t.setBankWords n (16 * 126) (List.replicate 32 0)
  | 4 =>
    let b := t.xbank n param l.rmode
    t.setXbank n b b.start
  | _ => t

/-- The departure of cache-way banks (R170): whether every dirty line of theirs has been written back. -/
def State.departWays (s : State) (inst : Nat) : List (Nat × Nat × Nat × Nat) → Bool × State
  | [] => (true, s)
  | (x, y, n, mode) :: cs =>
    match s.launch? inst with
    | none => (true, s)
    | some l =>
      if mode ≠ 1 then State.departWays s inst cs
      else
        let keys := ((l.tile x y).ways.filter fun w => w.1 / 64 == n && w.2.dirty).map (·.1)
        match s.writeBackWays inst x y keys with
        | (true, s) => State.departWays s inst cs
        | (false, s) => (false, s)

/-- The banks of a group changed: the lines of a departing way invalidated, the arrivals made (R170). -/
def State.changeBanks (s : State) (inst : Nat) (cs : List (Nat × Nat × Nat × Nat)) : State :=
  cs.foldl (fun (s : State) c =>
    let (x, y, n, mode) := c
    s.modLaunch inst fun l =>
      let t := l.tile x y
      let t := if mode = 1 then { t with ways := t.ways.filter fun w => w.1 / 64 != n } else t
      l.setTile x y (arriveBank l t n (l.bankMode x y n) (l.bankParam x y n))) s

/-- One preloaded word: written full by a launch's load, a .s store at cell scope of the page unit under cfg (R16, R17). -/
def State.preloadWord (s : State) (inst x y w : Nat) (v : Word) (isCfg : Bool) : State :=
  if isCfg then
    match s.launch? inst with
    | none => s
    | some l => s.serveAt (.tile inst x y) (mkReq .outside l.record.space (.tile x y w) (.store .s [v]) .cell inst (x, y) (l.dieOf x y))
  else s.modTile inst x y fun t => { t with words := SMap.put t.words 0 w v, empties := NSet.remove t.empties w }

/-- The preloads of a group made, in stream order (R17). -/
def State.makePreloads (s : State) (inst : Nat) (gs : List Staged) (isCfg : Bool) : State :=
  gs.foldl (fun (s : State) g =>
    match g.preload? with
    | none => s
    | some (x, y, bank, row) =>
      g.data.zipIdx.foldl (fun (s : State) p => s.preloadWord inst x y (bankWord bank (row + p.2)) p.1 isCfg) s) s

/-- A cfg that is in progress or waits for those before it: its record cannot leave yet. -/
def Access.isCfg (a : Access) : Bool := match a.op with | .cfg _ _ _ => !a.answered | _ => false

/-- The units that a commit under cfg changes hold no record of their own: their accesses have ended, but for the cfg itself and those that
wait behind it, and the tiles' firings have written (R97). -/
def Launch.unitsDrained (l : Launch) (b : Blame) : Bool :=
  b.units.all fun p =>
    let (x, y, unit) := p
    let u := l.unit x y unit
    if unit = 12 then (match (l.mtile x y).firing with | some g => g.written | none => true)
    else u.flight.all Access.isCfg && u.resume.isEmpty

/-- The banks that a commit under cfg writes: those whose mode changes, and those of its preloads (R17, R170): x, y, bank. -/
def commitBanks (cs : List (Nat × Nat × Nat × Nat)) (gs : List Staged) : List (Nat × Nat × Nat) :=
  cs.map (fun c => (c.1, c.2.1, c.2.2.1)) ++ gs.filterMap fun g => g.preload?.map fun p => (p.1, p.2.1, p.2.2.1)

/-- The units are drained, and no request for a bank that the commit writes is buffered: each was served under the old mode (R164,
R170). -/
def Launch.drained (l : Launch) (b : Blame) (banks : List (Nat × Nat × Nat)) : Bool :=
  l.unitsDrained b && banks.all fun c => !((l.tile c.1 c.2.1).reqs.any fun r => r.banks.contains c.2.2)

/-- A copy of a region stands within a row that a tile whose banks change takes part in: the change waits until its next row, where it is
checked against the new modes (R313, R316). One that waits in the tile's buffer for a bank that changes cannot go on, and does not hold the
change up. DEDUCED: log 123. -/
def State.copyInRow (s : State) (inst : Nat) (l : Launch) (banks : List (Nat × Nat × Nat)) : Bool :=
  s.copies.any fun e => match e.2 with
    | j :: _ =>
      j.inst == inst && j.started && decide (j.phase < 4) && (j.offset != 0 || j.phase != 0) &&
      banks.any fun b => (j.rowCells l).contains (b.1, b.2.1) &&
        !((l.tile b.1 b.2.1).waiters.any fun r => r.party == .copy e.1 && r.banks.contains b.2.2)
    | [] => false

/-- A region whose tiles take no new requests for banks (R170 step 1), once the units that the group changes are drained: an access of
one of them may still need such a bank. -/
def Launch.closeBanks (l : Launch) (b : Blame) (banks : List (Nat × Nat × Nat)) : Launch :=
  if l.unitsDrained b then
    banks.foldl (fun (l : Launch) c =>
      l.setTile c.1 c.2.1 { l.tile c.1 c.2.1 with closed := NSet.add (l.tile c.1 c.2.1).closed c.2.2 }) l
  else l

/-- A region with the units of a group held (R97). -/
def Launch.hold (l : Launch) (b : Blame) : Launch :=
  b.units.foldl (fun (l : Launch) p =>
    let (x, y, unit) := p
    l.setUnit x y unit { l.unit x y unit with paused := true }) l

/-- What the first commit of a region does beside its group: the cycle count begins and the kennel is laid out (R39, R43). -/
def State.firstCommit (s : State) (inst : Nat) : State :=
  match s.launch? inst with
  | none => s
  | some l =>
    if l.committed then s
    else (s.setLaunch inst { l with committed := true, firstCommit := s.now }).setKennel inst { l.kennel with ready := true }

/-- The group applied: fields and routes, bank changes, preloads (R14, R17); at the last group the operations are numbered, and the
launch runs or its cfg ends (R97, R152). -/
def State.applyGroup (s : State) (inst : Nat) (old new : Launch) (ld : Loader) (b : Blame) (last isCfg : Bool) : State :=
  let done : Loader := { ld with inGroup := false, staged := [], sums := [], failures := [], writers := b.writers, pos := ld.pos + 1,
                                 committed := ld.committed + 1 }
  let l := (Launch.configured old new b).setLoading done
  let s := (s.setLaunch inst l).changeBanks inst (bankChanges old new b)
  let s := (s.makePreloads inst ld.staged isCfg).firstCommit inst
  let kept := if isCfg then [] else ld.staged.filter fun g => g.preload?.isSome
  let s := s.modLaunch inst fun l => { l with preloads := l.preloads ++ kept }
  if !last then s
  else
    let s := s.modLaunch inst Launch.renumbered
    if isCfg then s.cfgDone inst [0, 0]
    else s.modLaunch inst fun l => { l with loader := none, phase := .running, lastMove := s.now }

/-- commit (R13, R16, R17, R67, R97): the group is checked, and applied whole or not at all. Under cfg the units that it changes
are held until the records in them have left. -/
def execCommit (s : State) : Host.Outcome State Fault Refusal :=
  let inst := s.focus.inst
  match s.launch? inst with
  | none => .next s
  | some l =>
    match l.loading? with
    | none => .next s
    | some ld =>
      if !l.loads then .next s
      else if !ld.inGroup then .next (s.loadFail inst (badCommand ld.pos))
      else
        let isCfg := ld.cfg.isSome
        let last := decide (ld.length ≤ ld.pos + 1)
        let writes := s.writes ld.staged
        let writers := writes.foldl (fun (m : SMap Nat) w => SMap.insert m (unitKey w.2.1 w.2.2.1 w.2.2.2.1 * 16 + w.2.2.2.2.1) w.1) ld.writers
        let b : Blame := { writers := writers, writes := writes, routes := s.stagedRoutes l ld.staged, commit := ld.pos }
        let new := (l.withWrites writes).withRoutes b.routes
        let fails := ld.failures ++ s.groupFails l new ld.staged b last isCfg
        let cs := bankChanges l new b
        let banks := commitBanks cs ld.staged
        if fails.isEmpty && isCfg && s.copyInRow inst l (cs.map fun c => (c.1, c.2.1, c.2.2.1)) then .next s
        else if fails.isEmpty && isCfg && !l.drained b banks then .next (s.setLaunch inst ((l.hold b).closeBanks b banks))
        else
          match worstFail (fails ++ bankFails l new b) with
          | some e => .next (s.loadFail inst e)
          | none =>
            match s.departWays inst cs with
            | (false, s) => .next (s.modLaunch inst fun l => (l.hold b).closeBanks b banks)
            | (true, s) =>
              match s.launch? inst with
              | none => .next s
              | some l =>
                let l := l.keepLeaving
                .next (s.applyGroup inst l ((l.withWrites writes).withRoutes b.routes) ld b last isCfg)

/-! ### cfg (R97) -/

/-- A length that no stream has (R97). -/
def badLength (n : Nat) : Bool := n == 0 || decide (2 ^ 20 < n)

/-- The plan of cfg: its address is that of the stream, which is not used where the length is no stream's. -/
def planCfg (b : Reg) (m : MemRef) (s : State) : Plan := fun l _ r => do
  let ea := effectiveAddr l m (indexWord m r)
  if badLength (r.w b).toNat then return (ea, [])
  let _ ← locate l s.focus.x s.focus.y m 1 0 ea
  return (ea, [])

/-- cfg (R97): the record waits in its element while the region's loader applies the stream, behind the cfgs that came before it; a
length of 0, or above 2^20, is answered at once. -/
def execCfg (d b : Reg) (m : MemRef) (s : State) : Host.Outcome State Fault Refusal :=
  let f := s.focus
  let i : Instr := .cfg d b m
  accessStep i m (planCfg b m s)
    (fun r ea _ s =>
      let n := (r.w b).toNat
      let s := s.takeHead
      if badLength n then some (s.answeredAccess i r ea (some (.ok [1, 0] [] true false)))
      else
        let id := (match s.here with | some (_, u) => u.nextId | none => 0)
        some ((s.answeredAccess i r ea none).modLaunch f.inst fun l =>
          { l with cfgs := l.cfgs ++ [Loader.start ea n l.record.space (l.scope m.scope) (some (f.x, f.y, f.unit, id))] })) s

end Sys2Proof.Machine
end

