-- ==== Sys2Proof/Machine/Context.lean ====
section
/-! DEFINITION. Machine/Context.lean: the context pool and the context block of a region that is away (R45, R366, R369): its
sections, its saved stream, its place in the pool, and the region as it is saved and restored (R171, R370). -/

namespace Sys2Proof.Machine

/-! ### Sections (R45) -/

/-- A section: its header and its payload. -/
def section_ (x y unitByte kind : Nat) (payload : List Word) : List Word :=
  let head := BitVec.ofNat 32 ((y / 8 * 16 + x / 8) * 2 ^ 22 + localCell x y * 2 ^ 16 + unitByte * 2 ^ 8 + kind)
  let pad := payload.length % 2
  head :: BitVec.ofNat 32 (4 * payload.length) :: payload ++ List.replicate pad 0

/-- Kinds 1 and 2 of a source or sink: ord of the next record, items or tokens that remain, and the current address; a cnt's
counters and bounds. -/
def streamSections (l : Launch) (x y unit : Nat) (u : UnitState) : List (List Word) :=
  let position := fun (ord left : Nat) (a : DWord) => section_ x y unit 1 [BitVec.ofNat 32 ord, BitVec.ofNat 32 left, lo32 a, hi32 a]
  match u.op with
  | some (.src _ m) => [position u.src.sent (u.src.count - u.src.issued) (itemAddr l m u.src.issued u.src.stride)]
  | some (.sink _ m) =>
    let step := if tileStream m then m.size.words else 4 * m.size.words
    [position u.sink.index ((u.fld 6).toNat - u.sink.tokens)
      (effectiveAddr l m 0 + BitVec.ofNat 64 (u.sink.slotNow * step))]
  | some (.cnt _) =>
    let w := fun (n : Nat × Nat × Nat) => [BitVec.ofNat 32 n.1, BitVec.ofNat 32 n.2.1, BitVec.ofNat 32 n.2.2]
    [position u.src.sent 0 0, section_ x y unit 2 (w u.src.counters ++ w u.src.bounds)]
  | _ => []

/-- A bank that pre-emption saves (R171): FIFO and reorder banks, and LIVE scratch and transform banks. -/
def Launch.savesBank (l : Launch) (x y n : Nat) : Bool :=
  let mode := l.bankMode x y n
  let live := ((l.unit x y 11).fld n).getLsbD 12
  mode == 2 || mode == 3 || (live && (mode == 0 || mode == 4))

/-- The image of a bank: its words, its full/empty bits, and its row words with PARKED (R45). -/
def bankImage (t : TileState) (n : Nat) : List Word :=
  let words := (List.range 2048).map fun j => SMap.getD t.words (bankWord n j) 0
  let states := (List.range 64).map fun k => BitVec.ofNat 32
    ((List.range 32).foldl (fun (acc : Nat) b => if NSet.has t.empties (bankWord n (32 * k + b)) then acc else acc + 2 ^ b) 0)
  let rows := (List.range 128).map fun r =>
    SMap.getD t.rows (bankRow n r) 0 ||| (if NSet.has t.parkedRows (bankRow n r) then 0x400 else 0)
  words ++ states ++ rows

/-- A unit as a pre-emption keeps it: its configuration, its acc and LFSR, and its position. -/
def UnitState.kept (u : UnitState) : UnitState :=
  { u with ins := [], held := false, paused := false, settling := [], flight := [], resume := [], slot0 := SlotState.reset,
           slot1 := SlotState.reset }

/-- The sections of a region's context block. The unit byte of a bank image names the bank in its high half, and that of a carry its
slot. They stand in order of cell and unit: DESIGN CHOICE, log 98. -/
def Launch.sections (l : Launch) : List (List Word) :=
  (l.units.filter fun e => decide (UnitState.kept e.2 ≠ UnitState.reset)).flatMap fun e =>
    let unit := e.1 % 16
    let x := e.1 / 16 % 128
    let y := e.1 / 16 / 128
    let u := e.2
    if unit ≤ 7 then
      streamSections l x y unit u ++ [section_ x y unit 3 [u.acc, u.lfsr.zeroExtend 32]]
    else if unit ≤ 10 then
      ([0, 1].filter fun t => (u.fld t).toNat / 2 ^ 13 == 3).map
        fun t => section_ x y (16 * t + unit) 5 [BitVec.ofNat 32 (l.occupancy x y unit t), 0]
    else if unit = 11 then
      ((List.range 16).filter fun n => l.savesBank x y n).map fun n => section_ x y (16 * n + 11) 4 (bankImage (l.tile x y) n)
    else []

/-! ### The saved stream (R366) -/

/-- Commands, each with the page it stands on, with page commands where the page changes. -/
def paged : Nat → Nat → List (Nat × Nat × List Word) → List Word
  | _, _, [] => []
  | px, py, (x, y, ws) :: rest =>
    if x = px && y = py then ws ++ paged px py rest
    else (encodeCommand (.page (BitVec.ofNat 4 x) (BitVec.ofNat 3 y))).toList ++ ws ++ paged x y rest

/-- A group of commands. -/
def groupWords (cs : List (Nat × Nat × List Word)) : List Word :=
  (encodeCommand .begin).toList ++ paged 0 0 cs ++ (encodeCommand .commit).toList

/-- The turns of a route as its commands carry them: the head's, and those of its continuations. -/
def packTurns (n : Nat) (ts : List (BitVec 2)) : Nat :=
  (List.range n).foldl (fun acc k => acc * 4 + (ts.getD k 0).toNat) 0

/-- The continuations of a route's turns. -/
def moreWords : Nat → List (BitVec 2) → List Word
  | 0, _ => []
  | fuel + 1, ts =>
    if ts.isEmpty then []
    else (encodeCommand (.routeContinuation (BitVec.ofNat 26 (packTurns 13 ts)))).toList ++ moreWords fuel (ts.drop 13)

/-- The commands of a route. -/
def routeWords (r : Route) : List Word :=
  let o := r.origin
  (encodeCommand (.routeHead (BitVec.ofNat 6 (localCell o.x o.y)) (BitVec.ofNat 4 o.unit) (BitVec.ofNat 2 o.port) r.net r.heading
    (BitVec.ofNat 12 (packTurns 6 r.turns)))).toList ++ moreWords r.turns.length (r.turns.drop 6)

/-- The field writes that give a unit its fields. -/
def fieldWords (x y unit : Nat) (u : UnitState) : List Word :=
  (List.range 16).flatMap fun f =>
    if u.fld f = 0 then []
    else (encodeCommand (.fieldWrite (BitVec.ofNat 6 (localCell x y)) (BitVec.ofNat 4 unit) (BitVec.ofNat 4 f) (u.fld f))).toList

/-- The saved stream of a region: a group of the preloads of its launch stream, then one of its field writes and routes. -/
def Launch.savedStream (l : Launch) : List Word :=
  let preloads := l.preloads.map fun (g : Staged) => (g.px, g.py, (encodeCommand g.cmd).toList ++ g.data)
  let fields := l.units.map fun e =>
    let x := e.1 / 16 % 128
    let y := e.1 / 16 / 128
    (x / 8, y / 8, fieldWords x y (e.1 % 16) e.2)
  let routes := l.routes.map fun (r : Route) => (r.origin.x / 8, r.origin.y / 8, routeWords r)
  (if preloads.isEmpty then [] else groupWords preloads) ++ groupWords (fields ++ routes)

/-- The words of a region's context block, with its saved stream at an address (R45). -/
def Launch.contextBlock (l : Launch) (stream : DWord) : List Word :=
  let ss := l.sections
  let body := ss.flatten
  let place : Word := l.record.space ++ l.record.width ++ l.record.height ++ (0 : BitVec 13)
  [BitVec.ofNat 32 (64 + 4 * body.length), BitVec.ofNat 32 ss.length, place, 0, lo32 stream, hi32 stream] ++ List.replicate 10 0 ++ body

/-- Words of a region's context with its saved stream, and the 4 KiB units it takes (R369). -/
def Launch.contextUnits (l : Launch) : Nat := ceilDiv (4 * ((l.contextBlock 0).length + l.savedStream.length)) 4096

/-! ### The place of a context (R369) -/

/-- Pool space given to a region, if the pool has it. -/
def State.takeContext (s : State) (inst : Nat) : Option State :=
  match s.launch? inst with
  | none => none
  | some l =>
    let n := l.contextUnits
    (s.poolFit n).map fun at_ => (s.setLaunch inst { l with context := some (at_, n) }).writeTable (at_, n)

/-! ### Reading a context block (R45, R370) -/

/-- The headers of a block's sections, their first words, by the number that its header gives. -/
def sectionHeads : Nat → List Word → List Word
  | n + 1, head :: size :: rest => head :: sectionHeads n (rest.drop ((size.toNat + 7) / 8 * 2))
  | _, _ => []

/-- The unit that a section's header names: region cell and unit. -/
def headUnit (w : Word) : Nat × Nat × Nat :=
  let page := w.toNat / 2 ^ 22 % 128
  let cell := w.toNat / 2 ^ 16 % 64
  (page % 16 * 8 + cell % 8, page / 16 * 8 + cell / 8, w.toNat / 2 ^ 8 % 16)

/-- Every section of a block names a unit of a configuration (R45). -/
def blockFits (units : SMap UnitState) (ws : List Word) : Bool :=
  (sectionHeads (ws.getD 1 0).toNat (ws.drop 16)).all fun h =>
    let (x, y, u) := headUnit h
    (SMap.get? units (unitKey x y u)).isSome

/-- A region's context block read from its place in the pool. -/
def State.readContext (s : State) (run : Nat × Nat) : Now (List Word) :=
  let base := s.ctxBase.toNat + 4096 * run.1
  (s.readRegion s.poolSpace base 1).bind fun s size =>
    s.readRegion s.poolSpace base (min (size.headD 0).toNat (4096 * run.2) / 4)

/-- A region's saved stream read, from the address that its context block gives (R45, R370 step 1). Its words are those that the save
wrote: no software writes the pool while a launch is live (R369). -/
def State.readStream (s : State) (block : List Word) (l : Launch) : Now (List Word) :=
  s.readRegion s.poolSpace (pair64 (block.getD 4 0) (block.getD 5 0)).toNat l.savedStream.length

/-! ### Saving and restoring a region (R171, R366, R370) -/

/-- A tile with only the banks that pre-emption saves (R171); scope-checker records and cache-way lines are lost (R209). -/
def Launch.keptTile (l : Launch) (x y : Nat) : TileState :=
  let t := l.tile x y
  let t := { t with reqs := [], network := [], waiters := [], walks := [], ways := [], releases := [] }
  ((List.range 16).filter fun n => !l.savesBank x y n).foldl (fun (t : TileState) n => t.clearBank n true) t

/-- The preloads of the launch stream written again, in banks that no image replaces (R17, R171). -/
def Launch.repreloaded (l : Launch) : Launch :=
  l.preloads.foldl (fun (l : Launch) g =>
    match g.preload? with
    | none => l
    | some (x, y, bank, row) =>
      if l.savesBank x y bank then l
      else
        g.data.zipIdx.foldl (fun (l : Launch) p =>
          let w := bankWord bank (row + p.2)
          let t := l.tile x y
          l.setTile x y { t with words := SMap.put t.words 0 w p.1, empties := NSet.remove t.empties w }) l) l

/-- The data of a region's context block and, in banks that it does not save, what their restore begins with. -/
def Launch.saved_ (l : Launch) : Saved :=
  { units := SMap.mapValues UnitState.reset UnitState.kept l.units,
    tiles := (({ l with tiles := l.tiles.map fun e => (e.1, l.keptTile (e.1 % 128) (e.1 / 128)) } : Launch).repreloaded.tiles).filter
      fun e => decide (e.2 ≠ TileState.reset),
    routes := l.routes }

/-- A saved route at the region's place (R21, R154): its capacity with the seams it crosses there, regenerated around what is retired. -/
def Launch.rerouted (l : Launch) (links units : List Nat) (r : Route) : Option Route :=
  let here := match pathOf l.cellsX l.cellsY r.origin.x r.origin.y r.heading r.turns with
    | some p => { r with capacity := routeCapacity r.net (p.length + seamsOf (fun c => l.dieOf c.1 c.2) p.cells) }
    | none => r
  l.regenerate links units here

/-- Transform banks of a region that are not saved, by cell and bank. -/
def Launch.freshBanks (l : Launch) : List (Nat × Nat × Nat) :=
  l.units.flatMap fun e =>
    if e.1 % 16 ≠ 11 then []
    else
      let x := e.1 / 16 % 128
      let y := e.1 / 16 / 128
      ((List.range 16).filter fun n => l.bankMode x y n == 4 && !l.savesBank x y n).map fun n => (x, y, n)

/-- A region with the units, tiles and routes that were saved, at its new place; none where a transform bank that was not saved has no
descriptor that its commit accepts (R307), or a route cannot be regenerated (R21). -/
def Launch.restored (l : Launch) (links units : List Nat) (v : Saved) : Option Launch :=
  let l := { l with units := v.units, tiles := v.tiles, saved := none }
  let routes := v.routes.filterMap (l.rerouted links units)
  let l := { l with routes := routes }
  let l := l.repreloaded
  let bank := fun (l : Launch) (p : Nat × Nat × Nat) => (l.tile p.1 p.2.1).xbank p.2.2 (l.bankParam p.1 p.2.1 p.2.2) l.rmode
  if routes.length == v.routes.length && l.freshBanks.all fun p => (bank l p).ok then
    some (l.freshBanks.foldl (fun (l : Launch) p =>
      let b := bank l p
      l.setTile p.1 p.2.1 ((l.tile p.1 p.2.1).setXbank p.2.2 b b.start)) l).renumbered
  else none

end Sys2Proof.Machine
end

