-- ==== Sys2Proof/Machine/RecordControl.lean ====
section
/-! DEFINITION. Machine/RecordControl.lean: record control and system operations (R74 to R86, R91 to R95). -/

namespace Sys2Proof.Machine

/-- nop (R74). -/
def execNop (s : State) : Host.Outcome State Fault Refusal := computeOp id s

/-- movi (R74). -/
def execMovi (d : Reg) (imm : BitVec 20) (s : State) : Host.Outcome State Fault Refusal :=
  computeOp (fun r => r.setW d (sext20 imm)) s

/-- movhi (R74). -/
def execMovhi (d : Reg) (imm : BitVec 20) (s : State) : Host.Outcome State Fault Refusal :=
  computeOp (fun r => r.setW d (imm ++ (r.w d).extractLsb' 0 12)) s

/-- The word that movk reads. -/
def kWord (u : UnitState) : KSel → Word
  | .k0 => u.k 0 | .k1 => u.k 1 | .k2 => u.k 2 | .k3 => u.k 3 | .acc => u.acc

/-- movk (R74). -/
def execMovk (d : Reg) (k : KSel) (s : State) : Host.Outcome State Fault Refusal :=
  plainOp (fun _ u r => .send u [out0 (r.setW d (kWord u k))]) s

/-- mov (R74). -/
def execMov (d a : Reg) (len : Len) (s : State) : Host.Outcome State Fault Refusal :=
  computeOp (fun r => r.setWords d.toNat (r.slice a.toNat len.words)) s

/-- A base register written with its copy in BASEBLK (R91): both in one step at the region controller. -/
def setBase (n : BitVec 4) (new : Launch → Record → DWord) (s : State) : Host.Outcome State Fault Refusal :=
  recordStep (fun _ u r => .send u [out0 r])
    (fun l r s =>
      if r.isToken then .ok s ()
      else
        let v := new l r
        (s.storeRegion l.record.space (placed (l.record.baseBlk.toNat + 8 * n.toNat) [lo32 v, hi32 v])).bind fun t _ =>
          .ok (t.modLaunch s.focus.inst fun l => { l with bases := l.bases.setIfInBounds n.toNat v }) ()) s

/-- setb (R91). -/
def execSetb (n : BitVec 4) (a : Reg) (s : State) : Host.Outcome State Fault Refusal :=
  setBase n (fun _ r => r.pair a.toNat) s

/-- setbw.lo and setbw.hi (R91). -/
def execSetbw (n : BitVec 4) (a : Reg) (hi : Bool) (s : State) : Host.Outcome State Fault Refusal :=
  setBase n (fun l r => if hi then pair64 (lo32 (l.base n)) (r.w a) else pair64 (r.w a) (hi32 (l.base n))) s

/-- call (R80). -/
def execCall (back : BitVec 8) (s : State) : Host.Outcome State Fault Refusal :=
  plainOp (fun _ u r =>
    let c := r.ctl
    let callee := (u.k 0).extractLsb' 0 8
    if c.ret1 != 0 then .trap .callDepth ((0 : BitVec 40) ++ callee ++ c.ret1 ++ c.ret0) 0
    else .send u [out0 (r.setCtl { c with ret1 := c.ret0, ret0 := back, blk := callee })]) s

/-- ret (R81). -/
def execRet (s : State) : Host.Outcome State Fault Refusal :=
  plainOp (fun _ u r => if r.ctl.ret0 = 0 then .trap .retEmpty 0 0 else .send u [out0 r.returned]) s

/-- ret.trap, the return from a trap (R81). -/
def execRetTrap (s : State) : Host.Outcome State Fault Refusal :=
  plainOp (fun _ u r => if r.ctl.trapped then .send u [out0 r.returned] else .trap .retEmpty 1 0) s

/-- Byte i of k0, the block that route i of an emit reaches (R79). -/
def emitBlock (u : UnitState) (i : Nat) : BitVec 8 := (u.k 0).extractLsb' (8 * i) 8

/-- The next block of an emit (R79). -/
def EmitMode.next (m : EmitMode) (r : Record) : BitVec 8 :=
  match m with
  | .target b => b
  | .keep => r.ctl.blk
  | .pred b f => if r.ctl.p then b else f

/-- emit (R79): a token on every candidate route, with that route's block; any other record on the lowest candidate route
whose block is the next one, or ILLEGAL. -/
def execEmit (mask : BitVec 4) (mode : EmitMode) (s : State) : Host.Outcome State Fault Refusal :=
  recordOp (fun _ u r =>
    let candidates := (List.range 4).filter fun i => mask.getLsbD i
    if r.isToken then
      .send u (candidates.map fun i => { port := 0, route := some i, record := r.setBlk (emitBlock u i) })
    else
      let blk := EmitMode.next mode r
      match candidates.find? fun i => emitBlock u i == blk with
      | some i => .send u [{ port := 0, route := some i, record := r.setBlk blk }]
      | none => .trap .illegal ((0 : BitVec 44) ++ mask ++ blk ++ (1 : BitVec 8)) 0) s

/-- fork (R82). -/
def execFork (target : BitVec 8) (s : State) : Host.Outcome State Fault Refusal :=
  recordOp (fun _ u r => .send u [out0 r, out1 (r.setBlk target)]) s

/-- drop (R83): the record is removed and counted in DROPS. -/
def execDrop (s : State) : Host.Outcome State Fault Refusal :=
  recordStep (fun _ u _ => .send u [])
    (fun _ _ s => .ok (s.modLaunch s.focus.inst fun l => { l with drops := l.drops + 1 }) ()) s

/-- retire (R84). -/
def execRetire (s : State) : Host.Outcome State Fault Refusal := recordOp (fun _ u r => .send u [out0 r]) s

/-- sel (R74). -/
def execSel (d a b : Reg) (len : Len) (s : State) : Host.Outcome State Fault Refusal :=
  computeOp (fun r => r.setWords d.toNat (r.slice (if r.ctl.p then a.toNat else b.toNat) len.words)) s

/-- setp (R77). -/
def execSetp (cond : Cond) (a : Reg) (operand : Sum (BitVec 20) Reg) (s : State) : Host.Outcome State Fault Refusal :=
  computeOp (fun r => r.setP (Cond.holds cond (r.w a) (match operand with | .inl imm => sext20 imm | .inr b => r.w b))) s

/-- clrp (R77). -/
def execClrp (s : State) : Host.Outcome State Fault Refusal := computeOp (fun r => r.setP false) s

/-- setbud (R78). -/
def execSetbud (imm : BitVec 4) (s : State) : Host.Outcome State Fault Refusal := computeOp (fun r => r.setBud imm) s

/-- getrcw (R74). -/
def execGetrcw (d : Reg) (s : State) : Host.Outcome State Fault Refusal := computeOp (fun r => r.setPair d.toNat r.rcw) s

/-- setord (R74). -/
def execSetord (a : Reg) (s : State) : Host.Outcome State Fault Refusal := computeOp (fun r => r.setOrd (r.w a)) s

/-- eos (R78). -/
def execEos (s : State) : Host.Outcome State Fault Refusal := computeOp (fun r => r.setEos true) s

/-- The priority a launch has while it waits: it rises by one for every 16 quanta (R11). -/
def Launch.effective (l : Launch) : Nat := l.record.pri.toNat - l.aging / 16

/-- The dies that a region occupies: those of its corner pages. -/
def Launch.diesOf (l : Launch) : List Nat :=
  let x := l.px + l.record.width.toNat
  let y := l.py + l.record.height.toNat
  [pageDie l.px l.py, pageDie x l.py, pageDie l.px y, pageDie x y]

/-- A launch waits on a die: DIES allows the die, and its domain, if it has one, has a page there (R94, R359). -/
def Launch.waitsOn (l : Launch) (d : Nat) : Bool :=
  (l.record.dies == 0 || l.record.dies.getLsbD d) &&
  match l.allowed with
  | some (x, y, w, h) => [pageDie x y, pageDie (x + w) y, pageDie x (y + h), pageDie (x + w) (y + h)].contains d
  | none => true

/-- A launch of the same or a higher priority waits on a die that a region occupies (R94). -/
def State.contended (s : State) (l : Launch) : Bool :=
  s.launches.any fun e => (e.2.phase == .waiting || e.2.phase == .away) && decide (Launch.effective e.2 ≤ l.record.pri.toNat) &&
    l.diesOf.any e.2.waitsOn

/-- yield (R94): the record passes, and where a launch of the same or a higher priority waits, a region with yield points offers the
rest of its quantum. -/
def execYield (s : State) : Host.Outcome State Fault Refusal :=
  recordStep (fun _ u r => .send u [out0 r])
    (fun l r s =>
      if r.isToken || !s.contended l || !l.hasYield then .ok s ()
      else .ok (s.modLaunch s.focus.inst fun l => { l with offered := true }) ()) s

/-- trap (R95). -/
def execTrap (imm : BitVec 20) (s : State) : Host.Outcome State Fault Refusal :=
  plainOp (fun _ _ _ => .trap .trapop (imm.zeroExtend 64) 0) s

/-- brk (R95). -/
def execBrk (imm : BitVec 20) (s : State) : Host.Outcome State Fault Refusal :=
  plainOp (fun _ _ _ => .trap .brk (imm.zeroExtend 64 ||| 0x100000) 0) s

/-- rdclk (R92). -/
def execRdclk (d : Reg) (s : State) : Host.Outcome State Fault Refusal :=
  plainOp (fun l u r => .send u [out0 (r.setPair d.toNat (s.cycles l))]) s

/-- The identifier that rdid reads (R93). -/
def idWord (l : Launch) (x y : Nat) : IdSel → Word
  | .cell => BitVec.ofNat 32 (l.absY y * 256 + l.absX x)
  | .rcell => BitVec.ofNat 32 (y * 256 + x)
  | .die => BitVec.ofNat 32 (l.dieOf x y)
  | .space => l.record.space.zeroExtend 32
  | .level => l.record.level.zeroExtend 32

/-- rdid (R93). -/
def execRdid (d : Reg) (sel : IdSel) (s : State) : Host.Outcome State Fault Refusal :=
  plainOp (fun l u r => .send u [out0 (r.setW d (idWord l s.focus.x s.focus.y sel))]) s

/-- What zip does with its two records (R75). -/
def zipRecords (d b : Reg) (len : Len) (r r1 : Record) : Record :=
  let joined := r.setWords d.toNat (r1.slice b.toNat len.words)
  joined.setPoison (r.ctl.poison || r1.ctl.poison)

/-- zip (R75): it waits for a record on each input; two tokens or two records leave as one; a token with a record traps
ILLEGAL, and the in1 record is removed at once and counted in DROPS. BREAK and YIELD look at the in0 record, the one that the element
sends on and that a trap record carries: DESIGN CHOICE, log 124. -/
def execZip (d b : Reg) (len : Len) (s : State) : Host.Outcome State Fault Refusal :=
  let f := s.focus
  match s.here with
  | none => .next s
  | some (l, u) =>
    match u.port 0, u.port 1 with
    | r :: _, r1 :: _ =>
      if l.takes u && (breakpoint u r).isSome && r.isToken != r1.isToken then
        let s := s.trapHead r .illegal
          (BitVec.ofNat 64 (2 + (if r.isToken then 256 else 0) + (if r1.isToken then 512 else 0))) 0
        .next ((s.modUnit f.inst f.x f.y f.unit fun v => v.pop 1).modLaunch f.inst fun l => { l with drops := l.drops + 1 })
      else recordOp (fun _ u r => .send (u.pop 1) [out0 (zipRecords d b len r r1)]) s
    | _, _ => .next s

/-- The record that split sends on out1 (R76). -/
def splitRecord (d a : Reg) (len : Len) (r : Record) : Record :=
  if r.isToken then Record.zero r.rcw
  else (Record.zero r.rcw).setWords d.toNat (r.slice a.toNat len.words)

/-- split (R76). -/
def execSplit (d a : Reg) (len : Len) (s : State) : Host.Outcome State Fault Refusal :=
  recordOp (fun _ u r => .send u [out0 r, out1 (splitRecord d a len r)]) s

/-- The new acc, and the LFSR after it (R85). -/
def accNext (op : AccOp) (mode : Round) (u : UnitState) (x : Word) : UnitState :=
  match op with
  | .add => { u with acc := u.acc + x }
  | .min => { u with acc := if x.slt u.acc then x else u.acc }
  | .max => { u with acc := if u.acc.slt x then x else u.acc }
  | .fadd =>
    let (vs, t) := withLfsr mode u.lfsr
      [fun r => convert .fp32 mode false r (Val.add mode (Fmt.value .fp32 u.acc.toNat) (Fmt.value .fp32 x.toNat))]
    { u with acc := BitVec.ofNat 32 (vs.headD 0), lfsr := t }
  | .fmax => { u with acc := BitVec.ofNat 32 (fpMax .fp32 u.acc.toNat x.toNat) }

/-- acc (R85). -/
def execAcc (op : AccOp) (a : Reg) (round : Round) (s : State) : Host.Outcome State Fault Refusal :=
  plainOp (fun l u r => .send (accNext op (round.resolve l.rmode) u (r.w a)) [out0 r]) s

/-- accget and accget.clr (R86), tokens included. -/
def execAccget (d : Reg) (clear : Bool) (s : State) : Host.Outcome State Fault Refusal :=
  recordOp (fun _ u r => .send (if clear then { u with acc := 0 } else u) [out0 (r.setW d u.acc)]) s

end Sys2Proof.Machine
end

