-- ==== Sys2Proof/Machine/Collie.lean ====
section
/-! DEFINITION. Machine/Collie.lean: the scheduler: accepting launches (R34, R35, R355), child queues and domains (R359), peer
packets (R358), placement (R361, R362), quanta, victims and compaction (R363 to R365, R371), pre-emption and restore (R366 to
R370), and kills (R372). -/

namespace Sys2Proof.Machine

/-! ### Pages -/

/-- A page is unusable while its page unit or a matrix tile of it is retired (R362). -/
def State.usable (s : State) (px py : Nat) : Bool :=
  !(NSet.has s.retired (unitKey (px * 8) (py * 8) 13) || NSet.has s.retired (unitKey (px * 8 + 3) (py * 8 + 1) 12) ||
    NSet.has s.retired (unitKey (px * 8 + 3) (py * 8 + 5) 12))

/-- A page lies in a rectangle of an origin, a width and a height less 1. -/
def pageIn (px py x y w h : Nat) : Bool := decide (x ≤ px) && decide (px ≤ x + w) && decide (y ≤ py) && decide (py ≤ y + h)

/-- The width less 1 of a launch's rectangle. -/
def Launch.w (l : Launch) : Nat := l.record.width.toNat
/-- The height less 1. -/
def Launch.h (l : Launch) : Nat := l.record.height.toNat

/-- A page is held by a region, or held for a launch other than `me` (R363). -/
def State.pageTaken (s : State) (me : Nat) (except : List Nat) (px py : Nat) : Bool :=
  s.launches.any fun e =>
    let l := e.2
    (l.hasPages && !except.contains e.1 && pageIn px py l.px l.py l.w l.h) ||
    (match l.held with
     | some (x, y) => e.1 != me && pageIn px py x y l.w l.h
     | none => false)

/-- The constraints of a launch allow its rectangle at an origin (R359, R362): on the part, in its domain, on usable pages, on dies that
DIES allows, and on one die unless SEAMOK. -/
def State.permits (s : State) (l : Launch) (x y : Nat) : Bool :=
  let pages := (List.range (l.h + 1)).flatMap fun j => (List.range (l.w + 1)).map fun i => (x + i, y + j)
  decide (x + l.w ≤ 15) && decide (y + l.h ≤ 7) &&
  (match l.allowed with
   | some (ax, ay, aw, ah) => decide (ax ≤ x) && decide (x + l.w ≤ ax + aw) && decide (ay ≤ y) && decide (y + l.h ≤ ay + ah)
   | none => true) &&
  (l.record.seamOk || pageDie x y == pageDie (x + l.w) (y + l.h)) &&
  pages.all fun p => s.usable p.1 p.2 && (l.record.dies == 0 || l.record.dies.getLsbD (pageDie p.1 p.2))

/-- Candidate origins, py ascending and then px (R362). -/
def origins : List (Nat × Nat) := (List.range 8).flatMap fun y => (List.range 16).map fun x => (x, y)

/-- A launch's rectangle is free at an origin, the pages of some regions counted free. -/
def State.isFree (s : State) (inst : Nat) (l : Launch) (except : List Nat) (x y : Nat) : Bool :=
  (List.range (l.h + 1)).all fun j => (List.range (l.w + 1)).all fun i => !s.pageTaken inst except (x + i) (y + j)

/-- The first origin of a launch (R362). -/
def State.firstFit (s : State) (inst : Nat) (l : Launch) (except : List Nat) : Option (Nat × Nat) :=
  origins.find? fun o => s.permits l o.1 o.2 && s.isFree inst l except o.1 o.2

/-- A launch can be placed with every usable page free (R355). -/
def State.everFits (s : State) (l : Launch) : Bool := origins.any fun o => s.permits l o.1 o.2

/-! ### Acceptance (R355) -/

/-- A launch in the waiting set. -/
def Launch.waits (l : Launch) : Bool := l.phase == .waiting || l.phase == .away

/-- No launch is accepted: the waiting set is full, at 4,096 launches (R355), or a warm reset is killing the live ones (R377). -/
def State.noRoom (s : State) : Bool := s.warm || decide (4096 ≤ (s.launches.filter fun e => e.2.phase == .waiting).length)

/-- A launch that has been accepted. -/
def Launch.new (r : LaunchRec) (origin : Origin) (allowed : Option (Nat × Nat × Nat × Nat)) (sequence : Nat) : Launch :=
  { inst := 0, sequence := sequence, record := r, origin := origin, phase := .waiting, px := 0, py := 0, allowed := allowed, aging := 0,
    blocked := 0, placedAt := 0, exempt := 0, held := none, moving := none, loader := none, cfgs := [], committed := false,
    firstCommit := 0, rmode := r.rmode, bases := Vector.replicate 16 0, units := [], tiles := [], matrix := [], routes := [],
    traps := 0, trapLost := 0, firstCause := 0, retired := 0, drops := 0, faults := 0, preempts := 0, underRead := 0, underAddr := 0,
    status := 0, cmdIndex := 0, loadErr := 0, trapQ := [], handlerQ := [], halting := false, offered := false, lastMove := 0,
    preemptAt := 0, kennel := { entries := [], freed := [], fresh := 0, high := 0, lost := 0, ready := false, owed := [] },
    preloads := [], wanted := false, compacting := false, context := none, saved := none, fatal := none, hasPages := false, stage := 0,
    doneReply := none }

/-- A launch entered under an instance number. -/
def State.enter (s : State) (inst : Nat) (l : Launch) : State :=
  { s.setLaunch inst { l with inst := inst } with featureLocked := true }

/-- A launch checked and entered in the waiting set, or ended with the status of the check that it fails (R35, R355). A launch that
fails is kept under a number of its own until its completion word is written; its two reports go together after that (R358). -/
def State.acceptLaunch (s : State) (r : LaunchRec) (origin : Origin) (allowed : Option (Nat × Nat × Nat × Nat)) (child : Bool) : State :=
  let l := Launch.new r origin allowed s.nextSequence
  let bad : BitVec 8 :=
    if !r.ok child then 4
    else if s.retires.any (·.space == r.space) then 5
    else if !s.everFits l then 7
    else 0
  if bad = 0 then
    let inst := s.nextInstance % 2 ^ 32
    let s := s.enter inst l
    { s with nextInstance := s.nextInstance + 1, nextSequence := s.nextSequence + 1 }.reportLaunch inst 1 0
  else
    let key := 2 ^ 40 + s.reqSeq
    let s := { s with reqSeq := s.reqSeq + 1 }
    (s.enter key l).endUnrun key bad 0 0

/-- The launch record at an address, read once (R354). -/
def State.readRecord (s : State) (space : BitVec 12) (a : DWord) : Now LaunchRec :=
  (s.loadWords space a.toNat 16).bind fun s ws => .ok s (LaunchRec.ofWords ws)

/-- The first error of a walk recorded, and every error counted (R356). -/
def HostQueue.error (w : HostQueue) (code : BitVec 8) (a : DWord) : HostQueue :=
  { w with errCount := w.errCount + 1, errCode := if w.errCode = 0 then code else w.errCode,
           errAddr := if w.errCode = 0 then a else w.errAddr }

/-- The state with a host queue written. -/
def State.setQueue (s : State) (q : Nat) (w : HostQueue) : State := { s with queues := s.queues.setIfInBounds q w }

/-- A host queue. -/
def State.queue (s : State) (q : Nat) : HostQueue := s.queues[q]?.getD HostQueue.reset

/-- A launch record of a run node accepted, or dropped (R35, R354, R357). -/
def State.acceptHost (s : State) (q : Nat) (w : HostQueue) (n : Node) : State :=
  let go := fun (s : State) (w : HostQueue) (join : Option DWord) => s.setQueue q { w with phase := .accepted join, failed := false }
  if w.failed then go s (w.error 2 w.node) none
  else
    match s.readRecord w.space n.arg with
    | .ok s r =>
      let r := { r with level := 0 }
      if !r.reportable then go s (w.error 2 n.arg) none
      else go (s.acceptLaunch r (.host q) none false) w (if n.join then some r.doneAddr else none)
    | .wait s => s
    | .fault s =>
      (s.faultEvent w.space n.arg.toNat 2).setQueue q { w with stall := some (n.arg.toNat / 2 ^ 16) }
    | other => go other.state (w.error 2 w.node) none

/-- A peer packet's launch accepted, or dropped with its two reports (R35, R358). -/
def State.acceptPeer (s : State) (d : Nat) (ws : List Word) (tag : DWord) : State :=
  let r := { LaunchRec.ofWords ws with system := false, level := 0 }
  let s := s.setDie d { s.die d with peerQ := (s.die d).peerQ.drop 1 }
  if r.reportable then s.acceptLaunch r (.peer d tag) none false
  else (s.report d tag r.pri 1 0 0 0).report d tag r.pri 6 4 0 0

/-- LAUNCH_ACCEPT (R34, R35, R354, R355): the launch of a run node, or the head of a die's peer queue, while the waiting set has room. -/
def execLaunchAccept (source : LaunchSource) (s : State) : Host.Outcome State Fault Refusal :=
  if s.noRoom then .next s
  else
    match source with
    | .host q =>
      let w := s.queue q
      match w.phase, decodeNode (nodeBits w.words) with
      | .offer, some (.walkRun n) => .next (if w.stall.isSome then s else s.acceptHost q w n)
      | _, _ => .next s
    | .peer d =>
      match (s.die d).peerQ with
      | (ws, tag) :: _ => .next (s.acceptPeer d ws tag)
      | [] => .next s
where
  /-- The 256 bits of a node's words. -/
  nodeBits (ws : List Word) : BitVec 256 :=
    let w := fun (i : Nat) => ws.getD i 0
    w 7 ++ w 6 ++ w 5 ++ w 4 ++ w 3 ++ w 2 ++ w 1 ++ w 0

/-- PEER_LAUNCH_PACKET (R358): refused before FEATURE_ON, or where the die's peer queue of 64 is full; otherwise queued. One that comes
after a FEATURE_ON without PEER is refused with STATUS 2 too, which the spec gives only for a FEATURE_ON not yet taken: DESIGN CHOICE,
log 101. -/
def execPeerLaunchPacket (die : Nat) (record : List Word) (tag : DWord) (s : State) : Host.Outcome State Fault Refusal :=
  let d := die % 4
  let pri := (LaunchRec.ofWords record).pri
  if !s.featureTaken || !s.feature 7 then .next (s.report d tag pri 2 2 0 0)
  else if 64 ≤ (s.die d).peerQ.length then .next (s.report d tag pri 2 1 0 0)
  else .next (s.setDie d { s.die d with peerQ := (s.die d).peerQ ++ [(record, tag)] })

/-! ### Children (R359) -/

/-- The origin page of a child's parent at the move: where it holds its pages, or where it stood at the launch. DEDUCED: log 46. -/
def State.parentAt (s : State) (c : Child) : Nat × Nat :=
  match s.launch? c.parent with
  | some l => if l.hasPages then (l.px, l.py) else (c.px, c.py)
  | none => (c.px, c.py)

/-- The pages that a child's DOMAIN allows: the parent's rectangle as it stood at the launch, its die at the move, or any. -/
def State.allowedFor (s : State) (c : Child) : Option (Nat × Nat × Nat × Nat) :=
  let p := s.parentAt c
  match c.record.domain.toNat with
  | 0 => some (c.px, c.py, c.w, c.h)
  | 1 => some (p.1 / 8 * 8, p.2 / 4 * 4, 7, 3)
  | _ => none

/-- A child accepted, or dropped with a monitor event (R35, R359, R382). -/
def State.acceptChild (s : State) (d : Nat) (c : Child) : State :=
  let r := c.record
  if r.reportable then s.acceptLaunch r .child (s.allowedFor c) true
  else
    let bits := (if addrOk r.doneAddr 4 then 0 else 1) + (if addrOk r.statusAddr 64 then 0 else 2) + r.level.toNat * 256
    s.event d 8 0 c.parentSpace c.addr (BitVec.ofNat 32 bits)

/-- CHILD_QUEUE_MOVE (R359): the head of the next non-empty child queue in turn, d0 to d3, while the waiting set has room. -/
def execChildQueueMove (s : State) : Host.Outcome State Fault Refusal :=
  if s.noRoom then .next s
  else
    match (List.range 4).find? fun k => !(s.die ((s.childTurn + k) % 4)).children.isEmpty with
    | none => .next s
    | some k =>
      let d := (s.childTurn + k) % 4
      match (s.die d).children with
      | [] => .next s
      | c :: rest => .next ({ s.setDie d { s.die d with children := rest } with childTurn := (d + 1) % 4 }.acceptChild d c)

/-! ### Placement (R361, R362) -/

/-- Collie serves one launch before another (R361). -/
def before (a b : Launch) : Bool :=
  decide (a.effective < b.effective) || (a.effective == b.effective && decide (a.sequence ≤ b.sequence))

/-- Launches that wait, in the order of service. -/
def State.waitingOrder (s : State) : List (Nat × Launch) :=
  sortBy (fun a b => before a.2 b.2) (s.launches.filter fun e => e.2.waits)

/-- A launch placed at an origin: its base registers are read and its load begins (R91, R237, R362); a space that has begun to retire
ends it (R352). -/
def State.placeLaunch (s : State) (inst : Nat) (l : Launch) (x y : Nat) : State :=
  let l := { l with px := x, py := y, hasPages := true, held := none, compacting := false, placedAt := s.now, blocked := 0 }
  if l.phase == .away then s.setLaunch inst { l with phase := .restoring }
  else if s.retires.any (·.space == l.record.space) then (s.setLaunch inst l).endUnrun inst 5 0 0
  else
    let failed := fun (s : State) (status : BitVec 8) => s.endUnrun inst status 0xFFFFFFFF 0
    let ld := Loader.start l.record.cfgAddr l.record.cfgLen.toNat l.record.space .dev none
    let loading : Launch := { l with phase := .loading, loader := some ld }
    let placed := fun (s : State) => (s.setLaunch inst loading).reportLaunch inst 3 0
    match s.loadWords l.record.space l.record.baseBlk.toNat 32 with
    | .ok s ws =>
      let bases := Vector.ofFn fun (i : Fin 16) => pair64 (ws.getD (2 * i.val) 0) (ws.getD (2 * i.val + 1) 0)
      (s.setLaunch inst { loading with bases := bases }).reportLaunch inst 3 0
    | .wait s => s
    | .fault s => failed ((placed s).faultEvent l.record.space l.record.baseBlk.toNat 0) 4
    | .denied s => failed (placed s) 4
    | .error s => failed (placed s) 0x0A
    | .hole s => failed (placed s) 0x0A

/-- The first launch in the order of service that finds an origin, and the origin (R361, R362); one for which Collie compacts is placed after
the moves (R365 step 3). -/
def State.nextPlaced (s : State) : Option ((Nat × Launch) × Nat × Nat) :=
  (s.waitingOrder.filter fun e => !e.2.compacting).findSome? fun e => (s.firstFit e.1 e.2 []).map fun o => (e, o)

/-- LAUNCH_PLACE (R361, R362, R370): the first launch in the order of service that finds an origin is placed there. -/
def execLaunchPlace (s : State) : Host.Outcome State Fault Refusal :=
  match s.nextPlaced with
  | none => .next s
  | some (e, o) => .next (s.placeLaunch e.1 e.2 o.1 o.2)

/-! ### Victims (R363, R364, R371) -/

/-- A unit 12 of a region holds a firing operation (R54, R364). -/
def Launch.fires (l : Launch) : Bool := l.units.any fun e => e.1 % 16 == 12 && e.2.opBits != 0

/-- A region is pre-emptible (R364, R376). -/
def State.preemptible (s : State) (l : Launch) : Bool := l.hasYield && !l.fires && field s.ctxCtl 0 28 != 0 && s.feature 9

/-- A region may be chosen as a victim or moved: resident, pre-emptible, not already on its way out, and with room in the pool for its
context (R363, R369). -/
def State.movable (s : State) (l : Launch) : Bool :=
  (l.phase == .running || l.phase == .loading) && l.fatal.isNone && !l.wanted && s.preemptible l &&
  (s.poolFit l.contextUnits).isSome

/-- A quantum in cycles (R360). -/
def State.quantumCycles (s : State) : Nat := max 4096 s.quantum.toNat

/-- A region is an eligible victim of a waiting launch (R363); `offering` is a region whose yield made it eligible at once. -/
def State.eligible (s : State) (w v : Launch) (offering : Option Nat) : Bool :=
  s.movable v && v.exempt == 0 &&
  (decide (w.effective < v.record.pri.toNat) ||
   (v.record.pri.toNat == w.effective && (decide (s.quantumCycles ≤ s.now - v.placedAt) || offering == some v.inst)))

/-- A load abandoned (R371): its groups are discarded, its pages freed, and it waits again with its sequence and its aging. -/
def State.abandonLoad (s : State) (inst : Nat) : State :=
  s.modLaunch inst fun l =>
    { l.emptied with phase := .waiting, hasPages := false, loader := none, units := [], tiles := [], matrix := [], routes := [],
                     preloads := [], committed := false, kennel := Kennel.mk [] [] 0 0 0 false [] }

/-- A region asked to give up its pages: a load is abandoned, a running region's pre-emption is requested with its pool space taken
(R366, R369, R371); none where the pool cannot take its context. -/
def State.evict (s : State) (inst : Nat) (target : Option (Nat × Nat)) : Option State :=
  match s.launch? inst with
  | none => some s
  | some l =>
    if l.phase == .loading then some (s.abandonLoad inst)
    else (s.takeContext inst).map fun s => s.modLaunch inst fun l => { l with wanted := true, preemptAt := s.now, moving := target }

/-- Regions asked to give up their pages, all of them or none. -/
def State.evictAll (s : State) : List Nat → Option State
  | [] => some s
  | i :: is => (s.evict i none).bind fun s => State.evictAll s is

/-- The choice of victims for a waiting launch: at the first origin where its rectangle fits among free pages and those of eligible
victims, every region that holds a page of it is evicted, and the pages are held for the launch (R363). A launch for which pages are held
already is served by its victims' drain. -/
def State.chooseVictims (s : State) (inst : Nat) (w : Launch) (offering : Option Nat) : State :=
  let victims := (s.launches.filter fun e => s.eligible w e.2 offering).map (·.1)
  let hit := fun (o : Nat × Nat) => victims.filter fun i => match s.launch? i with
    | some v => v.hasPages && overlap o.1 o.2 w.w w.h v.px v.py v.w v.h
    | none => false
  let at_ := fun (o : Nat × Nat) =>
    if s.permits w o.1 o.2 && s.isFree inst w victims o.1 o.2 then
      (s.evictAll (hit o)).map fun s => s.modLaunch inst fun w => { w with held := some o }
    else none
  if w.held.isSome then s else (origins.findSome? at_).getD s

/-- The first waiting launch that has no origin, is not being compacted for, and has at most an effective priority. -/
def State.blockedFirst (s : State) (most : Nat) : Option (Nat × Launch) :=
  s.waitingOrder.find? fun e =>
    decide (e.2.effective ≤ most) && !e.2.compacting && (s.firstFit e.1 e.2 []).isNone

/-! ### Compaction (R365) -/

/-- Usable free pages of a launch's domain. -/
def State.freePages (s : State) (inst : Nat) (l : Launch) : Nat :=
  (origins.filter fun p =>
    (match l.allowed with | some (x, y, w, h) => pageIn p.1 p.2 x y w h | none => true) &&
    (l.record.dies == 0 || l.record.dies.getLsbD (pageDie p.1 p.2)) && s.usable p.1 p.2 && !s.pageTaken inst [] p.1 p.2).length

/-- A region lies in a launch's domain. -/
def inDomain (w v : Launch) : Bool :=
  match w.allowed with
  | some (x, y, aw, ah) => pageIn v.px v.py x y aw ah && pageIn (v.px + v.w) (v.py + v.h) x y aw ah
  | none => w.record.dies == 0 || w.record.dies.getLsbD (pageDie v.px v.py)

/-- One region looked at by a compaction: it is moved to its first fit, its own pages counted free, where that lies before its origin
(R365 step 2). A region on its way holds its pages and, through `held`, those of its target. None where it stays. -/
def State.compactOne (s : State) (i : Nat) : Option State :=
  match s.launch? i with
  | none => none
  | some v =>
    match s.firstFit i v [i] with
    | none => none
    | some (x, y) =>
      if s.movable v && (decide (y < v.py) || (y == v.py && decide (x < v.px))) then
        (s.evict i (some (x, y))).map fun s =>
          if v.phase == .loading then s else s.modLaunch i fun v => { v with held := some (x, y) }
      else none

/-- A region is still on its way to the place to which a compaction moves it. -/
def State.onTheWay (s : State) (i : Nat) : Bool :=
  match s.launch? i with
  | some v => v.wanted || v.phase == .preempting || v.phase == .restoring
  | none => false

/-- A compaction looks at its regions in order until one of them moves; past the last, W waits as any other does and counts its blocked
quanta from 0 (R365 steps 2 and 3). -/
def State.compactNext (s : State) (inst : Nat) : List Nat → State
  | [] => s.modLaunch inst fun w => { w with compacting := false, compactLeft := [], compactMove := none, blocked := 0 }
  | i :: rest =>
    match s.compactOne i with
    | some s => s.modLaunch inst fun w => { w with compactLeft := rest, compactMove := some i }
    | none => State.compactNext s inst rest

/-- The compactions whose moves have ended go on to their next region. -/
def State.compactOn (s : State) : State :=
  s.launches.foldl (fun (s : State) e =>
    match s.launch? e.1 with
    | some w =>
      if w.compacting && !(match w.compactMove with | some i => s.onTheWay i | none => false) then s.compactNext e.1 w.compactLeft else s
    | none => s) s

/-- A compaction for a launch: the movable regions of its domain in order of origin (R365 step 1). -/
def State.compact (s : State) (inst : Nat) (w : Launch) : State :=
  let rs := sortBy (fun a b => decide (a.2.py < b.2.py) || (a.2.py == b.2.py && decide (a.2.px ≤ b.2.px)))
    (s.launches.filter fun e => s.movable e.2 && inDomain w e.2)
  (s.modLaunch inst fun w => { w with blocked := 0, compacting := true }).compactNext inst (rs.map (·.1))

/-! ### QUANTUM_END (R361, R363, R365) -/

/-- The first quantum end that has not been dealt with. -/
def State.nextQuantum (s : State) : Nat := (s.quantumMark / s.quantumCycles + 1) * s.quantumCycles

/-- A quantum end has come that has not been dealt with; each is dealt with for itself. -/
def State.quantumDue (s : State) : Bool := decide (s.nextQuantum ≤ s.now)

/-- The exemptions of abandoned pre-emptions run down at the end of a quantum end (R368). -/
def State.tire (s : State) : State :=
  { s with launches := s.launches.map fun (e : Nat × Launch) => (e.1, { e.2 with exempt := e.2.exempt - 1 }) }

/-- Waiting launches age, and blocked launches are counted (R361, R365). -/
def State.age (s : State) : State :=
  let f := fun (inst : Nat) (l : Launch) =>
    if l.waits then
      { l with aging := l.aging + 1, blocked := if (s.firstFit inst l []).isNone then l.blocked + 1 else 0 }
    else l
  { s with launches := s.launches.map fun e => (e.1, f e.1 e.2) }

/-- The launches that Collie compacts for: blocked for COMPACTAFTER quantum ends, with free pages for their area. -/
def State.toCompact (s : State) : Option (Nat × Launch) :=
  if s.compactAfter = 0 then none
  else
    s.waitingOrder.find? fun e =>
      !e.2.compacting && decide (s.compactAfter.toNat ≤ e.2.blocked) && decide ((e.2.w + 1) * (e.2.h + 1) ≤ s.freePages e.1 e.2)

/-- QUANTUM_END (R361, R363, R365, R371): launches age, Collie compacts for one that has been blocked for long, and chooses victims for
the first that has no origin. A region that has offered the rest of its quantum brings about the choice at once (R94, R363). -/
def execQuantumEnd (s : State) : Host.Outcome State Fault Refusal :=
  if s.quantumDue then
    let s := { s with quantumMark := s.nextQuantum }.age.compactOn
    let s := match s.toCompact with
      | some (i, w) => s.compact i w
      | none => s
    match s.blockedFirst 3 with
    | some (i, w) => .next (s.chooseVictims i w none).tire
    | none => .next s.tire
  else
    match s.launches.find? fun e => e.2.offered with
    | none => .next s
    | some (i, v) =>
      let s := s.modLaunch i fun v => { v with offered := false }
      match s.blockedFirst v.record.pri.toNat with
      | some (j, w) => .next (s.chooseVictims j w (some i))
      | none => .next s

/-! ### Pre-emption (R366 to R368) -/

/-- GRANULE of a yield entry (R366). -/
def yieldGranule (x y unit : Nat) : DWord := BitVec.ofNat 64 (0xC000000000000000 + y * 2 ^ 16 + x * 2 ^ 8 + unit)

/-- YIELD_DIVERT (R366): the record at an input latch of a YIELD operation of a region being pre-empted is taken into the kennel, or
traps KENNELFULL. -/
def execYieldDivert (inst x y unit port : Nat) (s : State) : Host.Outcome State Fault Refusal :=
  match s.launch? inst with
  | none => .next s
  | some l =>
    let u := l.unit x y unit
    match u.port port with
    | [] => .next s
    | r :: _ =>
      if l.phase != .preempting || l.fatal.isSome || u.held || !u.yields || decide (7 < unit) then .next s
      else
        let opid : Word := (0 : BitVec 9) ++ u.opIndex ++ u.block ++ (0 : BitVec 7) ++ (if port = 1 then 1 else 0 : BitVec 1)
        let e : KEntry := { offset := 0, kind := .yieldEntry, x := x, y := y, unit := unit, port := port, seq := s.reqSeq,
                            granule := yieldGranule x y unit, opid := opid, record := r, access := none, req := none, failed := false,
                            out := false, words := [] }
        match s.kennelPut inst e with
        | some s =>
          .next (({ s with reqSeq := s.reqSeq + 1 }.modUnit inst x y unit fun u => u.pop port).moved inst)
        | none =>
          .next ((s.modUnit inst x y unit fun u => { u with held := true }).raise inst
            (trapAt u x y unit r .kennelFull 0 (yieldGranule x y unit) (.latch port)))

/-- Requests that wait at homes: buffered, for quota, or refused. -/
def State.atHomes (s : State) : List (Home × Req) :=
  (s.slices.flatMap fun e => (e.2.waiters ++ e.2.quota ++ e.2.refused).map fun r => (Home.slice e.1, r)) ++
  s.launches.flatMap fun e => e.2.tiles.flatMap fun t => t.2.waiters.map fun r => (Home.tile e.1 (t.1 % 128) (t.1 / 128), r)

/-- An access that only waits at homes. -/
def waitsAtHome (held : List Req) (x y unit : Nat) (a : Access) : Bool :=
  !a.trapped && !a.lanes.isEmpty &&
  a.lanes.all fun (q : LaneState) => q.reply.isSome || held.any fun r => match r.party with
    | .access _ rx ry ru id lane => rx == x && ry == y && ru == unit && id == a.id && lane == q.lane
    | _ => false

/-- An engine operation of a region with a region-tile or tile-register destination is under way (R366). -/
def State.fillsTiles (s : State) (inst : Nat) : Bool :=
  (s.copies.any fun e => e.2.any fun (j : CopyJob) => j.inst == inst && (descDSpace j.desc == 1 || descDSpace j.desc == 3)) ||
  s.dies.toList.any fun d => d.kelpie.any fun (j : KelpieJob) => j.inst == inst && j.replay && (j.record.at 1).getLsbD 0

/-- A request of a region's record is on its way to a home, in translation or before a fill. -/
def State.recordsUnderway (s : State) (inst : Nat) : Bool :=
  s.slices.any (fun e => (e.2.reqs ++ e.2.missing).any (Req.ofRegion inst)) ||
  s.dies.toList.any fun d => ((d.walkQ.map (·.req)) ++ d.caught ++ d.catchRefused).any (Req.ofRegion inst)

/-- An entry of a kennel has been issued again, and its record waits at no home. -/
def KEntry.away (held : List Req) (e : KEntry) : Bool :=
  e.out && !(held.any fun r => match r.party with | .access _ x y u id _ => e.ofAccess x y u id | _ => false)

/-- A region is quiescent (R366 step 3). -/
def State.quiescent (s : State) (inst : Nat) (l : Launch) : Bool :=
  let held := (s.atHomes.filter fun p => Req.ofRegion inst p.2).map (·.2)
  let unit := fun (e : Nat × UnitState) =>
    e.2.ins.all (fun p => p.2.isEmpty) && e.2.resume.isEmpty && !e.2.held &&
    e.2.flight.all (waitsAtHome held (e.1 / 16 % 128) (e.1 / 16 / 128) (e.1 % 16))
  let tile := fun (t : MatrixTile) => t.latch.isNone && t.firing.isNone && t.drain.isNone && t.cmds.isEmpty
  l.units.all unit && l.matrix.all (fun e => tile e.2) && l.handlerQ.isEmpty && l.trapQ.isEmpty && l.cfgs.isEmpty &&
  !(l.kennel.entries.any (KEntry.away held)) && !s.recordsUnderway inst &&
  l.tiles.all (fun e => (e.2.reqs ++ e.2.network).all fun r => !Req.ofRegion inst r) && !s.fillsTiles inst

/-- The parked entry of a fill that waited for its quota: it does not lose when it is presented (R194). -/
def State.spareFill (s : State) (rq : Req) : State :=
  match rq.party with
  | .access inst x y u id _ => s.kennelMap inst fun f => if f.ofAccess x y u id then { f with spared := true } else f
  | _ => s

/-- The region's waiters at homes parked: buffered ones with their granules' other waiters, quota waiters and refused fills as entries
for their granules (R190, R194). -/
def State.parkAll (s : State) (inst : Nat) : State :=
  let mine := s.atHomes.filter fun p => Req.ofRegion inst p.2
  mine.foldl (fun (s : State) p =>
    let (h, r) := p
    if (s.waiters h).any (fun w => w.party == r.party && w.key == r.key) then s.parkGranule h r.key []
    else
      match h with
      | .slice sl =>
        let x := s.slice sl
        let gone := fun (rs : List Req) => rs.filter fun q => q.party != r.party
        if !(x.quota ++ x.refused).any (·.party == r.party) then s
        else
          match s.ensureLine r.space r.va false with
          | .wait s => s
          | other =>
            let s := other.state
            let x := s.slice sl
            let s := ((s.setSlice sl { x with quota := gone x.quota, refused := gone x.refused }).setParkedAt h r.key true).parkReq h r
            s.spareFill r
      | .tile _ _ _ => s) s |>.freePlaces

/-- A region's context written to its pool space (R45, R366). -/
def State.writeContext (s : State) (l : Launch) (at_ : Nat) : Now Unit :=
  let base := s.ctxBase.toNat + 4096 * at_
  let size := 4 * (l.contextBlock 0).length
  (s.writeRegion s.poolSpace base (l.contextBlock (BitVec.ofNat 64 (base + size)))).bind fun s _ =>
    s.writeRegion s.poolSpace (base + size) l.savedStream

/-- The copies that a region reads from its tiles ask again for the unit in hand once the tiles are there again: their requests go with the
tiles (R312). -/
def State.suspendCopies (s : State) (inst : Nat) : State :=
  let again := fun (j : CopyJob) =>
    if j.inst == inst && descSSpace j.desc == 1 && j.phase == 1 && j.reply.isNone then { j with phase := 0 } else j
  { s with copies := s.copies.map fun e => (e.1, e.2.map again) }

/-- A saved region gives up its pages (R361, R366): it is AWAY, or, moved by a compaction, on its way back at once. -/
def State.goAway (s : State) (inst : Nat) (l : Launch) : State :=
  let count : BitVec 16 := if l.preempts = 0xFFFF then 0xFFFF else l.preempts + 1
  let away := { l with phase := .away, wanted := false, saved := some l.saved_, units := [], tiles := [], matrix := [], routes := [],
                       hasPages := false, preempts := count, blocked := 0, offered := false }
  match l.moving with
  | some (x, y) =>
    (s.setLaunch inst { away with phase := .restoring, px := x, py := y, hasPages := true, held := none, moving := none,
                                  placedAt := s.now }).reportLaunch inst 4 0
  | none =>
    { s.setLaunch inst { away with sequence := s.nextSequence, aging := 0 } with nextSequence := s.nextSequence + 1 }.reportLaunch inst 4 0

/-- A context's place taken anew at the size that the region needs after its last cfg (R369). A region whose context the pool cannot take any
more is not pre-empted after all: DESIGN CHOICE, log 102. -/
def State.resizeContext (s : State) (inst : Nat) : State := ((s.freeContext inst).takeContext inst).getD (s.abandonPreempt inst)

/-- A requested pre-emption begins, once its context's place has the size that the region needs (R369). -/
def State.beginPreempt (s : State) (inst : Nat) (l : Launch) : State :=
  if l.context.any fun c => decide (c.2 < l.contextUnits) then s.resizeContext inst
  else s.modLaunch inst fun l => { l with phase := .preempting, wanted := false }

/-- PREEMPT_SAVE (R190, R366): a requested pre-emption begins once no cfg is in progress; a quiescent region's waiters are parked, its
cache ways written back, its ranges deposited and its context saved, and its pages are freed. A context that cannot be written ends the
region with the address of its context block: DESIGN CHOICE, log 122. -/
def execPreemptSave (inst : Nat) (s : State) : Host.Outcome State Fault Refusal :=
  match s.launch? inst with
  | none => .next s
  | some l =>
    if l.fatal.isSome then .next s
    else if l.wanted && l.phase == .running then
      .next (if l.cfgs.isEmpty then s.beginPreempt inst l else s)
    else if l.phase != .preempting || !s.quiescent inst l then .next s
    else if l.context.any fun c => decide (c.2 < l.contextUnits) then .next (s.resizeContext inst)
    else
      let s := s.parkAll inst
      match s.launch? inst, l.context with
      | some l, some (at_, _) =>
        if !s.quiescent inst l || l.units.any fun e => !e.2.flight.isEmpty then .next s
        else
          match s.flushRegionWays inst (l.tiles.map (·.1)) with
          | (false, s) => .next s
          | (true, s) =>
            let s := s.depositAll inst 1 l
            match s.launch? inst with
            | none => .next s
            | some l =>
              match s.writeContext l at_ with
              | .ok s _ => .next ((s.suspendCopies inst).goAway inst l)
              | .wait s => .next s
              | other => .next (State.failRegion inst (s.ctxBase + BitVec.ofNat 64 (4096 * at_)) other.state)
      | _, _ => .next s

/-- PREEMPT_ABANDON (R368): a pre-emption that is not quiescent PREEMPTWAIT cycles after its request. -/
def execPreemptAbandon (inst : Nat) (s : State) : Host.Outcome State Fault Refusal :=
  match s.launch? inst with
  | none => .next s
  | some l =>
    if !(l.wanted || l.phase == .preempting) || l.fatal.isSome || decide (s.now - l.preemptAt < s.preemptWait.toNat) ||
       (l.phase == .preempting && s.quiescent inst l) then .next s
    else .next ((s.freeContext inst).abandonPreempt inst)

/-! ### Restore (R370) -/

/-- The homes and granules of a region's park entries. -/
def Launch.parkedAt (l : Launch) (s : State) (inst : Nat) : List (Home × Nat) :=
  ((l.kennel.entries.filter fun e => e.kind == .park).filterMap fun (e : KEntry) => e.req.map fun r =>
    (match r.loc with | .tile x y _ => Home.tile inst x y | _ => Home.slice (s.homeSlice r.va), r.key)).eraseDups

/-- A walk of a parked granule begun, to present its entries (R187, R190). -/
def State.startWalk (s : State) (h : Home) (key : Nat) : State :=
  let ws := s.walks h
  if ws.any (·.granule == key) then s.setWalks h (ws.map fun w => if w.granule == key then { w with again := true } else w)
  else s.setWalks h (ws ++ [{ granule := key, collected := false, todo := [], robbed := [], again := false }])

/-- The fault-queue entries of a region reissued; those that fault.fail marked trap UNMAPPED (R143, R231, R370). -/
def State.reissueAll (s : State) (inst : Nat) (l : Launch) : State :=
  (l.kennel.entries.filter fun e => e.kind == .fault && !e.out).foldl
    (fun (s : State) e => if e.failed then s.failEntry inst e else s.reissue inst e) s

/-- The yield entries of a region delivered to their ports, in increasing SEQ (R370). -/
def State.deliverYields (s : State) (inst : Nat) (l : Launch) : State :=
  let ys := sortBy (fun a b => decide (a.seq ≤ b.seq)) (l.kennel.entries.filter fun e => e.kind == .yieldEntry)
  let s := ys.foldl (fun (s : State) e => s.modUnit inst e.x e.y e.unit fun u => u.setPort e.port (u.port e.port ++ [e.record])) s
  s.kennelFree inst fun e => e.kind == .yieldEntry

/-- Steps 1 to 5 of R370. A word of the context block or of the saved stream that cannot be read, and a section that names a unit absent
from the configuration, end the region (R45, R230, R354); so does a kennel entry that cannot be read. That a fault there does, and a word of
BASEBLK that cannot be read, with the address of the context block: DESIGN CHOICE, log 122. -/
def State.reload (s : State) (inst : Nat) (l : Launch) (v : Saved) : State :=
  let run := l.context.getD (0, 0)
  let ends := fun (s : State) => (s.freeContext inst).endFatal inst 0x0A .deviceErr 2 (s.ctxBase + BitVec.ofNat 64 (4096 * run.1))
  let read := (s.readContext run).bind fun s block =>
    (s.readRegion l.record.space l.record.baseBlk.toNat 32).bind fun s ws => .ok s (block, ws)
  match read with
  | .ok s (block, ws) =>
    let bases := Vector.ofFn fun (i : Fin 16) => pair64 (ws.getD (2 * i.val) 0) (ws.getD (2 * i.val + 1) 0)
    match (if blockFits v.units block then { l with bases := bases }.restored s.retiredLinks s.retired v else none) with
    | none => ends s
    | some l =>
      match s.readStream block l with
      | .ok s _ =>
        let s := l.kennel.entries.foldl (fun (s : State) e => s.readEntry inst e) (s.setLaunch inst { l with lastMove := s.now })
        let s := (l.parkedAt s inst).foldl (fun (s : State) p => s.startWalk p.1 p.2) s
        (s.reissueAll inst l).deliverYields inst l
      | .wait s => s
      | other => ends other.state
  | .wait s => s
  | other => ends other.state

/-- A walk presents entries of a region still. -/
def State.presenting (s : State) (inst : Nat) (l : Launch) : Bool :=
  (l.parkedAt s inst).any (fun p => (s.walks p.1).any fun w =>
    w.granule == p.2 && (!w.collected || w.again || w.todo.any fun t => t.1 == inst)) ||
  l.kennel.entries.any fun e => e.kind == .park && e.out && e.req.isSome

/-- RESTORE (R370): the region is loaded at its new place, its entries are presented and reissued, its diverted records delivered; then
its sources start. -/
def execRestore (inst : Nat) (s : State) : Host.Outcome State Fault Refusal :=
  match s.launch? inst with
  | none => .next s
  | some l =>
    if l.phase != .restoring || l.fatal.isSome then .next s
    else
      match l.saved with
      | some v => .next (s.reload inst l v)
      | none =>
        if s.presenting inst l then .next s
        else
          .next ((((s.freeContext inst).modLaunch inst fun l => { l with phase := .running, lastMove := s.now }).reportLaunch inst 5 0).compactOn)

/-! ### Kills (R230, R372) -/

/-- KILL (R372): the live launch of a completion word with the lowest instance number is ended. A kill in progress lets the write pass
unheeded. -/
def execKill (done : DWord) (s : State) : Host.Outcome State Fault Refusal :=
  if s.killing.isSome || s.inReset then .next s
  else
    match s.launches.find? fun e => e.2.record.doneAddr == done && e.2.phase != .completing with
    | none => .next { s with killResult := 0 }
    | some (i, l) =>
      let s := { s with killResult := 1, killing := some i }
      if l.phase == .waiting || l.phase == .loading then .next (s.endUnrun i 9 0 0)
      else .next ((s.freeContext i).endFatal i 9 .killed 0 0)

end Sys2Proof.Machine
end

