-- ==== Sys2Proof/Machine/Domains.lean ====
section
/-! DEFINITION. Machine/Domains.lean: the ranged write-back and the switch of a die's interleave domains while the part runs (R321 to
R326). -/

namespace Sys2Proof.Machine

/-! ### DOMSTAT (R323) -/

/-- A command ends: BUSY clears, with its result and what it counted; IGNORED stays until the next accepted command. -/
def Die.domEnd (x : Die) (moved caught result : Nat) : Die :=
  { x with domOp := 0, phase := .idle, caughtNow := [],
           domStat := BitVec.ofNat 32 moved ++ BitVec.ofNat 16 (min caught 0xFFFF) ++ (0 : BitVec 8) ++ BitVec.ofNat 4 result ++ (0 : BitVec 2) ++
                      bit1 (x.domStat.getLsbD 1) ++ (0 : BitVec 1) }

/-- CAUGHT, which holds the count of the last switch. -/
def Die.lastCaught (x : Die) : Nat := (x.domStat.extractLsb' 16 16).toNat

/-- Requests that the switch in progress has caught, those of units that make their accesses within a step among them. -/
def Die.caughtCount (x : Die) : Nat := x.caught.length + x.caughtNow.length

/-- Lines counted so far by the command in progress. -/
def Die.moved (x : Die) : Nat := (x.domStat.extractLsb' 32 32).toNat

/-- A write of DOMCMD (R323): ignored, with IGNORED set, while a command is in progress; otherwise a command, with BUSY set, IGNORED clear
and CAUGHT as the last switch left it. Operation 3 of `domOp` is a write-back whose must-be-zero bits are not zero. -/
def Die.domCommand (x : Die) (v : DWord) : Die :=
  let op := field v 0 2
  if x.domOp ≠ 0 then { x with domStat := x.domStat ||| 2 }
  else if op = 0 || op = 3 then x
  else { x with domOp := if op = 2 then 2 else if field v 2 30 = 0 then 1 else 3, domStat := (x.domStat &&& 0xFFFF0000) ||| 1 }

/-! ### The ranged write-back (R324) -/

/-- WBBASE and WBLEN name a range of this die. -/
def Die.rangeOk (x : Die) (d : Nat) : Bool :=
  let lines := field x.wbLen 0 32
  x.domOp == 1 && x.wbBase.toNat % 128 == 0 && canonical x.wbBase && vaDie x.wbBase.toNat == d && lines != 0 && decide (lines < 2 ^ 31) &&
  field x.wbLen 44 20 == 0

/-- Lines of a slice that a range names and that the command writes: dirty, with no counted granule resident. -/
def State.dirtyLines (s : State) (sl : Nat) (space : BitVec 12) (lo hi : Nat) : List (Nat × Line) :=
  let x := s.slice sl
  x.lines.filter fun e =>
    lineSpace e.1 == space && decide (lo ≤ lineVa e.1) && decide (lineVa e.1 < hi) && e.2.dirty &&
    (SMap.get? x.granules (2 * e.1)).isNone && (SMap.get? x.granules (2 * e.1 + 1)).isNone

/-- WRITE_BACK_RANGE (R324): the dirty lines of the range are written to memory and stay, clean; a bad range ends with RESULT 3. -/
def execWriteBackRange (die : Nat) (s : State) : Host.Outcome State Fault Refusal :=
  let x := s.die die
  if x.domOp ≠ 1 ∧ x.domOp ≠ 3 then .next s
  else if !x.rangeOk die then .next (s.setDie die (x.domEnd 0 x.lastCaught 3))
  else
    let lo := x.wbBase.toNat
    let all := (dieSlices die).flatMap fun sl => (s.dirtyLines sl (x.wbLen.extractLsb' 32 12) lo (lo + 128 * field x.wbLen 0 32)).map (sl, ·)
    let s := all.foldl (fun (s : State) p => s.writeBack p.1 p.2.1) s
    .next (s.setDie die ((s.die die).domEnd all.length x.lastCaught 0))

/-! ### The switch (R325) -/

/-- The staged configuration is valid (R322). -/
def Die.stagedOk (x : Die) : Bool :=
  let cfg := fun (n : Nat) => x.domCfgStaged[n]?.getD 0
  let valid := fun (n : Nat) => (cfg n).getLsbD 63
  ((List.range 16).all fun i => valid (field x.domMapStaged (4 * i) 3)) &&
  ((List.range 8).all fun n =>
    let first := field (cfg n) 56 6
    let size := 2 ^ field (cfg n) 53 3
    !valid n || (first % size == 0 && decide (first + size ≤ 64)))

/-- Some entry of the map is affected (R325 step 1). -/
def Die.anyAffected (x : Die) : Bool := (List.range 16).any fun i => x.affected (i * 2 ^ 46)

/-- DOMAIN_SWITCH (R325 steps 1 and 2): the staged configuration is checked, and the affected entries freeze. -/
def execDomainSwitch (die : Nat) (s : State) : Host.Outcome State Fault Refusal :=
  let x := s.die die
  if x.domOp ≠ 2 || x.phase != .idle then .next s
  else if !x.stagedOk then .next (s.setDie die (x.domEnd 0 0 2))
  else if !x.anyAffected then .next (s.setDie die (x.domEnd 0 0 0))
  else .next (s.setDie die { x with phase := .frozen })

/-- An address of a die whose home a switch changes. -/
def State.rehomed (s : State) (d va : Nat) : Bool :=
  vaDie va == d && (s.die d).affected va && s.stagedHome va != s.homeSlice va

/-- A request for an affected address is still being performed. -/
def State.stillPerforming (s : State) (d : Nat) : Bool :=
  (dieSlices d).any fun sl => (s.slice sl).missing.any fun r => (s.die d).affected r.va

/-- Park-directory pairs of a die by the slice that holds them after the switch. -/
def State.pairsAfter (s : State) (d : Nat) : List (Nat × Nat × Nat) :=
  (dieSlices d).flatMap fun sl => (s.slice sl).directory.map fun p =>
    (if s.rehomed d (granuleVa p.1) then s.stagedHome (granuleVa p.1) else sl, p)

/-- A blocking line (R325 step 3): a waiter, a quota waiter or a counted granule at an address that changes home, or park-directory pairs
that would not fit. -/
def State.switchBlocked (s : State) (d : Nat) : Bool :=
  let after := s.pairsAfter d
  (dieSlices d).any fun sl =>
    let x := s.slice sl
    (x.waiters ++ x.quota).any (fun r => s.rehomed d r.va) || x.granules.any (fun g => s.rehomed d (granuleVa g.1)) ||
    decide (4096 < (after.filter (·.1 == sl)).length)

/-- The requests that a switch caught presented to their homes under the live map, in order, each before any other of its granule
(R325 step 6). -/
def State.presentCaught (s : State) (d : Nat) : State :=
  let rs := (s.die d).caught
  let homes := rs.map fun r => (s.homeSlice r.va, { r with first := true, forwarded := false })
  let s := s.setDie d { s.die d with caught := [] }
  (dieSlices d).foldl (fun (s : State) sl =>
    let mine := (homes.filter (·.1 == sl)).map (·.2)
    if mine.isEmpty then s else s.setSlice sl { s.slice sl with reqs := mine ++ (s.slice sl).reqs }) s

/-- What leaves one slice in the walk of a switch: lines written back where they are dirty, drop history, park-directory pairs, walks and
saved replies of the addresses that change home; a home keeps replies newest first. -/
def State.leaveSlice (s : State) (d sl : Nat) : State :=
  let x := s.slice sl
  let moves := fun (key : Nat) => s.rehomed d (granuleVa key)
  let lines := x.lines.filter fun e => s.rehomed d (lineVa e.1)
  let written := lines.filter fun e => e.2.dirty
  let pairs := x.directory.filter fun p => moves p.1
  let walks := x.walks.filter fun w => moves w.granule
  let replies := x.replies.filter fun r => moves r.2.2.1
  let homes := dieSlices d
  let home := fun (key : Nat) => s.stagedHome (granuleVa key)
  let s' := written.foldl (fun (s : State) e => s.writeBack sl e.1) s
  let s' := s'.setSlice sl { x with
    lines := x.lines.filter (fun e => !s.rehomed d (lineVa e.1)), history := x.history.filter (fun h => !moves h.1),
    directory := x.directory.filter (fun p => !moves p.1), walks := x.walks.filter (fun w => !moves w.granule),
    replies := x.replies.filter fun r => !moves r.2.2.1 }
  let s' := homes.foldl (fun (t : State) h =>
    let ps := pairs.filter fun p => home p.1 == h
    let ws := walks.filter fun w => home w.granule == h
    let rs := replies.filter fun r => home r.2.2.1 == h
    if ps.isEmpty && ws.isEmpty && rs.isEmpty then t
    else
      let y := t.slice h
      t.setSlice h { y with directory := y.directory ++ ps, walks := y.walks ++ ws, replies := sortBy (fun a b => decide (b.2.1 ≤ a.2.1)) (rs ++ y.replies) }) s'
  let y := s'.die d
  s'.setDie d { y with domStat := y.domStat + (BitVec.ofNat 64 written.length <<< 32) }

/-- DOMAIN_SWITCH_WALK (R325 steps 3 and 4): once no request for an affected address is being performed, a blocking line ends the freeze
with RESULT 1; otherwise the slices' tags are walked. -/
def execDomainSwitchWalk (die : Nat) (s : State) : Host.Outcome State Fault Refusal :=
  let x := s.die die
  if x.phase != .frozen || s.stillPerforming die then .next s
  else if s.switchBlocked die then
    .next ((s.setDie die (x.domEnd 0 x.caughtCount 1)).presentCaught die)
  else
    let s := (dieSlices die).foldl (fun (s : State) sl => s.leaveSlice die sl) s
    .next (s.setDie die { s.die die with phase := .walked })

/-- DOMAIN_SWITCH_REPLAY (R325 steps 5 and 6): the live copies take the staged values, and the caught requests go to their new homes. -/
def execDomainSwitchReplay (die : Nat) (s : State) : Host.Outcome State Fault Refusal :=
  let x := s.die die
  if x.phase != .walked then .next s
  else
    let x := { x with domMap := x.domMapStaged, domCfg := x.domCfgStaged }
    .next ((s.setDie die (x.domEnd x.moved x.caughtCount 0)).presentCaught die)

/-- CATCH_RETRY (R325 step 2): a request that found the catch buffer full is presented again after 64 cycles. -/
def execCatchRetry (die k : Nat) (s : State) : Host.Outcome State Fault Refusal :=
  let x := s.die die
  match x.catchRefused[k]? with
  | none => .next s
  | some rq =>
    if s.now < rq.retryAt then .next s
    else
      let s := s.setDie die { x with catchRefused := dropAt x.catchRefused k }
      let sl := s.homeSlice rq.va
      .next (s.setSlice sl { s.slice sl with reqs := (s.slice sl).reqs ++ [rq] })

end Sys2Proof.Machine
end

