-- ==== Sys2Proof/Machine/Functions.lean ====
section
/-! DEFINITION. Machine/Functions.lean: the functions of R277 and R278. frcp and fsqrt are correctly rounded. The other five
are the part's own within a bound: the value of a Config function is taken where it lies within the bound of a reference
computed to far more bits, and the reference rounded to nearest elsewhere. -/

namespace Sys2Proof

open Machine

/-- The integer square root, one bit at a time from bit i. -/
def isqrtFrom (n : Nat) : Nat → Nat → Nat
  | 0, r => r
  | i + 1, r => let q := r + 2 ^ i; isqrtFrom n i (if q * q ≤ n then q else r)

/-- The integer square root. -/
def isqrt (n : Nat) : Nat := isqrtFrom n (n.log2 / 2 + 1) 0

/-- The square root of a positive fraction to k bits after the point: exact, or the midpoint of the last place, which lies on
the same side of every rounding boundary as the root. -/
def sqrtFrac (k num den : Nat) : Nat × Nat :=
  let q := isqrt (num * 4 ^ k / den)
  if q * q * den = num * 4 ^ k then (q, 2 ^ k) else (2 * q + 1, 2 ^ (k + 1))

/-- 1 / x of a value (R277, R278). -/
def Val.recip : Val → Val
  | .nan => .nan
  | .inf n => .fin n 0 1
  | .fin n a b => if a = 0 then .inf n else .fin n b a

/-- √x of a value (R277, R278). -/
def Val.sqrt : Val → Val
  | .nan => .nan
  | .inf n => if n then .nan else .inf false
  | .fin n a b =>
    if a = 0 then .fin n 0 1 else if n then .nan
    else let (p, q) := sqrtFrac 256 a b; .fin false p q

/-! ### References in fixed point -/

/-- Bits after the point of a reference. -/
def refBits : Nat := 512

/-- ⌊π · 2^512⌋. -/
def piFixed : Nat := 0x3243f6a8885a308d313198a2e03707344a4093822299f31d0082efa98ec4e6c89452821e638d01377be5466cf34e90c6cc0ac29b7c97c50dd3f84d5b5b5470917

/-- ⌊ln 2 · 2^256⌋. -/
def ln2Fixed : Nat := 0xb17217f7d1cf79abc9e3b39803f2f6af40f343267298b62d8a0d175b8baafa2b

/-- Σ x^j / j! over j < n, with t the term j, in fixed point of p bits. -/
def expSum (p x : Nat) : Nat → Nat → Nat → Nat
  | 0, _, _ => 0
  | n + 1, j, t => t + expSum p x n (j + 1) (t * x / 2 ^ p / (j + 1))

/-- 2^f of a fraction f below 1, in fixed point of 256 bits. -/
def exp2Fixed (num den : Nat) : Nat :=
  let f := num * 2 ^ 256 / den
  expSum 256 (f * ln2Fixed / 2 ^ 256) 60 0 (2 ^ 256)

/-- Σ t^(2j+1) / (2j+1), the inverse hyperbolic tangent, in fixed point of p bits: y the power and j the term. -/
def atanhSum (p t2 : Nat) : Nat → Nat → Nat → Nat
  | 0, _, _ => 0
  | n + 1, j, y => y / (2 * j + 1) + atanhSum p t2 n (j + 1) (y * t2 / 2 ^ p)

/-- log₂ m of a fraction m in [1, 2), in fixed point of 256 bits. -/
def log2Fixed (num den : Nat) : Nat :=
  let t := (num - den) * 2 ^ 256 / (num + den)
  2 * atanhSum 256 (t * t / 2 ^ 256) 90 0 t * 2 ^ 256 / ln2Fixed

/-- Σ (−1)^j x^(i+2j) / (i+2j)!: the series of the sine (i = 1) and cosine (i = 0), t the term of degree i, as an integer in
fixed point. -/
def trigSum (x2 : Nat) : Nat → Nat → Nat → Int
  | 0, _, _ => 0
  | n + 1, i, t => (t : Int) - trigSum x2 n (i + 2) (t * x2 / 2 ^ refBits / ((i + 1) * (i + 2)))

/-- The sine, or the cosine, of a fraction x ≥ 0, in fixed point: x is reduced by quarter turns (R277). -/
def trigFixed (cosine : Bool) (num den : Nat) : Int :=
  let half := piFixed / 2
  let x := num * 2 ^ refBits / den
  let k := x / half + (if cosine then 1 else 0)
  let r := x % half
  let r2 := r * r / 2 ^ refBits
  let sine := trigSum r2 60 1 r
  let cos := trigSum r2 60 0 (2 ^ refBits)
  match k % 4 with
  | 0 => sine | 1 => cos | 2 => -sine | _ => -cos

/-! ### Bounds -/

/-- A signed integer over 2^p as a value. -/
def fixedVal (p : Nat) (v : Int) : Val := .fin (decide (v < 0)) v.natAbs (2 ^ p)

/-- A value as a numerator over a common scale 2^p, rounded towards −∞; 0 for what is not finite. -/
def Val.fixed (v : Val) (p : Nat) : Int :=
  match v with
  | .fin n a b => let q : Int := (a * 2 ^ p / b : Nat); if n then -q else q
  | _ => 0

/-- The exponent of an ulp of FP32 in the binade of a positive fraction. -/
def ulpExp (num den : Nat) : Int := max (floorLog2 num den) (-126) - 23

/-- Whether a candidate code lies within a bound of a reference, both in fixed point of 512 bits, the reference's own error
allowed for. -/
def within (c : Nat) (ref : Int) (bound : Nat) : Bool :=
  match Fmt.value .fp32 c with
  | .fin n a b => decide ((((Val.fin n a b).fixed refBits - ref).natAbs + 2 ^ 300) ≤ bound)
  | _ => false

/-- A multiple of an ulp in fixed point of 512 bits. -/
def ulps (k : Nat) (e : Int) : Nat := k * 2 ^ ((refBits : Int) + e).toNat

/-- The part's value where it lies within the bound, otherwise the reference rounded to nearest. -/
def chosen (candidate : Word) (ref : Int) (bound : Nat) : Nat :=
  if within candidate.toNat ref bound then candidate.toNat else convert .fp32 .rne false 0 (fixedVal refBits ref)

/-- frsq of a positive finite FP32 value (R277). -/
def rsqCode (x : Word) (num den : Nat) : Nat :=
  let (p, q) := sqrtFrac 256 den num
  let e := floorLog2 num den
  if e % 2 = 0 && decide (scaleFrac num den (-e) |> fun f => f.1 = f.2) then convert .fp32 .rne false 0 (.fin false p q)
  else chosen (Config.frsq x) ((p * 2 ^ refBits / q : Nat) : Int) (ulps 1 (ulpExp p q))

/-- ⌊x⌋ and the fraction of a finite value. -/
def splitFloor (neg : Bool) (num den : Nat) : Int × Nat :=
  let v : Int := if neg then -(num : Int) else num
  (v / den, (v % den).toNat)

/-- The part's value of fexp2 for x < −126, where it lies within the bound and is a subnormal or +0, otherwise the reference rounded to
the nearest of these (R278). -/
def chosenTiny (candidate : Word) (ref : Int) (bound : Nat) : Nat :=
  if within candidate.toNat ref bound && candidate != 0x80000000 && candidate.extractLsb' 23 8 == 0 then candidate.toNat
  else min (convert .fp32 .rne false 0 (fixedVal refBits ref)) 0x7FFFFF

/-- fexp2 of a finite FP32 value (R277, R278). -/
def exp2Code (x : Word) (neg : Bool) (num den : Nat) : Nat :=
  let (n, f) := splitFloor neg num den
  if n ≥ 128 then Fmt.infCode .fp32
  else if n < -200 then
    chosenTiny (Config.fexp2 x) 0 (ulps 2 (-149))
  else if f = 0 && n ≥ -149 then convert .fp32 .rne false 0 (scaled false 1 n)
  else
    let m := exp2Fixed f den
    let ref : Int := (m * 2 ^ ((refBits : Int) - 256 + n).toNat : Nat)
    let bound := ulps 2 (max n (-126) - 23)
    if n < -126 then chosenTiny (Config.fexp2 x) ref bound else chosen (Config.fexp2 x) ref bound

/-- flog2 of a positive finite FP32 value (R277): an absolute bound on [0.5, 2], 2 ulp elsewhere. -/
def log2Code (x : Word) (num den : Nat) : Nat :=
  let e := floorLog2 num den
  let (p, q) := scaleFrac num den (-e)
  if p = q then convert .fp32 .rne false 0 (.ofInt e)
  else
    let ref : Int := (e * 2 ^ 256 + log2Fixed p q) * 2 ^ 256
    let near := 2 * num ≥ den && num ≤ 2 * den
    chosen (Config.flog2 x) ref (if near then ulps 1 (-22) else ulps 2 (ulpExp ref.natAbs (2 ^ refBits)))

/-- fsin or fcos of a finite non-zero FP32 value (R277); the result lies in [−1, 1]. -/
def trigCode (cosine : Bool) (x : Word) (neg : Bool) (num den : Nat) : Nat :=
  let t := trigFixed cosine num den
  let one := (2 : Int) ^ refBits
  let ref := max (-one) (min one (if neg && !cosine then -t else t))
  let c := if cosine then Config.fcos x else Config.fsin x
  let inside := decide (((Fmt.value .fp32 c.toNat).fixed refBits).natAbs ≤ one.natAbs)
  if inside then chosen c ref (ulps 1 (-22)) else convert .fp32 .rne false 0 (fixedVal refBits ref)

/-- The five functions. -/
inductive Func where
  | rsq | exp2 | log2 | sin | cos
  deriving DecidableEq, Repr

/-- A function of an FP32 code, with the special inputs of R278. -/
def Func.code (f : Func) (x : Word) : Nat :=
  let nan := Fmt.nanCode .fp32
  let inf := Fmt.infCode .fp32
  let one := 0x3F800000
  match f, Fmt.value .fp32 x.toNat with
  | _, .nan => nan
  | .rsq, .inf n => if n then nan else 0
  | .exp2, .inf n => if n then 0 else inf
  | .log2, .inf n => if n then nan else inf
  | .sin, .inf _ => nan
  | .cos, .inf _ => nan
  | .rsq, .fin n a b => if a = 0 then Fmt.withSign .fp32 n inf else if n then nan else rsqCode x a b
  | .exp2, .fin n a b => if a = 0 then one else exp2Code x n a b
  | .log2, .fin n a b => if a = 0 then Fmt.withSign .fp32 true inf else if n then nan else log2Code x a b
  | .sin, .fin n a b => if a = 0 then Fmt.withSign .fp32 n 0 else trigCode false x n a b
  | .cos, .fin n a b => if a = 0 then one else trigCode true x n a b

/-- A function of a lane of a type: in FP32, then rounded to the type (R277). -/
def Func.lane (f : Func) (t : FTy) (c : Nat) : Nat :=
  match t with
  | .f32 => f.code (BitVec.ofNat 32 c)
  | t =>
    let x := convert .fp32 .rne false 0 (Fmt.value t.fmt c)
    convert t.fmt .rne false 0 (Fmt.value .fp32 (f.code (BitVec.ofNat 32 x)))

end Sys2Proof
end

