-- ==== Sys2Proof/Machine/Float.lean ====
section
/-! DEFINITION. Machine/Float.lean: floating-point operations (R264 to R278), lane by lane over a record. -/

namespace Sys2Proof.Machine

/-- Results of lanes computed in order under a round mode, the LFSR advancing under stochastic rounding (R249), written by
`put`. -/
def roundedOp (round : Round) (lanes : Round → Record → List (BitVec 16 → Nat)) (put : Record → List Nat → Record)
    (s : State) : Host.Outcome State Fault Refusal :=
  plainOp (fun l u r =>
    let mode := round.resolve l.rmode
    let (vs, t) := withLfsr mode u.lfsr (lanes mode r)
    .send { u with lfsr := t } [out0 (put r vs)]) s

/-- The lanes of an operand of a floating operation. -/
def FloatOp.in (o : FloatOp) (r : Record) (x : Reg) : List Nat := r.lanes x o.len o.ty.lane

/-- Lane values of an operand. -/
def FloatOp.vals (o : FloatOp) (r : Record) (x : Reg) : List Val := (FloatOp.in o r x).map (Fmt.value o.ty.fmt)

/-- Results written to the lanes of the destination. -/
def FloatOp.put (o : FloatOp) (r : Record) (vs : List Nat) : Record := r.setLanes o.d o.len o.ty.lane vs

/-- A rounding operation of two operands (R268). -/
def float2 (o : FloatOp) (g : Round → Val → Val → Val) (s : State) : Host.Outcome State Fault Refusal :=
  roundedOp o.round (fun mode r => (FloatOp.vals o r o.a).zipWith (fun x y => fun lf => convert o.ty.fmt mode o.sat lf (g mode x y))
    (FloatOp.vals o r o.b)) (FloatOp.put o) s

/-- A rounding operation of one operand. -/
def float1 (o : FloatOp) (g : Val → Val) (s : State) : Host.Outcome State Fault Refusal :=
  roundedOp o.round (fun mode r => (FloatOp.vals o r o.a).map fun x => fun lf => convert o.ty.fmt mode o.sat lf (g x))
    (FloatOp.put o) s

/-- An operation on lane codes of one operand that rounds nothing. -/
def code1 (o : FloatOp) (g : Nat → Nat) (s : State) : Host.Outcome State Fault Refusal :=
  computeOp (fun r => FloatOp.put o r ((FloatOp.in o r o.a).map g)) s

/-- An operation on lane codes of two operands that rounds nothing. -/
def code2 (o : FloatOp) (g : Nat → Nat → Nat) (s : State) : Host.Outcome State Fault Refusal :=
  computeOp (fun r => FloatOp.put o r ((FloatOp.in o r o.a).zipWith g (FloatOp.in o r o.b))) s

/-- fadd (R268). -/
def execFadd (o : FloatOp) (s : State) : Host.Outcome State Fault Refusal := float2 o (fun m x y => Val.add m x y) s

/-- fsub (R268). -/
def execFsub (o : FloatOp) (s : State) : Host.Outcome State Fault Refusal := float2 o (fun m x y => Val.add m x y.negate) s

/-- fmul (R268). -/
def execFmul (o : FloatOp) (s : State) : Host.Outcome State Fault Refusal := float2 o (fun _ x y => Val.mul x y) s

/-- ffma (R268): product and sum exact, one rounding. -/
def execFfma (o : FloatOp) (s : State) : Host.Outcome State Fault Refusal :=
  roundedOp o.round (fun mode r =>
    (((FloatOp.vals o r o.a).zip (FloatOp.vals o r o.b)).zip (FloatOp.vals o r o.c)).map fun p => fun lf =>
      convert o.ty.fmt mode o.sat lf (Val.add mode (Val.mul p.1.1 p.1.2) p.2)) (FloatOp.put o) s

/-- fmin (R269). -/
def execFmin (o : FloatOp) (s : State) : Host.Outcome State Fault Refusal := code2 o (fpMin o.ty.fmt) s

/-- fmax (R269). -/
def execFmax (o : FloatOp) (s : State) : Host.Outcome State Fault Refusal := code2 o (fpMax o.ty.fmt) s

/-- The code that fsgn writes (R270): x with another sign bit. -/
def sgnLane (form : SgnForm) (width x y : Nat) : Nat :=
  let top := 2 ^ (width - 1)
  let sx := x / top % 2
  let sy := y / top % 2
  let sign := match form with
    | .copy => sy
    | .neg => 1 - sy
    | .xor => (sx + sy) % 2
  x % top + sign * top

/-- fsgn (R270). -/
def execFsgn (o : FloatOp) (form : SgnForm) (s : State) : Host.Outcome State Fault Refusal :=
  code2 o (sgnLane form o.ty.fmt.width) s

/-- The conditions of fcmp (R271). -/
def fcondHolds (c : FCond) (x y : Val) : Bool :=
  let un := x.isNan || y.isNan
  match c with
  | .eq => !un && !x.lt y && !y.lt x
  | .lt => !un && x.lt y
  | .le => !un && !y.lt x
  | .un => un
  | .ne => un || x.lt y || y.lt x
  | .ge => !un && !x.lt y
  | .gt => !un && y.lt x
  | .ord => !un

/-- The record that fcmp sends on (R271). -/
def fcmpRecord (o : FloatOp) (c : FCond) (r : Record) : Record :=
  let hs := (FloatOp.vals o r o.a).zipWith (fcondHolds c) (FloatOp.vals o r o.b)
  (FloatOp.put o r (hs.map fun h => if h then 2 ^ o.ty.fmt.width - 1 else 0)).setP (hs.all id)

/-- fcmp (R271). -/
def execFcmp (o : FloatOp) (cond : FCond) (s : State) : Host.Outcome State Fault Refusal := computeOp (fcmpRecord o cond) s

/-- fcvt (R274): N packed elements of one format converted to another and placed by R267. -/
def execFcvt (d a : Reg) (dst src : Fmt) (len : Len) (round : Round) (sat : Bool) (s : State) :
    Host.Outcome State Fault Refusal :=
  roundedOp round (fun mode r => (r.elements a (fcvtCount src len) src.width).map fun c => fun lf =>
    convert dst mode sat lf (src.value c)) (fun r vs => r.setElements d dst.width vs) s

/-- frcp (R277). -/
def execFrcp (o : FloatOp) (s : State) : Host.Outcome State Fault Refusal := float1 o Val.recip s

/-- frsq (R277). -/
def execFrsq (o : FloatOp) (s : State) : Host.Outcome State Fault Refusal := code1 o (Func.lane .rsq o.ty) s

/-- fsqrt (R277). -/
def execFsqrt (o : FloatOp) (s : State) : Host.Outcome State Fault Refusal := float1 o Val.sqrt s

/-- fexp2 (R277). -/
def execFexp2 (o : FloatOp) (s : State) : Host.Outcome State Fault Refusal := code1 o (Func.lane .exp2 o.ty) s

/-- flog2 (R277). -/
def execFlog2 (o : FloatOp) (s : State) : Host.Outcome State Fault Refusal := code1 o (Func.lane .log2 o.ty) s

/-- fsin (R277). -/
def execFsin (o : FloatOp) (s : State) : Host.Outcome State Fault Refusal := code1 o (Func.lane .sin o.ty) s

/-- fcos (R277). -/
def execFcos (o : FloatOp) (s : State) : Host.Outcome State Fault Refusal := code1 o (Func.lane .cos o.ty) s

/-- A value rounded to an integral value of its sign (R276). -/
def integral (mode : Round) (lf : BitVec 16) : Val → Val
  | .fin n a b => .fin n (roundUnits mode n lf a b) 1
  | v => v

/-- fint (R276). -/
def execFint (o : FloatOp) (s : State) : Host.Outcome State Fault Refusal :=
  roundedOp o.round (fun mode r => (FloatOp.vals o r o.a).map fun x => fun lf =>
    convert o.ty.fmt .rne false 0 (integral mode lf x)) (FloatOp.put o) s

/-- f2i (R275): lanes rounded to s32, placed by R267. -/
def execF2i (o : FloatOp) (s : State) : Host.Outcome State Fault Refusal :=
  roundedOp o.round (fun mode r => (FloatOp.vals o r o.a).map fun x => fun lf => convertS32 mode o.sat lf x)
    (fun r vs => r.setElements o.d 32 vs) s

/-- i2f (R275): signed lanes of the type's width converted in place. -/
def execI2f (o : FloatOp) (s : State) : Host.Outcome State Fault Refusal :=
  roundedOp o.round (fun mode r => (FloatOp.in o r o.a).map fun x => fun lf =>
    convert o.ty.fmt mode o.sat lf (Val.ofInt (signedOf o.ty.fmt.width x))) (FloatOp.put o) s

/-- fscale (R272): x · 2^n with n a signed lane of b. -/
def execFscale (o : FloatOp) (s : State) : Host.Outcome State Fault Refusal :=
  roundedOp o.round (fun mode r => (FloatOp.vals o r o.a).zipWith (fun x n => fun lf =>
    convert o.ty.fmt mode (o.sat && x.finite) lf (x.shift (signedOf o.ty.fmt.width n))) (FloatOp.in o r o.b)) (FloatOp.put o) s

/-- The class mask of a value (R273). -/
def classOf (f : Fmt) (c : Nat) : Nat :=
  match f.value c with
  | .nan => 2 ^ 8
  | .inf n => if n then 1 else 2 ^ 7
  | .fin n a _ =>
    let (e, m, _) := f.layout
    if a = 0 then (if n then 2 ^ 3 else 2 ^ 4)
    else if c % 2 ^ (e + m) / 2 ^ m = 0 then (if n then 2 ^ 2 else 2 ^ 5)
    else (if n then 2 else 2 ^ 6)

/-- fclass (R273). -/
def execFclass (o : FloatOp) (s : State) : Host.Outcome State Fault Refusal := code1 o (classOf o.ty.fmt) s

end Sys2Proof.Machine
end

