-- ==== Sys2Proof/Machine/Integer.lean ====
section
/-! DEFINITION. Machine/Integer.lean: the integer and address family (R98 to R104). Lanes are natural numbers below 2^L; an
operation forms its exact result as an integer and narrows it once (R73). -/

namespace Sys2Proof.Machine

/-- A lane-wise operation of two operands over a record (R73, R98): g gives the lane's result from L and the lanes. -/
def lanewise (o : Lanewise) (g : Nat → Nat → Nat → Nat) (r : Record) : Record :=
  r.setLanes o.d o.len o.lane ((r.lanes o.a o.len o.lane).zipWith (g o.lane.bits) (r.lanes o.b o.len o.lane))

/-- A lane-wise operation of one operand. -/
def lanewise1 (o : Lanewise1) (g : Nat → Nat → Nat) (r : Record) : Record :=
  r.setLanes o.d o.len o.lane ((r.lanes o.a o.len o.lane).map (g o.lane.bits))

/-- A signed operation on lanes, narrowed with or without the clamp (R73). -/
def signedLane (sat : Bool) (g : Int → Int → Int) (width x y : Nat) : Nat :=
  narrow sat width (g (signedOf width x) (signedOf width y))

/-- The low bits of x shifted right with its sign. -/
def sarLane (width x n : Nat) : Nat := wrapTo width (signedOf width x / 2 ^ n)

/-- x rotated left by n. -/
def rotLane (width x n : Nat) : Nat := (x * 2 ^ n + x / 2 ^ (width - n)) % 2 ^ width

/-- Leading zero bits of a lane. -/
def clzLane (width x : Nat) : Nat := if x = 0 then width else width - 1 - x.log2

/-- Trailing zero bits of a lane, counted from bit i of `fuel` more. -/
def trailing (x : Nat) : Nat → Nat
  | 0 => 0
  | fuel + 1 => if x % 2 = 1 then 0 else 1 + trailing (x / 2) fuel

/-- Trailing zero bits of a lane. -/
def ctzLane (width x : Nat) : Nat := trailing x width

/-- Set bits of a lane. -/
def popLane (width x : Nat) : Nat := ((List.range width).filter fun i => x.testBit i).length

/-- add (R98). -/
def execAdd (o : Lanewise) (s : State) : Host.Outcome State Fault Refusal :=
  computeOp (lanewise o (signedLane o.sat (· + ·))) s

/-- sub (R98). -/
def execSub (o : Lanewise) (s : State) : Host.Outcome State Fault Refusal :=
  computeOp (lanewise o (signedLane o.sat (· - ·))) s

/-- addi (R99). -/
def execAddi (o : ImmOp) (s : State) : Host.Outcome State Fault Refusal :=
  computeOp (fun r => r.setW o.d (r.w o.a + sext20 o.imm)) s

/-- mul (R98). -/
def execMul (o : Lanewise) (s : State) : Host.Outcome State Fault Refusal :=
  computeOp (lanewise o (signedLane o.sat (· * ·))) s

/-- The high half of a product (R98). -/
def mulhLane (unsigned : Bool) (width x y : Nat) : Nat :=
  if unsigned then x * y / 2 ^ width else wrapTo width (signedOf width x * signedOf width y / 2 ^ width)

/-- mulh and mulh.u (R98). -/
def execMulh (o : Lanewise) (unsigned : Bool) (s : State) : Host.Outcome State Fault Refusal :=
  computeOp (lanewise o (mulhLane unsigned)) s

/-- mad over a record (R98). -/
def madRecord (o : Lanewise) (c : Reg) (r : Record) : Record :=
  let n := o.lane.bits
  let xs := r.lanes o.a o.len o.lane
  let ys := r.lanes o.b o.len o.lane
  let zs := r.lanes c o.len o.lane
  r.setLanes o.d o.len o.lane ((xs.zip ys).zipWith (fun p z =>
    narrow o.sat n (signedOf n p.1 * signedOf n p.2 + signedOf n z)) zs)

/-- mad (R98). -/
def execMad (o : Lanewise) (c : Reg) (s : State) : Host.Outcome State Fault Refusal := computeOp (madRecord o c) s

/-- and (R98). -/
def execAnd (o : Lanewise) (s : State) : Host.Outcome State Fault Refusal :=
  computeOp (lanewise o fun _ x y => Nat.land x y) s

/-- or (R98). -/
def execOr (o : Lanewise) (s : State) : Host.Outcome State Fault Refusal :=
  computeOp (lanewise o fun _ x y => Nat.lor x y) s

/-- xor (R98). -/
def execXor (o : Lanewise) (s : State) : Host.Outcome State Fault Refusal :=
  computeOp (lanewise o fun _ x y => Nat.xor x y) s

/-- andi (R99). -/
def execAndi (o : ImmOp) (s : State) : Host.Outcome State Fault Refusal :=
  computeOp (fun r => r.setW o.d (r.w o.a &&& sext20 o.imm)) s

/-- ori (R99). -/
def execOri (o : ImmOp) (s : State) : Host.Outcome State Fault Refusal :=
  computeOp (fun r => r.setW o.d (r.w o.a ||| sext20 o.imm)) s

/-- xori (R99). -/
def execXori (o : ImmOp) (s : State) : Host.Outcome State Fault Refusal :=
  computeOp (fun r => r.setW o.d (r.w o.a ^^^ sext20 o.imm)) s

/-- shl (R98). -/
def execShl (o : Lanewise) (s : State) : Host.Outcome State Fault Refusal :=
  computeOp (lanewise o fun w x y => x * 2 ^ (y % w) % 2 ^ w) s

/-- shr (R98). -/
def execShr (o : Lanewise) (s : State) : Host.Outcome State Fault Refusal :=
  computeOp (lanewise o fun w x y => x / 2 ^ (y % w)) s

/-- sar (R98). -/
def execSar (o : Lanewise) (s : State) : Host.Outcome State Fault Refusal :=
  computeOp (lanewise o fun w x y => sarLane w x (y % w)) s

/-- shli (R99). -/
def execShli (o : ShiftOp) (s : State) : Host.Outcome State Fault Refusal :=
  computeOp (fun r => r.setW o.d (r.w o.a <<< o.n.toNat)) s

/-- shri (R99). -/
def execShri (o : ShiftOp) (s : State) : Host.Outcome State Fault Refusal :=
  computeOp (fun r => r.setW o.d (r.w o.a >>> o.n.toNat)) s

/-- sari (R99). -/
def execSari (o : ShiftOp) (s : State) : Host.Outcome State Fault Refusal :=
  computeOp (fun r => r.setW o.d ((r.w o.a).sshiftRight o.n.toNat)) s

/-- rot (R98). -/
def execRot (o : Lanewise) (s : State) : Host.Outcome State Fault Refusal :=
  computeOp (lanewise o fun w x y => rotLane w x (y % w)) s

/-- clz (R98). -/
def execClz (o : Lanewise1) (s : State) : Host.Outcome State Fault Refusal := computeOp (lanewise1 o clzLane) s

/-- ctz (R98). -/
def execCtz (o : Lanewise1) (s : State) : Host.Outcome State Fault Refusal := computeOp (lanewise1 o ctzLane) s

/-- popc (R98). -/
def execPopc (o : Lanewise1) (s : State) : Host.Outcome State Fault Refusal := computeOp (lanewise1 o popLane) s

/-- The smaller of two lanes. -/
def minLane (unsigned : Bool) (width x y : Nat) : Nat :=
  if unsigned then min x y else if signedOf width y < signedOf width x then y else x

/-- The larger of two lanes. -/
def maxLane (unsigned : Bool) (width x y : Nat) : Nat :=
  if unsigned then max x y else if signedOf width x < signedOf width y then y else x

/-- min and min.u (R98). -/
def execMin (o : Lanewise) (unsigned : Bool) (s : State) : Host.Outcome State Fault Refusal :=
  computeOp (lanewise o (minLane unsigned)) s

/-- max and max.u (R98). -/
def execMax (o : Lanewise) (unsigned : Bool) (s : State) : Host.Outcome State Fault Refusal :=
  computeOp (lanewise o (maxLane unsigned)) s

/-- abs (R98). -/
def execAbs (o : Lanewise1) (s : State) : Host.Outcome State Fault Refusal :=
  computeOp (lanewise1 o fun w x => narrow o.sat w ((signedOf w x).natAbs : Int)) s

/-- The field that bfx reads (R100). -/
def bfxWord (x : Word) (lsb widthM1 : Nat) (signed : Bool) : Word :=
  let f := x.toNat / 2 ^ lsb % 2 ^ (widthM1 + 1)
  if signed then BitVec.ofNat 32 (wrapTo 32 (signedOf (widthM1 + 1) f)) else BitVec.ofNat 32 f

/-- bfx and bfx.s (R100). -/
def execBfx (o : FieldOp) (signed : Bool) (s : State) : Host.Outcome State Fault Refusal :=
  computeOp (fun r => r.setW o.d (bfxWord (r.w o.a) o.lsb.toNat o.widthM1.toNat signed)) s

/-- The word that bfi writes (R100). -/
def bfiWord (old x : Word) (lsb widthM1 : Nat) : Word :=
  let mask : Word := BitVec.ofNat 32 ((2 ^ (widthM1 + 1) - 1) * 2 ^ lsb)
  (old &&& ~~~mask) ||| ((x <<< lsb) &&& mask)

/-- bfi (R100). -/
def execBfi (o : FieldOp) (s : State) : Host.Outcome State Fault Refusal :=
  computeOp (fun r => r.setW o.d (bfiWord (r.w o.d) (r.w o.a) o.lsb.toNat o.widthM1.toNat)) s

/-- hash.crc (R101): one CRC32C step over the bytes of a word, the lowest first. -/
def hashCrc (c x : Word) : Word := crcBytes c ((List.range 4).map fun i => x.extractLsb' (8 * i) 8)

/-- hash.mix (R101). -/
def hashMix (a b : Word) : Word :=
  let x := a ^^^ b
  let x := x ^^^ (x >>> 16)
  let x := x * 0x7FEB352D
  let x := x ^^^ (x >>> 15)
  let x := x * 0x846CA68B
  x ^^^ (x >>> 16)

/-- hash (R101). -/
def execHash (o : Reg3) (mix : Bool) (s : State) : Host.Outcome State Fault Refusal :=
  computeOp (fun r => r.setW o.d (if mix then hashMix (r.w o.a) (r.w o.b) else hashCrc (r.w o.a) (r.w o.b))) s

/-- lea (R102). -/
def execLea (o : Reg3) (shift : BitVec 3) (s : State) : Host.Outcome State Fault Refusal :=
  computeOp (fun r => r.setW o.d (r.w o.a + (r.w o.b <<< shift.toNat))) s

/-- add64 (R103). -/
def execAdd64 (o : Reg3) (s : State) : Host.Outcome State Fault Refusal :=
  computeOp (fun r => r.setPair o.d.toNat (r.pair o.a.toNat + r.pair o.b.toNat)) s

/-- sub64 (R103). -/
def execSub64 (o : Reg3) (s : State) : Host.Outcome State Fault Refusal :=
  computeOp (fun r => r.setPair o.d.toNat (r.pair o.a.toNat - r.pair o.b.toNat)) s

/-- shl64 (R103). -/
def execShl64 (o : Reg3) (s : State) : Host.Outcome State Fault Refusal :=
  computeOp (fun r => r.setPair o.d.toNat (r.pair o.a.toNat <<< ((r.w o.b).toNat % 64))) s

/-- chk and chk.s (R104): the record passes, or traps BOUND with the two words in DETAIL (R105). -/
def execChk (a b : Reg) (signed : Bool) (s : State) : Host.Outcome State Fault Refusal :=
  plainOp (fun _ u r =>
    let x := r.w a
    let y := r.w b
    if (if signed then x.slt y else x.ult y) then .send u [out0 r] else .trap .bound (pair64 x y) 0) s

end Sys2Proof.Machine
end

