-- ==== Sys2Proof/Machine/Router.lean ====
section
/-! DEFINITION. Machine/Router.lean: the router operators steer, merge and carry (R155 to R157). Slot t of a router has its
inputs at ports 2t and 2t + 1 and its outputs at the ports of the same numbers (R19). -/

namespace Sys2Proof.Machine

/-- The head of a slot's input sent by an output port; none where the slot's region does not act, the input is empty, or a
route cannot accept it. -/
def State.slotPass (s : State) (input output : Nat) : Option State :=
  let f := s.focus
  match s.here with
  | none => none
  | some (l, u) =>
    match u.port input with
    | [] => none
    | r :: _ =>
      let out : Out := { port := output, route := none, record := r }
      if !l.acts || !u.open_ || !l.canSend f.x f.y f.unit [out] then none
      else
        let l := (l.setUnit f.x f.y f.unit (u.pop input)).send f.x f.y f.unit [out]
        some (s.setLaunch f.inst { l with lastMove := s.now })

/-- A slot's pass made, or nothing. -/
def State.slotStep (s : State) (input output : Nat) : Host.Outcome State Fault Refusal := .next ((s.slotPass input output).getD s)

/-- steer (R155): by P, and SENSE, on out0 or out1; a record sent to an output without a route is discarded. -/
def execSteer (inv : Bool) (s : State) : Host.Outcome State Fault Refusal :=
  let input := 2 * s.focus.slot
  match s.here with
  | none => .next s
  | some (_, u) =>
    match u.port input with
    | [] => .next s
    | r :: _ => s.slotStep input (if r.ctl.p != inv then input else input + 1)

/-- The state with a slot's merge pointer written. -/
def State.setServed (s : State) (in1 : Bool) : State :=
  let f := s.focus
  s.modUnit f.inst f.x f.y f.unit fun u =>
    if f.slot = 0 then { u with slot0 := { lastIn1 := in1 } } else { u with slot1 := { lastIn1 := in1 } }

/-- merge (R156): the only input that holds a record, or of two the one not served last. -/
def execMerge (s : State) : Host.Outcome State Fault Refusal :=
  let in0 := 2 * s.focus.slot
  match s.here with
  | none => .next s
  | some (_, u) =>
    let last := if s.focus.slot = 0 then u.slot0.lastIn1 else u.slot1.lastIn1
    let take1 := !(u.port (in0 + 1)).isEmpty && ((u.port in0).isEmpty || !last)
    match s.slotPass (if take1 then in0 + 1 else in0) in0 with
    | some s => .next (s.setServed take1)
    | none => .next s

/-- carry (R157): a loop-back record first; otherwise a new one while the loop holds at most L − 2. -/
def execCarry (c : BitVec 8) (s : State) : Host.Outcome State Fault Refusal :=
  let f := s.focus
  let in0 := 2 * f.slot
  match s.here with
  | none => .next s
  | some (l, u) =>
    if !(u.port (in0 + 1)).isEmpty then s.slotStep (in0 + 1) in0
    else if l.occupancy f.x f.y f.unit f.slot + 2 ≤ c.toNat then s.slotStep in0 in0
    else .next s

end Sys2Proof.Machine
end

