-- ==== Sys2Proof/Machine/VectorOps.lean ====
section
/-! DEFINITION. Machine/VectorOps.lean: the vector structure operations (R260 to R262, R279 to R284). -/

namespace Sys2Proof.Machine

/-- The type of a floating reduction. -/
def RedOp.ty? : RedOp → Option FTy
  | .fadd t _ => some t | .fmin t => some t | .fmax t => some t | _ => none

/-- The round code of a reduction; only fadd has one. -/
def redRound : RedOp → Round
  | .fadd _ r => r
  | _ => .rne

/-- One node of a reduction on lanes of a width (R279). -/
def redNode (op : RedOp) (mode : Round) (width x y : Nat) (lf : BitVec 16) : Nat :=
  match op with
  | .add => (x + y) % 2 ^ width
  | .min => minLane false width x y
  | .max => maxLane false width x y
  | .and => Nat.land x y
  | .or => Nat.lor x y
  | .xor => Nat.xor x y
  | .minu => min x y
  | .maxu => max x y
  | .fadd t _ => convert t.fmt mode false lf (Val.add mode (t.fmt.value x) (t.fmt.value y))
  | .fmin t => fpMin t.fmt x y
  | .fmax t => fpMax t.fmt x y

/-- The pairs of a level, lower-numbered input first (R260). -/
def pairsOf {α : Type} : List α → List (α × α)
  | x :: y :: xs => (x, y) :: pairsOf xs
  | _ => []

/-- The pairwise tree (R260), the LFSR advancing in the order of level and node; `fuel` bounds the levels. -/
def reduceTree {α : Type} (mode : Round) (node : α → α → BitVec 16 → Nat) (leaf : Nat → α) :
    Nat → BitVec 16 → List α → List α × BitVec 16
  | 0, lf, xs => (xs, lf)
  | fuel + 1, lf, xs =>
    match xs with
    | _ :: _ :: _ =>
      let (vs, lf) := withLfsr mode lf ((pairsOf xs).map fun p => node p.1 p.2)
      reduceTree mode node leaf fuel lf (vs.map leaf)
    | _ => (xs, lf)

/-- The levels of the doubling scheme from distance 2^k on (R261). -/
def scanFrom (mode : Round) (node : Nat → Nat → BitVec 16 → Nat) :
    Nat → Nat → BitVec 16 → List Nat → List Nat × BitVec 16
  | 0, _, lf, xs => (xs, lf)
  | fuel + 1, dist, lf, xs =>
    if xs.length ≤ dist then (xs, lf)
    else
      let (vs, lf) := withLfsr mode lf ((xs.zip (xs.drop dist)).map fun p => node p.1 p.2)
      scanFrom mode node fuel (2 * dist) lf (xs.take dist ++ vs)

/-- vred (R260, R279). -/
def execVred (op : RedOp) (o : VecOp) (s : State) : Host.Outcome State Fault Refusal :=
  plainOp (fun l u r =>
    let mode := (redRound op).resolve l.rmode
    let (xs, t) := reduceTree mode (redNode op mode o.lane.bits) id 7 u.lfsr (r.lanes o.a o.len o.lane)
    .send { u with lfsr := t } [out0 (r.setW o.d (BitVec.ofNat 32 (xs.headD 0)))]) s

/-- vscan (R261, R279). -/
def execVscan (op : RedOp) (o : VecOp) (s : State) : Host.Outcome State Fault Refusal :=
  plainOp (fun l u r =>
    let mode := (redRound op).resolve l.rmode
    let (xs, t) := scanFrom mode (redNode op mode o.lane.bits) 7 1 u.lfsr (r.lanes o.a o.len o.lane)
    .send { u with lfsr := t } [out0 (r.setLanes o.d o.len o.lane xs)]) s

/-- vbcast (R280). -/
def execVbcast (o : VecOp) (s : State) : Host.Outcome State Fault Refusal :=
  computeOp (fun r =>
    let x := (r.w o.a).toNat % 2 ^ o.lane.bits
    r.setLanes o.d o.len o.lane (List.replicate (o.len.words * 32 / o.lane.bits) x)) s

/-- The lanes of a shuffle (R280). -/
def shuffled (form : ShufForm) (xs ys : List Nat) : List Nat :=
  let n := xs.length
  match form with
  | .index => ys.map fun y => xs.getD (y % n) 0
  | .rev => xs.reverse
  | .lo => (List.range n).map fun i => if i % 2 = 0 then xs.getD (i / 2) 0 else ys.getD ((i - 1) / 2) 0
  | .hi => (List.range n).map fun i => if i % 2 = 0 then xs.getD (n / 2 + i / 2) 0 else ys.getD (n / 2 + (i - 1) / 2) 0

/-- vshuf (R280). -/
def execVshuf (form : ShufForm) (o : VecOp) (s : State) : Host.Outcome State Fault Refusal :=
  computeOp (fun r => r.setLanes o.d o.len o.lane (shuffled form (r.lanes o.a o.len o.lane) (r.lanes o.b o.len o.lane))) s

/-- vsel (R280). -/
def execVsel (o : VecOp) (s : State) : Host.Outcome State Fault Refusal :=
  computeOp (fun r => r.setLanes o.d o.len o.lane
    ((((r.lanes o.a o.len o.lane).zip (r.lanes o.b o.len o.lane)).zip (r.lanes o.c o.len o.lane)).map fun p =>
      if p.2 ≠ 0 then p.1.1 else p.1.2)) s

/-- vdot of floating lanes: exact products, then the tree with each node rounded to FP32 (R262, R281). -/
def dotFloat (f : Fmt) (mode : Round) (lf : BitVec 16) (xs ys : List Nat) : Nat × BitVec 16 :=
  let products := xs.zipWith (fun x y => Val.mul (f.value x) (f.value y)) ys
  let (vs, t) := reduceTree mode (fun a b r => convert .fp32 mode false r (Val.add mode a b)) (Fmt.value .fp32) 7 lf products
  (convert .fp32 .rne false 0 (vs.headD .nan), t)

/-- vdot of integer lanes: exact in s32 (R262, R281). -/
def dotInt (f : Fmt) (xs ys : List Nat) : Nat :=
  wrapTo 32 ((xs.zipWith (fun x y => f.intOf x * f.intOf y) ys).foldl (· + ·) 0)

/-- vdot (R262, R281). -/
def execVdot (fmt : Fmt) (o : VecOp) (round : Round) (s : State) : Host.Outcome State Fault Refusal :=
  plainOp (fun l u r =>
    let mode := round.resolve l.rmode
    let xs := r.lanes o.a o.len o.lane
    let ys := r.lanes o.b o.len o.lane
    if fmt.floats then
      let (v, t) := dotFloat fmt mode u.lfsr xs ys
      .send { u with lfsr := t } [out0 (r.setW o.d (BitVec.ofNat 32 v))]
    else .send u [out0 (r.setW o.d (BitVec.ofNat 32 (dotInt fmt xs ys)))]) s

/-- The narrowing of an s32 lane to an integer format (R255); t2 always clamps. -/
def packInt (f : Fmt) (sat : Bool) (x : Nat) : Nat :=
  let v := signedOf 32 x
  let (lo, hi) := f.intRange
  if sat || f == .t2 then f.codeOfInt (if v > hi then hi else if v < lo then lo else v) else wrapTo f.width v

/-- vpack (R282). -/
def execVpack (fmt : Fmt) (d a : Reg) (round : Round) (sat : Bool) (s : State) : Host.Outcome State Fault Refusal :=
  if fmt.floats then
    roundedOp round (fun mode r => (r.lanes a .sixteen .l32).map fun x => fun lf => convert fmt mode sat lf (Fmt.value .fp32 x))
      (fun r vs => r.setElements d fmt.width vs) s
  else computeOp (fun r => r.setElements d fmt.width ((r.lanes a .sixteen .l32).map (packInt fmt sat))) s

/-- An element widened by vunpack: to FP32, or extended to s32 (R282). -/
def unpackLane (f : Fmt) (x : Nat) : Nat :=
  if f.floats then convert .fp32 .rne false 0 (f.value x) else wrapTo 32 (f.intOf x)

/-- vunpack (R282); a t2 code 10 raises FORMAT with the opcode and the lowest lane that holds it (R224, R246). -/
def execVunpack (fmt : Fmt) (d a : Reg) (s : State) : Host.Outcome State Fault Refusal :=
  plainOp (fun _ u r =>
    let xs := r.elements a 16 fmt.width
    match (if fmt = .t2 then xs.findIdx? (· == 2) else none) with
    | some lane => .trap .format (BitVec.ofNat 64 ((u.opBits.extractLsb' 40 8).toNat + 256 * lane)) 0
    | none => .send u [out0 (r.setLanes d .sixteen .l32 (xs.map (unpackLane fmt)))]) s

/-- The magnitude code that vamax writes (R279). One NaN lane makes it the canonical NaN, though R269 has its own rule of NaN hold for vamax:
DESIGN CHOICE, log 129. -/
def amaxCode (f : Fmt) (xs : List Nat) : Nat :=
  if xs.any (fun x => (f.value x).isNan) then f.nanCode
  else (xs.map fun x => x % 2 ^ (f.width - 1)).foldl max 0

/-- vamax (R279). -/
def execVamax (ty : FTy) (o : VecOp) (s : State) : Host.Outcome State Fault Refusal :=
  computeOp (fun r => r.setW o.d (BitVec.ofNat 32 (amaxCode ty.fmt (r.lanes o.a o.len o.lane)))) s

/-- The exponent e(f) of a group's format (R283). -/
def groupExp : Fmt → Int
  | .s8 => 6 | .n8 => 7 | .s4 => 2 | .n4 => 3 | .s2 => 0 | .t2 => 0 | f => f.emax

/-- A group's scale, elements and LFSR (R283). -/
def quantGroup (f : Fmt) (mode : Round) (sat : Bool) (lf : BitVec 16) (xs : List Val) : Nat × List Nat × BitVec 16 :=
  sharedEncode (groupExp f) (fun v => if f.floats then f.withSign v.sign 0 else 0) (fun x r => convert f mode sat r x) mode lf xs

/-- vquant (R283). -/
def execVquant (fmt : Fmt) (d a b : Reg) (round : Round) (sat : Bool) (s : State) : Host.Outcome State Fault Refusal :=
  plainOp (fun l u r =>
    let mode := round.resolve l.rmode
    let (x, ps, t) := quantGroup fmt mode sat u.lfsr ((r.lanes a .sixteen .l32).map (Fmt.value .fp32))
    .send { u with lfsr := t } [out0 ((r.setElements d fmt.width ps).setW b (BitVec.ofNat 32 x))]) s

/-- The record that vmxd decodes (R258, R284). -/
def mxdRecord (fmt : Fmt) (bf16 : Bool) (r : Record) : Record :=
  let scale := (r.at 15).toNat % 256
  let es := r.elements 0 32 fmt.width
  let half := if (r.at 15).getLsbD 8 then es.drop 16 else es.take 16
  if bf16 then r.setLanes 0 .sixteen .l16 (es.map fun e => convert .bf16 .rne false 0 (mxValue fmt scale e))
  else r.setLanes 0 .sixteen .l32 (half.map fun e => convert .fp32 .rne false 0 (mxValue fmt scale e))

/-- vmxd (R284). -/
def execVmxd (fmt : Fmt) (d a : Reg) (bf16 : Bool) (s : State) : Host.Outcome State Fault Refusal :=
  if d = 0 && a = 0 then computeOp (mxdRecord fmt bf16) s else .next s

end Sys2Proof.Machine
end

