-- ==== Sys2Proof/Machine/Walker.lean ====
section
/-! DEFINITION. Machine/Walker.lean: the host queues and the task-graph walker (R37, R38, R356, R357). A step of a walk is the step of
the node at which it stands: the node is read as it is reached, and its words are kept until the walk leaves it. -/

namespace Sys2Proof.Machine

/-- The instance that a walk's requests carry: no region's, so that no region includes it (R201, R357). -/
def walkParty (q : Nat) : Nat := 2 ^ 41 + q

/-- A walk that has ended: WALKING is clear. -/
def HostQueue.ended (w : HostQueue) : HostQueue :=
  { w with walking := false, phase := .idle, words := [], stall := none, failed := false }

/-- A walk ended by an error at its node (R357). -/
def State.walkEnds (s : State) (q : Nat) (w : HostQueue) (code : BitVec 8) : State := s.setQueue q (w.error code w.node).ended

/-- What a walk does with an access made within its step: go on, wait, stall at an unmapped page, or end (R357). -/
def State.walkNow {α : Type} (s : State) (q : Nat) (w : HostQueue) (va : Nat) (x : Now α) (go : State → α → State) : State :=
  if w.failed then s.walkEnds q w 3
  else
    match x with
    | .ok s a => go s a
    | .wait s => s
    | .fault s => (s.faultEvent w.space va 2).setQueue q { w with stall := some (va / 2 ^ 16) }
    | .error s => s.walkEnds q w 5
    | .denied s => s.walkEnds q w 3
    | .hole s => s.walkEnds q w 3

/-- The walk stands at the field of its node that names the successor: the field is read, and the walk goes there, or waits for the
queue tail where it is 0 (R38, R357). -/
def State.walkFollow (s : State) (q : Nat) (w : HostQueue) (f : Nat) : State :=
  let va := w.node.toNat + f
  s.walkNow q w va (s.loadWords w.space va 2) fun s ws =>
    let n := pair64 (ws.getD 0 0) (ws.getD 1 0)
    s.setQueue q (if n = 0 then { w with phase := .tail f } else { w with node := n, phase := .fetch, words := [] })

/-- The node that a walk has reached, read (R357): none where the walk must wait or has ended. -/
def State.walkFetch (s : State) (q : Nat) : State × Option Instr :=
  let w := s.queue q
  let bad := s.setQueue q (w.error 1 w.node).ended
  if w.node.toNat % 32 ≠ 0 || !canonical w.node then (bad, none)
  else if w.failed then (s.walkEnds q w 3, none)
  else
    match s.loadWords w.space w.node.toNat 8 with
    | .ok s ws =>
      match decodeNode (execLaunchAccept.nodeBits ws) with
      | some i => (s.setQueue q { w with words := ws }, some i)
      | none => (s.setQueue q (w.error 1 w.node).ended, none)
    | x => (s.walkNow q w w.node.toNat x fun s _ => s, none)

/-- The walk's queue at the focus, where it walks and does not wait for a page. -/
def State.walkHere (s : State) : Option (Nat × HostQueue) :=
  let q := s.focus.queue % 4
  let w := s.queue q
  if w.walking && w.stall.isNone then some (q, w) else none

/-- An access of a walk sent to its slice: a read as .w, or a store as .s, at the node's scope from die 0 (R38, R184, R357). -/
def State.walkAsk (s : State) (q : Nat) (w : HostQueue) (n : Node) (va : DWord) (op : HomeOp) : State :=
  (s.setQueue q { w with phase := .asked none }).post (mkReq (.walk q) w.space (.glob va) op n.scope (walkParty q) (0, 0) 0)

/-- What the reply of a walk's access makes of it: the words read, or the code of the error (R357). -/
def walkReply : Reply → Except (BitVec 8) (List Word)
  | .ok ws _ _ poison => if poison then .error 5 else .ok ws
  | .trap .scope _ _ => .error 4
  | .trap .poison _ _ => .error 5
  | .trap _ _ _ => .error 3
  | .fault => .error 3
  | .logged => .error 3
  | .killed => .error 3

/-- A node's access: asked where the walk has reached the node, its reply used when it is there, and the successor followed. -/
def State.walkStep (s : State) (n : Node) (va : DWord) (op : HomeOp) (go : State → Nat → HostQueue → Word → State) : State :=
  match s.walkHere with
  | none => s
  | some (q, w) =>
    match w.phase with
    | .fetch => s.walkAsk q w n va op
    | .accepted (some done) => s.walkAsk q w n done op
    | .accepted none => s.setQueue q { w with phase := .next 8 }
    | .asked (some r) =>
      match walkReply r with
      | .ok ws => go s q w (ws.getD 0 0)
      | .error code => s.walkEnds q w code
    | .next f => s.walkFollow q w f
    | .offer => s
    | .asked none => s
    | .tail _ => s
    | .idle => s

/-- The walk turned to the successor that a field of its node names. -/
def State.walkNext (s : State) (q : Nat) (w : HostQueue) (f : Nat) : State := s.setQueue q { w with phase := .next f }

/-- WALK_RUN (R38, R357): the launch at ARG is offered to LAUNCH_ACCEPT; accepted or dropped, the walk goes on to NEXT, with JOIN once
the launch's completion word has been read as full. -/
def execWalkRun (n : Node) (s : State) : Host.Outcome State Fault Refusal :=
  match s.walkHere with
  | none => .next s
  | some (q, w) =>
    match w.phase with
    | .fetch => .next (s.setQueue q { w with phase := .offer })
    | _ => .next (s.walkStep n n.arg (.load .w 1) fun s q w _ => s.walkNext q w 8)

/-- WALK_WAIT (R38): ARG is read as .w. -/
def execWalkWait (n : Node) (s : State) : Host.Outcome State Fault Refusal :=
  .next (s.walkStep n n.arg (.load .w 1) fun s q w _ => s.walkNext q w 8)

/-- WALK_COND (R38): ARG is read as .w, and compared with VAL. -/
def execWalkCond (n : Node) (s : State) : Host.Outcome State Fault Refusal :=
  .next (s.walkStep n n.arg (.load .w 1) fun s q w v => s.walkNext q w (if v = n.val then 8 else 16))

/-- The iterations taken that a loop node holds after a step, and the field of its successor (R37, R38). -/
def Node.loop (n : Node) (v : Word) : BitVec 20 × Nat :=
  if v ≠ 0 ∧ (n.val = 0 ∨ n.iter.toNat < n.val.toNat) then (if n.iter = 0xFFFFF then n.iter else n.iter + 1, 16) else (0, 8)

/-- WALK_LOOP (R38): ARG is read as .w, ITER is written back, and the walk takes the body or leaves. -/
def execWalkLoop (n : Node) (s : State) : Host.Outcome State Fault Refusal :=
  .next (s.walkStep n n.arg (.load .w 1) fun s q w v =>
    let r := Node.loop n v
    let word := (w.words.getD 0 0).extractLsb' 20 12 ++ r.1
    s.walkNow q w w.node.toNat (s.storeWords w.space w.node.toNat [word]) fun s _ => s.walkNext q w r.2)

/-- WALK_SIGNAL (R38): VAL is written to ARG as .s. -/
def execWalkSignal (n : Node) (s : State) : Host.Outcome State Fault Refusal :=
  .next (s.walkStep n n.arg (.store .s [n.val]) fun s q w _ => s.walkNext q w 8)

/-- WALK_END (R38): the walk ends. -/
def execWalkEnd (_ : Node) (s : State) : Host.Outcome State Fault Refusal :=
  match s.walkHere with
  | none => .next s
  | some (q, w) => .next (s.setQueue q w.ended)

/-- HQSTART_WRITE (R356, R357): a write while no walk is in progress starts one at the node, in the space that SWCTL names; a write
while one is in progress or before FEATURE_ON is ignored (R376). -/
def execHqStartWrite (n : BitVec 2) (v : DWord) (s : State) : Host.Outcome State Fault Refusal :=
  let w := s.queue n.toNat
  if w.walking || !s.featureTaken || s.inReset then .next s
  else
    .next (s.setQueue n.toNat { w with start := v, node := v, space := s.swCtl.extractLsb' 32 12, walking := true, phase := .fetch,
                                       words := [], stall := none, failed := false })

/-- HQTAIL_WRITE (R356, R357): the value is kept, and a walk that waits at a successor of 0 reads that field again. -/
def execHqTailWrite (n : BitVec 2) (v : DWord) (s : State) : Host.Outcome State Fault Refusal :=
  let w := s.queue n.toNat
  let phase := match w.phase with
    | .tail f => .next f
    | p => p
  .next (if s.inReset then s else s.setQueue n.toNat { w with tail := v, phase := phase })

end Sys2Proof.Machine
end

