-- ==== Sys2Proof/Machine/Boot.lean ====
section
/-! DEFINITION. Machine/Boot.lean: the authentication of the firmware image at bring-up (R378): SHA-256, and the verification of an LMS
signature by RFC 8554 with the parameter sets LMS_SHA256_M32_H15 and LMOTS_SHA256_N32_W4. What the two standards say is PRESUMED: log 110. -/

namespace Sys2Proof.Machine

/-! ### SHA-256 -/

/-- The prime numbers below 312, which are the first 64: every smaller divisor that a composite number below 18 × 18 must have is tried. -/
def shaPrimes : List Nat := (List.range 312).filter fun n => 2 ≤ n && (List.range 18).all fun d => d < 2 || n ≤ d || n % d != 0

/-- The greatest r below 2 ^ bits whose power `deg` is at most n. -/
def rootFloor (deg n : Nat) : (bits : Nat) → Nat
  | 0 => 0
  | bits + 1 =>
    let high := 2 * rootFloor deg (n / 2 ^ deg) bits
    if (high + 1) ^ deg ≤ n then high + 1 else high

/-- The first 32 bits of the fraction of a prime's root of a degree. -/
def fractionOfRoot (deg p : Nat) : Word := BitVec.ofNat 32 (rootFloor deg (p * 2 ^ (32 * deg)) 37)

/-- The round constants: the fractions of the cube roots of the first 64 primes. -/
def shaK : List Word := shaPrimes.map (fractionOfRoot 3)

/-- The eight words of a hash in the making. -/
structure ShaState where
  a : Word
  b : Word
  c : Word
  d : Word
  e : Word
  f : Word
  g : Word
  h : Word
  deriving DecidableEq, Repr

/-- A hash of eight words in order. -/
def ShaState.ofWords (word : Nat → Word) : ShaState :=
  ⟨word 0, word 1, word 2, word 3, word 4, word 5, word 6, word 7⟩

/-- The eight words in order. -/
def ShaState.words (s : ShaState) : List Word := [s.a, s.b, s.c, s.d, s.e, s.f, s.g, s.h]

/-- The initial hash value: the fractions of the square roots of the first eight primes. -/
def shaStart : ShaState := .ofWords fun i => fractionOfRoot 2 (shaPrimes.getD i 2)

/-- Three rotations of a word, combined. -/
def mixed (w : Word) (i j k : Nat) : Word := [i, j, k].foldl (fun acc n => acc ^^^ w.rotateRight n) 0

/-- Bit by bit, `x` where `sel` is 1 and `y` where it is 0. -/
def pickBits (sel x y : Word) : Word := y ^^^ (sel &&& (x ^^^ y))

/-- One round, of a schedule word and its constant: each word moves down one place, `e` takes up what the round adds, and a new word enters
at the front. -/
def shaRound (s : ShaState) (w : Word) (k : Word) : ShaState :=
  let enters := s.h + k + w + pickBits s.e s.f s.g + mixed s.e 6 11 25
  let majority := pickBits (s.a ^^^ s.b) s.c s.a
  ⟨enters + majority + mixed s.a 2 13 22, s.a, s.b, s.c, s.d + enters, s.e, s.f, s.g⟩

/-- The rounds of a block, with the last 16 words of its message schedule. -/
def shaRounds : List Word → List Word → ShaState → ShaState
  | [], _, s => s
  | k :: ks, win, s =>
    let at_ := fun i => win.getD i 0
    let spread := fun (w : Word) i j n => w.rotateRight i ^^^ w.rotateRight j ^^^ (w >>> n)
    let later := spread (at_ 14) 17 19 10 + at_ 9 + spread (at_ 1) 7 18 3 + at_ 0
    shaRounds ks (win.drop 1 ++ [later]) (shaRound s (at_ 0) k)

/-- A block of 16 words taken into a hash. -/
def shaBlock (s : ShaState) (ws : List Word) : ShaState :=
  let t := shaRounds shaK ws s
  .ofWords fun i => s.words.getD i 0 + t.words.getD i 0

/-- A number as n bytes, most significant first. -/
def bigEndian (n v : Nat) : List Byte := (List.range n).map fun i => BitVec.ofNat 8 (v / 256 ^ (n - 1 - i))

/-- The number that bytes give, most significant first. -/
def ofBigEndian (bs : List Byte) : Nat := bs.foldl (fun n b => n * 256 + b.toNat) 0

/-- Bytes as big-endian words. -/
def wordsBig : List Byte → List Word
  | a :: b :: c :: d :: rest => (a ++ b ++ c ++ d) :: wordsBig rest
  | _ => []

/-- Blocks of a padded message taken in. `n` bounds them. -/
def shaBlocks : Nat → List Word → ShaState → ShaState
  | 0, _, s => s
  | n + 1, ws, s => if ws.isEmpty then s else shaBlocks n (ws.drop 16) (shaBlock s (ws.take 16))

/-- The SHA-256 hash of bytes: 32 bytes. -/
def sha256 (m : List Byte) : List Byte :=
  let pad := List.replicate ((119 - m.length % 64) % 64) (0 : Byte)
  let ws := wordsBig (m ++ [0x80] ++ pad ++ bigEndian 8 (8 * m.length))
  let s := shaBlocks ws.length ws shaStart
  s.words.flatMap fun w => bigEndian 4 w.toNat

/-! ### LMS -/

/-- n bytes of a list from a place on. -/
def bytesAt (bs : List Byte) (at_ n : Nat) : List Byte := (bs.drop at_).take n

/-- A Winternitz chain of a one-time signature from step j to step 15 (RFC 8554, 4.6): n steps are left. -/
def otsChain (seed : List Byte) (i : Nat) : (n : Nat) → List Byte → List Byte
  | 0, y => y
  | n + 1, y => otsChain seed i n (sha256 (seed ++ bigEndian 2 i ++ bigEndian 1 (14 - n) ++ y))

/-- The 67 digits of 4 bits that a one-time signature signs: those of the hash, then of its checksum. -/
def otsDigits (q : List Byte) : List Nat :=
  let digits := q.flatMap fun b => [b.toNat / 16, b.toNat % 16]
  let sum := (digits.map fun d => 15 - d).foldl (· + ·) 0
  digits ++ [sum / 256 % 16, sum / 16 % 16, sum % 16]

/-- The public key that a one-time signature of a message gives (RFC 8554, algorithm 4b). -/
def otsKey (id : List Byte) (leaf : Nat) (c ys : List Byte) (message : List Byte) : List Byte :=
  let seed := id ++ bigEndian 4 leaf
  let q := sha256 (seed ++ [0x81, 0x81] ++ c ++ message)
  sha256 (seed ++ [0x80, 0x80] ++ (otsDigits q).zipIdx.flatMap fun d => otsChain seed d.2 (15 - d.1) (bytesAt ys (32 * d.2) 32))

/-- The root that a leaf's hash and its path give, from a node of the tree up (RFC 8554, algorithm 6a). -/
def lmsRoot (id : List Byte) : List (List Byte) → Nat → List Byte → List Byte
  | [], _, t => t
  | p :: ps, node, t =>
    let parent := id ++ bigEndian 4 (node / 2) ++ [0x83, 0x83]
    lmsRoot id ps (node / 2) (sha256 (if node % 2 = 1 then parent ++ p ++ t else parent ++ t ++ p))

/-- A signature of a message is valid under a public key (RFC 8554, algorithm 6): both of the two parameter sets, a leaf of the tree, and the
root that the key names. -/
def lmsValid (key signature message : List Byte) : Bool :=
  let leaf := ofBigEndian (bytesAt signature 0 4)
  let id := bytesAt key 8 16
  let path := (List.range 15).map fun i => bytesAt signature (2188 + 32 * i) 32
  let ots := otsKey id leaf (bytesAt signature 8 32) (bytesAt signature 40 2144) message
  let first := sha256 (id ++ bigEndian 4 (2 ^ 15 + leaf) ++ [0x82, 0x82] ++ ots)
  key.length == 56 && signature.length == 2668 && ofBigEndian (bytesAt key 0 4) == 7 && ofBigEndian (bytesAt key 4 4) == 3 &&
  ofBigEndian (bytesAt signature 4 4) == 3 && ofBigEndian (bytesAt signature 2184 4) == 7 && decide (leaf < 2 ^ 15) &&
  lmsRoot id path (2 ^ 15 + leaf) first == bytesAt key 24 32

/-- The boot ROM accepts the image (R378 step 1): the public key is the fused one, and the image's signature is valid under it. -/
def Boot.signed (b : Boot) : Bool := sha256 b.publicKey == b.fusedDigest && lmsValid b.publicKey b.signature b.image

end Sys2Proof.Machine
end

