-- ==== Sys2Proof/Machine/Window.lean ====
section
/-! DEFINITION. Machine/Window.lean: the control window: its registers (R374), the aperture (R375), features (R376), resets and bring-up
(R377, R378), attestation (R379), peer accesses (R380), power (R381) and histograms (R383). -/

namespace Sys2Proof.Machine

/-! ### Resets (R377, R378) -/

/-- A live launch ended by a kill (R230, R372). -/
def State.killLaunch (s : State) (inst : Nat) : State :=
  match s.launch? inst with
  | none => s
  | some l =>
    if l.phase == .completing then s
    else if l.phase == .waiting || l.phase == .loading then s.endUnrun inst 9 0 0
    else (s.freeContext inst).endFatal inst 9 .killed 0 0

/-- WARM_RESET (R377): every live launch is killed, every walk ends with what it has asked of the slices, and FEATURE_ON unlocks. -/
def execWarmReset (s : State) : Host.Outcome State Fault Refusal :=
  let s := { s with queues := s.queues.map HostQueue.ended, featureLocked := false }
  let s := s.removeReqs fun r => match r.party with
    | .walk _ => true
    | _ => false
  let s := (s.launches.map (·.1)).foldl (fun (s : State) i => s.killLaunch i) s
  .next { s with warm := !s.launches.isEmpty }

/-- A part as a cold reset clears it: every register at its reset value, memory and tables empty. What stands in flash and fuses stays, and
so do the signatures left under the device key, which are no register that a reset sets. -/
def State.cleared (s : State) : State :=
  { State.reset with boot := s.boot, attSigs := s.attSigs, tick := s.tick, inputs := s.inputs, hostReplies := s.hostReplies,
                     peerReplies := s.peerReplies, reports := s.reports, focus := s.focus }

/-- A bring-up that fails leaves the part dormant in STATE 4 (R378). -/
def State.dormant (s : State) (code : BitVec 8) (svn : BitVec 16) : State :=
  { s.cleared with resetState := 4, failCode := code, svn := svn }

/-- Monitor events of the units and links that training retires (R21, R382): a unit's on its own die, a link's on die 0. -/
def State.reportRetired (s : State) (units : NSet) (links : List Nat) : State :=
  let s := units.foldl (fun (s : State) u => s.event (cellDie (u / 16 % 128) (u / 2048)) 5 0 0 0 (BitVec.ofNat 32 (u % 65536))) s
  links.foldl (fun (s : State) n => s.event 0 5 0 0 0 (BitVec.ofNat 32 n)) s

/-- COLD_RESET (R377, R378): bring-up, one phase in each step: it begins, in STATE 1; the image is authenticated, its SVN compared and the
memory trained, after which the part clears, in STATE 2; everything is cleared and every register takes its reset value, in STATE 3. -/
def execColdReset (s : State) : Host.Outcome State Fault Refusal :=
  let b := s.boot
  if s.resetState = 1 then
    if !b.signed then .next (s.dormant 1 0)
    else if b.svn < b.fusedSvn then .next (s.dormant 2 0)
    else if !b.trained then .next (s.dormant 3 b.svn)
    else .next (s.reportRetired b.failing b.failingLinks |> fun s => { s with resetState := 2, svn := b.svn })
  else if s.resetState = 2 then .next { s.cleared with svn := b.svn, retired := b.failing, retiredLinks := b.failingLinks }
  else .next { s with resetState := 1, failCode := 0, svn := 0, warm := false }

/-- A write to RESETCTL (R377): a warm reset of a part that is ready, unless one is in progress, or a cold reset, which starts again where
one is in progress. -/
def State.writeReset (s : State) (v : DWord) : Host.Outcome State Fault Refusal :=
  if field v 0 2 = 1 && s.resetState == 3 && !s.warm then execWarmReset s
  else if field v 0 2 = 2 then .next { s with resetState := 1, failCode := 0, svn := 0, warm := false }
  else .next s

/-! ### Features (R376) -/

/-- FEATURE0: bits 0 to 10. -/
def feature0 : DWord := 0x7FF

/-- FEATURE_ON (R376): the write to 0x0038 takes the four words, of which the part keeps the bits that FEATURE offers; it is ignored
once a launch has been accepted. -/
def execFeatureOn (_ : DWord) (s : State) : Host.Outcome State Fault Refusal :=
  if s.featureLocked || s.inReset then .next s
  else
    let on := s.featureStaged[0] &&& feature0
    .next { s with featureOn := (Vector.replicate 4 0).set 0 on, featureTaken := true }

/-! ### The aperture (R375) -/

/-- The instance that an access from outside the part carries: no region's (R201). -/
def outsideParty : Nat := 2 ^ 41 + 4

/-- A request of the host or a peer part to a slice, at sys. -/
def outsideReq (space : BitVec 12) (va : DWord) (op : HomeOp) : Req :=
  { mkReq .outside space (.glob va) op .sys outsideParty (0, 0) (vaDie va.toNat) with outside := true }

/-- SWSTAT's bit for an access that its translation or its home denies: FAULT for a protection failure, DENIED for any other trap. -/
def State.deniedBit (s : State) (space : BitVec 12) (va : Nat) (write : Bool) : BitVec 3 :=
  match (s.translate space va write false).2 with
  | .protect => 1
  | _ => 4

/-- One access of the host's window, performed at its slice: `done` takes the words read; a failure sets its bit of SWSTAT and goes on
as `failed` says; an access that must wait is made again. -/
def State.windowAccess (s : State) (offset : BitVec 14) (bytes8 : Bool) (op : HomeOp) (done : State → List Word → State)
    (failed : State → State) : State :=
  let va := s.swBase + offset.zeroExtend 64
  let space := s.swCtl.extractLsb' 32 12
  let size := if bytes8 then 8 else 4
  let s := { s with windowHeld := false }
  let fail := fun (s : State) (bit : BitVec 3) => failed { s with swStat := s.swStat ||| bit }
  if va.toNat % size ≠ 0 || !canonical va then fail s 4
  else
    match s.performNow (outsideReq space va op) with
    | .ok s r => if r.poisoned then fail s 2 else done s r.words
    | .wait s => { s with windowHeld := true }
    | .fault s => fail s 1
    | .denied t => fail t (s.deniedBit space va.toNat (op.writes none 0))
    | .error s => fail s 4
    | .hole s => fail s 4

/-- APERTURE_READ (R375): an acquire at sys that returns 4 or 8 bytes, all ones where it faults or is poisoned or denied, 0 in a
reset. -/
def execApertureRead (offset : BitVec 14) (bytes8 : Bool) (s : State) : Host.Outcome State Fault Refusal :=
  let reply := fun (s : State) (v : DWord) => { s with hostReplies := s.hostReplies ++ [v] }
  if s.inReset then .next (reply s 0)
  else
    .next (s.windowAccess offset bytes8 (.load .plain (if bytes8 then 2 else 1))
      (fun s ws => reply s (pair64 (ws.getD 0 0) (if bytes8 then ws.getD 1 0 else 0)))
      (fun s => reply s (if bytes8 then 0xFFFFFFFFFFFFFFFF else 0xFFFFFFFF)))

/-- SWCTL.MODE. -/
def State.windowMode (s : State) : Nat := field s.swCtl 0 2

/-- The words of an aperture write. -/
def windowWords (bytes8 : Bool) (v : DWord) : List Word := if bytes8 then [lo32 v, hi32 v] else [lo32 v]

/-- A write of the aperture in a mode (R375): ignored in a reset and in any other mode. -/
def State.windowWrite (s : State) (mode : Nat) (offset : BitVec 14) (bytes8 : Bool) (op : HomeOp) : State :=
  if s.inReset || s.windowMode ≠ mode then s
  else s.windowAccess offset bytes8 op (fun s _ => s) (fun s => s)

/-- APERTURE_WRITE_PLAIN (R375): MODE 00. -/
def execApertureWritePlain (offset : BitVec 14) (bytes8 : Bool) (v : DWord) (s : State) : Host.Outcome State Fault Refusal :=
  .next (s.windowWrite 0 offset bytes8 (.store .plain (windowWords bytes8 v)))

/-- APERTURE_WRITE_S (R375): MODE 01, a release at sys. -/
def execApertureWriteS (offset : BitVec 14) (bytes8 : Bool) (v : DWord) (s : State) : Host.Outcome State Fault Refusal :=
  .next (s.windowWrite 1 offset bytes8 (.store .s (windowWords bytes8 v)))

/-- APERTURE_WRITE_EMPTY (R375): MODE 10, data written and words set empty in one relaxed step. -/
def execApertureWriteEmpty (offset : BitVec 14) (bytes8 : Bool) (v : DWord) (s : State) : Host.Outcome State Fault Refusal :=
  .next (s.windowWrite 2 offset bytes8 (.storeEmpty (windowWords bytes8 v)))

/-! ### Peer accesses (R380) -/

/-- What an access of a peer part asks of a slice. -/
def OutsideOp.home : OutsideOp → HomeOp
  | .read n => .load .plain n
  | .readW n => .load .w n
  | .readC n => .load .c n
  | .readTc n => .load .tc n
  | .write ws => .store .plain ws
  | .writeS ws => .store .s ws
  | .writeF ws => .store .f ws
  | .writeTf ws => .store .tf ws
  | .atomic opcode pair x o => .atom opcode pair x o
  | .swap pair expected new o => .cas pair expected new o
  | .writeEmpty ws => .storeEmpty ws

/-- The bytes to whose multiples an access of a peer part is aligned: a pair's 8 where it is performed as a pair. -/
def OutsideOp.align : OutsideOp → Nat
  | .atomic _ pair _ _ => if pair then 8 else 4
  | .swap pair _ _ _ => if pair then 8 else 4
  | _ => 4

/-- PEER_ACCESS (R380, R215, R63): an access of a peer part, of any form that peer space takes, goes to its home slice, to be performed
there at sys. One that is misaligned, or not within a granule of a canonical address, asks for no access of this part. -/
def execPeerAccess (space : BitVec 12) (va : DWord) (op : OutsideOp) (s : State) : Host.Outcome State Fault Refusal :=
  let h := Sys2Proof.Machine.OutsideOp.home op
  if s.inReset || !canonical va || va.toNat % Sys2Proof.Machine.OutsideOp.align op ≠ 0 || decide (16 < va.toNat / 4 % 16 + h.words) then .next s
  else .next (s.post (outsideReq space va h))

/-! ### Attestation (R379) -/

/-- The word whose bytes a function gives. -/
def wordOfBytes (f : Nat → Byte) (i : Nat) : Word := f (4 * i + 3) ++ f (4 * i + 2) ++ f (4 * i + 1) ++ f (4 * i)

/-- Byte k of a 32-bit value as the signature's form writes it, the most significant first. -/
def bigByte (v k : Nat) : Byte := BitVec.ofNat 8 (v / 256 ^ (3 - k))

/-- The leaf of the device key that the next report uses: 32,768 leaves, each used once. -/
def State.lmsLeaf (s : State) : Nat := 32768 - s.attSigs.toNat

/-- A byte of the LMS signature over signed words (R378, R379): the leaf's number; the one-time signature with its type
LMOTS_SHA256_N32_W4; the type LMS_SHA256_M32_H15; the path. -/
def lmsByte (leaf : Nat) (signed : List Word) (i : Nat) : Byte :=
  if i < 4 then bigByte leaf i
  else if i < 8 then bigByte 3 (i - 4)
  else if 2184 ≤ i && decide (i < 2188) then bigByte 7 (i - 2184)
  else Config.lmsSignature leaf signed i

/-- The words that an attestation report signs: identity, SVN, features, measurement and nonce. -/
def State.attested (s : State) : List Word :=
  let pair := fun (v : DWord) => [lo32 v, hi32 v]
  pair Config.deviceIdentity ++ pair (s.svn.zeroExtend 64) ++ pair feature0 ++ pair s.featureOn[0] ++ List.replicate 4 0 ++
  (List.range 8).map (wordOfBytes fun i => (sha256 s.boot.image).getD i 0) ++ s.attNonce.toList.flatMap pair ++ List.replicate 4 0

/-- The words of an attestation report: what it signs, and the signature. -/
def State.attestation (s : State) : List Word :=
  s.attested ++ (List.range 667).map (wordOfBytes (lmsByte s.lmsLeaf s.attested))

/-- Words written one by one as .s with release at sys. -/
def State.storeReleased (s : State) (space : BitVec 12) (va : Nat) : List Word → Now Unit
  | [] => .ok s ()
  | w :: ws =>
    (s.performNow { outsideReq space (BitVec.ofNat 64 va) (.store .s [w]) with outside := false }).bind fun s _ =>
      State.storeReleased s space (va + 4) ws

/-- ATTESTATION_REPORT (R379): the report that a write of ATTCMD started is signed, written and done; a fault, or no signature left, is
an error. -/
def execAttestationReport (v : DWord) (s : State) : Host.Outcome State Fault Refusal :=
  if !s.attBusy then .next s
  else
    let ends := fun (s : State) (ok : Bool) => { s with attBusy := false, attDone := ok, attErr := !ok }
    if s.attSigs = 0 then .next (ends s false)
    else if s.attAddr.toNat % 4096 ≠ 0 || !canonical s.attAddr then .next (ends s false)
    else
      match s.storeReleased (v.extractLsb' 32 12) s.attAddr.toNat s.attestation with
      | .ok s _ => .next (ends { s with attSigs := s.attSigs - 1 } true)
      | .wait s => .next s
      | other => .next (ends { other.state with attSigs := other.state.attSigs - 1 } false)

/-! ### Histograms (R383) -/

/-- HISTOGRAM_CLEAR (R383): the host's write of MONCFG.CLEAR, ignored in a reset (R377). -/
def execHistogramClear (die u : Nat) (s : State) : Host.Outcome State Fault Refusal :=
  if s.inReset then .next s else .next (s.setHistogram die u Histogram.reset)

/-- HISTOGRAM_SAMPLE (R383): a sample of a source, charged to a space, reaches a unit: recorded, or with FREEZE counted as dropped. -/
def execHistogramSample (die u : Nat) (source : BitVec 8) (space : BitVec 12) (v : Word) (s : State) : Host.Outcome State Fault Refusal :=
  .next (s.sampleAt die source space v u)

/-- The waiters in each waiter buffer of a die sampled once, charged to no space. -/
def State.sampleWaiters (s : State) (d : Nat) : State :=
  if (List.range 16).any fun u => ((s.die d).histogram u).takes 3 0 then
    (List.range 64).foldl (fun (t : State) k => t.sample d 3 0 (BitVec.ofNat 32 (s.slice (d * 64 + k)).waiters.length)) s
  else s

/-- Waiter-buffer occupancy sampled a number of times on every die (R383). -/
def State.sampleWaitersFor : Nat → State → State
  | 0, s => s
  | n + 1, s => State.sampleWaitersFor n ((List.range 4).foldl State.sampleWaiters s)

/-! ### Power (R381) -/

/-- The cap as it acts: 1,000 to 3,600 watts. -/
def State.cap (s : State) : Nat := max 1000 (min 3600 s.powerCap.toNat)

/-- THROTTLED at a time: cycles at LEVEL above 0, saturating. -/
def State.throttledAt (s : State) (time : Nat) : Word :=
  if s.level = 0 then s.throttled else BitVec.ofNat 32 (min 0xFFFFFFFF (s.throttled.toNat + (time - s.throttleMark)))

/-- The first end of a span that has not been dealt with. -/
def State.nextPower (s : State) : Nat := (s.powerMark / 65536 + 1) * 65536

/-- POWER_LEVEL_UPDATE (R381 to R383): at the end of every 65,536 cycles, each end for itself, the estimate is compared with the cap, LEVEL
changes by one, which a monitor event reports, and the estimate is a sample of every die. -/
def execPowerLevelUpdate (s : State) : Host.Outcome State Fault Refusal :=
  if s.now < s.nextPower then .next s
  else
    let estimate := Config.powerEstimate s.tick
    let level : BitVec 3 :=
      if s.cap < estimate then (if s.level = 7 then 7 else s.level + 1)
      else if 100 * estimate < 95 * s.cap then (if s.level = 0 then 0 else s.level - 1)
      else s.level
    let changed := level != s.level
    let s := { s with powerMark := s.nextPower, throttled := s.throttledAt s.nextPower, throttleMark := max s.throttleMark s.nextPower,
                      overCap := s.level == 7 && decide (s.cap < estimate), level := level }
    let s := if changed then s.event 0 6 0 0 0 (level.zeroExtend 32) else s
    .next ((List.range 4).foldl (fun (s : State) d => s.sample d 9 0 (BitVec.ofNat 32 estimate)) s)

/-! ### The register map (R374) -/

/-- The bits of a value that a field map names. -/
def bits (v : DWord) (lo n : Nat) : DWord := BitVec.ofNat 64 (field v lo n * 2 ^ lo)

/-- A host queue's registers read (R356). -/
def State.readQueue (s : State) (n r : Nat) : DWord :=
  let w := s.queue n
  let waits := match w.phase with | .tail _ => true | _ => false
  let err := w.errCount != 0 || w.errCode != 0
  match r with
  | 0 => w.start
  | 1 => w.tail
  | 2 => BitVec.ofNat 64 (w.space.toNat * 2 ^ 32 + (if err then 4 else 0) + (if waits then 2 else 0) + (if w.walking then 1 else 0))
  | 3 => w.errCount ++ (0 : BitVec 24) ++ w.errCode
  | 4 => w.errAddr
  | _ => 0

/-- A histogram unit's registers read (R383). -/
def Histogram.read (h : Histogram) (o : Nat) : DWord :=
  let bin := fun (k : Nat) => h.bins[k]?.getD 0
  if o = 0x00 then h.config
  else if o = 0x08 then h.min.zeroExtend 64
  else if o = 0x10 then h.max.zeroExtend 64
  else if o = 0x18 then h.count
  else if o = 0x20 then h.dropped.zeroExtend 64
  else if 0x80 ≤ o then bin (2 * ((o - 0x80) / 8) + 1) ++ bin (2 * ((o - 0x80) / 8))
  else 0

/-- FRSTAT (R348). -/
def Die.frStat (x : Die) : DWord :=
  BitVec.ofNat 64 ((if x.frRefused then 2 else 0) + (if x.taking || x.returning || !x.frameReturns.isEmpty then 1 else 0))

/-- A register of a die's block read (R374). -/
def Die.read (x : Die) (o : Nat) : DWord :=
  let cfg := fun (v : Vector DWord 8) (at_ : Nat) => v[(o - at_) / 8]?.getD 0
  if 0x1000 ≤ o then (x.histogram ((o - 0x1000) / 0x100)).read (o % 0x100)
  else if 0x48 ≤ o && o ≤ 0x80 then cfg x.domCfgStaged 0x48
  else if 0xC8 ≤ o && o ≤ 0x100 then cfg x.domCfg 0xC8
  else
    match o with
    | 0x000 => x.parkAfter.zeroExtend 64
    | 0x008 => x.laggard.zeroExtend 64
    | 0x010 => x.evBase
    | 0x018 => (0 : BitVec 20) ++ x.evSpace ++ (0 : BitVec 12) ++ x.evSize
    | 0x020 => x.evTail.zeroExtend 64
    | 0x028 => x.evHead.zeroExtend 64
    | 0x030 => x.evLost.zeroExtend 64
    | 0x040 => x.domMapStaged
    | 0x088 => x.domCmd.zeroExtend 64
    | 0x090 => x.wbBase
    | 0x098 => x.wbLen
    | 0x0A0 => x.domStat
    | 0x0C0 => x.domMap
    | 0x140 => x.rootBase
    | 0x148 => x.ftBase
    | 0x150 => x.ftFrames.zeroExtend 64
    | 0x158 => x.tbCtl
    | 0x160 => x.tbBase
    | 0x168 => x.tbHead.zeroExtend 64
    | 0x170 => x.tbTail.zeroExtend 64
    | 0x178 => x.frCtl
    | 0x180 => x.frBase
    | 0x188 => x.frHead.zeroExtend 64
    | 0x190 => x.frTail.zeroExtend 64
    | 0x198 => x.frPushed.zeroExtend 64
    | 0x1A0 => x.frStat
    | 0x1A8 => x.trBase
    | 0x1B0 => x.trCtl
    | 0x1B8 => x.trHead.zeroExtend 64
    | _ => 0

/-- RESETSTAT (R377). -/
def State.resetStat (s : State) : DWord := (0 : BitVec 16) ++ s.svn ++ (0 : BitVec 16) ++ s.failCode ++ (0 : BitVec 5) ++ s.resetState

/-- ATTCMD as it reads (R379). -/
def State.attCmd (s : State) : DWord :=
  (0 : BitVec 32) ++ s.attSigs ++ (0 : BitVec 5) ++ bit1 s.attErr ++ bit1 s.attDone ++ bit1 s.attBusy ++ (0 : BitVec 8)

/-- POWERSTAT (R381). -/
def State.powerStat (s : State) : DWord := s.throttledAt s.now ++ (0 : BitVec 27) ++ bit1 s.overCap ++ (0 : BitVec 1) ++ s.level

/-- A register of the control window read (R374). During a reset every one but RESETSTAT reads 0 (R377). -/
def State.readRegister (s : State) (offset : BitVec 16) : DWord :=
  let o := offset.toNat
  if o % 8 ≠ 0 then 0
  else if o = 0x48 then s.resetStat
  else if s.inReset then 0
  else if 0x2000 ≤ o && o < 0xA000 then (s.die ((o - 0x2000) / 0x2000)).read (o % 0x2000)
  else if 0x100 ≤ o && o < 0x200 then s.readQueue ((o - 0x100) / 0x40) (o % 0x40 / 8)
  else
    match o with
    | 0x00 => feature0
    | 0x20 => s.featureOn[0]
    | 0x28 => s.featureOn[1]
    | 0x30 => s.featureOn[2]
    | 0x38 => s.featureOn[3]
    | 0x50 => s.swBase
    | 0x58 => s.swCtl
    | 0x60 => s.swStat.zeroExtend 64
    | 0x68 => s.attCmd
    | 0x70 => s.attAddr
    | 0x78 => s.attNonce[0]
    | 0x80 => s.attNonce[1]
    | 0x88 => s.attNonce[2]
    | 0x90 => s.attNonce[3]
    | 0x98 => s.peerId.zeroExtend 64
    | 0xC0 => s.quantum.zeroExtend 64
    | 0xC8 => s.compactAfter.zeroExtend 64
    | 0xD0 => s.preemptWait.zeroExtend 64
    | 0xD8 => s.ctxCtl
    | 0xE0 => s.ctxBase
    | 0xE8 => s.killDone
    | 0xF0 => (0 : BitVec 61) ++ bit1 s.killing.isSome ++ s.killResult
    | 0x200 => s.powerCap.zeroExtend 64
    | 0x208 => s.powerStat
    | _ => 0

/-- The staged DOMCFG registers with one written. -/
def Die.stageCfg (x : Die) (n : Nat) (v : DWord) : Die :=
  { x with domCfgStaged := x.domCfgStaged.setIfInBounds n v }

/-- A register of a die's block written (R374): bits that no field map names are dropped. -/
def Die.write (x : Die) (o : Nat) (v : DWord) : Die :=
  if 0x48 ≤ o && o ≤ 0x80 then x.stageCfg ((o - 0x48) / 8) v
  else
    match o with
    | 0x000 => { x with parkAfter := v.extractLsb' 0 20 }
    | 0x008 => { x with laggard := v.extractLsb' 0 28 }
    | 0x010 => { x with evBase := v }
    | 0x018 => { x with evSpace := v.extractLsb' 32 12, evSize := v.extractLsb' 0 20 }
    | 0x020 => { x with evTail := lo32 v }
    | 0x040 => { x with domMapStaged := v }
    | 0x090 => { x with wbBase := v }
    | 0x098 => { x with wbLen := v }
    | 0x140 => { x with rootBase := bits v 26 22 }
    | 0x148 => { x with ftBase := bits v 16 32 }
    | 0x150 => { x with ftFrames := v.extractLsb' 0 24 }
    | 0x158 => { x with tbCtl := bits v 32 12 ||| bits v 0 20 }
    | 0x160 => { x with tbBase := v }
    | 0x168 => { x with tbHead := lo32 v }
    | 0x170 => { x with tbTail := lo32 v }
    | 0x178 => { x with frCtl := bits v 32 12 ||| bits v 8 20 ||| bits v 0 1 }
    | 0x180 => { x with frBase := v }
    | 0x188 => { x with frHead := lo32 v }
    | 0x190 => { x with frTail := lo32 v }
    | 0x1A8 => { x with trBase := v }
    | 0x1B0 => { x with trCtl := bits v 63 1 ||| bits v 32 12 ||| bits v 0 20 }
    | _ => x

/-- A histogram unit's configuration written: CLEAR clears the unit, and reads 0. -/
def Histogram.write (h : Histogram) (o : Nat) (v : DWord) : Histogram :=
  if o ≠ 0 then h
  else
    let h := { h with config := bits v 62 2 ||| bits v 35 13 ||| bits v 8 5 ||| bits v 0 8 }
    if v.getLsbD 61 then Histogram.reset else h

/-- A write to a die's block: DOMCMD is a command where the part has domains, FRPUSH a push (R323, R350, R376). -/
def State.writeDie (s : State) (d o : Nat) (v : DWord) : Host.Outcome State Fault Refusal :=
  let x := s.die d
  if 0x1000 ≤ o then .next (s.setHistogram d ((o - 0x1000) / 0x100) ((x.histogram ((o - 0x1000) / 0x100)).write (o % 0x100) v))
  else if o = 0x088 then
    .next (if s.feature 10 then s.setDie d ({ x with domCmd := lo32 v }.domCommand v) else s.setDie d { x with domCmd := lo32 v })
  else if o = 0x198 then execFrpush d (v.extractLsb' 0 24) (s.setDie d { x with frPushed := v.extractLsb' 0 24 })
  else .next (s.setDie d (x.write o v))

/-- A write to a host queue's registers (R356): HQSTART, HQTAIL, and 0 to HQERR. -/
def State.writeQueue (s : State) (n r : Nat) (v : DWord) : Host.Outcome State Fault Refusal :=
  match r with
  | 0 => execHqStartWrite (BitVec.ofNat 2 n) v s
  | 1 => execHqTailWrite (BitVec.ofNat 2 n) v s
  | 3 => .next (if v = 0 then s.setQueue n { s.queue n with errCount := 0, errCode := 0, errAddr := 0 } else s)
  | _ => .next s

/-- A FEATURE_ON word staged; the last one takes them all (R376). -/
def State.writeFeature (s : State) (i : Nat) (v : DWord) : Host.Outcome State Fault Refusal :=
  if s.featureLocked then .next s
  else
    let s := { s with featureStaged := s.featureStaged.setIfInBounds i v }
    if i = 3 then execFeatureOn v s else .next s

/-- A write to the aperture at 0xC000 in the mode that SWCTL gives (R375). -/
def State.writeAperture (s : State) (offset : BitVec 14) (v : DWord) : Host.Outcome State Fault Refusal :=
  match s.windowMode with
  | 0 => execApertureWritePlain offset true v s
  | 1 => execApertureWriteS offset true v s
  | 2 => execApertureWriteEmpty offset true v s
  | _ => .next s

/-- REGISTER_WRITE (R374): a write of 8 bytes to the control window. An offset that is not aligned, or that the map does not name, or
that hardware writes, is ignored; so is every write during a reset but one to RESETCTL (R377). -/
def execRegisterWrite (offset : BitVec 16) (v : DWord) (s : State) : Host.Outcome State Fault Refusal :=
  let o := offset.toNat
  if o % 8 ≠ 0 then .next s
  else if o = 0x40 then s.writeReset v
  else if s.inReset then .next s
  else if 0xC000 ≤ o then s.writeAperture (BitVec.ofNat 14 (o - 0xC000)) v
  else if 0x2000 ≤ o && o < 0xA000 then s.writeDie ((o - 0x2000) / 0x2000) (o % 0x2000) v
  else if 0x100 ≤ o && o < 0x200 then s.writeQueue ((o - 0x100) / 0x40) (o % 0x40 / 8) v
  else
    match o with
    | 0x20 => s.writeFeature 0 v
    | 0x28 => s.writeFeature 1 v
    | 0x30 => s.writeFeature 2 v
    | 0x38 => s.writeFeature 3 v
    | 0x50 => .next { s with swBase := v }
    | 0x58 => .next { s with swCtl := bits v 32 12 ||| bits v 0 2 }
    | 0x60 => .next { s with swStat := s.swStat &&& v.extractLsb' 0 3 }
    | 0x68 =>
      .next (if v.getLsbD 0 && !s.attBusy then { s with attBusy := true, attDone := false, attErr := false, attSpace := v.extractLsb' 32 12 }
             else s)
    | 0x70 => .next { s with attAddr := v }
    | 0x78 => .next { s with attNonce := s.attNonce.set 0 v }
    | 0x80 => .next { s with attNonce := s.attNonce.set 1 v }
    | 0x88 => .next { s with attNonce := s.attNonce.set 2 v }
    | 0x90 => .next { s with attNonce := s.attNonce.set 3 v }
    | 0x98 => .next { s with peerId := v.extractLsb' 0 8 }
    | 0xC0 => .next { s with quantum := lo32 v, quantumMark := if s.quantumDue then s.quantumMark else s.now }
    | 0xC8 => .next { s with compactAfter := v.extractLsb' 0 16 }
    | 0xD0 => .next { s with preemptWait := lo32 v }
    | 0xD8 => .next { s with ctxCtl := bits v 32 12 ||| bits v 0 28 }
    | 0xE0 => .next { s with ctxBase := v }
    | 0xE8 => if s.killing.isSome then .next s else execKill v { s with killDone := v }
    | 0x200 => .next { s with powerCap := v.extractLsb' 0 12 }
    | 0x208 => .next (if hi32 v = 0 then { s with throttled := 0, throttleMark := s.now } else s)
    | _ => .next s

end Sys2Proof.Machine
end

