-- ==== Sys2Proof/Machine/Dispatch.lean ====
section
/-! DEFINITION. Machine/Dispatch.lean: one arm per instruction, one call of its meaning each. -/

namespace Sys2Proof.Machine

open Sys2Proof

/-- What an instruction does at the focus of a state. -/
def exec (i : Instr) (s : State) : Host.Outcome State Fault Refusal :=
  match i with
  | .nop => Sys2Proof.Machine.execNop s
  | .movi d imm => Sys2Proof.Machine.execMovi d imm s
  | .movhi d imm => Sys2Proof.Machine.execMovhi d imm s
  | .movk d k => Sys2Proof.Machine.execMovk d k s
  | .mov d a len => Sys2Proof.Machine.execMov d a len s
  | .setb n a => Sys2Proof.Machine.execSetb n a s
  | .setbw n a hi => Sys2Proof.Machine.execSetbw n a hi s
  | .call back => Sys2Proof.Machine.execCall back s
  | .ret => Sys2Proof.Machine.execRet s
  | .retTrap => Sys2Proof.Machine.execRetTrap s
  | .emit mask mode => Sys2Proof.Machine.execEmit mask mode s
  | .fork target => Sys2Proof.Machine.execFork target s
  | .drop => Sys2Proof.Machine.execDrop s
  | .retire => Sys2Proof.Machine.execRetire s
  | .sel d a b len => Sys2Proof.Machine.execSel d a b len s
  | .setp cond a operand => Sys2Proof.Machine.execSetp cond a operand s
  | .clrp => Sys2Proof.Machine.execClrp s
  | .setbud imm => Sys2Proof.Machine.execSetbud imm s
  | .getrcw d => Sys2Proof.Machine.execGetrcw d s
  | .setord a => Sys2Proof.Machine.execSetord a s
  | .eos => Sys2Proof.Machine.execEos s
  | .yield => Sys2Proof.Machine.execYield s
  | .trap imm => Sys2Proof.Machine.execTrap imm s
  | .brk imm => Sys2Proof.Machine.execBrk imm s
  | .launch m => Sys2Proof.Machine.execLaunch m s
  | .rdclk d => Sys2Proof.Machine.execRdclk d s
  | .rdid d k => Sys2Proof.Machine.execRdid d k s
  | .zip d b len => Sys2Proof.Machine.execZip d b len s
  | .split d a len => Sys2Proof.Machine.execSplit d a len s
  | .acc op a round => Sys2Proof.Machine.execAcc op a round s
  | .accget d clear => Sys2Proof.Machine.execAccget d clear s
  | .cnt levels => Sys2Proof.Machine.execCnt levels s
  | .cfg d b m => Sys2Proof.Machine.execCfg d b m s
  | .add o => Sys2Proof.Machine.execAdd o s
  | .sub o => Sys2Proof.Machine.execSub o s
  | .addi o => Sys2Proof.Machine.execAddi o s
  | .mul o => Sys2Proof.Machine.execMul o s
  | .mulh o unsigned => Sys2Proof.Machine.execMulh o unsigned s
  | .mad o c => Sys2Proof.Machine.execMad o c s
  | .and o => Sys2Proof.Machine.execAnd o s
  | .or o => Sys2Proof.Machine.execOr o s
  | .xor o => Sys2Proof.Machine.execXor o s
  | .andi o => Sys2Proof.Machine.execAndi o s
  | .ori o => Sys2Proof.Machine.execOri o s
  | .xori o => Sys2Proof.Machine.execXori o s
  | .shl o => Sys2Proof.Machine.execShl o s
  | .shr o => Sys2Proof.Machine.execShr o s
  | .sar o => Sys2Proof.Machine.execSar o s
  | .shli o => Sys2Proof.Machine.execShli o s
  | .shri o => Sys2Proof.Machine.execShri o s
  | .sari o => Sys2Proof.Machine.execSari o s
  | .rot o => Sys2Proof.Machine.execRot o s
  | .clz o => Sys2Proof.Machine.execClz o s
  | .ctz o => Sys2Proof.Machine.execCtz o s
  | .popc o => Sys2Proof.Machine.execPopc o s
  | .min o unsigned => Sys2Proof.Machine.execMin o unsigned s
  | .max o unsigned => Sys2Proof.Machine.execMax o unsigned s
  | .abs o => Sys2Proof.Machine.execAbs o s
  | .bfx o signed => Sys2Proof.Machine.execBfx o signed s
  | .bfi o => Sys2Proof.Machine.execBfi o s
  | .hash o mix => Sys2Proof.Machine.execHash o mix s
  | .lea o shift => Sys2Proof.Machine.execLea o shift s
  | .add64 o => Sys2Proof.Machine.execAdd64 o s
  | .sub64 o => Sys2Proof.Machine.execSub64 o s
  | .shl64 o => Sys2Proof.Machine.execShl64 o s
  | .chk a b signed => Sys2Proof.Machine.execChk a b signed s
  | .fadd o => Sys2Proof.Machine.execFadd o s
  | .fsub o => Sys2Proof.Machine.execFsub o s
  | .fmul o => Sys2Proof.Machine.execFmul o s
  | .ffma o => Sys2Proof.Machine.execFfma o s
  | .fmin o => Sys2Proof.Machine.execFmin o s
  | .fmax o => Sys2Proof.Machine.execFmax o s
  | .fsgn o form => Sys2Proof.Machine.execFsgn o form s
  | .fcmp o cond => Sys2Proof.Machine.execFcmp o cond s
  | .fcvt d a dst src len round sat => Sys2Proof.Machine.execFcvt d a dst src len round sat s
  | .frcp o => Sys2Proof.Machine.execFrcp o s
  | .frsq o => Sys2Proof.Machine.execFrsq o s
  | .fsqrt o => Sys2Proof.Machine.execFsqrt o s
  | .fexp2 o => Sys2Proof.Machine.execFexp2 o s
  | .flog2 o => Sys2Proof.Machine.execFlog2 o s
  | .fsin o => Sys2Proof.Machine.execFsin o s
  | .fcos o => Sys2Proof.Machine.execFcos o s
  | .fint o => Sys2Proof.Machine.execFint o s
  | .f2i o => Sys2Proof.Machine.execF2i o s
  | .i2f o => Sys2Proof.Machine.execI2f o s
  | .fscale o => Sys2Proof.Machine.execFscale o s
  | .fclass o => Sys2Proof.Machine.execFclass o s
  | .vred op o => Sys2Proof.Machine.execVred op o s
  | .vscan op o => Sys2Proof.Machine.execVscan op o s
  | .vbcast o => Sys2Proof.Machine.execVbcast o s
  | .vshuf form o => Sys2Proof.Machine.execVshuf form o s
  | .vsel o => Sys2Proof.Machine.execVsel o s
  | .vdot fmt o round => Sys2Proof.Machine.execVdot fmt o round s
  | .vpack fmt d a round sat => Sys2Proof.Machine.execVpack fmt d a round sat s
  | .vunpack fmt d a => Sys2Proof.Machine.execVunpack fmt d a s
  | .vamax ty o => Sys2Proof.Machine.execVamax ty o s
  | .vquant fmt d a b round sat => Sys2Proof.Machine.execVquant fmt d a b round sat s
  | .vmxd fmt d a bf16 => Sys2Proof.Machine.execVmxd fmt d a bf16 s
  | .mtcfg t shape => Sys2Proof.Machine.execMtcfg t shape s
  | .tload target mask readers port => Sys2Proof.Machine.execTload target mask readers port s
  | .mma o => Sys2Proof.Machine.execMma o s
  | .mmap o => Sys2Proof.Machine.execMmap o s
  | .msca o v k => Sys2Proof.Machine.execMsca o v k s
  | .mzero c => Sys2Proof.Machine.execMzero c s
  | .mdrain c fmt => Sys2Proof.Machine.execMdrain c fmt s
  | .mrel t => Sys2Proof.Machine.execMrel t s
  | .ld d sync m => Sys2Proof.Machine.execLd d sync m s
  | .st d sync m => Sys2Proof.Machine.execSt d sync m s
  | .ldv d sync m => Sys2Proof.Machine.execLdv d sync m s
  | .ldvN d b m => Sys2Proof.Machine.execLdvN d b m s
  | .stv d sync m => Sys2Proof.Machine.execStv d sync m s
  | .stvN d b m => Sys2Proof.Machine.execStvN d b m s
  | .atomAdd d b o m => Sys2Proof.Machine.execAtomAdd d b o m s
  | .atomSub d b o m => Sys2Proof.Machine.execAtomSub d b o m s
  | .atomMin d b o m => Sys2Proof.Machine.execAtomMin d b o m s
  | .atomMax d b o m => Sys2Proof.Machine.execAtomMax d b o m s
  | .atomAnd d b o m => Sys2Proof.Machine.execAtomAnd d b o m s
  | .atomOr d b o m => Sys2Proof.Machine.execAtomOr d b o m s
  | .atomXor d b o m => Sys2Proof.Machine.execAtomXor d b o m s
  | .atomSwap d b o m => Sys2Proof.Machine.execAtomSwap d b o m s
  | .atomIncw d b o m => Sys2Proof.Machine.execAtomIncw d b o m s
  | .atomFaddF32 d b o m => Sys2Proof.Machine.execAtomFaddF32 d b o m s
  | .atomFaddBf16x2 d b o m => Sys2Proof.Machine.execAtomFaddBf16x2 d b o m s
  | .atomFmax d b o m => Sys2Proof.Machine.execAtomFmax d b o m s
  | .cas d b o m => Sys2Proof.Machine.execCas d b o m s
  | .feSet full m => Sys2Proof.Machine.execFeSet full m s
  | .feGet d m => Sys2Proof.Machine.execFeGet d m s
  | .dropN b m => Sys2Proof.Machine.execDropN b m s
  | .pref m => Sys2Proof.Machine.execPref m s
  | .fence o scope => Sys2Proof.Machine.execFence o scope s
  | .gather sync m => Sys2Proof.Machine.execGather sync m s
  | .scatter sync m => Sys2Proof.Machine.execScatter sync m s
  | .src sync m => Sys2Proof.Machine.execSrc sync m s
  | .sink sync m => Sys2Proof.Machine.execSink sync m s
  | .fifoPush bank => Sys2Proof.Machine.execFifoPush bank s
  | .fifoPop bank => Sys2Proof.Machine.execFifoPop bank s
  | .reorder bank pdrop => Sys2Proof.Machine.execReorder bank pdrop s
  | .copy m => Sys2Proof.Machine.execCopy m s
  | .binApp m => Sys2Proof.Machine.execBinApp m s
  | .binRpl m => Sys2Proof.Machine.execBinRpl m s
  | .pageMap m => Sys2Proof.Machine.execPageMap m s
  | .pageUnmap m => Sys2Proof.Machine.execPageUnmap m s
  | .pageShare m => Sys2Proof.Machine.execPageShare m s
  | .pageProt m => Sys2Proof.Machine.execPageProt m s
  | .spaceRetire m => Sys2Proof.Machine.execSpaceRetire m s
  | .tlbInv m => Sys2Proof.Machine.execTlbInv m s
  | .faultResume m => Sys2Proof.Machine.execFaultResume m s
  | .faultFail m => Sys2Proof.Machine.execFaultFail m s
  | .steer inv => Sys2Proof.Machine.execSteer inv s
  | .merge => Sys2Proof.Machine.execMerge s
  | .carry l => Sys2Proof.Machine.execCarry l s
  | .fieldWrite cell unit field value => Sys2Proof.Machine.execFieldWrite cell unit field value s
  | .routeHead cell unit port net heading turns => Sys2Proof.Machine.execRouteHead cell unit port net heading turns s
  | .routeContinuation turns => Sys2Proof.Machine.execRouteContinuation turns s
  | .page px py => Sys2Proof.Machine.execPage px py s
  | .begin => Sys2Proof.Machine.execBegin s
  | .commit => Sys2Proof.Machine.execCommit s
  | .checksum sum => Sys2Proof.Machine.execChecksum sum s
  | .preload cell bank row countM1 => Sys2Proof.Machine.execPreload cell bank row countM1 s
  | .launchAccept source => Sys2Proof.Machine.execLaunchAccept source s
  | .launchPlace => Sys2Proof.Machine.execLaunchPlace s
  | .childQueueMove => Sys2Proof.Machine.execChildQueueMove s
  | .peerLaunchPacket die record tag => Sys2Proof.Machine.execPeerLaunchPacket die record tag s
  | .peerAccess space va op => Sys2Proof.Machine.execPeerAccess space va op s
  | .hqStartWrite n v => Sys2Proof.Machine.execHqStartWrite n v s
  | .hqTailWrite n v => Sys2Proof.Machine.execHqTailWrite n v s
  | .walkRun n => Sys2Proof.Machine.execWalkRun n s
  | .walkWait n => Sys2Proof.Machine.execWalkWait n s
  | .walkCond n => Sys2Proof.Machine.execWalkCond n s
  | .walkLoop n => Sys2Proof.Machine.execWalkLoop n s
  | .walkSignal n => Sys2Proof.Machine.execWalkSignal n s
  | .walkEnd n => Sys2Proof.Machine.execWalkEnd n s
  | .tileRequestServe inst x y k => Sys2Proof.Machine.execTileRequestServe inst x y k s
  | .sliceRequestServe sl k => Sys2Proof.Machine.execSliceRequestServe sl k s
  | .accessComplete inst x y unit id => Sys2Proof.Machine.execAccessComplete inst x y unit id s
  | .sliceLineFill sl k => Sys2Proof.Machine.execSliceLineFill sl k s
  | .translationWalk die k => Sys2Proof.Machine.execTranslationWalk die k s
  | .parkTimeout home granule => Sys2Proof.Machine.execParkTimeout home granule s
  | .unparkWalk home granule => Sys2Proof.Machine.execUnparkWalk home granule s
  | .laggardEvent sl k => Sys2Proof.Machine.execLaggardEvent sl k s
  | .quotaWaiterFill sl k => Sys2Proof.Machine.execQuotaWaiterFill sl k s
  | .fillRetry sl k => Sys2Proof.Machine.execFillRetry sl k s
  | .engineWaiterRetry sl k => Sys2Proof.Machine.execEngineWaiterRetry sl k s
  | .sideLogEnter die k => Sys2Proof.Machine.execSideLogEnter die k s
  | .linkResend sl k dead => Sys2Proof.Machine.execLinkResend sl k dead s
  | .trapReport inst k => Sys2Proof.Machine.execTrapReport inst k s
  | .handlerDeliver inst => Sys2Proof.Machine.execHandlerDeliver inst s
  | .haltIdleSpan inst => Sys2Proof.Machine.execHaltIdleSpan inst s
  | .regionEnd inst => Sys2Proof.Machine.execRegionEnd inst s
  | .firingBegin inst x y => Sys2Proof.Machine.execFiringBegin inst x y s
  | .firingComplete inst x y => Sys2Proof.Machine.execFiringComplete inst x y s
  | .operandPortFill inst x y port => Sys2Proof.Machine.execOperandPortFill inst x y port s
  | .mzeroAct inst x y => Sys2Proof.Machine.execMzeroAct inst x y s
  | .mdrainAct inst x y => Sys2Proof.Machine.execMdrainAct inst x y s
  | .copyStart page => Sys2Proof.Machine.execCopyStart page s
  | .copyUnit page => Sys2Proof.Machine.execCopyUnit page s
  | .kelpieAppend die => Sys2Proof.Machine.execKelpieAppend die s
  | .kelpieReplay die => Sys2Proof.Machine.execKelpieReplay die s
  | .spaceRetireRun k => Sys2Proof.Machine.execSpaceRetireRun k s
  | .cowService die => Sys2Proof.Machine.execCowService die s
  | .freeFrameTake die => Sys2Proof.Machine.execFreeFrameTake die s
  | .freeFrameReturn die => Sys2Proof.Machine.execFreeFrameReturn die s
  | .tableBlockReturn die => Sys2Proof.Machine.execTableBlockReturn die s
  | .frpush die frame => Sys2Proof.Machine.execFrpush die frame s
  | .writeBackRange die => Sys2Proof.Machine.execWriteBackRange die s
  | .domainSwitch die => Sys2Proof.Machine.execDomainSwitch die s
  | .domainSwitchWalk die => Sys2Proof.Machine.execDomainSwitchWalk die s
  | .domainSwitchReplay die => Sys2Proof.Machine.execDomainSwitchReplay die s
  | .catchRetry die k => Sys2Proof.Machine.execCatchRetry die k s
  | .quantumEnd => Sys2Proof.Machine.execQuantumEnd s
  | .yieldDivert inst x y unit port => Sys2Proof.Machine.execYieldDivert inst x y unit port s
  | .preemptSave inst => Sys2Proof.Machine.execPreemptSave inst s
  | .preemptAbandon inst => Sys2Proof.Machine.execPreemptAbandon inst s
  | .restore inst => Sys2Proof.Machine.execRestore inst s
  | .kill done => Sys2Proof.Machine.execKill done s
  | .warmReset => Sys2Proof.Machine.execWarmReset s
  | .coldReset => Sys2Proof.Machine.execColdReset s
  | .featureOn v => Sys2Proof.Machine.execFeatureOn v s
  | .attestationReport v => Sys2Proof.Machine.execAttestationReport v s
  | .apertureRead offset bytes8 => Sys2Proof.Machine.execApertureRead offset bytes8 s
  | .apertureWritePlain offset bytes8 v => Sys2Proof.Machine.execApertureWritePlain offset bytes8 v s
  | .apertureWriteS offset bytes8 v => Sys2Proof.Machine.execApertureWriteS offset bytes8 v s
  | .apertureWriteEmpty offset bytes8 v => Sys2Proof.Machine.execApertureWriteEmpty offset bytes8 v s
  | .histogramClear die u => Sys2Proof.Machine.execHistogramClear die u s
  | .histogramSample die u source space v => Sys2Proof.Machine.execHistogramSample die u source space v s
  | .powerLevelUpdate => Sys2Proof.Machine.execPowerLevelUpdate s
  | .registerWrite offset v => Sys2Proof.Machine.execRegisterWrite offset v s
  | .stepRecordArrival inst x y => Sys2Proof.Machine.execStepRecordArrival inst x y s

end Sys2Proof.Machine
end

