-- ==== Sys2Proof/Machine/Tasks.lean ====
section
/-! DEFINITION. Machine/Tasks.lean: what can happen next. A task is an operation of a unit that has a record, a command of a loader, a
node of a walk, an event of a unit that acts on its own, or an input from outside; a step performs one of those at hand. A task that
finds that it must wait changes nothing. -/

namespace Sys2Proof.Machine

open Sys2Proof

/-- Something that can happen next. -/
inductive Task where
  /-- the operation of a unit, or of a router's slot -/
  | op (inst x y unit slot : Nat)
  /-- an event of a unit that acts on its own -/
  | event (i : Instr)
  /-- the next command of a region's stream -/
  | load (inst : Nat)
  /-- the node at which a queue's walk stands -/
  | walk (q : Nat)
  /-- an input from outside -/
  | input (k : Nat)
  deriving DecidableEq, Repr

/-- A task, if it is at hand. -/
def taskIf (b : Bool) (t : Task) : List Task := if b then [t] else []

/-- An event, if it is at hand. -/
def eventIf (b : Bool) (i : Instr) : List Task := if b then [.event i] else []

/-- Events for the indexes below a number. -/
def eventsTo (n : Nat) (f : Nat → Instr) : List Task := (List.range n).map fun k => .event (f k)

/-! ### Regions -/

/-- The operation of an element or a matrix tile. -/
def isSourceOp (i : Option Instr) : Bool :=
  match i with
  | some (.src _ _) => true
  | some (.cnt _) => true
  | _ => false

/-- A reorder element holds a record whose turn it is (R134). -/
def Launch.dueAt (l : Launch) (x y : Nat) (i : Option Instr) : Bool :=
  match i with
  | some (.reorder b _) =>
    let t := l.tile x y
    l.bankMode x y b.toNat == 3 && (t.slotOf b.toNat (t.expected b.toNat)).isSome
  | _ => false

/-- Tasks of one unit of a region (R20, R68, R111, R155, R366). -/
def unitTasks (inst : Nat) (l : Launch) (key : Nat) (u : UnitState) : List Task :=
  let unit := key % 16
  let x := key / 16 % 128
  let y := key / 16 / 128
  let has := fun (p : Nat) => !(u.port p).isEmpty
  if unit ≤ 7 then
    let source := (isSourceOp u.op && !u.src.finished) || l.dueAt x y u.op
    taskIf (!u.held && (has 0 || source)) (.op inst x y unit 0) ++
    (u.flight.filter fun a => a.answered && !a.trapped).map (fun a => .event (.accessComplete inst x y unit a.id)) ++
    (u.resume.filter fun a => !a.trapped).map (fun a => .event (.accessComplete inst x y unit a.id)) ++
    (if l.phase == .preempting && u.yields && !u.held then
      eventIf (has 0) (.yieldDivert inst x y unit 0) ++ eventIf (has 1) (.yieldDivert inst x y unit 1)
    else [])
  else if unit ≤ 10 then
    taskIf (has 0 || has 1) (.op inst x y unit 0) ++ taskIf (has 2 || has 3) (.op inst x y unit 1)
  else if unit = 12 then
    (List.range 4).flatMap (fun p => eventIf (has p) (.operandPortFill inst x y p)) ++
    eventIf (has 4 && (l.mtile x y).latch.isNone) (.stepRecordArrival inst x y)
  else []

/-- Tasks of one matrix tile (R288 to R290, R299). -/
def matrixTasks (inst : Nat) (key : Nat) (t : MatrixTile) : List Task :=
  let x := key % 128
  let y := key / 128
  eventIf (t.latch.isSome && t.firing.isNone) (.firingBegin inst x y) ++
  (match t.firing with
   | some g => if g.written then [.event (.firingComplete inst x y)] else [.op inst x y 12 0]
   | none => []) ++
  eventIf (t.nextCmd false).isSome (.mzeroAct inst x y) ++
  eventIf (t.drain.isSome || (t.nextCmd true).isSome) (.mdrainAct inst x y)

/-- The number by which a park event names a tile. -/
def tileHome (inst x y : Nat) : Nat := 256 + inst * 8192 + y * 128 + x

/-- Tasks of a home's waiters and walks (R185, R187). -/
def waitTasks (now limit home : Nat) (ws : List Req) (walks : List ParkWalk) : List Task :=
  (ws.filter fun r => r.party.isRecord && decide (max 16 limit ≤ now - r.since)).map (fun r => .event (.parkTimeout home r.key)) ++
  walks.map fun w => .event (.unparkWalk home w.granule)

/-- Tasks of one tile (R164). -/
def State.tileTasks (s : State) (inst : Nat) (l : Launch) (key : Nat) (t : TileState) : List Task :=
  let x := key % 128
  let y := key / 128
  eventsTo (t.reqs.length + t.network.length) (.tileRequestServe inst x y) ++
  waitTasks s.now (s.die (l.dieOf x y)).parkAfter.toNat (tileHome inst x y) t.waiters t.walks

/-- A region's loader has a command to take. -/
def Launch.loadsNow (l : Launch) : Bool := l.loading?.isSome && l.loads

/-- A region's end can begin or go on (R160, R230). -/
def State.endsNow (s : State) (inst : Nat) (l : Launch) : Bool :=
  l.fatal.isSome || (l.phase == .completing && (l.stage != 3 || l.doneReply.isSome)) || s.mayEnd inst l

/-- Tasks of one launch and its region. -/
def State.launchTasks (s : State) (inst : Nat) (l : Launch) : List Task :=
  (if l.acts then l.units.flatMap (fun e => unitTasks inst l e.1 e.2) ++ l.matrix.flatMap (fun e => matrixTasks inst e.1 e.2) ++
      eventsTo l.trapQ.length (.trapReport inst) ++ eventIf (!l.handlerQ.isEmpty) (.handlerDeliver inst)
   else []) ++
  l.tiles.flatMap (fun e => s.tileTasks inst l e.1 e.2) ++
  taskIf l.loadsNow (.load inst) ++
  eventIf (s.endsNow inst l) (.regionEnd inst) ++
  eventIf (l.wanted || l.phase == .preempting) (.preemptSave inst) ++
  eventIf ((l.wanted || l.phase == .preempting) && decide (s.preemptWait.toNat ≤ s.now - l.preemptAt)) (.preemptAbandon inst) ++
  eventIf (l.phase == .restoring) (.restore inst)

/-! ### Slices and dies -/

/-- Tasks of one slice. -/
def State.sliceTasks (s : State) (sl : Nat) (x : Slice) : List Task :=
  let d := s.die (sl / 64)
  let limit := d.laggard.toNat
  eventsTo x.reqs.length (.sliceRequestServe sl) ++ eventsTo x.fills.length (.sliceLineFill sl) ++
  waitTasks s.now d.parkAfter.toNat sl x.waiters x.walks ++
  (x.granules.zipIdx.filter fun g => limit != 0 && !g.1.2.laggard && decide (limit ≤ s.now - g.1.2.since)).map
    (fun g => .event (.laggardEvent sl g.2)) ++
  (x.quota.zipIdx.filter fun r => x.places.contains r.1.inst).map (fun r => .event (.quotaWaiterFill sl r.2)) ++
  (x.refused.zipIdx.filter fun r => decide (r.1.retryAt ≤ s.now)).map
    (fun r => .event (if r.1.party.isRecord then .fillRetry sl r.2 else .engineWaiterRetry sl r.2))

/-- Tasks of one die. -/
def State.dieTasks (s : State) (d : Nat) : List Task :=
  let x := s.die d
  eventsTo x.walkQ.length (.translationWalk d) ++ eventsTo x.logQ.length (.sideLogEnter d) ++
  (match x.kelpie with
   | j :: _ => if j.stall.isSome then [] else [.event (if j.replay then .kelpieReplay d else .kelpieAppend d)]
   | [] => []) ++
  eventIf (!x.cow.isEmpty) (.cowService d) ++
  eventIf (!x.cow.isEmpty && !x.taking && x.taken.isNone && s.needsFrame d) (.freeFrameTake d) ++
  eventIf (!x.frameReturns.isEmpty && !x.returning) (.freeFrameReturn d) ++
  eventIf (!x.blockReturns.isEmpty && !x.blockReturning) (.tableBlockReturn d) ++
  eventIf (x.domOp == 1 || x.domOp == 3) (.writeBackRange d) ++
  eventIf (x.domOp == 2 && x.phase == .idle) (.domainSwitch d) ++
  eventIf (x.phase == .frozen) (.domainSwitchWalk d) ++
  eventIf (x.phase == .walked) (.domainSwitchReplay d) ++
  (x.catchRefused.zipIdx.filter fun r => decide (r.1.retryAt ≤ s.now)).map (fun r => .event (.catchRetry d r.2)) ++
  eventIf (!x.peerQ.isEmpty && !s.noRoom) (.launchAccept (.peer d))

/-- Tasks of the copy engines. -/
def State.copyTasks (s : State) : List Task :=
  s.copies.flatMap fun e => match e.2 with
    | j :: _ => [.event (if j.started then .copyUnit e.1 else .copyStart e.1)]
    | [] => []

/-! ### The scheduler, the walks and the platform -/

/-- Tasks of the host queues. -/
def State.queueTasks (s : State) : List Task :=
  (List.range 4).flatMap fun q =>
    let w := s.queue q
    if !w.walking || w.stall.isSome then []
    else
      match w.phase with
      | .offer => eventIf (!s.noRoom) (.launchAccept (.host q))
      | .asked none => []
      | .tail _ => []
      | .idle => []
      | _ => [.walk q]

/-- Some waiting launch can be placed. -/
def State.placeable (s : State) : Bool := s.nextPlaced.isSome

/-- Tasks of the scheduler and the platform. -/
def State.partTasks (s : State) : List Task :=
  eventIf s.placeable .launchPlace ++
  eventIf (!s.noRoom && s.dies.toList.any fun d => !d.children.isEmpty) .childQueueMove ++
  eventIf (s.launches.any fun e => e.2.offered) .quantumEnd ++
  eventsTo s.retires.length .spaceRetireRun ++
  eventIf s.attBusy (.attestationReport (BitVec.ofNat 64 (s.attSpace.toNat * 2 ^ 32 + 1))) ++
  eventIf (decide (s.nextPower ≤ s.now)) .powerLevelUpdate

/-- An access or a write of the host's window; they are performed in their order (R375). -/
def byHost : Instr → Bool
  | .registerWrite _ _ | .apertureRead _ _ | .apertureWritePlain _ _ _ | .apertureWriteS _ _ _ | .apertureWriteEmpty _ _ _
  | .hqStartWrite _ _ | .hqTailWrite _ _ | .kill _ | .featureOn _ | .frpush _ _ | .warmReset | .coldReset | .histogramClear _ _ => true
  | _ => false

/-- Tasks of the inputs: the host's first, and the first of any other party. -/
def State.inputTasks (s : State) : List Task :=
  (match s.inputs.findIdx? byHost with | some k => [.input k] | none => []) ++
  (match s.inputs.findIdx? (fun i => !byHost i) with | some k => [.input k] | none => [])

/-! ### Performing a task -/

/-- The state at the focus of a place. -/
def State.focusAt (s : State) (inst x y unit slot queue : Nat) : State :=
  { s with focus := { inst := inst, x := x, y := y, unit := unit, slot := slot, queue := queue } }

/-- The instruction that a task of a unit runs: what the unit's fields decode to (R13, R28, R29). -/
def State.opAt (s : State) (inst x y unit slot : Nat) : Option Instr :=
  (s.launch? inst).bind fun l =>
    let u := l.unit x y unit
    if 8 ≤ unit && decide (unit ≤ 10) then u.slotOp slot else u.op

/-- A loader's next command: read, decoded and performed; a word that is no command, or that cannot be read, is a failure of the
load (R13, R66, R237). -/
def State.loadStep (s : State) (inst : Nat) : Host.Outcome State Fault Refusal :=
  let s := s.focusAt inst 0 0 0 0 0
  match (s.launch? inst).bind Launch.loading? with
  | none => .next s
  | some ld =>
    match s.streamWords ld ld.pos 1 with
    | .ok s ws =>
      let w := ws.getD 0 0
      match decodeCommand w with
      | some i => exec i s
      | none => .next (s.loaderReject w)
    | .wait s => .next s
    | .fail s status index => .next (s.loadFail inst (status, index, 0))
    | .scope s detail addr => .next (s.cfgScope inst detail addr)

/-- A walk's next step: the node read where the walk has just reached it, and performed (R37, R357). -/
def State.walkAt (s : State) (q : Nat) : Host.Outcome State Fault Refusal :=
  let s := s.focusAt 0 0 0 0 0 q
  match (s.queue q).phase with
  | .fetch =>
    match s.walkFetch q with
    | (s, some i) => exec i s
    | (s, none) => .next s
  | _ =>
    match decodeNode (execLaunchAccept.nodeBits (s.queue q).words) with
    | some i => exec i s
    | none => .next s

/-- An input performed, and gone unless the host's window must make it again. -/
def State.inputStep (s : State) (k : Nat) : Host.Outcome State Fault Refusal :=
  match s.inputs[k]? with
  | none => .next s
  | some i =>
    match exec i { s with inputs := dropAt s.inputs k, windowHeld := false } with
    | .next t => .next (if t.windowHeld then { t with inputs := s.inputs } else t)
    | other => other

/-- A task performed. -/
def State.perform (s : State) : Task → Host.Outcome State Fault Refusal
  | .op inst x y unit slot =>
    match s.opAt inst x y unit slot with
    | some i => exec i (s.focusAt inst x y unit slot 0)
    | none => .next s
  | .event i => exec i s
  | .load inst => s.loadStep inst
  | .walk q => s.walkAt q
  | .input k => s.inputStep k

/-! ### Idle spans under halt (R175, R176) -/

/-- A region's requests on their way to a home, in translation or before a fill, by number; one that a home has refused and that is presented
again is no movement (R175 step 4). -/
def State.underway (s : State) (inst : Nat) : List Nat :=
  let ofSlices := s.slices.flatMap fun e => e.2.reqs ++ e.2.missing ++ e.2.missing.filter fun r => e.2.fills.any (·.1 == r.seq)
  let ofDies := s.dies.toList.flatMap fun d => d.walkQ.map (·.req)
  let ofTiles := match s.launch? inst with
    | some l => l.tiles.flatMap fun t => t.2.reqs ++ t.2.network ++ t.2.reqs
    | none => []
  ((ofSlices ++ ofDies ++ ofTiles).filter fun r => r.inst == inst && r.retryAt == 0).map (·.seq)

/-- A task at hand moves a region on: its controller sees movement, or a request of it comes nearer its home. -/
def State.moves (s : State) (inst : Nat) (t : Task) : Bool :=
  match s.perform t with
  | .next s' => (s'.launch? inst).map (·.lastMove) != (s.launch? inst).map (·.lastMove) || s'.underway inst != s.underway inst
  | _ => true

/-- The end of a span of 256 cycles without movement, of the regions under halt (R175 step 4, R229). No span ends while something at hand
would move the region: what can move does so within the span (R176). -/
def State.idleTasks (s : State) : List Task :=
  s.launches.flatMap fun e =>
    eventIf (e.2.halting && !e.2.spent && decide (256 ≤ s.now - e.2.lastMove) &&
      !(s.launchTasks e.1 e.2 ++ s.slices.flatMap (fun x => s.sliceTasks x.1 x.2) ++ (List.range 4).flatMap s.dieTasks ++ s.copyTasks).any
        (s.moves e.1)) (.haltIdleSpan e.1)

/-! ### Everything at hand -/

/-- Everything at hand. A part that comes up goes on with that, and a dormant one, whose bring-up failed, takes inputs only (R378); a quantum end that has come is dealt with before
anything else, so that each is one for every launch that waits (R361). -/
def State.tasks (s : State) : List Task :=
  if s.resetState != 3 then eventIf (s.resetState == 1 || s.resetState == 2) .coldReset ++ s.inputTasks
  else if s.quantumDue then [.event .quantumEnd]
  else
    s.launches.flatMap (fun e => s.launchTasks e.1 e.2) ++ s.slices.flatMap (fun e => s.sliceTasks e.1 e.2) ++
    (List.range 4).flatMap s.dieTasks ++ s.copyTasks ++ s.queueTasks ++ s.partTasks ++ s.inputTasks ++ s.idleTasks

/-- The task that a step performs: the only one at hand, or the one that the part picks. -/
def State.pick (s : State) : Option Task :=
  match s.tasks with
  | [] => none
  | [t] => some t
  | t :: u :: rest => some ((t :: u :: rest).getD (Config.choice s.tick % (rest.length + 2)) t)

/-- Time goes on after a step, what controllers owe to memory is written where it can be now, and waiter buffers are sampled at the ends of
256 cycles (R383). -/
def State.elapsed (s : State) (tick : Nat) : State :=
  let now := s.now + Config.elapse tick
  ({ s.payAll with tick := tick + 1, now := now }).sampleWaitersFor (now / 256 - s.now / 256)

/-- The outcome of a step with its time. -/
def timed (tick : Nat) : Host.Outcome State Fault Refusal → Host.Outcome State Fault Refusal
  | .next s => .next (s.elapsed tick)
  | .fault f => .fault f
  | .refused r => .refused r

/-- One step of the part: a task at hand, or the passing of time. -/
def State.advance (s : State) : Host.Outcome State Fault Refusal :=
  match s.pick with
  | some t => timed s.tick (s.perform t)
  | none => .next (s.elapsed s.tick)

/-! ### Placing an instruction where the part fetches it -/

/-- A launch record of a region of one page. -/
def placedRecord : LaunchRec := LaunchRec.ofWords (List.replicate 16 0)

/-- A region of one page that runs: it holds a sink that has completed nothing, so that it does not end. -/
def placedLaunch : Launch :=
  let sink := (((encodeOp (.sink .plain { shift := 15, a := 0, base := 0, space := .ownTile, scope := .cell, size := .word, hint := .dflt,
                                          imm8 := 0 })).getD 0) : BitVec 48)
  let fields := (((UnitState.reset.fields.set 0 (sink.extractLsb' 0 16)).set 1 (sink.extractLsb' 16 16)).set 2 (sink.extractLsb' 32 16))
  let l := Launch.new placedRecord .child none 0
  { l with phase := .running, committed := true, hasPages := true, units := [(unitKey 0 0 7, { UnitState.reset with fields := fields })] }

/-- A unit whose fields hold an operation, with a record in each of its latches. -/
def placedUnit (w : BitVec 48) : UnitState :=
  { UnitState.reset with
    fields := ((UnitState.reset.fields.set 0 (w.extractLsb' 0 16)).set 1 (w.extractLsb' 16 16)).set 2 (w.extractLsb' 32 16)
    ins := [(0, [Record.zero 0]), (1, [Record.zero 0])] }

/-- A firing operation's region: its tile's firing has begun (R288). -/
def placedFiring (w : BitVec 48) : Launch :=
  let f : Firing := { step := Record.zero 0, number := 0, a := 0, b := 1, c := 0, v := 4, length := 64, written := false }
  let u := { placedUnit w with ins := [] }
  { placedLaunch with units := SMap.insert placedLaunch.units (unitKey 0 0 12) u,
                      matrix := [(0, { MatrixTile.reset with firing := some f, arrived := 1 })] }

/-- The region in which an element operation is the next to act: a firing at its matrix tile, a memory operation at an access element,
any other at an arithmetic element beside a tile whose registers are FULL; a source has no record. -/
def placedOp (w : BitVec 48) (i : Instr) : Launch :=
  match i with
  | .mma _ => placedFiring w
  | .mmap _ => placedFiring w
  | .msca _ _ _ => placedFiring w
  | _ =>
    let unit := if (memRefOf i).isSome then 6 else 0
    let u := placedUnit w
    let u := if isSourceOp (some i) then { u with ins := [] } else u
    let reg : TileReg := { TileReg.reset with state := .full, readers := 1 }
    let tile : MatrixTile := { MatrixTile.reset with regs := Vector.replicate 8 reg }
    { placedLaunch with units := SMap.insert placedLaunch.units (unitKey 0 0 unit) u
                        matrix := match i with | .mrel _ => [(0, tile)] | _ => [] }

/-- A slice with one line of words. -/
def placedSlice (key : Nat) (ws : List Word) : Slice :=
  let line : Line := { words := ws ++ List.replicate (32 - ws.length) 0, full := List.replicate 32 true, bad := List.replicate 32 false,
                       parked := [false, false], releases := [none, none], writable := true, dirty := false, uncached := false, pa := 0 }
  { Slice.reset with lines := [(key, line)] }

/-- The first 256 bytes of space 0 held by their slices, words from address 0 on. -/
def State.withLines (s : State) (ws : List Word) : State :=
  { s with slices := [(0, placedSlice 0 ws), (1, placedSlice 1 [])] }

/-- A region whose loader stands at word 1 of a stream of 64 words at address 0, within a group but for a begin. -/
def placedLoad (w : Word) : Launch :=
  let ld := Loader.start 0 64 0 .dev none
  let opens := match decodeCommand w with | some .begin => true | _ => false
  let ld : Loader := { ld with pos := 1, inGroup := !opens }
  { placedLaunch with phase := .loading, loader := some ld, units := [] }

/-- The state with an instruction where the next step fetches it: an operation in a unit whose record is at hand, an operator in a
router's slot, a command next in a loader's stream, or a node at which a walk stands. -/
def State.placed (s : State) (nbits w : Nat) : State :=
  if nbits = 48 then
    match decodeOp (BitVec.ofNat 48 w) with
    | .ok i => s.setLaunch 0 (placedOp (BitVec.ofNat 48 w) i)
    | .error _ => s
  else if nbits = 16 then
    let u := { UnitState.reset with fields := UnitState.reset.fields.set 0 (BitVec.ofNat 16 w), ins := [(0, [Record.zero 0])] }
    s.setLaunch 0 { placedLaunch with units := SMap.insert placedLaunch.units (unitKey 0 0 8) u }
  else if nbits = 32 then (s.withLines [0, BitVec.ofNat 32 w]).setLaunch 0 (placedLoad (BitVec.ofNat 32 w))
  else if nbits = 256 then
    let s := s.withLines ((List.range 8).map fun k => BitVec.ofNat 32 (w / 2 ^ (32 * k)))
    s.setQueue 0 { HostQueue.reset with walking := true, phase := .fetch }
  else s

end Sys2Proof.Machine
end

