-- ==== Sys2Proof/Safety.lean ====
section
/-! DEFINITION. Safety.lean: the terms that statements use: memory in canonical form, an element that is ready to act, what an
operation writes into a record, and what a step leaves alone. -/

namespace Sys2Proof.Machine

/-- Memory and its sets of marked words are in canonical form. -/
def State.Canonical (s : State) : Prop :=
  State.Memory.wf s.mem = true ∧ NSet.wf s.empties = true ∧ NSet.wf s.bad = true ∧ NSet.wf s.parked = true ∧
    SMap.wf 4 s.sizes = true ∧ NSet.wf s.badTags = true

/-! ### An operation and its record -/

/-- The operation at the focus is ready to act on a record: its region acts, no trap or commit holds the unit, and the record at
the head of in0 is not stopped by a BREAK flag (R27, R68). `r` is the record as the operation receives it. -/
structure State.Ready (s : State) (l : Launch) (u : UnitState) (r : Record) : Prop where
  here : s.here = some (l, u)
  takes : l.takes u = true
  head : ∃ r0 rest, u.port 0 = r0 :: rest ∧ breakpoint u r0 = some r

/-- Every route of an output of the element at the focus can accept a record (R154). -/
def State.accepts (s : State) (l : Launch) (port : Nat) : Prop :=
  ∀ rt ∈ l.routesOf s.focus.x s.focus.y s.focus.unit port, l.canAccept rt = true

/-- The state after the operation at the focus took its record r and sent r' on out0; `u` is the unit with the accumulator, the
LFSR and the ports as the operation leaves them. -/
def State.passes (s : State) (u : UnitState) (r r' : Record) : State := s.complete u [out0 r'] r.ctl.ord

/-! ### What an operation writes into a record -/

/-- Words outside n words from word d on are as they were, and so is the control word. -/
def Record.KeepsOutside (r r' : Record) (d n : Nat) : Prop :=
  (∀ k, k < d ∨ d + n ≤ k → r'.at k = r.at k) ∧ r'.rcw = r.rcw

/-- Lane j of an operand that begins at word x: bits [(j mod (32/L))·L + L − 1 : (j mod (32/L))·L] of word x + j div (32/L)
(R73). -/
def Record.lane (r : Record) (x : Reg) (lane : Lane) (j : Nat) : Nat :=
  (r.at (x.toNat + j / (32 / lane.bits))).toNat / 2 ^ (j % (32 / lane.bits) * lane.bits) % 2 ^ lane.bits

/-- Lanes of an operand (R73). -/
def laneCount (len : Len) (lane : Lane) : Nat := len.words * 32 / lane.bits

/-- r' is r with the lanes of a destination as a relation says, and nothing else changed (R68, R73). -/
def Record.LanesBecome (r r' : Record) (d : Reg) (len : Len) (lane : Lane) (P : Nat → Nat → Prop) : Prop :=
  (∀ j, j < laneCount len lane → P j (r'.lane d lane j)) ∧ r.KeepsOutside r' d.toNat len.words

/-- The signed value of L bits. -/
def signedValue (width x : Nat) : Int := if x < 2 ^ (width - 1) then (x : Int) else (x : Int) - 2 ^ width

/-- L bits z are the exact integer result v: wrapped modulo 2^L, or clamped to the signed range (R73). -/
def IsResult (sat : Bool) (width : Nat) (v : Int) (z : Nat) : Prop :=
  if sat then signedValue width z = max (-(2 ^ (width - 1))) (min (2 ^ (width - 1) - 1) v) else (z : Int) = v % 2 ^ width

/-! ### Elements of packed formats and rounding -/

/-- Element j of width W of the packed stream that begins at word x: stream bits j·W to j·W + W − 1 (R240). -/
def Record.element (r : Record) (x : Reg) (width j : Nat) : Nat := bitStream (r.slice x.toNat 16) / 2 ^ (j * width) % 2 ^ width

/-- r' is r with n results of a width placed from bit 0 of word d, the rest of the last word zero (R267). -/
def Record.ElementsBecome (r r' : Record) (d : Reg) (n width : Nat) (P : Nat → Nat → Prop) : Prop :=
  (∀ j, j < n → P j (r'.element d width j)) ∧
    bitStream (r'.slice d.toNat (destWords n width)) < 2 ^ (n * width) ∧ r.KeepsOutside r' d.toNat (destWords n width)

/-- The LFSR after the advances of n results under a round mode (R249). -/
def lfsrAfter (mode : Round) : Nat → BitVec 16 → BitVec 16
  | 0, s => s
  | n + 1, s => lfsrAfter mode n (if mode = .stochastic then lfsrStep s else s)

/-- The class mask of a code of a format with infinities (R273). -/
def classMask (f : Fmt) (c : Nat) : Nat :=
  let (e, m, _) := f.layout
  let neg := c / 2 ^ (e + m) % 2 = 1
  let ex := c / 2 ^ m % 2 ^ e
  let mant := c % 2 ^ m
  if ex = 2 ^ e - 1 then (if mant ≠ 0 then 256 else if neg then 1 else 128)
  else if ex ≠ 0 then (if neg then 2 else 64)
  else if mant ≠ 0 then (if neg then 4 else 32)
  else if neg then 8 else 16

/-- A comparison of R271 holds. -/
def compares (c : FCond) (x y : Val) : Bool :=
  let un := x = .nan ∨ y = .nan
  match c with
  | .eq => decide (¬ un ∧ x.lt y = false ∧ y.lt x = false)
  | .lt => decide (¬ un ∧ x.lt y = true)
  | .le => decide (¬ un ∧ y.lt x = false)
  | .un => decide un
  | .ne => decide (un ∨ x.lt y = true ∨ y.lt x = true)
  | .ge => decide (¬ un ∧ x.lt y = false)
  | .gt => decide (¬ un ∧ y.lt x = true)
  | .ord => decide (¬ un)

/-- A code is the part's own, within a bound of a reference in fixed point of 512 bits, or a value rounded to nearest (R277). -/
def NearOr (z : Nat) (ref : Int) (bound : Nat) (v : Val) : Prop := within z ref bound = true ∨ z = convert .fp32 .rne false 0 v

/-- z is the code that fmin gives for two codes (R269). -/
def IsLeast (f : Fmt) (x y z : Nat) : Prop :=
  if f.value x = .nan then (if f.value y = .nan then z = f.nanCode else z = y)
  else if f.value y = .nan then z = x
  else (z = x ∨ z = y) ∧ (f.value x).lt (f.value z) = false ∧ (f.value y).lt (f.value z) = false ∧
    ((f.value x).lt (f.value y) = false → (f.value y).lt (f.value x) = false →
      (f.value z).sign = ((f.value x).sign || (f.value y).sign))

/-- z is the code that fmax gives for two codes (R269). -/
def IsGreatest (f : Fmt) (x y z : Nat) : Prop :=
  if f.value x = .nan then (if f.value y = .nan then z = f.nanCode else z = y)
  else if f.value y = .nan then z = x
  else (z = x ∨ z = y) ∧ (f.value z).lt (f.value x) = false ∧ (f.value z).lt (f.value y) = false ∧
    ((f.value x).lt (f.value y) = false → (f.value y).lt (f.value x) = false →
      (f.value z).sign = ((f.value x).sign && (f.value y).sign))

/-- What a trap of the record at the focus leaves, with no other effect of the operation: the record stays at the head of in0, held, and the region's
controller has the trap last in its queue, with the record as it arrived (R71, R222, R225). -/
def State.TrapsAs (s t : State) (l : Launch) (u : UnitState) (r : Record) (c : Cause) (detail addr : DWord) : Prop :=
  ∃ l', t = s.setLaunch s.focus.inst l' ∧
    l'.unit s.focus.x s.focus.y s.focus.unit = { u with held := true } ∧
    l'.trapQ = l.trapQ ++ [{ cause := c, detail := detail, addr := addr, record := (u.port 0).headD r, x := s.focus.x, y := s.focus.y,
                             unit := s.focus.unit, block := u.block, opIndex := u.opIndex, holder := .latch 0 }] ∧
    l' = { l with units := l'.units, trapQ := l'.trapQ, lastMove := s.now } ∧
    ∀ k, k ≠ unitKey s.focus.x s.focus.y s.focus.unit → SMap.get? l'.units k = SMap.get? l.units k

/-- The operations that pass a token unchanged and do nothing else for it (R69, R264). The operations of the access elements are not
among them: they send a token on once the accesses before it have left (R173). -/
def passesTokens (i : Instr) : Bool :=
  match i with
  | .nop | .movi _ _ | .movhi _ _ | .movk _ _ | .mov _ _ _ | .setb _ _ | .setbw _ _ _ | .call _ | .ret | .retTrap | .sel _ _ _ _
  | .setp _ _ _ | .clrp | .setbud _ | .getrcw _ | .setord _ | .eos | .yield | .trap _ | .brk _ | .rdclk _ | .rdid _ _ | .acc _ _ _ => true
  | .add _ | .sub _ | .addi _ | .mul _ | .mulh _ _ | .mad _ _ | .and _ | .or _ | .xor _ | .andi _ | .ori _ | .xori _ | .shl _ | .shr _
  | .sar _ | .shli _ | .shri _ | .sari _ | .rot _ | .clz _ | .ctz _ | .popc _ | .min _ _ | .max _ _ | .abs _ | .bfx _ _ | .bfi _
  | .hash _ _ | .lea _ _ | .add64 _ | .sub64 _ | .shl64 _ | .chk _ _ _ => true
  | .fadd _ | .fsub _ | .fmul _ | .ffma _ | .fmin _ | .fmax _ | .fsgn _ _ | .fcmp _ _ | .fcvt _ _ _ _ _ _ _ | .frcp _ | .frsq _
  | .fsqrt _ | .fexp2 _ | .flog2 _ | .fsin _ | .fcos _ | .fint _ | .f2i _ | .i2f _ | .fscale _ | .fclass _ => true
  | .vred _ _ | .vscan _ _ | .vbcast _ | .vshuf _ _ | .vsel _ | .vdot _ _ _ | .vpack _ _ _ _ _ | .vunpack _ _ _ | .vamax _ _
  | .vquant _ _ _ _ _ _ | .vmxd _ _ _ _ => true
  | _ => false

/-- An access of a controller within a step was not made, and left the state v. -/
def Now.Fails {α : Type} (x : Now α) (v : State) : Prop := x = .fault v ∨ x = .denied v ∨ x = .error v ∨ x = .hole v

/-- A controller's load of n words at an address is made within a step: it reads the words ws, none of them uncorrectable, and leaves the
state v. -/
def State.Reads (s : State) (space : BitVec 12) (va inst n : Nat) (v : State) (ws : List Word) : Prop :=
  ∃ q, s.accessNow space va inst (.load .plain n) = .ok v q ∧ q.poisoned = false ∧ q.words = ws

/-- A controller's store of words at an address is made within a step, and leaves the state v. -/
def State.Writes (s : State) (space : BitVec 12) (va inst : Nat) (ws : List Word) (v : State) : Prop :=
  ∃ q, s.accessNow space va inst (.store .plain ws) = .ok v q ∧ q.poisoned = false

/-! ### Homes -/

/-- Requests that have become waiters of a home so far (R182). -/
def State.arrivalsAt (s : State) (h : Home) : Nat :=
  match h with
  | .slice sl => (s.slice sl).arrivals
  | .tile i x y => match s.launch? i with
    | some l => (l.tile x y).arrivals
    | none => 0

/-- What a home keeps a granule in is whole: a slice's line has 32 words with their states, a tile's maps are in canonical form, and the row
is not that of a transform bank. -/
def State.HoldsWhole (s : State) (h : Home) (key : Nat) : Prop :=
  match h with
  | .slice sl => ∀ l, s.line? sl (granuleSpace key) (granuleVa key) = some l →
      l.words.length = 32 ∧ l.full.length = 32 ∧ l.bad.length = 32
  | .tile i x y => ∀ l, s.launch? i = some l → SMap.wf TileState.reset l.tiles = true ∧ SMap.wf 0 (l.tile x y).words = true ∧
      NSet.wf (l.tile x y).empties = true ∧ NSet.wf (l.tile x y).bad = true ∧ (l.tileRow x y key).xbank = none

/-- A waiter of a granule waits for its state no longer (R183). -/
def State.Stirs (s : State) (h : Home) (key : Nat) (r : Req) : Prop :=
  r.key = key ∧ ∃ v, s.viewAt h key r.inst = some v ∧ v.perform r.word r.op ≠ .wait

/-- The operations of the access elements at which a token performs nothing and waits for the accesses before it (R69, R173). -/
def holdsTokens (i : Instr) : Bool :=
  match i with
  | .ld _ _ _ | .st _ _ _ | .ldv _ _ _ | .stv _ _ _ | .ldvN _ _ _ | .stvN _ _ _ | .dropN _ _ | .cas _ _ _ _ | .feSet _ _ | .feGet _ _
  | .atomAdd _ _ _ _ | .atomSub _ _ _ _ | .atomMin _ _ _ _ | .atomMax _ _ _ _ | .atomAnd _ _ _ _ | .atomOr _ _ _ _ | .atomXor _ _ _ _
  | .atomSwap _ _ _ _ | .atomIncw _ _ _ _ | .atomFaddF32 _ _ _ _ | .atomFaddBf16x2 _ _ _ _ | .atomFmax _ _ _ _
  | .gather _ _ | .scatter _ _ | .pref _ | .fence _ _ | .copy _ | .binApp _ | .binRpl _ | .launch _ | .cfg _ _ _
  | .pageMap _ | .pageUnmap _ | .pageShare _ | .pageProt _ | .spaceRetire _ | .tlbInv _ | .faultResume _ | .faultFail _
  | .mtcfg _ _ | .tload _ _ _ _ | .mzero _ | .mrel _ => true
  | _ => false

/-- A token of the element at the focus waits there as the access a, and nothing else of the unit has changed (R173). -/
def UnitState.TokenWaits (u v : UnitState) (r : Record) (a : Access) : Prop :=
  v = { u with ins := (u.pop 0).ins, flight := u.flight ++ [a], nextId := u.nextId + 1 } ∧ a.id = u.nextId ∧ a.record = r ∧ a.lanes = [] ∧
    a.trapped = false ∧ ∀ b ∈ u.flight, b.record.isToken = false → b.id ∈ a.waitsFor

/-! ### Router slots -/

/-- The slot at the focus can take the record r from an input: its region acts, no commit holds the router's inputs, and the
record stands at the head of the input (R155, R97). -/
structure State.SlotReady (s : State) (l : Launch) (u : UnitState) (input : Nat) (r : Record) : Prop where
  here : s.here = some (l, u)
  acts : l.acts = true
  opens : u.open_ = true
  head : ∃ rest, u.port input = r :: rest

/-- The state after a slot sent the record r from an input by an output port. -/
def State.slotSent (s : State) (l : Launch) (u : UnitState) (input output : Nat) (r : Record) : State :=
  let f := s.focus
  let l := (l.setUnit f.x f.y f.unit (u.pop input)).send f.x f.y f.unit [{ port := output, route := none, record := r }]
  s.setLaunch f.inst { l with lastMove := s.now }

/-! ### Accesses -/

/-- An access element can take its record: it is ready, the record is no token, a place is free (R72, R111) and poison does not stop the
record (R113). -/
structure State.AccessReady (s : State) (l : Launch) (u : UnitState) (r : Record) (i : Instr) : Prop where
  here : s.here = some (l, u)
  takes : l.takes u = true
  head : ∃ r0 rest, u.port 0 = r0 :: rest ∧ r0.isToken = false ∧ breakpoint u r0 = some r
  place : u.busy i < placesOf i
  clean : poisonTraps i = true → r.ctl.poison = false

/-- An operation that an atomic asks of its home (R121). -/
def atomOf (opcode : BitVec 8) (b : Reg) (o : Order) (m : MemRef) (r : Record) : HomeOp :=
  .atom opcode (m.size == .pair) (if m.size == .pair then r.pair b.toNat else (r.w b).zeroExtend 64) o

/-- The access of one place that an operation makes: its address fields, what it asks of its home, and whether it is a plain form
(R96, R115, R118 to R124). -/
def homeAccess (i : Instr) (r : Record) : Option (MemRef × HomeOp × Bool) :=
  match i with
  | .ld _ sync m => some (m, .load sync m.size.words, sync == .plain)
  | .ldv _ sync m => some (m, .load sync m.size.words, sync == .plain)
  | .st d sync m => some (m, .store sync (r.slice d.toNat m.size.words), sync == .plain)
  | .stv d sync m => some (m, .store sync (r.slice d.toNat m.size.words), sync == .plain)
  | .ldvN _ b m => some (m, .count (r.w b), false)
  | .stvN _ b m => some (m, .fill (r.w b) r.all, false)
  | .dropN b m => some (m, .done (r.w b), false)
  | .atomAdd _ b o m => some (m, atomOf 0x84 b o m r, false)
  | .atomSub _ b o m => some (m, atomOf 0x85 b o m r, false)
  | .atomMin _ b o m => some (m, atomOf 0x86 b o m r, false)
  | .atomMax _ b o m => some (m, atomOf 0x87 b o m r, false)
  | .atomAnd _ b o m => some (m, atomOf 0x88 b o m r, false)
  | .atomOr _ b o m => some (m, atomOf 0x89 b o m r, false)
  | .atomXor _ b o m => some (m, atomOf 0x8A b o m r, false)
  | .atomSwap _ b o m => some (m, atomOf 0x8B b o m r, false)
  | .atomIncw _ b o m => some (m, atomOf 0x8C b o m r, false)
  | .atomFaddF32 _ b o m => some (m, atomOf 0x8D b o m r, false)
  | .atomFaddBf16x2 _ b o m => some (m, atomOf 0x8E b o m r, false)
  | .atomFmax _ b o m => some (m, atomOf 0x8F b o m r, false)
  | .cas _ b o m => some (m, if m.size == .pair then .cas true (r.pair b.toNat) (r.pair (b.toNat + 2)) o
      else .cas false ((r.at b.toNat).zeroExtend 64) ((r.at (b.toNat + 1)).zeroExtend 64) o, false)
  | .feSet full m => some (m, .feSet full m.size.words, false)
  | .feGet _ m => some (m, .feGet m.size.words, false)
  | .launch m => some (m, .load .plain 16, true)
  | _ => none

/-- The place of n words at an effective address, where R107 and R108 let the access be made. -/
def IsAt (l : Launch) (x y : Nat) (m : MemRef) (n : Nat) (ea : DWord) (loc : Loc) : Prop :=
  match m.space with
  | .ownTile => ea.toNat < 2 ^ 15 ∧ ea.toNat % n = 0 ∧ loc = .tile x y ea.toNat
  | .regionTile => ea.toNat < 2 ^ 28 ∧ l.has (ea.toNat / 2 ^ 21 % 128) (ea.toNat / 2 ^ 15 % 64) = true ∧ ea.toNat % n = 0 ∧
      loc = .tile (ea.toNat / 2 ^ 21 % 128) (ea.toNat / 2 ^ 15 % 64) (ea.toNat % 2 ^ 15)
  | .global => ea.toNat < 2 ^ 52 ∧ ea.toNat % (4 * n) = 0 ∧ loc = .glob ea
  | .peer => ea.toNat < 2 ^ 52 ∧ ea.toNat % (4 * n) = 0 ∧ loc = .peer ea

/-- The instruction is launch. -/
def isLaunch (i : Instr) : Bool := match i with | .launch _ => true | _ => false

/-- What an operation asks beside its address: a launch, of its level (R96); a counted fill, of its readers and quota (R118). -/
def mayIssue (l : Launch) (m : MemRef) (r : Record) (i : Instr) : Bool :=
  match i with
  | .launch _ => l.record.level != 7
  | .stvN _ b _ => (r.w b).extractLsb' 8 12 != 0 && !(m.space == .global && l.record.quota == 0)
  | _ => true

/-- The operations at which R113 traps a poisoned record, but for sink, which takes its records otherwise (R130). -/
def stopsPoison (i : Instr) : Bool :=
  match i with
  | .scatter _ _ | .copy _ | .binApp _ | .pageMap _ | .pageUnmap _ | .pageShare _ | .pageProt _ | .spaceRetire _ | .tlbInv _
  | .faultResume _ | .faultFail _ => true
  | .st _ _ _ | .stv _ _ _ | .stvN _ _ _ | .atomAdd _ _ _ _ | .atomSub _ _ _ _ | .atomMin _ _ _ _ | .atomMax _ _ _ _ | .atomAnd _ _ _ _
  | .atomOr _ _ _ _ | .atomXor _ _ _ _ | .atomSwap _ _ _ _ | .atomIncw _ _ _ _ | .atomFaddF32 _ _ _ _ | .atomFaddBf16x2 _ _ _ _
  | .atomFmax _ _ _ _ | .cas _ _ _ _ | .feSet _ _ => true
  | _ => false

/-- The scope at which an access acquires as it leaves: a fence's own, otherwise that of its request (R10, R116, R205). -/
def leavingScope (l : Launch) (i : Instr) : Scope :=
  match i, memRefOf i with
  | .fence _ sc, _ => sc
  | _, some (_, m) => l.requestScope m i
  | _, none => .cell

/-- The accesses whose completion sends their record on and does nothing else: not a sink's store, a source's item, a launch or a
prefetch. -/
def leavesPlainly (i : Instr) : Bool :=
  match i with
  | .sink _ _ | .src _ _ | .launch _ | .pref _ => false
  | _ => true

end Sys2Proof.Machine
end

