-- ==== Sys2Proof/Certificates/Slice0/Obligations.lean ====
section
/-! DEFINITION. Certificates/Slice0/Obligations.lean: the statements, one definition each. -/

open Sys2Proof Sys2Proof.Machine

/-! ### Record control and integer operations -/

/-- R74, R77, R78: the move family writes the words that its table gives, and the operations that write one field of the control word
write that field, setp by one of its eleven conditions; nothing else of the record changes. -/
def Obligations.MoveResults : Prop :=
  ∀ (s : State) (l : Launch) (u : UnitState) (r : Record), s.Ready l u r → r.isToken = false → s.accepts l 0 →
    exec .nop s = .next (s.passes u r r) ∧
    (∀ d imm, ∃ r', exec (.movi d imm) s = .next (s.passes u r r') ∧ r'.w d = imm.signExtend 32 ∧
      r.KeepsOutside r' d.toNat 1) ∧
    (∀ d imm, ∃ r', exec (.movhi d imm) s = .next (s.passes u r r') ∧
      r'.w d = (imm.zeroExtend 32 <<< 12) ||| (r.w d &&& 0xFFF) ∧ r.KeepsOutside r' d.toNat 1) ∧
    (∀ d k, ∃ r', exec (.movk d k) s = .next (s.passes u r r') ∧
      r'.w d = (match k with | .k0 => u.k 0 | .k1 => u.k 1 | .k2 => u.k 2 | .k3 => u.k 3 | .acc => u.acc) ∧
      r.KeepsOutside r' d.toNat 1) ∧
    (∀ d a len, aligned len d = true → ∃ r', exec (.mov d a len) s = .next (s.passes u r r') ∧
      (∀ i, i < len.words → r'.at (d.toNat + i) = r.at (a.toNat + i)) ∧ r.KeepsOutside r' d.toNat len.words) ∧
    (∀ d a b len, aligned len d = true → ∃ r', exec (.sel d a b len) s = .next (s.passes u r r') ∧
      (∀ i, i < len.words → r'.at (d.toNat + i) = if r.ctl.p then r.at (a.toNat + i) else r.at (b.toNat + i)) ∧
      r.KeepsOutside r' d.toNat len.words) ∧
    (∀ d, d.toNat % 2 = 0 → ∃ r', exec (.getrcw d) s = .next (s.passes u r r') ∧ r'.at d.toNat = lo32 r.rcw ∧
      r'.at (d.toNat + 1) = hi32 r.rcw ∧ r.KeepsOutside r' d.toNat 2) ∧
    (∀ cond a operand, ∃ r', exec (.setp cond a operand) s = .next (s.passes u r r') ∧ r'.words = r.words ∧
      let x := r.w a
      let y : Word := match operand with | .inl imm => imm.signExtend 32 | .inr b => r.w b
      r'.ctl = { r.ctl with p := match cond with
        | .eq => decide (x = y)
        | .ne => decide (x ≠ y)
        | .lt => decide (x.toInt < y.toInt)
        | .le => decide (x.toInt ≤ y.toInt)
        | .gt => decide (y.toInt < x.toInt)
        | .ge => decide (y.toInt ≤ x.toInt)
        | .ltu => decide (x.toNat < y.toNat)
        | .leu => decide (x.toNat ≤ y.toNat)
        | .gtu => decide (y.toNat < x.toNat)
        | .geu => decide (y.toNat ≤ x.toNat)
        | .test => decide (x &&& y ≠ 0) }) ∧
    (∃ r', exec .clrp s = .next (s.passes u r r') ∧ r'.words = r.words ∧ r'.ctl = { r.ctl with p := false }) ∧
    (∀ imm, ∃ r', exec (.setbud imm) s = .next (s.passes u r r') ∧ r'.words = r.words ∧
      r'.ctl = { r.ctl with bud := if imm = 0 then 15 else imm }) ∧
    (∃ r', exec .eos s = .next (s.passes u r r') ∧ r'.words = r.words ∧ r'.ctl = { r.ctl with eos := true }) ∧
    (∀ a, ∃ r', exec (.setord a) s = .next (s.passes u r r') ∧ r'.words = r.words ∧ r'.ctl = { r.ctl with ord := r.w a })

/-- R98, R73: the lane results of the integer operations, for every length, lane width and saturation. -/
def Obligations.IntegerLaneResults : Prop :=
  ∀ (s : State) (l : Launch) (u : UnitState) (r : Record), s.Ready l u r → r.isToken = false → s.accepts l 0 →
    (∀ o : Lanewise, aligned o.len o.d = true →
      let L := o.lane.bits
      let x := fun j => r.lane o.a o.lane j
      let y := fun j => r.lane o.b o.lane j
      let writes := fun (i : Instr) (P : Nat → Nat → Prop) =>
        ∃ r', exec i s = .next (s.passes u r r') ∧ r.LanesBecome r' o.d o.len o.lane P
      (writes (.add o) fun j z => IsResult o.sat L (signedValue L (x j) + signedValue L (y j)) z) ∧
      (writes (.sub o) fun j z => IsResult o.sat L (signedValue L (x j) - signedValue L (y j)) z) ∧
      (writes (.mul o) fun j z => IsResult o.sat L (signedValue L (x j) * signedValue L (y j)) z) ∧
      (∀ c, writes (.mad o c) fun j z =>
        IsResult o.sat L (signedValue L (x j) * signedValue L (y j) + signedValue L (r.lane c o.lane j)) z) ∧
      (writes (.mulh o true) fun j z => z = x j * y j / 2 ^ L) ∧
      (writes (.mulh o false) fun j z => (z : Int) = signedValue L (x j) * signedValue L (y j) / 2 ^ L % 2 ^ L) ∧
      (writes (.and o) fun j z => z = x j &&& y j) ∧
      (writes (.or o) fun j z => z = x j ||| y j) ∧
      (writes (.xor o) fun j z => z = x j ^^^ y j) ∧
      (writes (.shl o) fun j z => z = x j * 2 ^ (y j % L) % 2 ^ L) ∧
      (writes (.shr o) fun j z => z = x j / 2 ^ (y j % L)) ∧
      (writes (.sar o) fun j z => signedValue L z = signedValue L (x j) / 2 ^ (y j % L)) ∧
      (writes (.rot o) fun j z => ∀ k, k < L → z.testBit ((k + y j % L) % L) = (x j).testBit k) ∧
      (writes (.min o true) fun j z => z = min (x j) (y j)) ∧
      (writes (.max o true) fun j z => z = max (x j) (y j)) ∧
      (writes (.min o false) fun j z => signedValue L z = min (signedValue L (x j)) (signedValue L (y j))) ∧
      (writes (.max o false) fun j z => signedValue L z = max (signedValue L (x j)) (signedValue L (y j)))) ∧
    (∀ o : Lanewise1, aligned o.len o.d = true →
      let L := o.lane.bits
      let x := fun j => r.lane o.a o.lane j
      let writes := fun (i : Instr) (P : Nat → Nat → Prop) =>
        ∃ r', exec i s = .next (s.passes u r r') ∧ r.LanesBecome r' o.d o.len o.lane P
      (writes (.abs o) fun j z => IsResult o.sat L (signedValue L (x j)).natAbs z) ∧
      (writes (.clz o) fun j z => z ≤ L ∧ x j < 2 ^ (L - z) ∧ (z < L → 2 ^ (L - z - 1) ≤ x j)) ∧
      (writes (.ctz o) fun j z => z ≤ L ∧ x j % 2 ^ z = 0 ∧ (z < L → (x j).testBit z = true)) ∧
      (writes (.popc o) fun j z => z = ((List.range L).filter fun k => (x j).testBit k).length))

/-- R99 to R103: the results of the immediate, bit-field, hash, address and 64-bit operations. -/
def Obligations.ScalarResults : Prop :=
  ∀ (s : State) (l : Launch) (u : UnitState) (r : Record), s.Ready l u r → r.isToken = false → s.accepts l 0 →
    let writes := fun (i : Instr) (d : Reg) (v : Word) =>
      ∃ r', exec i s = .next (s.passes u r r') ∧ r'.w d = v ∧ r.KeepsOutside r' d.toNat 1
    let writes64 := fun (i : Instr) (d : Reg) (v : DWord) =>
      ∃ r', exec i s = .next (s.passes u r r') ∧ r'.at d.toNat = lo32 v ∧ r'.at (d.toNat + 1) = hi32 v ∧
        r.KeepsOutside r' d.toNat 2
    (∀ o : ImmOp,
      writes (.addi o) o.d (r.w o.a + o.imm.signExtend 32) ∧ writes (.andi o) o.d (r.w o.a &&& o.imm.signExtend 32) ∧
      writes (.ori o) o.d (r.w o.a ||| o.imm.signExtend 32) ∧ writes (.xori o) o.d (r.w o.a ^^^ o.imm.signExtend 32)) ∧
    (∀ o : ShiftOp,
      writes (.shli o) o.d (r.w o.a <<< o.n.toNat) ∧ writes (.shri o) o.d (r.w o.a >>> o.n.toNat) ∧
      writes (.sari o) o.d ((r.w o.a).sshiftRight o.n.toNat)) ∧
    (∀ o : FieldOp, o.lsb.toNat + o.widthM1.toNat + 1 ≤ 32 →
      let width := o.widthM1.toNat + 1
      let f := (r.w o.a >>> o.lsb.toNat) &&& BitVec.ofNat 32 (2 ^ width - 1)
      let mask := BitVec.ofNat 32 (2 ^ width - 1) <<< o.lsb.toNat
      writes (.bfx o false) o.d f ∧
      (∃ r', exec (.bfx o true) s = .next (s.passes u r r') ∧ (r'.w o.d).toInt = signedValue width f.toNat ∧
        r.KeepsOutside r' o.d.toNat 1) ∧
      writes (.bfi o) o.d ((r.w o.d &&& ~~~mask) ||| ((r.w o.a <<< o.lsb.toNat) &&& mask))) ∧
    (∀ o : Reg3,
      writes (.hash o false) o.d
        (crcBytes (r.w o.a) [(r.w o.b).extractLsb' 0 8, (r.w o.b).extractLsb' 8 8, (r.w o.b).extractLsb' 16 8,
          (r.w o.b).extractLsb' 24 8]) ∧
      (let x := r.w o.a ^^^ r.w o.b
       let x := (x ^^^ (x >>> 16)) * 0x7FEB352D
       let x := (x ^^^ (x >>> 15)) * 0x846CA68B
       writes (.hash o true) o.d (x ^^^ (x >>> 16))) ∧
      (∀ sh : BitVec 3, writes (.lea o sh) o.d (r.w o.a + (r.w o.b <<< sh.toNat)))) ∧
    (∀ o : Reg3, o.d.toNat % 2 = 0 →
      writes64 (.add64 o) o.d (r.pair o.a.toNat + r.pair o.b.toNat) ∧
      writes64 (.sub64 o) o.d (r.pair o.a.toNat - r.pair o.b.toNat) ∧
      writes64 (.shl64 o) o.d (r.pair o.a.toNat <<< ((r.w o.b).toNat % 64)))

/-! ### Tokens, control words and the ends of a path -/

/-- R69, R264, R173: a token passes every operation that is not named otherwise unchanged, with no other effect. At the operations of the access
elements, those of the engines, the page operations and the commands of a matrix tile among them, it performs nothing: it waits in its element
for the accesses in progress there when it came, and leaves unchanged once they have ended. mdrain also has its tile send a token after its
drains, which takes a place of the tile's queue (R290).
Where the spec leaves the choice, it is the model's (logs 41, 59). -/
def Obligations.TokensGo : Prop :=
  (∀ (s : State) (l : Launch) (u : UnitState) (r : Record) (i : Instr), s.Ready l u r → r.isToken = true → s.accepts l 0 →
      i.wf = true → passesTokens i = true → exec i s = .next (s.passes u r r)) ∧
  (∀ (s : State) (l : Launch) (u : UnitState) (r0 : Record) (rest : List Record), s.here = some (l, u) → l.takes u = true →
      u.fields ≠ UnitState.reset.fields → u.port 0 = r0 :: rest → r0.isToken = true →
      let f := s.focus
      (∀ i, holdsTokens i = true → ∃ a l', exec i s = .next (s.setLaunch f.inst l') ∧ u.TokenWaits (l'.unit f.x f.y f.unit) r0 a) ∧
      (∀ c fmt,
        let tile := l.mtile f.x f.y
        let queued := tile.cmds.length + (if tile.drain.isSome then 1 else 0)
        (8 ≤ queued → exec (.mdrain c fmt) s = .next s) ∧
        (queued < 8 → ∃ a l', exec (.mdrain c fmt) s = .next (s.setLaunch f.inst l') ∧ u.TokenWaits (l'.unit f.x f.y f.unit) r0 a ∧
          l'.mtile f.x f.y = { tile with cmds := tile.cmds ++ [{ drain := true, acc := c.toNat, after := tile.arrived, fmt := Fmt.code fmt,
                                                                 w0 := 0, token := true, blk := r0.ctl.blk }] }))) ∧
  (∀ (s : State) (inst x y unit id : Nat) (l : Launch) (a : Access), s.launch? inst = some l → l.acts = true →
      let u := l.unit x y unit
      u.flight.find? (fun b => b.id == id) = some a → a.trapped = false → a.record.isToken = true → a.lanes = [] →
      let before := fun (i : Nat) => (∃ b ∈ u.flight ++ u.resume, b.id = i) ∨ ∃ e ∈ l.kennel.entries, e.ofAccess x y unit i = true
      ((∃ i ∈ a.waitsFor, before i) → exec (.accessComplete inst x y unit id) s = .next s) ∧
      ((∀ i ∈ a.waitsFor, ¬ before i) → l.canSend x y unit [out0 a.record] = true →
        ∃ t l', exec (.accessComplete inst x y unit id) s = .next t ∧ t.launch? inst = some l' ∧ l'.lastMove = s.now ∧
          let sent := l.send x y unit [out0 a.record]
          l'.drops = sent.drops ∧
          (u.fields ≠ UnitState.reset.fields →
            (∀ cx cy k, (l'.unit cx cy k).ins = (sent.unit cx cy k).ins) ∧
            ((∀ e ∈ l.kennel.entries, ∀ b, e.x = x → e.y = y → e.unit = unit → e.access = some b → b.answered = false) →
              (l'.unit x y unit).flight = u.flight.filter (fun b => b.id != id)))))

/-- R104: chk, opcode 0x3E with d = 0 and v = 1 for chk.s, passes a record whose first word is below its second, and traps BOUND otherwise;
DETAIL holds both words (R105). -/
def Obligations.BoundsCheck : Prop :=
  (∀ (a b : Reg) (signed : Bool), encodeOp (.chk a b signed) =
    some ((0x3E : BitVec 8) ++ (if signed then 1 else 0 : BitVec 4) ++ (0 : BitVec 4) ++ a ++ b ++ (0 : BitVec 24))) ∧
  ∀ (s : State) (l : Launch) (u : UnitState) (r : Record) (a b : Reg), s.Ready l u r → r.isToken = false → s.accepts l 0 →
    ((r.w a).toNat < (r.w b).toNat → exec (.chk a b false) s = .next (s.passes u r r)) ∧
    ((r.w a).toInt < (r.w b).toInt → exec (.chk a b true) s = .next (s.passes u r r)) ∧
    (¬ (r.w a).toNat < (r.w b).toNat →
      ∃ t, exec (.chk a b false) s = .next t ∧ s.TrapsAs t l u r .bound (pair64 (r.w a) (r.w b)) 0) ∧
    (¬ (r.w a).toInt < (r.w b).toInt →
      ∃ t, exec (.chk a b true) s = .next t ∧ s.TrapsAs t l u r .bound (pair64 (r.w a) (r.w b)) 0)

/-- R80, R81, R105: call saves the return block and names the callee, ret and ret.trap return to the innermost saved block, and each
traps, with nothing written, where it cannot. -/
def Obligations.CallAndReturn : Prop :=
  ∀ (s : State) (l : Launch) (u : UnitState) (r : Record), s.Ready l u r → r.isToken = false → s.accepts l 0 →
    let returned := { r.ctl with blk := r.ctl.ret0, ret0 := r.ctl.ret1, ret1 := 0 }
    (∀ back, r.ctl.ret1 = 0 → ∃ r', exec (.call back) s = .next (s.passes u r r') ∧ r'.words = r.words ∧
      r'.ctl = { r.ctl with ret1 := r.ctl.ret0, ret0 := back, blk := (u.k 0).extractLsb' 0 8 }) ∧
    (∀ back, r.ctl.ret1 ≠ 0 → ∃ t, exec (.call back) s = .next t ∧
      s.TrapsAs t l u r .callDepth (((u.k 0).extractLsb' 0 8).zeroExtend 64 <<< 16 ||| r.ctl.ret1.zeroExtend 64 <<< 8 |||
        r.ctl.ret0.zeroExtend 64) 0) ∧
    (r.ctl.ret0 ≠ 0 → ∃ r', exec .ret s = .next (s.passes u r r') ∧ r'.words = r.words ∧ r'.ctl = returned) ∧
    (r.ctl.ret0 = 0 → ∃ t, exec .ret s = .next t ∧ s.TrapsAs t l u r .retEmpty 0 0) ∧
    (r.ctl.trapped = true → ∃ r', exec .retTrap s = .next (s.passes u r r') ∧ r'.words = r.words ∧ r'.ctl = returned) ∧
    (r.ctl.trapped = false → ∃ t, exec .retTrap s = .next t ∧ s.TrapsAs t l u r .retEmpty 1 0)

/-- R95: trap, opcode 0x15, raises TRAPOP and brk, opcode 0x16, raises BREAK, with the immediate in DETAIL and bit 20 set for brk. -/
def Obligations.TrapOperations : Prop :=
  (∀ imm : BitVec 20,
    encodeOp (.trap imm) = some ((0x15 : BitVec 8) ++ (0 : BitVec 16) ++ imm ++ (0 : BitVec 4)) ∧
    encodeOp (.brk imm) = some ((0x16 : BitVec 8) ++ (0 : BitVec 16) ++ imm ++ (0 : BitVec 4))) ∧
  ∀ (s : State) (l : Launch) (u : UnitState) (r : Record) (imm : BitVec 20), s.Ready l u r → r.isToken = false →
    (∃ t, exec (.trap imm) s = .next t ∧ s.TrapsAs t l u r .trapop (imm.zeroExtend 64) 0) ∧
    (∃ t, exec (.brk imm) s = .next t ∧ s.TrapsAs t l u r .brk (imm.zeroExtend 64 + 2 ^ 20) 0)

/-- R75, R76, R79, R82, R83, R84, R105: zip, split, fork, drop and retire, on records and tokens; emit sends a record on the lowest
candidate route that reaches its next block, and traps ILLEGAL where none does; a token goes out on every candidate route with that
route's block.
Where the spec leaves the choice, it is the model's (log 48). -/
def Obligations.PathOperations : Prop :=
  (∀ (s : State) (l : Launch) (u : UnitState) (r : Record) (mask : BitVec 4) (mode : EmitMode), s.Ready l u r → s.accepts l 0 →
      let byte := fun (i : Nat) => (u.k 0).extractLsb' (8 * i) 8
      let next := match mode with | .target b => b | .keep => r.ctl.blk | .pred b f => if r.ctl.p then b else f
      (r.isToken = false →
        (∀ i, i < 4 → mask.getLsbD i = true → byte i = next → (∀ j, j < i → mask.getLsbD j = true → byte j ≠ next) →
          ∃ r', exec (.emit mask mode) s = .next (s.complete u [{ port := 0, route := some i, record := r' }] r.ctl.ord) ∧
            r'.words = r.words ∧ r'.ctl = { r.ctl with blk := next }) ∧
        ((∀ i, i < 4 → mask.getLsbD i = true → byte i ≠ next) →
          ∃ t, exec (.emit mask mode) s = .next t ∧ s.TrapsAs t l u r .illegal 
            (1 + (next.zeroExtend 64 <<< 8) + (mask.zeroExtend 64 <<< 16)) 0)) ∧
      (r.isToken = true →
        ∃ copies, exec (.emit mask mode) s = .next (s.complete u copies r.ctl.ord) ∧
          copies.map Out.route = ((List.range 4).filter mask.getLsbD).map some ∧
          ∀ o ∈ copies, o.port = 0 ∧ o.record.words = r.words ∧
            ∃ i, o.route = some i ∧ o.record.ctl = { r.ctl with blk := byte i })) ∧
  (∀ (s : State) (l : Launch) (u : UnitState) (r : Record), s.Ready l u r →
      (s.accepts l 0 → exec .retire s = .next (s.complete u [out0 r] r.ctl.ord)) ∧
      exec .drop s = .next ((s.modLaunch s.focus.inst fun l => { l with drops := l.drops + 1 }).complete u [] r.ctl.ord) ∧
      (s.accepts l 0 → s.accepts l 1 →
        (∀ target, ∃ r', exec (.fork target) s = .next (s.complete u [out0 r, out1 r'] r.ctl.ord) ∧ r'.words = r.words ∧
          r'.ctl = { r.ctl with blk := target }) ∧
        (∀ d a len, aligned len d = true → ∃ r', exec (.split d a len) s = .next (s.complete u [out0 r, out1 r'] r.ctl.ord) ∧
          r'.rcw = r.rcw ∧ (∀ k, r.isToken = true → r'.at k = 0) ∧
          (r.isToken = false → (∀ i, i < len.words → r'.at (d.toNat + i) = r.at (a.toNat + i)) ∧
            ∀ k, k < d.toNat ∨ d.toNat + len.words ≤ k → r'.at k = 0))) ∧
      (∀ d b len r1 rest, aligned len d = true → u.port 1 = r1 :: rest →
        (r.isToken = r1.isToken → s.accepts l 0 → ∃ r', exec (.zip d b len) s = .next (s.complete (u.pop 1) [out0 r'] r.ctl.ord) ∧
          (∀ i, i < len.words → r'.at (d.toNat + i) = r1.at (b.toNat + i)) ∧
          (∀ k, k < d.toNat ∨ d.toNat + len.words ≤ k → r'.at k = r.at k) ∧
          r'.ctl = { r.ctl with poison := r.ctl.poison || r1.ctl.poison }) ∧
        (r.isToken ≠ r1.isToken → ∃ t l', exec (.zip d b len) s = .next t ∧
          t.here = some (l', { u with ins := (u.pop 1).ins, held := true }) ∧ l'.drops = l.drops + 1 ∧
          ∃ q, l'.trapQ = l.trapQ ++ [q] ∧ q.cause = .illegal ∧ q.record = (u.port 0).headD r ∧
            q.detail = 2 + (if r.isToken then 0x100 else 0) + (if r1.isToken then 0x200 else 0))))

/-- R85, R86: acc folds a word into the accumulator and passes the record; accget writes the accumulator, into tokens too, and its
clearing form then zeroes it. -/
def Obligations.AccumulatorResults : Prop :=
  ∀ (s : State) (l : Launch) (u : UnitState) (r : Record), s.Ready l u r → s.accepts l 0 →
    (r.isToken = false → ∀ (a : Reg) (round : Round),
      exec (.acc .add a round) s = .next (s.passes { u with acc := u.acc + r.w a } r r) ∧
      (∃ v : Word, exec (.acc .min a round) s = .next (s.passes { u with acc := v } r r) ∧
        v.toInt = min u.acc.toInt (r.w a).toInt) ∧
      (∃ v : Word, exec (.acc .max a round) s = .next (s.passes { u with acc := v } r r) ∧
        v.toInt = max u.acc.toInt (r.w a).toInt) ∧
      (let mode := round.resolve l.rmode
       let lf := lfsrAfter mode 1 u.lfsr
       exec (.acc .fadd a round) s = .next (s.passes { u with lfsr := lf, acc := BitVec.ofNat 32 (convert .fp32 mode false lf
         (Val.add mode (Fmt.value .fp32 u.acc.toNat) (Fmt.value .fp32 (r.w a).toNat))) } r r)) ∧
      exec (.acc .fmax a round) s = .next (s.passes { u with acc := BitVec.ofNat 32 (fpMax .fp32 u.acc.toNat (r.w a).toNat) } r r)) ∧
    (∀ d clear, ∃ r', exec (.accget d clear) s = .next (s.passes { u with acc := if clear then 0 else u.acc } r r') ∧
      r'.w d = u.acc ∧ r.KeepsOutside r' d.toNat 1)

/-- R91, R92, R93, R94: rdclk and rdid write what the region's clock and place give; yield passes the record, and a region with yield points
offers the rest of its quantum where a launch of the same or a higher priority waits on a die that it occupies; setb and setbw write a base
register and its copy in BASEBLK in one step, wait where the store must wait, and a copy that cannot be stored is region-fatal. -/
def Obligations.RegionOperations : Prop :=
  (∀ (s : State) (l : Launch) (u : UnitState) (r : Record), s.Ready l u r → r.isToken = false → s.accepts l 0 →
      (∀ d, d.toNat % 2 = 0 → ∃ r', exec (.rdclk d) s = .next (s.passes u r r') ∧
        r'.pair d.toNat = BitVec.ofNat 64 (if l.committed then s.now - l.firstCommit else 0) ∧ r.KeepsOutside r' d.toNat 2) ∧
      (∀ d sel, ∃ r', exec (.rdid d sel) s = .next (s.passes u r r') ∧ r.KeepsOutside r' d.toNat 1 ∧
        r'.w d = match sel with
          | .cell => BitVec.ofNat 32 (l.absY s.focus.y * 2 ^ 8 + l.absX s.focus.x)
          | .rcell => BitVec.ofNat 32 (s.focus.y * 2 ^ 8 + s.focus.x)
          | .die => BitVec.ofNat 32 (l.dieOf s.focus.x s.focus.y)
          | .space => l.record.space.zeroExtend 32
          | .level => l.record.level.zeroExtend 32)) ∧
  (∀ (s : State) (l : Launch) (u : UnitState) (r : Record), s.Ready l u r → r.isToken = false → s.accepts l 0 →
      (s.contended l = false ∨ l.hasYield = false → exec .yield s = .next (s.passes u r r)) ∧
      (s.contended l = true → l.hasYield = true →
        exec .yield s = .next ((s.modLaunch s.focus.inst fun l => { l with offered := true }).complete u [out0 r] r.ctl.ord))) ∧
  (∀ (s : State) (l : Launch) (u : UnitState) (r : Record) (n : BitVec 4) (a : Reg), s.Ready l u r → r.isToken = false →
      s.accepts l 0 →
      let at_ := l.record.baseBlk.toNat + 8 * n.toNat
      let writes := fun (i : Instr) (v : DWord) =>
        exec i s = .next (match s.storeRegion l.record.space [(at_, lo32 v), (at_ + 4, hi32 v)] with
          | .ok t _ => (t.modLaunch s.focus.inst fun l => { l with bases := l.bases.setIfInBounds n.toNat v }).complete u [out0 r] r.ctl.ord
          | .wait t => t
          | other => State.failRegion s.focus.inst l.record.baseBlk other.state)
      writes (.setb n a) (r.pair a.toNat) ∧
      writes (.setbw n a false) (pair64 (r.w a) (hi32 (l.base n))) ∧
      writes (.setbw n a true) (pair64 (lo32 (l.base n)) (r.w a)))

/-! ### Floating point and vectors -/

/-- R268, R272, R275, R276, R277, R248 to R250: the exact result of each lane, rounded once to the type; under stochastic rounding the
LFSR advances once for each lane, in lane order. -/
def Obligations.RoundedLaneResults : Prop :=
  ∀ (s : State) (l : Launch) (u : UnitState) (r : Record) (o : FloatOp), s.Ready l u r → r.isToken = false → s.accepts l 0 →
    let f := o.ty.fmt
    let mode := o.round.resolve l.rmode
    let n := laneCount o.len o.ty.lane
    let lf := fun (j : Nat) => lfsrAfter mode (j + 1) u.lfsr
    let x := fun (j : Nat) => f.value (r.lane o.a o.ty.lane j)
    let y := fun (j : Nat) => f.value (r.lane o.b o.ty.lane j)
    let z := fun (j : Nat) => f.value (r.lane o.c o.ty.lane j)
    let after := { u with lfsr := lfsrAfter mode n u.lfsr }
    let writes := fun (i : Instr) (g : Nat → Nat) =>
      ∃ r', exec i s = .next (s.passes after r r') ∧ r.LanesBecome r' o.d o.len o.ty.lane fun j w => w = g j
    (aligned o.len o.d = true →
      writes (.fadd o) (fun j => convert f mode o.sat (lf j) (Val.add mode (x j) (y j))) ∧
      writes (.fsub o) (fun j => convert f mode o.sat (lf j) (Val.add mode (x j) (y j).negate)) ∧
      writes (.fmul o) (fun j => convert f mode o.sat (lf j) (Val.mul (x j) (y j))) ∧
      writes (.ffma o) (fun j => convert f mode o.sat (lf j) (Val.add mode (Val.mul (x j) (y j)) (z j))) ∧
      writes (.frcp o) (fun j => convert f mode o.sat (lf j) (x j).recip) ∧
      writes (.fsqrt o) (fun j => convert f mode o.sat (lf j) (x j).sqrt) ∧
      writes (.fint o) (fun j => convert f .rne false 0 (integral mode (lf j) (x j))) ∧
      writes (.i2f o) (fun j => convert f mode o.sat (lf j) (Val.ofInt (signedValue f.width (r.lane o.a o.ty.lane j)))) ∧
      writes (.fscale o) (fun j =>
        convert f mode (o.sat && (x j).finite) (lf j) ((x j).shift (signedValue f.width (r.lane o.b o.ty.lane j))))) ∧
    (destOk n 32 o.d = true → ∃ r', exec (.f2i o) s = .next (s.passes after r r') ∧
      r.ElementsBecome r' o.d n 32 fun j w => w = convertS32 mode o.sat (lf j) (x j)) ∧
    (∀ d a dst src len round sat, destOk (fcvtCount src len) dst.width d = true → aligned len a = true →
      let mode := round.resolve l.rmode
      ∃ r', exec (.fcvt d a dst src len round sat) s =
          .next (s.passes { u with lfsr := lfsrAfter mode (fcvtCount src len) u.lfsr } r r') ∧
        r.ElementsBecome r' d (fcvtCount src len) dst.width fun j w =>
          w = convert dst mode sat (lfsrAfter mode (j + 1) u.lfsr) (src.value (r.element a src.width j)))

/-- R269, R270, R271, R273: the operations on lanes that round nothing. -/
def Obligations.UnroundedLaneResults : Prop :=
  ∀ (s : State) (l : Launch) (u : UnitState) (r : Record) (o : FloatOp), s.Ready l u r → r.isToken = false → s.accepts l 0 →
    aligned o.len o.d = true →
    let f := o.ty.fmt
    let x := fun (j : Nat) => r.lane o.a o.ty.lane j
    let y := fun (j : Nat) => r.lane o.b o.ty.lane j
    let top := 2 ^ (f.width - 1)
    let writes := fun (i : Instr) (P : Nat → Nat → Prop) =>
      ∃ r', exec i s = .next (s.passes u r r') ∧ r.LanesBecome r' o.d o.len o.ty.lane P
    (writes (.fmin o) fun j w => IsLeast f (x j) (y j) w) ∧
    (writes (.fmax o) fun j w => IsGreatest f (x j) (y j) w) ∧
    (writes (.fsgn o .copy) fun j w => w = x j % top + y j / top * top) ∧
    (writes (.fsgn o .neg) fun j w => w = x j % top + (1 - y j / top) * top) ∧
    (writes (.fsgn o .xor) fun j w => w = x j % top + (x j / top + y j / top) % 2 * top) ∧
    (writes (.fclass o) fun j w => w = classMask f (x j)) ∧
    (∀ c, ∃ r', exec (.fcmp o c) s = .next (s.passes u r r') ∧
      (∀ j, j < laneCount o.len o.ty.lane →
        r'.lane o.d o.ty.lane j = if compares c (f.value (x j)) (f.value (y j)) then 2 ^ f.width - 1 else 0) ∧
      (∀ k, k < o.d.toNat ∨ o.d.toNat + o.len.words ≤ k → r'.at k = r.at k) ∧
      r'.ctl = { r.ctl with
        p := (List.range (laneCount o.len o.ty.lane)).all fun j => compares c (f.value (x j)) (f.value (y j)) })

/-- R277, R278: frsq, fexp2, flog2, fsin and fcos act lane by lane: in FP32, and for FP16 and BF16 with the FP32 result rounded once, RNE,
to the type. The special inputs give what the table of R278 gives; fexp2 gives +∞ from 128 on, and below −126 a subnormal or +0.
The exact cases of R277 are the powers of 4 of frsq, the whole numbers of fexp2 and the powers of two of flog2. Elsewhere a result is the
part's within the bound of R277, here of a reference to far more bits, or the reference rounded (log 11); the results of fsin and fcos lie in
[−1, 1]. -/
def Obligations.FunctionResults : Prop :=
  (∀ (s : State) (l : Launch) (u : UnitState) (r : Record) (o : FloatOp), s.Ready l u r → r.isToken = false → s.accepts l 0 →
    aligned o.len o.d = true →
    (∃ r', exec (.frsq o) s = .next (s.passes u r r') ∧
      r.LanesBecome r' o.d o.len o.ty.lane fun j w => w = Func.lane .rsq o.ty (r.lane o.a o.ty.lane j)) ∧
    (∃ r', exec (.fexp2 o) s = .next (s.passes u r r') ∧
      r.LanesBecome r' o.d o.len o.ty.lane fun j w => w = Func.lane .exp2 o.ty (r.lane o.a o.ty.lane j)) ∧
    (∃ r', exec (.flog2 o) s = .next (s.passes u r r') ∧
      r.LanesBecome r' o.d o.len o.ty.lane fun j w => w = Func.lane .log2 o.ty (r.lane o.a o.ty.lane j)) ∧
    (∃ r', exec (.fsin o) s = .next (s.passes u r r') ∧
      r.LanesBecome r' o.d o.len o.ty.lane fun j w => w = Func.lane .sin o.ty (r.lane o.a o.ty.lane j)) ∧
    (∃ r', exec (.fcos o) s = .next (s.passes u r r') ∧
      r.LanesBecome r' o.d o.len o.ty.lane fun j w => w = Func.lane .cos o.ty (r.lane o.a o.ty.lane j))) ∧
  (∀ (g : Func) (c : Nat), Func.lane g .f32 c = g.code (BitVec.ofNat 32 c) ∧
    ∀ ty : FTy, ty ≠ .f32 → Func.lane g ty c =
      convert ty.fmt .rne false 0 (Fmt.value .fp32 (g.code (BitVec.ofNat 32 (convert .fp32 .rne false 0 (ty.fmt.value c)))))) ∧
  (∀ x : Word, Fmt.value .fp32 x.toNat = .nan → ∀ g : Func, g.code x = 0x7FC00000) ∧
  (∀ (x : Word) (a b : Nat), Fmt.value .fp32 x.toNat = .fin true a b → a ≠ 0 → Func.rsq.code x = 0x7FC00000 ∧ Func.log2.code x = 0x7FC00000) ∧
  (∀ (x : Word) (a b : Nat), Fmt.value .fp32 x.toNat = .fin false a b → 128 * b ≤ a → Func.exp2.code x = 0x7F800000) ∧
  (∀ (x : Word) (a b : Nat), Fmt.value .fp32 x.toNat = .fin true a b → 126 * b < a →
    Func.exp2.code x % 2 ^ 31 < 2 ^ 23 ∧ Func.exp2.code x ≠ 0x80000000) ∧
  (Func.rsq.code 0 = 0x7F800000 ∧ Func.rsq.code 0x80000000 = 0xFF800000 ∧ Func.rsq.code 0x7F800000 = 0 ∧
    Func.rsq.code 0xFF800000 = 0x7FC00000) ∧
  (Func.exp2.code 0 = 0x3F800000 ∧ Func.exp2.code 0x80000000 = 0x3F800000 ∧ Func.exp2.code 0x7F800000 = 0x7F800000 ∧
    Func.exp2.code 0xFF800000 = 0) ∧
  (Func.log2.code 0 = 0xFF800000 ∧ Func.log2.code 0x80000000 = 0xFF800000 ∧ Func.log2.code 0x7F800000 = 0x7F800000 ∧
    Func.log2.code 0xFF800000 = 0x7FC00000) ∧
  (Func.sin.code 0 = 0 ∧ Func.sin.code 0x80000000 = 0x80000000 ∧ Func.sin.code 0x7F800000 = 0x7FC00000 ∧
    Func.sin.code 0xFF800000 = 0x7FC00000) ∧
  (Func.cos.code 0 = 0x3F800000 ∧ Func.cos.code 0x80000000 = 0x3F800000 ∧ Func.cos.code 0x7F800000 = 0x7FC00000 ∧
    Func.cos.code 0xFF800000 = 0x7FC00000) ∧
  (∀ k : Nat, (k ≤ 126 → Func.rsq.code (BitVec.ofNat 32 ((2 * k + 1) * 2 ^ 23)) = (190 - k) * 2 ^ 23) ∧
    (k ≤ 10 → Func.rsq.code (BitVec.ofNat 32 (2 ^ (2 * k + 1))) = (201 - k) * 2 ^ 23)) ∧
  (∀ (x : Word) (neg : Bool) (a b : Nat) (n : Int), Fmt.value .fp32 x.toNat = .fin neg a b → (if neg then -(a : Int) else a) = n * b →
    -149 ≤ n → n ≤ 127 → Func.exp2.code x = if -126 ≤ n then (n + 127).toNat * 2 ^ 23 else 2 ^ (n + 149).toNat) ∧
  (∀ k : Nat, (1 ≤ k → k ≤ 254 → Func.log2.code (BitVec.ofNat 32 (k * 2 ^ 23)) = convert .fp32 .rne false 0 (Val.ofInt ((k : Int) - 127))) ∧
    (k ≤ 22 → Func.log2.code (BitVec.ofNat 32 (2 ^ k)) = convert .fp32 .rne false 0 (Val.ofInt ((k : Int) - 149)))) ∧
  Func.log2.code 0x3F800000 = 0 ∧
  (∀ (x : Word) (neg : Bool) (a b : Nat), Fmt.value .fp32 x.toNat = .fin neg a b →
    (∃ m p q, Fmt.value .fp32 (Func.sin.code x) = .fin m p q ∧ p ≤ q) ∧ (∃ m p q, Fmt.value .fp32 (Func.cos.code x) = .fin m p q ∧ p ≤ q)) ∧
  (∀ (x : Word) (a b : Nat), Fmt.value .fp32 x.toNat = .fin false a b → a ≠ 0 →
    (∃ p q, (p - 1) ^ 2 * a ≤ b * q ^ 2 ∧ b * q ^ 2 ≤ (p + 1) ^ 2 * a ∧ 2 ^ 256 ≤ q ∧
      ∃ v, (v = .fin false p q ∨ v = fixedVal refBits ((p * 2 ^ refBits / q : Nat) : Int)) ∧
        NearOr (Func.rsq.code x) ((p * 2 ^ refBits / q : Nat) : Int) (ulps 1 (ulpExp p q)) v) ∧
    (let e := floorLog2 a b
     let m := scaleFrac a b (-e)
     let ref : Int := (e * 2 ^ 256 + log2Fixed m.1 m.2) * 2 ^ 256
     m.1 ≠ m.2 → NearOr (Func.log2.code x) ref
       (if b ≤ 2 * a ∧ a ≤ 2 * b then ulps 1 (-22) else ulps 2 (ulpExp ref.natAbs (2 ^ refBits))) (fixedVal refBits ref))) ∧
  (∀ (x : Word) (neg : Bool) (a b : Nat) (n : Int) (f : Nat), Fmt.value .fp32 x.toNat = .fin neg a b → f < b → f ≠ 0 →
    (if neg then -(a : Int) else a) = n * b + f → -126 ≤ n → n < 128 →
    let ref : Int := (exp2Fixed f b * 2 ^ ((refBits : Int) - 256 + n).toNat : Nat)
    NearOr (Func.exp2.code x) ref (ulps 2 (n - 23)) (fixedVal refBits ref)) ∧
  (∀ (x : Word) (neg : Bool) (a b : Nat), Fmt.value .fp32 x.toNat = .fin neg a b → a ≠ 0 →
    let clamp := fun (v : Int) => max (-(2 : Int) ^ refBits) (min (2 ^ refBits) v)
    let sine := clamp (if neg then -trigFixed false a b else trigFixed false a b)
    let cosine := clamp (trigFixed true a b)
    NearOr (Func.sin.code x) sine (ulps 1 (-22)) (fixedVal refBits sine) ∧
    NearOr (Func.cos.code x) cosine (ulps 1 (-22)) (fixedVal refBits cosine))

/-- R279, R280, R281, R260 to R262: vred writes the reduction of its lanes to w[d] and vscan the inclusive prefixes to the lanes of d: sums,
extremes and bitwise combinations for the eight integer operations, the pairwise tree and the doubling scheme for the floating ones; vbcast,
vshuf in its four forms and vsel rearrange lanes; vdot sums products, exactly for s8 and n8, by the tree for floating formats. Only a
stochastic rounding advances the LFSR, once a node. -/
def Obligations.VectorResults : Prop :=
  ∀ (s : State) (l : Launch) (u : UnitState) (r : Record) (o : VecOp), s.Ready l u r → r.isToken = false → s.accepts l 0 →
    o.len ≠ .one →
    let L := o.lane.bits
    let n := laneCount o.len o.lane
    let x := fun (j : Nat) => r.lane o.a o.lane j
    let y := fun (j : Nat) => r.lane o.b o.lane j
    let mode := fun (op : RedOp) => (redRound op).resolve l.rmode
    let prefixes := ((List.range 7).map fun k => n - 2 ^ k).sum
    (∀ op : RedOp, ∃ r', exec (.vred op o) s = .next (s.passes { u with lfsr := lfsrAfter (mode op) (n - 1) u.lfsr } r r') ∧
      r.KeepsOutside r' o.d.toNat 1 ∧
      let z := (r'.w o.d).toNat
      match op with
      | .add => z = ((List.range n).map x).sum % 2 ^ L
      | .minu => (∃ j, j < n ∧ z = x j) ∧ ∀ j, j < n → z ≤ x j
      | .maxu => (∃ j, j < n ∧ z = x j) ∧ ∀ j, j < n → x j ≤ z
      | .min => (∃ j, j < n ∧ z = x j) ∧ ∀ j, j < n → signedValue L z ≤ signedValue L (x j)
      | .max => (∃ j, j < n ∧ z = x j) ∧ ∀ j, j < n → signedValue L (x j) ≤ signedValue L z
      | .and => ∀ k, z.testBit k = (List.range n).all fun j => (x j).testBit k
      | .or => ∀ k, z.testBit k = (List.range n).any fun j => (x j).testBit k
      | .xor => ∀ k, z.testBit k = decide (((List.range n).filter fun j => (x j).testBit k).length % 2 = 1)
      | op => z = (reduceTree (mode op) (redNode op (mode op) L) id 7 u.lfsr ((List.range n).map x)).1.headD 0 % 2 ^ 32) ∧
    (aligned o.len o.d = true → ∀ op : RedOp,
      ∃ r', exec (.vscan op o) s = .next (s.passes { u with lfsr := lfsrAfter (mode op) prefixes u.lfsr } r r') ∧
        r.LanesBecome r' o.d o.len o.lane fun j z =>
          match op with
          | .add => z = ((List.range (j + 1)).map x).sum % 2 ^ L
          | .minu => (∃ i, i ≤ j ∧ z = x i) ∧ ∀ i, i ≤ j → z ≤ x i
          | .maxu => (∃ i, i ≤ j ∧ z = x i) ∧ ∀ i, i ≤ j → x i ≤ z
          | .min => (∃ i, i ≤ j ∧ z = x i) ∧ ∀ i, i ≤ j → signedValue L z ≤ signedValue L (x i)
          | .max => (∃ i, i ≤ j ∧ z = x i) ∧ ∀ i, i ≤ j → signedValue L (x i) ≤ signedValue L z
          | .and => ∀ k, z.testBit k = (List.range (j + 1)).all fun i => (x i).testBit k
          | .or => ∀ k, z.testBit k = (List.range (j + 1)).any fun i => (x i).testBit k
          | .xor => ∀ k, z.testBit k = decide (((List.range (j + 1)).filter fun i => (x i).testBit k).length % 2 = 1)
          | op => z = (scanFrom (mode op) (redNode op (mode op) L) 7 1 u.lfsr ((List.range n).map x)).1.getD j 0 % 2 ^ L) ∧
    (aligned o.len o.d = true → ∃ r', exec (.vbcast o) s = .next (s.passes u r r') ∧
      r.LanesBecome r' o.d o.len o.lane fun _ z => z = (r.w o.a).toNat % 2 ^ L) ∧
    (aligned o.len o.d = true → ∀ form : ShufForm, ∃ r', exec (.vshuf form o) s = .next (s.passes u r r') ∧
      r.LanesBecome r' o.d o.len o.lane fun j z =>
        match form with
        | .index => z = x (y j % n)
        | .rev => z = x (n - 1 - j)
        | .lo => z = if j % 2 = 0 then x (j / 2) else y ((j - 1) / 2)
        | .hi => z = if j % 2 = 0 then x (n / 2 + j / 2) else y (n / 2 + (j - 1) / 2)) ∧
    (aligned o.len o.d = true → ∃ r', exec (.vsel o) s = .next (s.passes u r r') ∧
      r.LanesBecome r' o.d o.len o.lane fun j z => z = if r.lane o.c o.lane j ≠ 0 then x j else y j) ∧
    (∀ (fmt : Fmt) (round : Round), ∃ r', exec (.vdot fmt o round) s = .next (s.passes
        { u with lfsr := if fmt.floats then lfsrAfter (round.resolve l.rmode) (n - 1) u.lfsr else u.lfsr } r r') ∧
      r.KeepsOutside r' o.d.toNat 1 ∧
      (fmt = .n8 → o.lane = .l8 → (r'.w o.d).toNat = ((List.range n).map fun j => x j * y j).sum) ∧
      (fmt = .s8 → o.lane = .l8 → (r'.w o.d).toInt = ((List.range n).map fun j => signedValue 8 (x j) * signedValue 8 (y j)).sum) ∧
      (fmt.floats = true → (r'.w o.d).toNat = (dotFloat fmt (round.resolve l.rmode) u.lfsr ((List.range n).map x)
        ((List.range n).map y)).1 % 2 ^ 32))

/-- R246, R255, R279, R282, R283, R284: the packed-format operations: vamax, vpack, vunpack, vquant and vmxd. -/
def Obligations.PackedResults : Prop :=
  ∀ (s : State) (l : Launch) (u : UnitState) (r : Record), s.Ready l u r → r.isToken = false → s.accepts l 0 →
    let w := fun (j : Nat) => (r.at j).toNat
    (∀ (ty : FTy) (o : VecOp), o.lane = ty.lane → ∃ r', exec (.vamax ty o) s = .next (s.passes u r r') ∧
      r.KeepsOutside r' o.d.toNat 1 ∧
      let n := laneCount o.len o.lane
      let x := fun (j : Nat) => r.lane o.a o.lane j
      let mag := fun (j : Nat) => x j % 2 ^ (ty.fmt.width - 1)
      if ∃ j, j < n ∧ ty.fmt.value (x j) = .nan then (r'.w o.d).toNat = ty.fmt.nanCode
      else (∃ j, j < n ∧ (r'.w o.d).toNat = mag j) ∧ ∀ j, j < n → mag j ≤ (r'.w o.d).toNat) ∧
    (∀ (fmt : Fmt) (d : Reg) (round : Round) (sat : Bool), fmt ≠ .fp32 → fmt ≠ .e8m0 → destOk 16 fmt.width d = true →
      let mode := round.resolve l.rmode
      (fmt.floats = true → ∃ r', exec (.vpack fmt d 0 round sat) s = .next (s.passes { u with lfsr := lfsrAfter mode 16 u.lfsr } r r') ∧
        r.ElementsBecome r' d 16 fmt.width fun j z =>
          z = convert fmt mode sat (lfsrAfter mode (j + 1) u.lfsr) (Fmt.value .fp32 (w j))) ∧
      (fmt.floats = false → ∃ r', exec (.vpack fmt d 0 round sat) s = .next (s.passes u r r') ∧
        r.ElementsBecome r' d 16 fmt.width fun j z =>
          let v := signedValue 32 (w j)
          if sat = true ∨ fmt = .t2 then fmt.intOf z = max fmt.intRange.1 (min fmt.intRange.2 v) else (z : Int) = v % 2 ^ fmt.width)) ∧
    (∀ (fmt : Fmt), fmt ≠ .fp32 → fmt ≠ .e8m0 →
      ((fmt = .t2 → ∀ j, j < 16 → r.element 0 2 j ≠ 2) →
        ∃ r', exec (.vunpack fmt 0 0) s = .next (s.passes u r r') ∧ r'.rcw = r.rcw ∧ ∀ j, j < 16 →
          if fmt.floats then (r'.at j).toNat = convert .fp32 .rne false 0 (fmt.value (r.element 0 fmt.width j))
          else (r'.at j).toInt = fmt.intOf (r.element 0 fmt.width j)) ∧
      (∀ j, fmt = .t2 → j < 16 → r.element 0 2 j = 2 → (∀ i, i < j → r.element 0 2 i ≠ 2) →
        ∃ t, exec (.vunpack .t2 0 0) s = .next t ∧
          s.TrapsAs t l u r .format (BitVec.ofNat 64 ((u.opBits.extractLsb' 40 8).toNat + 256 * j)) 0)) ∧
    (∀ (fmt : Fmt) (d b : Reg) (round : Round) (sat : Bool), fmt.within 3 13 = true → destOk 16 fmt.width d = true →
      (b.toNat < d.toNat ∨ d.toNat + destWords 16 fmt.width ≤ b.toNat) →
      let mode := round.resolve l.rmode
      let group := quantGroup fmt mode sat u.lfsr ((List.range 16).map fun j => Fmt.value .fp32 (w j))
      ∃ r', exec (.vquant fmt d 0 b round sat) s = .next (s.passes { u with lfsr := lfsrAfter mode 16 u.lfsr } r r') ∧
        r'.rcw = r.rcw ∧ (r'.w b).toNat = group.1 ∧ (∀ j, j < 16 → r'.element d fmt.width j = group.2.1.getD j 0) ∧
        ∀ k, k ≠ b.toNat → (k < d.toNat ∨ d.toNat + destWords 16 fmt.width ≤ k) → r'.at k = r.at k) ∧
    (∀ fmt : Fmt, fmt.within 3 8 = true →
      let elem := fun (j : Nat) => mxValue fmt (w 15 % 256) (r.element 0 fmt.width j)
      (∃ r', exec (.vmxd fmt 0 0 false) s = .next (s.passes u r r') ∧ r'.rcw = r.rcw ∧ ∀ j, j < 16 →
        (r'.at j).toNat = convert .fp32 .rne false 0 (elem (if (r.at 15).getLsbD 8 then 16 + j else j))) ∧
      (∃ r', exec (.vmxd fmt 0 0 true) s = .next (s.passes u r r') ∧ r'.rcw = r.rcw ∧ ∀ j, j < 32 →
        r'.element 0 16 j = convert .bf16 .rne false 0 (elem j)))

/-! ### Routes and routers -/

/-- R19, R79, R154, R155: a record sent by an output port arrives, last in its queue, at the destination of every route of the port, a
control route carrying its EOS bit alone; every other port keeps what it held, and a port without a route discards the record and
counts it in DROPS.
That a record sent stands at once last in the destination's queue is the model's (log 19). -/
def Obligations.RouteDelivery : Prop :=
  ∀ (l : Launch) (x y unit port : Nat) (r : Record), (∀ rt ∈ l.routes, rt.dest.x < 128 ∧ rt.dest.unit < 16) →
    let rs := l.routesOf x y unit port
    let l' := l.sendOne x y unit { port := port, route := none, record := r }
    (∀ dx dy du q, dx < 128 → du < 16 → (l'.unit dx dy du).port q = (l.unit dx dy du).port q ++
      ((rs.filter fun rt => rt.dest == { x := dx, y := dy, unit := du, port := q }).map fun rt => rt.carried r)) ∧
    (∀ dx dy du, dx < 128 → du < 16 → l'.unit dx dy du = { l.unit dx dy du with ins := (l'.unit dx dy du).ins }) ∧
    l' = { l with units := l'.units, drops := l'.drops } ∧
    l'.drops = if rs = [] then l.drops + 1 else l.drops

/-- R68, R71, R264: what the pass of a record leaves, for an operation of one record that does not trace: the record has left in0, the
accumulator and the LFSR are as the operation left them, the result stands at the destination of every route of out0, and nothing
else of the part changes: no memory, no other launch, no field of the unit or of any other unit but the ports the record reaches.
That the result stands at once at the destinations of out0's routes is the model's (log 19). -/
def Obligations.CompletionFrame : Prop :=
  ∀ (s : State) (l : Launch) (v u : UnitState) (r r' : Record), s.here = some (l, v) → v.traces = false → u.ins = v.ins →
    (∀ rt ∈ l.routes, rt.dest.x < 128 ∧ rt.dest.unit < 16) →
    let f := s.focus
    let rs := l.routesOf f.x f.y f.unit 0
    let base := l.setUnit f.x f.y f.unit { v with acc := u.acc, lfsr := u.lfsr, ins := SMap.put v.ins [] 0 ((v.port 0).drop 1) }
    ∃ l', s.passes u r r' = s.setLaunch f.inst l' ∧
      l' = { l with units := l'.units, drops := if rs = [] then l.drops + 1 else l.drops, lastMove := s.now } ∧
      (∀ x y k q, x < 128 → k < 16 → (l'.unit x y k).port q = (base.unit x y k).port q ++
        ((rs.filter fun rt => rt.dest == { x := x, y := y, unit := k, port := q }).map fun rt => rt.carried r')) ∧
      ∀ x y k, x < 128 → k < 16 → l'.unit x y k = { base.unit x y k with ins := (l'.unit x y k).ins }

/-- R155, R156, R157: a steer sends a record by P; a merge takes the only input that holds a record, or of two the one it did not
serve last; a carry sends a loop-back record first, and admits a new one while the loop holds at most L − 2 records. -/
def Obligations.RouterSlots : Prop :=
  ∀ (s : State) (l : Launch) (u : UnitState) (r : Record), s.focus.slot < 2 →
    let in0 := 2 * s.focus.slot
    (∀ inv, s.SlotReady l u in0 r →
      let output := if r.ctl.p = !inv then in0 else in0 + 1
      s.accepts l output → exec (.steer inv) s = .next (s.slotSent l u in0 output r)) ∧
    (s.accepts l in0 →
      let served := if s.focus.slot = 0 then u.slot0.lastIn1 else u.slot1.lastIn1
      (s.SlotReady l u in0 r → (u.port (in0 + 1) = [] ∨ served = true) →
        exec .merge s = .next ((s.slotSent l u in0 in0 r).setServed false)) ∧
      (s.SlotReady l u (in0 + 1) r → (u.port in0 = [] ∨ served = false) →
        exec .merge s = .next ((s.slotSent l u (in0 + 1) in0 r).setServed true)) ∧
      (∀ c, s.SlotReady l u (in0 + 1) r → exec (.carry c) s = .next (s.slotSent l u (in0 + 1) in0 r)) ∧
      (∀ c, s.SlotReady l u in0 r → u.port (in0 + 1) = [] → l.occupancy s.focus.x s.focus.y s.focus.unit s.focus.slot + 2 ≤ c.toNat →
        exec (.carry c) s = .next (s.slotSent l u in0 in0 r)) ∧
      (∀ c, s.here = some (l, u) → u.port (in0 + 1) = [] →
        ¬ l.occupancy s.focus.x s.focus.y s.focus.unit s.focus.slot + 2 ≤ c.toNat → exec (.carry c) s = .next s))

/-! ### Accesses -/

/-- R106: the effective address by the space of the tail.
Where the spec leaves the choice, it is the model's (log 90). -/
def Obligations.EffectiveAddresses : Prop :=
  ∀ (l : Launch) (m : MemRef) (r : Record), m.shiftOk = true →
    let ea := effectiveAddr l m (indexWord m r)
    let idx := if m.shift = 15 then 0 else (r.w m.a).toNat
    ((m.space = .ownTile ∨ m.space = .regionTile) →
      (ea.toNat : Int) = (idx + m.imm8.toInt * m.size.words) % 2 ^ 32) ∧
    ((m.space = .global ∨ m.space = .peer) →
      (ea.toNat : Int) = ((l.base m.base).toNat + idx * 2 ^ (if m.shift = 15 then 0 else m.shift.toNat) +
        m.imm8.toInt * (4 * m.size.words)) % 2 ^ 64)

/-- R106 to R111, R114, R118 to R125, R144: an access element that can take its record begins the access that its operation makes, in
one of its places (eight, one for launch), once the ranges in progress and the requests of the cell's tile leave room; an operation that releases
first writes the cell's dirty lines back.
Where the spec leaves the choice, it is the model's (logs 44, 59). -/
def Obligations.AccessIssue : Prop :=
  ∀ (s : State) (l : Launch) (u : UnitState) (r : Record) (i : Instr) (m : MemRef) (op : HomeOp) (plain : Bool) (loc : Loc) (t : State),
    s.AccessReady l u r i → i.wf = true → homeAccess i r = some (m, op, plain) →
    let ea := effectiveAddr l m (indexWord m r)
    let lane : LaneReq := { lane := 0, addr := ea, loc := loc, op := op, plain := plain }
    IsAt l s.focus.x s.focus.y m m.size.words ea loc → mayIssue l m r i = true →
    (∀ w, rangeKind i = some w → s.clashes u s.focus.inst s.focus.x s.focus.y s.focus.unit [lane.range w] = false) →
    l.roomFor s.focus.x s.focus.y [lane] = true →
    (if releases i then s.releaseWays s.focus.inst s.focus.x s.focus.y (l.requestScope m i) = (true, t) else t = s) →
    exec i s = .next ((t.takeHead.startAccess i m r ea [lane]).noteStep u ((u.port 0).headD r) r)

/-- R107, R108, R113, R96, R118, R145: the traps that an access element takes before anything is sent, with their DETAIL and the
effective address; nothing else changes. The order of the tests is the model's (log 44). R113: a poisoned record traps POISON, before it writes anything, at the stores, the atomics and
cas, fe.set, scatter, copy, bin.app and the page operations; a sink's is with the sinks. -/
def Obligations.AccessTraps : Prop :=
  (∀ (s : State) (l : Launch) (u : UnitState) (r : Record) (i : Instr) (m : MemRef) (op : HomeOp) (plain : Bool),
      s.AccessReady l u r i → i.wf = true → homeAccess i r = some (m, op, plain) →
      let ea := effectiveAddr l m (indexWord m r)
      let n := m.size.words
      let traps := fun (c : Cause) (detail : DWord) => ∃ t, exec i s = .next t ∧ s.TrapsAs t l u r c detail ea
      (isLaunch i = true → l.record.level = 7 → traps .depth 7) ∧
      ((isLaunch i = true → l.record.level ≠ 7) →
        (m.space = .ownTile → 2 ^ 15 ≤ ea.toNat → traps .bound ea) ∧
        (m.space = .regionTile → (2 ^ 28 ≤ ea.toNat ∨ l.has (ea.toNat / 2 ^ 21 % 128) (ea.toNat / 2 ^ 15 % 64) = false) → traps .bound ea) ∧
        (m.space = .ownTile → ea.toNat < 2 ^ 15 → ea.toNat % n ≠ 0 → traps .misalign (m.size.code.zeroExtend 64)) ∧
        (m.space = .regionTile → ea.toNat < 2 ^ 28 → l.has (ea.toNat / 2 ^ 21 % 128) (ea.toNat / 2 ^ 15 % 64) = true → ea.toNat % n ≠ 0 →
          traps .misalign (m.size.code.zeroExtend 64)) ∧
        ((m.space = .global ∨ m.space = .peer) → ea.toNat % (4 * n) ≠ 0 → traps .misalign (m.size.code.zeroExtend 64)) ∧
        ((m.space = .global ∨ m.space = .peer) → ea.toNat % (4 * n) = 0 → 2 ^ 52 ≤ ea.toNat → traps .noncanon 0) ∧
        (∀ loc d b, IsAt l s.focus.x s.focus.y m n ea loc → i = .stvN d b m →
          ((r.w b).extractLsb' 8 12 = 0 → traps .illegal 3) ∧
          ((r.w b).extractLsb' 8 12 ≠ 0 → m.space = .global → l.record.quota = 0 → traps .illegal 9)))) ∧
  (∀ (s : State) (l : Launch) (u : UnitState) (r r0 : Record) (rest : List Record) (i : Instr) (code : BitVec 3) (m : MemRef),
      s.here = some (l, u) → l.takes u = true → u.port 0 = r0 :: rest → r0.isToken = false → breakpoint u r0 = some r →
      u.busy i < placesOf i → memRefOf i = some (code, m) → stopsPoison i = true → r.ctl.poison = true →
      ∃ t, exec i s = .next t ∧
        s.TrapsAs t l u r .poison ((u.opBits.extractLsb' 40 8).zeroExtend 64) (effectiveAddr l m (indexWord m r)))

/-- R127, R128, R125, R126: gather and scatter make one access for each lane that is not skipped, in lane order, all checked first;
pref asks for its line, or for nothing where its address would trap; fence makes no access, its release first writes the cell's lines back.
Where the spec leaves the choice, it is the model's (logs 82, 109). -/
def Obligations.LaneIssue : Prop :=
  ∀ (s : State) (l : Launch) (u : UnitState) (r : Record) (m : MemRef),
    let f := s.focus
    let ea := fun (w : Word) => effectiveAddr l m w
    let begun := fun (t : State) (i : Instr) (m : MemRef) (a : DWord) (lanes : List LaneReq) =>
      (t.takeHead.startAccess i m r a lanes).noteStep u ((u.port 0).headD r) r
    (∀ (sync : Sync) (loc : Nat → Loc), s.AccessReady l u r (.gather sync m) →
      let lanes : List LaneReq := ((List.range 16).filter fun i => r.at i != 0xFFFFFFFF).map fun i =>
        { lane := i, addr := ea (r.at i), loc := loc i, op := .load sync 1, plain := sync == .plain }
      (∀ i, i < 16 → r.at i ≠ 0xFFFFFFFF → IsAt l f.x f.y m 1 (ea (r.at i)) (loc i)) →
      s.clashes u f.inst f.x f.y f.unit (lanes.map (·.range false)) = false → l.roomFor f.x f.y lanes = true →
      exec (.gather sync m) s = .next (begun s (.gather sync m) m ((lanes.head?.map (·.addr)).getD 0) lanes)) ∧
    (∀ (sync : Sync) (loc : Nat → Loc) (t : State), s.AccessReady l u r (.scatter sync m) →
      let lanes : List LaneReq := ((List.range 8).filter fun i => r.at (2 * i) != 0xFFFFFFFF).map fun i =>
        { lane := i, addr := ea (r.at (2 * i)), loc := loc i, op := .store sync [r.at (2 * i + 1)], plain := sync == .plain }
      (∀ i, i < 8 → r.at (2 * i) ≠ 0xFFFFFFFF → IsAt l f.x f.y m 1 (ea (r.at (2 * i))) (loc i)) →
      s.clashes u f.inst f.x f.y f.unit (lanes.map (·.range true)) = false → l.roomFor f.x f.y lanes = true →
      (if releases (.scatter sync m) then s.releaseWays f.inst f.x f.y (l.requestScope m (.scatter sync m)) = (true, t) else t = s) →
      exec (.scatter sync m) s = .next (begun t (.scatter sync m) m ((lanes.head?.map (·.addr)).getD 0) lanes)) ∧
    (s.AccessReady l u r (.pref m) → (Instr.pref m).wf = true →
      let a := ea (indexWord m r)
      let lane := fun (loc : Loc) => ({ lane := 0, addr := a, loc := loc, op := .line none, plain := false } : LaneReq)
      (∀ loc, IsAt l f.x f.y m 1 a loc → l.roomFor f.x f.y [lane loc] = true → exec (.pref m) s = .next (begun s (.pref m) m a [lane loc])) ∧
      ((∀ loc, ¬ IsAt l f.x f.y m 1 a loc) → exec (.pref m) s = .next (begun s (.pref m) m a []))) ∧
    (∀ (o : Order) (sc : Scope) (t : State), s.AccessReady l u r (.fence o sc) →
      (if o = .rel ∨ o = .ar then s.releaseWays f.inst f.x f.y (l.scope sc) = (true, t) else t = s) →
      exec (.fence o sc) s = .next (begun t (.fence o sc) (fenceRef sc) 0 []))

/-- R110, R111, R164, R174, R341: an access begun holds a place of its element, and its request, with the part's next number, stands
last on its way to its home: the slice of a global address, the own cell's tile in issue order, another cell's tile over the
network, or the die's controller for a peer address; memory is as it was. Not the accesses that the cell's ways serve. That a request to the
own cell's tile waits in the tile's network list while its banks are closed or earlier own requests stand before it is the model's (log 53),
and so is the request number, which has no bound (log 114). -/
def Obligations.AccessIsSent : Prop :=
  ∀ (s : State) (l : Launch) (u : UnitState) (i : Instr) (m : MemRef) (r : Record) (ea : DWord) (q : LaneReq),
    s.here = some (l, u) → l.wayServed s.focus.x s.focus.y m q.plain = false →
    let f := s.focus
    let t := s.startAccess i m r ea [q]
    let rq : Req := { mkReq (.access f.inst f.x f.y f.unit u.nextId q.lane) l.record.space q.loc q.op (l.requestScope m i) f.inst (f.x, f.y)
                        (l.dieOf f.x f.y) with seq := s.reqSeq }
    t.mem = s.mem ∧ t.reqSeq = s.reqSeq + 1 ∧
    (∃ l' a, t.launch? f.inst = some l' ∧ l'.unit f.x f.y f.unit = { u with flight := u.flight ++ [a], nextId := u.nextId + 1 } ∧
      a.id = u.nextId ∧ a.record = r ∧ a.op = i ∧ a.lanes = [{ lane := q.lane, addr := q.addr, reply := none }]) ∧
    match q.loc with
    | .glob va => (t.slice (s.homeSlice va.toNat)).reqs = (s.slice (s.homeSlice va.toNat)).reqs ++ [rq]
    | .tile x y _ => ∃ l', t.launch? f.inst = some l' ∧
        (if x = f.x ∧ y = f.y ∧ (∀ b ∈ rq.banks, NSet.has (l.tile x y).closed b = false) ∧
            (∀ older ∈ (l.tile x y).network, rq.behind older = false) ∧ (l.tile x y).reqs.length < 32 then
          (l'.tile x y).reqs = (l.tile x y).reqs ++ [rq] ∧ (l'.tile x y).network = (l.tile x y).network
        else (l'.tile x y).network = (l.tile x y).network ++ [rq] ∧ (l'.tile x y).reqs = (l.tile x y).reqs)
    | .peer va => (t.die (vaDie va.toNat)).walkQ = (s.die (vaDie va.toNat)).walkQ ++ [{ slice := 0, req := rq }]

/-- R96, R110, R111, R115, R205, R222: an access that has all its replies, none a trap, leaves its element, behind no other that was complete
before it, and its record, with the words and P as the replies make them, goes out by out0; where it acquired, the cell's clean lines go. One of
which a lane trapped stays in its place, its trap in the controller's queue with the record as it arrived. A launch that has read its record
queues its child, LEVEL one above its own and SYSTEM clear, as soon as the queue of 256 of the element's die has room, whether or not the
record can leave.
Where the spec leaves the choice, it is the model's (log 58). -/
def Obligations.AccessCompletion : Prop :=
  ∀ (s : State) (inst x y unit id : Nat) (l : Launch) (a : Access), s.launch? inst = some l → l.acts = true →
    let u := l.unit x y unit
    u.flight.find? (fun b => b.id == id) = some a → a.trapped = false → a.answered = true → (a.record.isToken = false ∨ a.lanes ≠ []) →
    (∀ q ∈ a.lanes, q.line? = none) →
    let foremost := ∀ b ∈ u.flight.takeWhile (fun b => b.id != id), b.leavesInOrder = false
    let noneReturns := ∀ e ∈ l.kennel.entries, ∀ b, e.x = x → e.y = y → e.unit = unit → e.access = some b → b.answered = false
    (leavesPlainly a.op = true → a.leaves = none → a.trap? = none → foremost → l.canSend x y unit [out0 a.result] = true →
      ∃ t l', exec (.accessComplete inst x y unit id) s = .next (if a.acquired then t.acquireWays inst x y (leavingScope l a.op) else t) ∧
        t.launch? inst = some l' ∧ l'.lastMove = s.now ∧
        let sent := l.send x y unit [out0 a.result]
        l'.drops = sent.drops ∧ (u.fields ≠ UnitState.reset.fields → ∀ cx cy k, (l'.unit cx cy k).ins = (sent.unit cx cy k).ins) ∧
        (noneReturns → (l.wayBanks x y = [] ∨ ∀ q ∈ a.lanes, storeData a.op a.record q.lane = none) →
          l'.units = (sent.setUnit x y unit { sent.unit x y unit with flight := u.flight.filter (fun b => b.id != id),
                                                                      resume := u.resume.filter (fun b => b.id != id) }).units)) ∧
    (leavesPlainly a.op = true → ∀ c d ad, a.trap? = some (c, d, ad) →
      ∃ t l', exec (.accessComplete inst x y unit id) s = .next t ∧ t = s.setLaunch inst l' ∧
        l'.trapQ = l.trapQ ++ [{ cause := c, detail := d, addr := ad, record := a.arrived, x := x, y := y, unit := unit, block := u.block,
                                 opIndex := u.opIndex, holder := .access id }] ∧
        (l'.unit x y unit).flight.map (fun b => (b.id, b.record, b.trapped)) =
          u.flight.map fun b => (b.id, b.record, b.trapped || b.id == id)) ∧
    (∀ m, a.op = .launch m → a.trap? = none → foremost → l.dieOf x y < 4 →
      let children := fun (t : State) => (t.die (l.dieOf x y)).children
      (a.queued = false → 256 ≤ (children s).length → exec (.accessComplete inst x y unit id) s = .next s) ∧
      (a.queued = false → (children s).length < 256 →
        ∃ t c, exec (.accessComplete inst x y unit id) s = .next t ∧ children t = children s ++ [c] ∧
          c.record = { LaunchRec.ofWords a.words with level := l.record.level + 1, system := false } ∧ c.addr = a.ea ∧ c.parent = l.inst ∧
          c.parentSpace = l.record.space) ∧
      (a.queued = true → ∀ t, exec (.accessComplete inst x y unit id) s = .next t → children t = children s) ∧
      (a.queued = true ∨ (children s).length < 256 → l.canSend x y unit [out0 (launchSent a)] = true →
        ∃ t l', exec (.accessComplete inst x y unit id) s = .next t ∧ t.launch? inst = some l' ∧
          (u.fields ≠ UnitState.reset.fields →
            (∀ cx cy k, (l'.unit cx cy k).ins = ((l.send x y unit [out0 (launchSent a)]).unit cx cy k).ins) ∧
            (noneReturns → ∀ b ∈ (l'.unit x y unit).flight, b.id ≠ id))))

/-- R113, R115, R119, R121, R122, R124, R127, R144: the record that an answered access sends: a load's words from d, P of the testing forms, an
atomic's old value, cas's P, the states and flags of fe.get, a gather's lanes, 0 for a skipped one; POISON where a word could not be corrected;
0 and POISON for an atomic or cas that retired into the side log. Every other word is as it was.
P of a tested store that retired into the side log is the model's (log 126). -/
def Obligations.AccessRecords : Prop :=
  (∀ (a : Access) (d b : Reg) (o : Order) (sync : Sync) (m : MemRef) (lane : LaneState), a.lanes = [lane] →
    let r := a.record
    let r' := a.result
    let holds := fun (at_ : Nat) (ws : List Word) => (∀ i, i < ws.length → r'.at (at_ + i) = ws.getD i 0) ∧
      ∀ k, k < at_ ∨ at_ + ws.length ≤ k → r'.at k = r.at k
    let atomics : List Instr := [.atomAdd d b o m, .atomSub d b o m, .atomMin d b o m, .atomMax d b o m, .atomAnd d b o m, .atomOr d b o m,
      .atomXor d b o m, .atomSwap d b o m, .atomIncw d b o m, .atomFaddF32 d b o m, .atomFaddBf16x2 d b o m, .atomFmax d b o m]
    (∀ ws fs held poison, lane.reply = some (.ok ws fs held poison) →
      let ctl := { r.ctl with poison := r.ctl.poison || poison }
      (d.toNat + ws.length ≤ 16 →
        (sync ≠ .tc → a.op ∈ [.ld d sync m, .ldv d sync m, .ldvN d b m] ++ atomics → holds d.toNat ws ∧ r'.ctl = ctl) ∧
        (held = true → a.op ∈ [.ld d .tc m, .ldv d .tc m] → holds d.toNat ws ∧ r'.ctl = { ctl with p := true }) ∧
        (a.op = .cas d b o m → holds d.toNat ws ∧ r'.ctl = { ctl with p := held }) ∧
        (a.op = .cfg d b m → holds d.toNat ws ∧ r'.ctl = r.ctl)) ∧
      (ws.length ≤ 16 → a.op = .src sync m → holds 0 ws ∧ r'.ctl = ctl) ∧
      (held = false → a.op ∈ [.ld d .tc m, .ldv d .tc m] → r'.words = r.words ∧ r'.ctl = { r.ctl with p := false }) ∧
      (a.op ∈ [.st d .tf m, .stv d .tf m] → r'.words = r.words ∧ r'.ctl = { r.ctl with p := held }) ∧
      (sync ≠ .tf → a.op ∈ [.st d sync m, .stv d sync m, .stvN d b m, .dropN b m, .feSet held m] → r' = r) ∧
      (a.op = .feGet d m → fs.length ≤ 16 → (ws.getD 0 0).toNat < 4 →
        (∀ k, k < 16 → (r'.w d).getLsbD k = fs.getD k false) ∧ (r'.w d).getLsbD 16 = (ws.getD 0 0).getLsbD 0 ∧
          (r'.w d).getLsbD 17 = (ws.getD 0 0).getLsbD 1 ∧ (∀ k, 18 ≤ k → (r'.w d).getLsbD k = false) ∧ r.KeepsOutside r' d.toNat 1)) ∧
    (lane.reply = some .logged →
      let zeros := List.replicate m.size.words (0 : Word)
      (d.toNat + m.size.words ≤ 16 →
        (a.op ∈ atomics → holds d.toNat zeros ∧ r'.ctl = { r.ctl with poison := true }) ∧
        (a.op = .cas d b o m → holds d.toNat zeros ∧ r'.ctl = { r.ctl with poison := true, p := false })) ∧
      (a.op ∈ [.st d .tf m, .stv d .tf m] → r'.words = r.words ∧ r'.ctl = { r.ctl with p := false }) ∧
      (sync ≠ .tf → ∀ full, a.op ∈ [.st d sync m, .stv d sync m, .feSet full m] → r' = r))) ∧
  (∀ (a : Access) (sync : Sync) (m : MemRef),
    (a.op = .scatter sync m → a.result = a.record) ∧
    (a.op = .gather sync m →
      (∀ (before after : List LaneState) (q : LaneState) (ws : List Word) (fs : List Bool) (held poison : Bool),
        a.lanes = before ++ q :: after → (∀ b ∈ before, b.lane ≠ q.lane) → q.reply = some (.ok ws fs held poison) → q.lane < 16 →
        a.result.at q.lane = ws.getD 0 0) ∧
      (∀ i, i < 16 → (∀ q ∈ a.lanes, q.lane ≠ i) → a.result.at i = 0) ∧
      a.result.ctl = { a.record.ctl with
        poison := a.record.ctl.poison || a.lanes.any fun q => match q.reply with | some (.ok _ _ _ poison) => poison | _ => false }))

/-! ### Homes -/

/-- R115: each load and store form, at a granule that holds no counted state and no uncorrectable word, is one step over all its words:
it reads or writes them, tests and changes their full/empty bits, or waits. -/
def Obligations.SyncForms : Prop :=
  ∀ (v : View) (pos n : Nat) (data : List Word), v.counted = none → v.words.length = 16 → v.full.length = 16 → v.bad = List.replicate 16 false →
    pos + n ≤ 16 → data.length = n → 0 < n →
    let words := (v.words.drop pos).take n
    let bits := (v.full.drop pos).take n
    let allFull := ∀ b ∈ bits, b = true
    let allEmpty := ∀ b ∈ bits, b = false
    let read := Reply.ok words bits true false
    let stored : List Word := v.words.take pos ++ data ++ v.words.drop (pos + n)
    let marked := fun (b : Bool) => v.full.take pos ++ List.replicate n b ++ v.full.drop (pos + n)
    v.perform pos (.load .plain n) = .done v read false false false .none ∧
    (allFull → v.perform pos (.load .w n) = .done v read false true false .none) ∧
    (¬ allFull → v.perform pos (.load .w n) = .wait) ∧
    (allFull → v.perform pos (.load .c n) = .done { v with full := marked false } read true true false .none) ∧
    (¬ allFull → v.perform pos (.load .c n) = .wait) ∧
    (allFull → v.perform pos (.load .tc n) = .done { v with full := marked false } read true true false .none) ∧
    (¬ allFull → v.perform pos (.load .tc n) = .done v (.ok [] [] false false) false false false .none) ∧
    v.perform pos (.store .plain data) = .done { v with words := stored } (.ok [] [] true false) false false false .none ∧
    (allEmpty → v.perform pos (.store .f data) = .done { v with words := stored, full := marked true } (.ok [] [] true false) true false true .none) ∧
    (¬ allEmpty → v.perform pos (.store .f data) = .wait) ∧
    (allEmpty → v.perform pos (.store .tf data) = .done { v with words := stored, full := marked true } (.ok [] [] true false) true false true .none) ∧
    (¬ allEmpty → v.perform pos (.store .tf data) = .done v (.ok [] [] false false) false false false .none) ∧
    (∃ changed, v.perform pos (.store .s data) =
      .done { v with words := stored, full := marked true } (.ok [] [] true false) changed false true .none) ∧
    (∀ full, ∃ changed, v.perform pos (.feSet full n) = .done { v with full := marked full } (.ok [] [] true false) changed false full .none) ∧
    v.perform pos (.feGet n) = (if v.xbank.isSome then .done v (.ok [] (List.replicate n true) false false) false false false .none
      else .done v (.ok [] bits false false) false false false .none)

/-- R121, R122: each atomic at a word that holds no counted state writes the value of the table and returns the old one; cas writes the
new value, and its test holds, where the old value is the expected one. -/
def Obligations.AtomicResults : Prop :=
  ∀ (v : View) (pos : Nat) (x expected new : Word), v.counted = none → v.words.length = 16 → v.bad = List.replicate 16 false → pos < 16 →
    let m := v.words.getD pos 0
    let becomes := fun (op : HomeOp) (w : Word) (held : Bool → Prop) => ∃ changed h, held h ∧
      v.perform pos op = .done { v with words := v.words.set pos w } (.ok [m] [] h false) changed false false .none
    let atom := fun (opcode : BitVec 8) (w : Word) => becomes (.atom opcode false (x.zeroExtend 64) .relaxed) w fun _ => True
    atom 0x84 (m + x) ∧ atom 0x85 (m - x) ∧
    (∃ w, w.toInt = min m.toInt x.toInt ∧ atom 0x86 w) ∧ (∃ w, w.toInt = max m.toInt x.toInt ∧ atom 0x87 w) ∧
    atom 0x88 (m &&& x) ∧ atom 0x89 (m ||| x) ∧ atom 0x8A (m ^^^ x) ∧ atom 0x8B x ∧
    atom 0x8C (if m.toNat ≥ x.toNat then 0 else m + 1) ∧
    atom 0x8D (BitVec.ofNat 32 (fpAdd .fp32 m.toNat x.toNat)) ∧
    atom 0x8E (BitVec.ofNat 16 (fpAdd .bf16 (m.toNat / 2 ^ 16) (x.toNat / 2 ^ 16)) ++
      BitVec.ofNat 16 (fpAdd .bf16 (m.toNat % 2 ^ 16) (x.toNat % 2 ^ 16))) ∧
    atom 0x8F (BitVec.ofNat 32 (fpMax .fp32 m.toNat x.toNat)) ∧
    becomes (.cas false (expected.zeroExtend 64) (new.zeroExtend 64) .relaxed) (if m = expected then new else m) fun h =>
      h = decide (m = expected)

/-- R118, R119, R120, R191, R192: counted granules. At a slice a fill makes an absent granule resident with its readers, mode and generation,
queues where the quota has no room, and waits while one is resident. A counted read of the resident generation returns the sixteen words and
takes one reader away, in mask mode the one that it names; the last one ends the residency. A reader whose bit is clear, and a generation in
the drop history, trap OVERREAD; an index from 12 to 15 in mask mode traps ILLEGAL, sub-cause 3; any other read waits. drop.n does the same
and reads nothing. Other loads read the sixteen words uncounted, and .c, stores, atomics, cas and fe.set trap ILLEGAL, sub-cause 4. At a tile
the row is the granule: a fill waits for sixteen empty words, the last reader leaves them empty with the generation kept, and a read of a row
that is empty traps OVERREAD where that generation was its last.
That a row drained in mask mode reports its reader is the model's (log 92). -/
def Obligations.CountedResults : Prop :=
  ∀ (v : View) (pos : Nat) (control : Word) (data : List Word), v.normal = true →
    let gen := control.extractLsb' 0 8
    let readers := control.extractLsb' 8 12
    let reader := control.extractLsb' 8 4
    let mask := control.getLsbD 20
    let read := fun (ws : List Word) (poison : Bool) => Reply.ok ws (List.replicate 16 true) true poison
    let both := fun (p : Perf) => v.perform pos (.count control) = p ∧ v.perform pos (.done control) = p
    let overread := fun (named history : Bool) => Perf.trap .overread (BitVec.ofNat 64
      (gen.toNat + (if named then 256 * reader.toNat + 4096 else 0) + (if history then 8192 else 0)))
    let counts := fun (c : Counted) (left : BitVec 12) (gone : View) (reply : Reply) =>
      v.perform pos (.count control) = (if left = 0 then .done gone reply true true false (.dropped gen c.maskMode)
        else .done { v with counted := some { c with readers := left } } reply true true false .counted) ∧
      v.perform pos (.done control) = (if left = 0 then .done gone (.ok [] [] true false) true false false (.dropped gen c.maskMode)
        else .done { v with counted := some { c with readers := left } } (.ok [] [] true false) true false false .counted)
    (∀ c, v.counted = some c → c.gen = gen → c.maskMode = true →
      (12 ≤ reader.toNat → both (.trap .illegal 3)) ∧
      (reader.toNat < 12 → c.readers.getLsbD reader.toNat = false → both (overread true false))) ∧
    (v.tile = false →
      (v.counted = none → v.room = true → v.perform pos (.fill control data) =
        .done { v with counted := some { words := data, readers := readers, maskMode := mask, gen := gen } } (.ok [] [] true false)
          true false true (.filled gen)) ∧
      (v.counted = none → v.room = false → v.perform pos (.fill control data) = .quota) ∧
      (∀ c, v.counted = some c → v.perform pos (.fill control data) = .wait) ∧
      (∀ c, v.counted = some c → c.words.length = 16 → c.gen = gen →
        (c.maskMode = false → counts c (c.readers - 1) { v with counted := none } (read c.words false)) ∧
        (c.maskMode = true → reader.toNat < 12 → c.readers.getLsbD reader.toNat = true →
          ∃ left : BitVec 12, (∀ k, k < 12 → left.getLsbD k = (c.readers.getLsbD k && decide (k ≠ reader.toNat))) ∧
            counts c left { v with counted := none } (read c.words false))) ∧
      (v.counted = none ∨ (∃ c, v.counted = some c ∧ c.gen ≠ gen) →
        ((∀ d ∈ v.dropped, d.1 ≠ gen) → both .wait) ∧
        (∀ before after named, v.dropped = before ++ (gen, named) :: after → (∀ d ∈ before, d.1 ≠ gen) → both (overread named true))) ∧
      (∀ c n sync, v.counted = some c → c.words.length = 16 → pos + n ≤ 16 → sync ≠ .c → v.perform pos (.load sync n) =
        .done v (.ok ((c.words.drop pos).take n) (List.replicate n true) true false) false (sync == .w || sync == .tc) false .none)) ∧
    (∀ c n sync opcode pair x y o full, v.counted = some c →
      (v.perform pos (.load .c n) = .trap .illegal 4 ∧ v.perform pos (.store sync data) = .trap .illegal 4 ∧
        v.perform pos (.atom opcode pair x o) = .trap .illegal 4 ∧ v.perform pos (.cas pair x y o) = .trap .illegal 4 ∧
        v.perform pos (.feSet full n) = .trap .illegal 4)) ∧
    (v.tile = true →
      ((∃ b ∈ v.full, b = true) → v.perform pos (.fill control data) = .wait) ∧
      ((∀ b ∈ v.full, b = false) → v.perform pos (.fill control data) =
        .done { v with counted := some { words := data, readers := readers, maskMode := mask, gen := gen }, words := data,
                       full := List.replicate 16 true, rowGen := gen, rowMask := mask, bad := List.replicate 16 false } (.ok [] [] true false)
          true false true (.filled gen)) ∧
      (∀ c, v.counted = some c → c.gen = gen → c.words.length = 16 → v.bad.length = 16 →
        let gone := { v with counted := none, full := List.replicate 16 false, rowGen := gen, rowMask := c.maskMode }
        let words := c.words.zipWith (fun w bad => if bad then 0 else w) v.bad
        (c.maskMode = false → counts c (c.readers - 1) gone (read words (v.bad.any id))) ∧
        (c.maskMode = true → reader.toNat < 12 → c.readers.getLsbD reader.toNat = true →
          ∃ left : BitVec 12, (∀ k, k < 12 → left.getLsbD k = (c.readers.getLsbD k && decide (k ≠ reader.toNat))) ∧
            counts c left gone (read words (v.bad.any id)))) ∧
      (∀ c, v.counted = some c → c.gen ≠ gen → v.dropped = [] → both .wait) ∧
      (v.counted = none →
        ((∀ b ∈ v.full, b = false) → v.rowGen = gen → both (overread v.rowMask false)) ∧
        ((∃ b ∈ v.full, b = true) ∨ v.rowGen ≠ gen → both .wait)))

/-- R164, R170, R174, R163, R310: the tile's buffer. A request of the buffer is served at its bank when no older one needs one of its banks;
the network's next request is taken into a buffer of 32 places, the own cell's in the order they were made, none for a bank that a commit
has closed. R182, R183, R326, R333, R343: a request at its slice: caught by a switch of domains, forwarded to its home under the live map,
answered from the reply cache, sent to be translated, or served.
Where the spec leaves the choice, it is the model's (logs 53, 55). -/
def Obligations.HomesServe : Prop :=
  (∀ (s : State) (inst x y k : Nat) (l : Launch) (rq : Req), s.launch? inst = some l →
      let t := l.tile x y
      let h := Home.tile inst x y
      (t.reqs[k]? = some rq → (∀ b ∈ rq.banks, ∀ older ∈ t.reqs.take k, b ∉ older.banks) → s.walkHolds h rq.key = false →
        s.parkOwes h rq.key = false →
        let rest := s.modTile inst x y fun t => { t with reqs := t.reqs.eraseIdx k }
        (∀ r, rest.savedReply h rq = some r → exec (.tileRequestServe inst x y k) s = .next (rest.deliver rq r)) ∧
        (rest.savedReply h rq = none →
          (∀ there, rest.tileForm l rq = some there → exec (.tileRequestServe inst x y k) s = .next (rest.serveAt h there)) ∧
          (rest.tileForm l rq = none → exec (.tileRequestServe inst x y k) s = .next (rest.deliver rq (.trap .illegal 5 0))))) ∧
      (∀ j, k = t.reqs.length + j → t.network[j]? = some rq → t.reqs.length < 32 → rq.retryAt ≤ s.now →
        (∀ r ∈ t.network.take j, rq.behind r = false) → (∀ b ∈ rq.banks, NSet.has t.closed b = false) →
        exec (.tileRequestServe inst x y k) s =
          .next (s.modTile inst x y fun t => { t with reqs := t.reqs ++ [rq], network := t.network.eraseIdx j }))) ∧
  (∀ (s : State) (sl k : Nat) (rq : Req), (s.slice sl).reqs[k]? = some rq →
      let x := s.slice sl
      let h := Home.slice sl
      let rest := s.setSlice sl { x with reqs := x.reqs.eraseIdx k }
      let home := s.homeSlice rq.va
      (∀ r ∈ x.reqs.take k, r.granule ≠ rq.granule ∨ (r.party.sameAccess rq.party = false ∧ r.first = false)) → s.replaysAfter rq = false →
      (s.caught? rq.va = true → exec (.sliceRequestServe sl k) s = .next (rest.catchReq rq)) ∧
      (s.caught? rq.va = false →
        (home ≠ sl → exec (.sliceRequestServe sl k) s = .next (rest.setSlice home
          { rest.slice home with reqs := (rest.slice home).reqs ++ [{ rq with forwarded := true }] })) ∧
        (home = sl →
          (∀ r, s.savedReply h rq = some r → exec (.sliceRequestServe sl k) s = .next (rest.deliver rq r)) ∧
          (s.savedReply h rq = none → s.fillHolds h rq.granule = false → x.placeHolds rq.granule = false →
            s.walkHolds h rq.granule = false → s.parkOwes h rq.granule = false →
            (s.needsWrite h rq = true → exec (.sliceRequestServe sl k) s = .next (rest.askWalk sl rq)) ∧
            (s.needsWrite h rq = false → exec (.sliceRequestServe sl k) s = .next (rest.serveAt h rq))))))

/-- R124, R182, R183, R184, R186, R204, R209: at its home a request whose condition holds is performed as one step: the granule becomes what the
operation makes of it, and reads back so, its release is recorded, its reply sent, fe.get's with its two flags, and a drop at a slice gives its
quota place on; an acquire whose scope leaves the last releaser out traps SCOPE instead. Where the state changed, a walk follows at a parked
granule, and the satisfying pass: the oldest waiter that waits no longer is performed and leaves, again and again. A record whose condition
does not hold waits in the home's buffer, last, with its arrival counted; it parks where the granule is parked, and with all the granule's
records where the buffer is full. An engine that finds the buffer full is refused, and presented again after 64 cycles.
Where the spec leaves the choice, it is the model's (log 74). -/
def Obligations.HomePerforms : Prop :=
  ∀ (s : State) (h : Home) (rq : Req) (v : View), s.viewAt h rq.key rq.inst = some v → (∀ st, rq.op ≠ .line st) →
    (∀ v' r changed acq rel ev, v.perform rq.word rq.op = .done v' r changed acq rel ev →
      (∀ x, acq = true → s.releaseAt h rq.key = some x → rq.includes x = true) →
      let written := s.setViewAt h rq.key rq.inst v v' ev
      let released := if rel then written.setReleaseAt h rq.key rq else written
      ((∀ n, rq.op ≠ .feGet n) → (∀ gen mask sl, ev = .dropped gen mask → h ≠ .slice sl) →
        s.tryPerform h rq = some (released.answer h rq r, changed)) ∧
      (∀ gen mask sl g, (∀ n, rq.op ≠ .feGet n) → ev = .dropped gen mask → h = .slice sl → SMap.get? (s.slice sl).granules rq.key = some g →
        s.tryPerform h rq = some ((released.holdPlace sl g.inst).answer h rq r, changed)) ∧
      (∀ n fs held poison, rq.op = .feGet n → r = .ok [] fs held poison →
        ∃ w : Word, w.getLsbD 0 = v.counted.isSome ∧ w.getLsbD 1 = s.parkedAt h rq.key ∧ (∀ k, 2 ≤ k → w.getLsbD k = false) ∧
          s.tryPerform h rq = some (released.answer h rq (.ok [w] fs held poison), changed)) ∧
      (s.HoldsWhole h rq.key → v'.words.length = 16 → v'.full.length = 16 → v'.bad.length = 16 →
        ∃ w, written.viewAt h rq.key rq.inst = some w ∧ w.words = v'.words ∧ w.full = v'.full ∧ w.bad = v'.bad)) ∧
    (∀ v' r changed rel ev x, v.perform rq.word rq.op = .done v' r changed true rel ev → s.releaseAt h rq.key = some x → rq.includes x = false →
      s.tryPerform h rq = some (s.answer h rq (.trap .scope (scopeDetail rq x) (BitVec.ofNat 64 rq.va)), false)) ∧
    (∀ c d, v.perform rq.word rq.op = .trap c d →
      s.tryPerform h rq = some (s.answer h rq (.trap c d (BitVec.ofNat 64 rq.va)), false)) ∧
    (∀ s' changed, s.tryPerform h rq = some (s', changed) →
      let after := s'.afterServe h rq.key changed (s.isPresented rq) v
      s.serveAt h rq = match h with
        | .slice sl => after.settleLine sl rq.space rq.va
        | .tile _ _ _ => after) ∧
    (∀ (t : State) (key : Nat) (walked : Bool),
      let pass := fun (t : State) => State.satisfy h key (t.waiters h).length t
      t.afterServe h key false walked v = t ∧
      (t.parkedAt h key = false → t.afterServe h key true walked v = pass t) ∧
      (t.parkedAt h key = true → (∀ w ∈ t.walks h, w.granule ≠ key) →
        t.afterServe h key true walked v =
          pass (t.setWalks h (t.walks h ++ [{ granule := key, collected := false, todo := [], robbed := [], again := false }]))) ∧
      (t.parkedAt h key = true → (∃ w ∈ t.walks h, w.granule = key) →
        let noted := if walked then t else t.noteLosses h key (some v)
        t.afterServe h key true walked v =
          pass (noted.setWalks h ((noted.walks h).map fun w => if w.granule == key then { w with again := true } else w))) ∧
      ∀ n : Nat,
        ((∀ r ∈ t.waiters h, ¬ t.Stirs h key r) → State.satisfy h key (n + 1) t = t) ∧
        (∀ before r later t' c, t.waiters h = before ++ r :: later → (∀ b ∈ before, ¬ t.Stirs h key b) → t.Stirs h key r →
          let out := t.setWaiters h ((t.waiters h).filter fun w => w.seq != r.seq)
          out.needsWrite h r = false → out.tryPerform h r = some (t', c) →
          State.satisfy h key (n + 1) t = State.satisfy h key n (t'.noteLosses h key (out.viewAt h key r.inst)))) ∧
    (v.perform rq.word rq.op = .wait →
      let came := (s.arrive h rq).1
      let waiter := { rq with arrival := s.arrivalsAt h, since := s.now }
      let t := s.serveAt h rq
      (s.arrive h rq).2 = waiter ∧ came.arrivalsAt h = s.arrivalsAt h + 1 ∧ came.waiters h = s.waiters h ∧ came.mem = s.mem ∧
      s.tryPerform h rq = none ∧
      ((s.waiters h).length < h.capacity → (rq.party.isRecord = true → s.parkedAt h rq.key = false) →
        t.waiters h = s.waiters h ++ [waiter] ∧ t.arrivalsAt h = s.arrivalsAt h + 1 ∧ t.mem = s.mem ∧ t.dies = s.dies ∧
          ∀ key inst, t.viewAt h key inst = s.viewAt h key inst) ∧
      (rq.party.isRecord = true → s.parkedAt h rq.key = true → t = (came.parkReq h waiter).settleAt h rq.key) ∧
      (rq.party.isRecord = true → s.parkedAt h rq.key = false → h.capacity ≤ (s.waiters h).length →
        t = came.parkGranule h rq.key [waiter]) ∧
      (rq.party.isRecord = false → h.capacity ≤ (s.waiters h).length →
        t.waiters h = s.waiters h ∧
        match h with
        | .slice sl => (t.slice sl).refused = (s.slice sl).refused ++ [{ waiter with retryAt := s.now + 64 }]
        | .tile i x y => ∃ l l', s.launch? i = some l ∧ t.launch? i = some l' ∧
            (l'.tile x y).network = (l.tile x y).network ++ [{ waiter with retryAt := s.now + 64 }]))

/-- R116, R209: which releasers the scope of an acquire includes. -/
def Obligations.AcquireScopes : Prop :=
  ∀ (rq : Req) (x : Release), x.outside = false →
    (rq.scope = .cell → (rq.includes x = true ↔ rq.inst = x.inst ∧ rq.cell = x.cell)) ∧
    (rq.scope = .region → (rq.includes x = true ↔ rq.inst = x.inst)) ∧
    (rq.scope = .die → (rq.includes x = true ↔ rq.die = x.die)) ∧
    ((rq.scope = .dev ∨ rq.scope = .sys) → rq.includes x = true)

/-- R185 to R188, R190, R178: a granule's waiters park together once the oldest record has waited PARKAFTER cycles, values below 16 acting as 16:
the PARKED flag is set, the granule's records leave the buffer, engines stay, and each takes an entry of its region's kennel in order of
arrival, with a pair of the park directory at a slice, or traps KENNELFULL. A walk of a parked granule collects the entries of the resident
regions in increasing SEQ and presents them one by one: it waits at one whose resume queue is full; one that can be performed leaves the
kennel as it is; one from which a request took what it needed loses a unit of its budget, the last of which traps WAITBUDGET. A walk under
which the state changed begins again, and one that finds no entry clears the flag and the directory's pairs.
Where the spec leaves the choice, it is the model's (logs 73, 112, 116). -/
def Obligations.ParkAndUnpark : Prop :=
  ∀ (s : State) (home granule : Nat),
    let h := homeOf home
    (∀ r, (s.waiters h).find? (fun r => r.key == granule && r.party.isRecord) = some r →
      max 16 (s.die (s.homeDie h)).parkAfter.toNat ≤ s.now - r.since →
      exec (.parkTimeout home granule) s = .next (s.parkGranule h granule [])) ∧
    (∀ extra : List Req,
      ((∀ sl, h = .slice sl → ∃ l, SMap.get? (s.slice sl).lines (granule / 2) = some l ∧ l.parked.length = 2) ∧
        (∀ i x y, h = .tile i x y → ∃ l, s.launch? i = some l ∧ SMap.wf TileState.reset l.tiles = true)) →
      let parks := (s.waiters h).filter fun r => r.key == granule && r.party.isRecord
      ∃ marked, s.parkGranule h granule extra = ((parks ++ extra).foldl (fun (t : State) r => t.parkReq h r) marked).settleAt h granule ∧
        marked.parkedAt h granule = true ∧ marked.mem = s.mem ∧
        marked.waiters h = (s.waiters h).filter fun r => !(r.key == granule && r.party.isRecord)) ∧
    (∀ rq : Req,
      (∀ i x y, h = .tile i x y → s.parkReq h rq = s.parkOne h rq) ∧
      (∀ sl, h = .slice sl →
        let x := s.slice sl
        ((rq.key, rq.inst) ∈ x.directory → s.parkReq h rq = s.parkOne h rq) ∧
        ((rq.key, rq.inst) ∉ x.directory → x.directory.length < 4096 →
          s.parkReq h rq = (s.setSlice sl { x with directory := x.directory ++ [(rq.key, rq.inst)] }).parkOne h rq) ∧
        ((rq.key, rq.inst) ∉ x.directory → 4096 ≤ x.directory.length →
          s.parkReq h rq = s.deliver rq (.trap .kennelFull 1 (h.granule rq.key))))) ∧
    (∀ (rq : Req) (inst x y u id lane : Nat) (l : Launch) (a : Access), rq.party = .access inst x y u id lane → s.launch? inst = some l →
      (l.unit x y u).flight.find? (fun b => b.id == id) = some a → (l.unit x y u).fields ≠ UnitState.reset.fields →
      (∀ e ∈ l.kennel.entries, e.ofAccess x y u id = false) →
      (∀ o free, l.freeChain = o :: free → ∃ l' e, (s.parkOne h rq).launch? inst = some l' ∧ l'.kennel.entries = l.kennel.entries ++ [e] ∧
        (l'.unit x y u).flight = (l.unit x y u).flight.filter (fun b => b.id != id) ∧
        e.offset = o ∧ e.kind = .park ∧ e.seq = rq.arrival ∧ e.granule = h.granule rq.key ∧ e.opid = opidOf (l.unit x y u) a.op ∧
        e.x = x ∧ e.y = y ∧ e.unit = u ∧ e.record = a.record ∧ e.access = some a ∧ e.req = some rq) ∧
      (l.freeChain = [] → s.parkOne h rq = (s.moved inst).deliver rq (.trap .kennelFull 0 (h.granule rq.key)))) ∧
    (s.fillHolds h granule = false → s.parkOwes h granule = false → (∀ sl, h = .slice sl → s.caught? (granuleVa granule) = false) →
      ((∀ sl, h = .slice sl → (s.line? sl (granuleSpace granule) (granuleVa granule)).isSome = true) →
        exec (.unparkWalk home granule) s = .next (s.unparkStep h granule)) ∧
      (∀ sl, h = .slice sl → s.line? sl (granuleSpace granule) (granuleVa granule) = none →
        exec (.unparkWalk home granule) s = .next (match s.ensureLine (granuleSpace granule) (granuleVa granule) false with
          | .ok t _ => t.unparkStep h granule
          | other => other.state))) ∧
    (∀ w, (s.walks h).find? (·.granule == granule) = some w →
      let becomes := fun (t : State) (f : ParkWalk → ParkWalk) =>
        t.setWalks h ((t.walks h).map fun v => if v.granule == granule then f v else v)
      let ends := fun (t : State) => (t.setWalks h ((t.walks h).filter fun v => v.granule != granule)).settleAt h granule
      let found := s.parkEntries h granule (s.parkRegions h granule)
      (w.collected = false →
        (found = [] → s.unparkStep h granule =
          (let ended := ends (s.setParkedAt h granule false)
           match h with
           | .slice sl => ended.setSlice sl { ended.slice sl with directory := (ended.slice sl).directory.filter (·.1 != granule) }
           | .tile _ _ _ => ended)) ∧
        (found ≠ [] → ∃ todo : List (Nat × KEntry),
          s.unparkStep h granule = becomes s (fun _ => { w with collected := true, todo := todo.map fun p => (p.1, p.2.offset) }) ∧
          (∀ p, p ∈ todo ↔ p ∈ found ∧ p.2.out = false ∧ ∃ l, s.launch? p.1 = some l ∧ l.resident = true) ∧
          todo.Pairwise fun p q => p.2.seq ≤ q.2.seq)) ∧
      (w.collected = true → w.todo = [] →
        (w.again = true → s.unparkStep h granule = becomes s fun _ => { w with collected := false, again := false, waited := false }) ∧
        (w.again = false → s.unparkStep h granule = ends s)) ∧
      (∀ inst o rest l e, w.collected = true → w.todo = (inst, o) :: rest → s.launch? inst = some l →
        l.kennel.entries.find? (fun e => e.offset == o) = some e →
        let next := fun (t : State) => becomes t fun v => { v with todo := rest }
        (e.lanes = [] ∨ e.out = true → s.unparkStep h granule = next s) ∧
        (e.lanes ≠ [] → e.out = false →
          (8 ≤ ((l.unit e.x e.y e.unit).resume.filter fun a => a.trap?.isNone).length →
            s.unparkStep h granule = becomes s fun _ => { w with waited := true }) ∧
          (((l.unit e.x e.y e.unit).resume.filter fun a => a.trap?.isNone).length < 8 →
            let t := (s.readEntry inst e).moved inst
            (∃ l', (s.readEntry inst e).launch? inst = some l' ∧ l'.fatal = none) → (∀ r ∈ e.lanes, t.needsWrite h r = false) →
            (∀ r v s' changed, e.req = some r → e.more = [] → t.viewAt h granule inst = some v → v.perform r.word r.op ≠ .wait →
              t.tryPerform h r = some (s', changed) → s.unparkStep h granule = (next s').afterServe h granule changed true v) ∧
            ((∀ r ∈ e.lanes, ∀ v, t.viewAt h granule inst = some v → v.perform r.word r.op = .wait) →
              s.unparkStep h granule = (next t).unserved h granule inst e))))) ∧
    (∀ (inst : Nat) (e : KEntry),
      let robbed := ∃ w ∈ s.walks h, w.granule = granule ∧ w.waited = false ∧ (inst, e.offset) ∈ w.robbed
      (e.spared = true ∨ ¬ robbed → s.unserved h granule inst e = s) ∧
      (e.spared = false → robbed → s.unserved h granule inst e = (s.setWalks h ((s.walks h).map fun w =>
        if w.granule == granule then { w with robbed := w.robbed.filter (· != (inst, e.offset)) } else w)).loseBudget inst e) ∧
      (∀ rq id a, e.req = some rq → rq.party.accessId? = some id → s.accessAt? inst e.x e.y e.unit id = some a →
        let r := a.record.setCtl { a.record.ctl with bud := a.record.ctl.bud - 1 }
        (a.record.ctl.bud.toNat ≤ 1 → s.loseBudget inst e =
          s.resumeAccess inst e.x e.y e.unit ((a.withRecord r).answerAll (.trap .waitBudget 0 e.granule))) ∧
        (1 < a.record.ctl.bud.toNat → s.loseBudget inst e = s.kennelMap inst fun f =>
          if f.ofAccess e.x e.y e.unit a.id then { f with record := r, access := f.access.map (·.withRecord r) } else f)))

/-- R178, R194, R184, R196, R212, R232, R320, R333, R343, R144, R380, R382: the other steps of a slice: a translated line is filled, into a full slice
in the place of another, and its request served; a held quota place and a refused request come round again; a granule is reported once as a
laggard; a faulting write enters the side log, an entry for each pair of its words, or waits while the log has no room; and a packet of a request on its way to a home is sent again, at most 16 times, after which
the access ends with DEVICEERR and the link is reported and retired; a residency report that cannot be delivered is dropped and reported,
and a reply that a dead link carries ends its access so.
Where the spec leaves the choice, it is the model's (logs 9, 75, 118, 120). -/
def Obligations.SliceEvents : Prop :=
  ∀ (s : State) (sl k : Nat),
    let x := s.slice sl
    let goes := fun (t : State) (rq : Req) => if t.needsWrite (.slice sl) rq then t.askWalk sl rq else t.serveAt (.slice sl) rq
    (∀ seq pa wr un rq, x.fills[k]? = some (seq, pa, wr, un) → x.missing.find? (fun r => r.seq == seq) = some rq →
      (∀ r ∈ x.missing.takeWhile (fun r => r.seq != seq), r.granule ≠ rq.granule) → s.parkOwes (.slice sl) rq.granule = false →
      let v := match s.victimLine sl (rq.granule / 2) with
        | some victim => s.dropLine sl victim
        | none => s
      ∀ t, (if (v.line? sl rq.space rq.va).isSome then some v else v.makeRoom sl (rq.granule / 2)) = some t →
        exec (.sliceLineFill sl k) s = .next (goes ((t.setSlice sl { t.slice sl with
          fills := (t.slice sl).fills.eraseIdx k, missing := (t.slice sl).missing.filter (·.seq != seq) }).fillLine sl rq.space rq.va pa wr un) rq)) ∧
    (∀ keep, x.lines.length < 131072 → s.makeRoom sl keep = some s) ∧
    (∀ rq, x.quota[k]? = some rq → rq.inst ∈ x.places → (∀ r ∈ x.quota.take k, r.inst ≠ rq.inst) → s.fillHolds (.slice sl) rq.granule = false →
      s.walkHolds (.slice sl) rq.granule = false → s.parkOwes (.slice sl) rq.granule = false →
      let leaves := fun (t : State) => t.setSlice sl { t.slice sl with
        quota := (t.slice sl).quota.filter (·.seq != rq.seq), places := (t.slice sl).places.erase rq.inst }
      exec (.quotaWaiterFill sl k) s = .next (match s.ensureLine rq.space rq.va true with
        | .ok t _ => (leaves t).serveAt (.slice sl) rq
        | .wait t => t
        | other => ((leaves other.state).holdPlace sl rq.inst).askWalk sl rq)) ∧
    (∀ rq, x.refused[k]? = some rq → rq.retryAt ≤ s.now →
      let t := s.setSlice sl { x with refused := x.refused.eraseIdx k, reqs := x.reqs ++ [rq] }
      (rq.party.isRecord = true → exec (.fillRetry sl k) s = .next t) ∧
      (rq.party.isRecord = false → exec (.engineWaiterRetry sl k) s = .next t)) ∧
    (∀ key g, x.granules[k]? = some (key, g) → g.laggard = false → (s.die (sl / 64)).laggard ≠ 0 →
      (s.die (sl / 64)).laggard.toNat ≤ s.now - g.since →
      exec (.laggardEvent sl k) s = .next ((s.setSlice sl { x with granules := SMap.insert x.granules key { g with laggard := true } }).event
        (sl / 64) 3 0 (granuleSpace key) (BitVec.ofNat 64 (granuleVa key))
        ((if g.maskMode then 1 else 0) <<< 20 ||| g.readers.zeroExtend 32 <<< 8 ||| g.gen.zeroExtend 32))) ∧
    (∀ (home : Nat) (rq : Req) (dead : Bool), (s.onLinks (homeOf home))[k]? = some rq → rq.own = false →
      let h := homeOf home
      (dead = false → rq.resends < 16 → ∃ t, (t = s ∨ s.unheard h k rq = some t) ∧
        exec (.linkResend home k dead) s = .next (t.setOnLinks h ((t.onLinks h).map fun r =>
          if r.seq = rq.seq then { r with resends := r.resends + 1 } else r))) ∧
      (dead = true ∨ 16 ≤ rq.resends →
        ∃ link : BitVec 16, exec (.linkResend home k dead) s = .next { ((s.setOnLinks h ((s.onLinks h).eraseIdx k)).deliver rq
          (.trap .deviceErr 1 0)).event rq.die 5 0 rq.space 0 (link.zeroExtend 32) with retiredLinks := s.retiredLinks ++ [link.toNat] })) ∧
    (∀ (home j d : Nat) (ws : List Word), s.reports[j]? = some (d, ws) → ∃ link : BitVec 16,
      exec (.linkResend home ((s.onLinks (homeOf home)).length + j) true) s =
        .next ({ s with reports := s.reports.eraseIdx j }.event d 5 0 0 0 (link.zeroExtend 32 ||| 0x10000))) ∧
    (∀ (home j inst cx cy unit : Nat) (l : Launch) (a : Access), homeOf home = .tile inst cx cy → s.launch? inst = some l →
      (s.repliesOnLinks (homeOf home))[j]? = some (unit, a) → ∃ link : BitVec 16,
      let ended := { a with lanes := a.lanes.map fun q => { q with reply := some (.trap .deviceErr 1 q.addr) } }
      exec (.linkResend home ((s.onLinks (homeOf home)).length + (s.reports.length + j)) true) s =
        .next { (s.modUnit inst cx cy unit fun u => { u with flight := u.flight.map fun b => if b.id = a.id then ended else b }).event
          (l.dieOf cx cy) 5 0 l.record.space 0 (link.zeroExtend 32) with retiredLinks := s.retiredLinks ++ [link.toNat] }) ∧
    (∀ d w, (s.die d).logQ[k]? = some w → s.logEntries w.req ≠ [] →
      (∀ v ∈ (s.die d).logQ.take k, v.req.party.sameAccess w.req.party = false) →
      let n := (s.die d).sideLog.length + (s.logEntries w.req).length
      (n ≤ 4096 → exec (.sideLogEnter d k) s = .next ((s.setDie d { s.die d with
        logQ := (s.die d).logQ.eraseIdx k, sideLog := (s.die d).sideLog ++ s.logEntries w.req }).deliver w.req .logged)) ∧
      (4096 < n → exec (.sideLogEnter d k) s = .next s)) ∧
    (∀ (rq : Req) (sync : Sync) (ws : List Word), rq.op = .store sync ws → s.logEntries rq ≠ [] →
      ∃ parts : List (List Word), (s.logEntries rq).map (·.req.op) = parts.map (HomeOp.store sync) ∧ parts.flatten = ws ∧
        ∀ p ∈ parts, p.length ≤ 2)

/-- R341, R343, R345, R336, R144: a pending translation ends as its walk does: the line may be filled, a peer takes or answers the request, the access traps or its page is
reported as a fault, or its write waits for the copy-on-write engine; only a table or page beyond the die's memory stops the model.
Where the spec leaves the choice, it is the model's (logs 7, 87). -/
def Obligations.TranslationEnds : Prop :=
  ∀ (s : State) (d k : Nat) (w : WalkReq), (s.die d).walkQ[k]? = some w →
    let rq := w.req
    let taken := s.setDie d { s.die d with walkQ := (s.die d).walkQ.eraseIdx k }
    let toPeer := match rq.loc with | .peer _ => true | _ => false
    let write := if toPeer then rq.op.writesAtPeer rq.seq else rq.op.writes (taken.view? w.slice rq.space rq.va rq.inst) rq.pos
    let t := (taken.translate rq.space rq.va write toPeer).1
    let gone := if toPeer then t.unmiss w.slice rq else (t.unmiss w.slice rq).settleLine w.slice rq.space rq.va
    let ends := fun (r : Reply) => gone.deliver rq r
    match (taken.translate rq.space rq.va write toPeer).2 with
    | .ok pa wr un => exec (.translationWalk d k) s =
        .next (t.setSlice w.slice { t.slice w.slice with fills := (t.slice w.slice).fills ++ [(rq.seq, pa, wr, un)] })
    | .peer part addr =>
      let asked := t.peerRequest { part := part, addr := addr, req := rq }
      exec (.translationWalk d k) s = .next (asked.1.deliver rq asked.2)
    | .fault => exec (.translationWalk d k) s = .next (gone.faultReq w)
    | .protect => exec (.translationWalk d k) s = .next (ends (.trap .protect 1 0))
    | .attr a => exec (.translationWalk d k) s = .next (ends (.trap .attr (a.zeroExtend 64) 0))
    | .cow => exec (.translationWalk d k) s = .next (t.cowAdd rq.space rq.va (some (w.slice, rq)))
    | .deviceErr => exec (.translationWalk d k) s = .next (ends (.trap .deviceErr 3 0))
    | .hole => exec (.translationWalk d k) s = .fault .physicalHole

/-! ### Banks, sources and sinks -/

/-- R113, R132, R133: the FIFO operations: a push waits for a free entry and appends the record's words, or an end marker for a token; a pop
waits for an entry and takes the oldest, an end marker giving zero words and EOS, a word that cannot be corrected POISON; a bank in another mode traps ILLEGAL. -/
def Obligations.FifoOperations : Prop :=
  ∀ (s : State) (l : Launch) (u : UnitState) (r : Record) (bank : BitVec 4), s.Ready l u r →
    let f := s.focus
    let n := bank.toNat
    let t := l.tile f.x f.y
    (l.bankMode f.x f.y n = 2 → s.accepts l 0 →
      (∀ t', t.fifoPut n (if r.isToken then List.replicate 16 0 else r.all) r.isToken = some t' →
        exec (.fifoPush bank) s = .next ((s.modTile f.inst f.x f.y fun _ => t').complete u [out0 r] r.ctl.ord)) ∧
      (t.fifoCount n = 128 → exec (.fifoPush bank) s = .next s) ∧
      (r.isToken = true → exec (.fifoPop bank) s = .next (s.complete u [out0 r] r.ctl.ord)) ∧
      (r.isToken = false → ∀ words marker t', t.fifoTake n = some (words, marker, t') → words.length = 16 →
        ∃ r', exec (.fifoPop bank) s = .next ((s.modTile f.inst f.x f.y fun _ => t').complete u [out0 r'] r.ctl.ord) ∧
          (∀ i, i < 16 → r'.at i = if marker then 0 else words.getD i 0) ∧ 
          r'.ctl = { r.ctl with eos := marker, poison := r.ctl.poison || (t.fifoBad n && !marker) }) ∧
      (r.isToken = false → t.fifoCount n = 0 → exec (.fifoPop bank) s = .next s)) ∧
    (l.bankMode f.x f.y n ≠ 2 → (∃ v, exec (.fifoPush bank) s = .next v ∧ s.TrapsAs v l u r .illegal 5 (BitVec.ofNat 64 n)) ∧
      (r.isToken = false → ∃ v, exec (.fifoPop bank) s = .next v ∧ s.TrapsAs v l u r .illegal 5 (BitVec.ofNat 64 n)))

/-- R167: a FIFO bank of a tile whose words and row words are in canonical form: a push adds one entry at the end of the ring and changes
no other entry; a pop gives the oldest entry and its end marker, and takes it away. -/
def Obligations.FifoOrder : Prop :=
  ∀ (t : TileState) (n : Nat) (words : List Word) (marker : Bool), SMap.wf 0 t.words = true → SMap.wf 0 t.rows = true → n < 16 →
    words.length = 16 → t.fifoHead n < 128 → t.fifoCount n ≤ 128 →
    let entry := fun (t : TileState) (k : Nat) => t.bankRowWords n ((t.fifoHead n + k) % 128)
    let mark := fun (t : TileState) (k : Nat) => rowMode (SMap.getD t.rows (bankRow n ((t.fifoHead n + k) % 128)) 0)
    (t.fifoCount n < 128 → ∃ t', t.fifoPut n words marker = some t' ∧ t'.fifoCount n = t.fifoCount n + 1 ∧
      entry t' (t.fifoCount n) = words ∧ mark t' (t.fifoCount n) = marker ∧
      ∀ k, k < t.fifoCount n → entry t' k = entry t k ∧ mark t' k = mark t k) ∧
    (t.fifoCount n = 128 → t.fifoPut n words marker = none) ∧
    (0 < t.fifoCount n → ∃ t', t.fifoTake n = some (entry t 0, mark t 0, t') ∧ t'.fifoCount n = t.fifoCount n - 1 ∧
      ∀ k, k < t.fifoCount n - 1 → entry t' k = entry t (k + 1) ∧ mark t' k = mark t (k + 1)) ∧
    (t.fifoCount n = 0 → t.fifoTake n = none)

/-- R27, R134, R168: reorder sends a record whose ordinal is the expected one, first of all one that it holds; it holds one that is ahead, which
waits while no slot is free; one far ahead waits; one that is behind, or whose ordinal is held, traps. The record removed by reorder.pdrop
is counted in DROPS, and traced; a token resets the expected ordinal.
Where the spec leaves the choice, it is the model's (log 53). -/
def Obligations.ReorderResults : Prop :=
  ∀ (s : State) (l : Launch) (u : UnitState) (r : Record) (bank : BitVec 4) (pdrop : Bool), s.Ready l u r →
    let f := s.focus
    let n := bank.toNat
    let t := l.tile f.x f.y
    let e := (t.expected n).toNat
    let ord := r.ctl.ord.toNat
    let advance := fun (q : Record) (s : State) => s.modTile f.inst f.x f.y fun t => t.setExpected n (if q.isToken then 0 else t.expected n + 1)
    let counted := s.modLaunch f.inst fun l => { l with drops := l.drops + 1, lastMove := s.now }
    let removed := fun (q : Record) => if u.traces then counted.tracePost (l.dieOf f.x f.y) u q.ctl.ord else counted
    let sends := fun (q : Record) => pdrop = false ∨ q.isToken = true ∨ q.ctl.p = true
    (l.bankMode f.x f.y n = 3 →
      (∀ k, t.slotOf n (t.expected n) = some k →
        let q := t.slotRecord n k
        let freed := fun (s : State) => s.modTile f.inst f.x f.y fun t => t.markSlot n k false
        (sends q → s.accepts l 0 → ∃ v, s.depart f.inst f.x f.y f.unit [out0 q] q.ctl.ord = some v ∧
          exec (.reorder bank pdrop) s = .next (freed (advance q v))) ∧
        (¬ sends q → exec (.reorder bank pdrop) s = .next (freed (advance q (removed q))))) ∧
      (t.slotOf n (t.expected n) = none →
        (ord = e → sends r → s.accepts l 0 → ∃ v, s.depart f.inst f.x f.y f.unit [out0 r] r.ctl.ord = some v ∧
          exec (.reorder bank pdrop) s = .next (advance r v).takeHead) ∧
        (ord = e → ¬ sends r → exec (.reorder bank pdrop) s = .next (advance r (removed r)).takeHead) ∧
        (e < ord → ord < e + 2048 → t.slotOf n r.ctl.ord = none →
          ((∃ k, k < 112 ∧ t.slotUsed n k = false) → ∃ t', t.hold n r = some t' ∧ exec (.reorder bank pdrop) s =
            .next ((s.takeHead.modTile f.inst f.x f.y fun _ => t').modLaunch f.inst fun l => { l with lastMove := s.now })) ∧
          ((∀ k, k < 112 → t.slotUsed n k = true) → exec (.reorder bank pdrop) s = .next s)) ∧
        (e + 2048 ≤ ord → t.slotOf n r.ctl.ord = none → exec (.reorder bank pdrop) s = .next s) ∧
        (ord < e ∨ (e < ord ∧ t.slotOf n r.ctl.ord ≠ none) →
          ∃ v, exec (.reorder bank pdrop) s = .next v ∧ s.TrapsAs v l u r .illegal 6 (BitVec.ofNat 64 n)))) ∧
    (l.bankMode f.x f.y n ≠ 3 → ∃ v, exec (.reorder bank pdrop) s = .next v ∧ s.TrapsAs v l u r .illegal 5 (BitVec.ofNat 64 n))

/-- R27, R87, R88, R89, R175: cnt. A run sends its step records with their counters, flags and control word, in ordinal order, and ends after the last;
a run of an empty bound sends one EMPTY record; a bound record starts a run, or traps BREAK; the stream ends with a token, under halt too. -/
def Obligations.CountingSource : Prop :=
  ∀ (s : State) (l : Launch) (u : UnitState) (levels : BitVec 2), s.here = some (l, u) → l.acts = true → u.open_ = true →
    l.phase = .running → u.src.finished = false → u.held = false →
    let f := s.focus
    let c := u.src
    let bound := (l.routeInto f.x f.y f.unit 1).isSome
    let used := fun (a b d : Nat) => (a, if 2 ≤ levels.toNat then b else 1, if 3 ≤ levels.toNat then d else 1)
    let becomes := fun (s : State) (c : SrcState) => s.modUnit f.inst f.x f.y f.unit fun u => { u with src := c }
    let bud : BitVec 4 := if l.record.budget = 0 then 15 else l.record.budget
    (c.running = true → (l.halting = true → bound = true) → s.accepts l 0 →
      let (n0, n1, n2) := c.bounds
      let (i0, i1, i2) := c.counters
      let from_ := c.bound.getD (Record.zero 0)
      ∃ r t c', exec (.cnt levels) s = .next (becomes t c') ∧ s.depart f.inst f.x f.y f.unit [out0 r] r.ctl.ord = some t ∧
        r.ctl = { blk := (u.k 3).extractLsb' 0 8, ret0 := 0, ret1 := 0, bud := bud, eos := false, p := false,
                  poison := from_.ctl.poison, trapped := false, ord := BitVec.ofNat 32 c.sent } ∧
        (∀ k, 4 ≤ k → k < 16 → r.at k = from_.at k) ∧ c'.sent = c.sent + 1 ∧
        (n0 = 0 ∨ n1 = 0 ∨ n2 = 0 → r.at 0 = 0 ∧ r.at 1 = 0 ∧ r.at 2 = 0 ∧ r.at 3 = 0x18 ∧ c'.running = false) ∧
        (n0 ≠ 0 → n1 ≠ 0 → n2 ≠ 0 →
          let e0 := i0 + 1 = n0
          let e1 := i1 + 1 = n1
          let e2 := i2 + 1 = n2
          r.at 0 = BitVec.ofNat 32 i0 ∧ r.at 1 = BitVec.ofNat 32 i1 ∧ r.at 2 = BitVec.ofNat 32 i2 ∧
          r.at 3 = (if e0 then 1 else 0) + (if e1 then 2 else 0) + (if e2 then 4 else 0) + (if e0 ∧ e1 ∧ e2 then 8 else 0) ∧
          (i0 + 1 < n0 → c'.running = true ∧ c'.counters = (i0 + 1, i1, i2)) ∧
          (i0 + 1 = n0 → i1 + 1 < n1 → c'.running = true ∧ c'.counters = (0, i1 + 1, i2)) ∧
          (i0 + 1 = n0 → i1 + 1 = n1 → i2 + 1 < n2 → c'.running = true ∧ c'.counters = (0, 0, i2 + 1)) ∧
          (i0 + 1 = n0 → i1 + 1 = n1 → i2 + 1 = n2 → c'.running = false ∧ (bound = false → c'.ending = true)))) ∧
    (c.running = false → c.ending = false → l.halting = false →
      (bound = false → ∃ n0 n1 n2, c.bounds = (n0, n1, n2) ∧
        exec (.cnt levels) s = .next (becomes s { c with running := true, bounds := used n0 n1 n2, counters := (0, 0, 0) })) ∧
      (∀ r0 rest, bound = true → u.port 1 = r0 :: rest → breakpoint u r0 = none → exec (.cnt levels) s = .next (s.trapPort 1 u r0 .brk 0 0)) ∧
      (∀ r0 r rest, bound = true → u.port 1 = r0 :: rest → breakpoint u r0 = some r →
        let t := (s.modUnit f.inst f.x f.y f.unit fun u => u.pop 1).modLaunch f.inst fun l => { l with lastMove := s.now }
        (r.isToken = true → exec (.cnt levels) s = .next (becomes t { c with ending := true })) ∧
        (r.isToken = false → exec (.cnt levels) s = .next (becomes t { c with
          running := true, bound := some r, bounds := used (r.at 0).toNat (r.at 1).toNat (r.at 2).toNat, counters := (0, 0, 0) })))) ∧
    ((c.running = false ∧ (c.ending = true ∨ l.halting = true)) ∨ (l.halting = true ∧ bound = false) → s.accepts l 0 →
      ∃ r t, exec (.cnt levels) s = .next (becomes t { c with finished := true, running := false, sent := c.sent + 1 }) ∧
        s.depart f.inst f.x f.y f.unit [out0 r] r.ctl.ord = some t ∧ (∀ k, r.at k = 0) ∧
        r.ctl = { blk := (u.k 3).extractLsb' 0 8, ret0 := 0, ret1 := 0, bud := bud, eos := true, p := false, poison := false,
                  trapped := false, ord := BitVec.ofNat 32 c.sent })

/-- R130: src issues item j as a load at ea + j × stride, with the control word of the source and ord j, up to 8 in progress; from a FIFO
bank it pops its items, a marker ending them; once the last item has been sent it sends a token with the number of items issued. R131: sink
stores a record's words in its next slot, its index and RETIRED moving on as the store completes, counts tokens and is complete at the last,
and traps a record that comes after it or is poisoned.
Where the spec leaves the choice, it is the model's (logs 14, 61, 62, 93). -/
def Obligations.StreamsMove : Prop :=
  (∀ (s : State) (l : Launch) (u : UnitState) (sync : Sync) (m : MemRef), s.here = some (l, u) → l.acts = true → u.open_ = true →
      l.phase = .running → u.src.finished = false → u.held = false → l.halting = false → u.src.ending = false →
      let f := s.focus
      let c := u.src
      let bud : BitVec 4 := if l.record.budget = 0 then 15 else l.record.budget
      let rcw := fun (r : Record) (eos : Bool) => (∀ k, r.at k = 0) ∧
        r.ctl = { blk := (u.k 3).extractLsb' 0 8, ret0 := 0, ret1 := 0, bud := bud, eos := eos, p := false, poison := false, trapped := false,
                  ord := BitVec.ofNat 32 c.issued }
      (∀ loc, c.issued < c.count → u.flight.length < 8 → srcBank l f.x f.y m = none →
        let ea := itemAddr l m c.issued c.stride
        let lane : LaneReq := { lane := 0, addr := ea, loc := loc, op := .load sync m.size.words, plain := sync == .plain }
        ((m.space = .global ∨ m.space = .peer) → ea = effectiveAddr l m 0 + BitVec.ofNat 64 c.issued * c.stride) ∧
        (IsAt l f.x f.y m m.size.words ea loc → l.roomFor f.x f.y [lane] = true →
          ∃ r, rcw r false ∧ exec (.src sync m) s = .next ((s.startAccess (.src sync m) m r
            (BitVec.ofNat 64 (if tileStream m then loc.bytes.2 / 4 else ea.toNat)) [lane]).modUnit f.inst f.x f.y f.unit
              fun u => { u with src := { u.src with issued := u.src.issued + 1 } }))) ∧
      (∀ bank words marker t', c.issued < c.count → u.flight = [] → srcBank l f.x f.y m = some bank →
        (l.tile f.x f.y).fifoTake bank = some (words, marker, t') →
        let popped := s.modTile f.inst f.x f.y fun _ => t'
        (marker = true → exec (.src sync m) s =
          .next (popped.modUnit f.inst f.x f.y f.unit fun u => { u with src := { u.src with ending := true } })) ∧
        (marker = false → ∃ r, rcw r false ∧ exec (.src sync m) s =
          .next ((popped.answeredAccess (.src sync m) r 0 (some (.ok words [] true ((l.tile f.x f.y).fifoBad bank)))).modUnit f.inst f.x f.y f.unit
            fun u => { u with src := { u.src with issued := u.src.issued + 1 } }))) ∧
      (c.count ≤ c.issued → u.flight = [] → l.awayOf f.x f.y f.unit = [] → s.accepts l 0 →
        ∃ r t, rcw r true ∧ s.depart f.inst f.x f.y f.unit [out0 r] r.ctl.ord = some t ∧
          exec (.src sync m) s = .next ((t.modUnit f.inst f.x f.y f.unit fun u =>
            { u with src := { u.src with finished := true, sent := u.src.sent + 1 } }).depositStream f.inst f.x f.y f.unit 0))) ∧
  (∀ (s : State) (l : Launch) (u : UnitState) (r r0 : Record) (rest : List Record) (sync : Sync) (m : MemRef), s.here = some (l, u) →
      l.takes u = true → u.port 0 = r0 :: rest →
      let f := s.focus
      (r0.isToken = true →
        let t := s.takeHead.modUnit f.inst f.x f.y f.unit fun u => { u with sink := { u.sink with
          tokens := u.sink.tokens + 1, complete := u.sink.complete || u.sink.tokens + 1 == (u.fld 6).toNat } }
        let counted := t.modLaunch f.inst fun l => { l with lastMove := t.now }
        exec (.sink sync m) s = .next ((if u.traces then counted.tracePost (l.dieOf f.x f.y) u r0.ctl.ord else counted).sinkSettled
          f.inst f.x f.y f.unit)) ∧
      (r0.isToken = false → breakpoint u r0 = some r → l.sinkIdle f.x f.y f.unit u = true →
        (u.sink.slots ≠ 0 → u.sink.slotNow = u.sink.index % u.sink.slots) ∧
        let n := m.size.words
        let sum := effectiveAddr l m 0 + BitVec.ofNat 64 (u.sink.slotNow * (if tileStream m then n else 4 * n))
        let ea := if tileStream m then (lo32 sum).zeroExtend 64 else sum
        (u.sink.complete = true → ∃ v, exec (.sink sync m) s = .next v ∧ s.TrapsAs v l u r .illegal 8 ea) ∧
        (u.sink.complete = false → r.ctl.poison = true →
          ∃ v, exec (.sink sync m) s = .next v ∧ s.TrapsAs v l u r .poison (u.opcode.zeroExtend 64) ea) ∧
        (∀ loc t, u.sink.complete = false → r.ctl.poison = false → IsAt l f.x f.y m n ea loc →
          let lane : LaneReq := { lane := 0, addr := ea, loc := loc, op := .store sync (r.slice 0 n), plain := sync == .plain }
          s.clashes u f.inst f.x f.y f.unit [lane.range true] = false → l.roomFor f.x f.y [lane] = true →
          (if releases (.sink sync m) then s.releaseWays f.inst f.x f.y (l.requestScope m (.sink sync m)) = (true, t) else t = s) →
          exec (.sink sync m) s = .next ((t.takeHead.startAccess (.sink sync m) m r
            (BitVec.ofNat 64 (if tileStream m then loc.bytes.2 / 4 else ea.toNat)) [lane]).noteStep u r0 r)))) ∧
  (∀ (s : State) (inst x y unit id : Nat) (l : Launch) (a : Access) (sync : Sync) (m : MemRef), s.launch? inst = some l → l.acts = true →
      (l.unit x y unit).flight.find? (fun b => b.id == id) = some a → a.op = .sink sync m →
      (l.unit x y unit).fields ≠ UnitState.reset.fields → a.record.isToken = false → a.trapped = false →
      a.answered = true → (∀ q ∈ a.lanes, q.line? = none) → a.trap? = none →
      (∀ b ∈ (l.unit x y unit).flight.takeWhile (fun b => b.id != id), b.leavesInOrder = false) →
      ∃ t l', exec (.accessComplete inst x y unit id) s = .next t ∧ t.launch? inst = some l' ∧ l'.retired = l.retired + 1 ∧
        (l'.unit x y unit).sink.index = (l.unit x y unit).sink.index + 1)

/-! ### The region controller -/

/-- R42, R225, R226, R227, R228, R175, R223: taking a trap. Its record of 32 words, as R42 lays them out, is stored at entry TRAPS mod
TRAPENTRIES of the ring, then TRAPS + 1, or TRAPLOST + 1 where the ring is full; the first cause is kept. A ring or a status block that
cannot be accessed leaves a region-fatal error with its address, the first of them kept, which ends the region. The trapped record then
leaves the latch, the access element or the item list it waited in; under continue nothing more happens; under handler a record that can
be delivered waits for the entry with TRAPPED set, its blocks saved and BLK at HBLK, and the trap waits with nothing written while sixteen
wait; every other trap begins the halt, which gives up a pre-emption under way. A trap record whose writing must wait is written later.
Records waiting for the handler enter its entry latch one at a time.
Where the spec leaves the choice, it is the model's (logs 49, 50). -/
def Obligations.TrapsAreTaken : Prop :=
  (∀ (s : State) (l : Launch) (inst k : Nat) (t : TrapInfo), s.launch? inst = some l → l.acts = true → l.trapQ[k]? = some t →
    (∀ e ∈ l.trapQ.take k, ¬ (e.x = t.x ∧ e.y = t.y ∧ e.unit = t.unit)) →
    let c := t.record.ctl
    (l.delivers t = true ↔ l.record.policy = 2 ∧ l.halting = false ∧ t.holder ≠ .sideLog ∧ c.trapped = false ∧ c.ret1 = 0) ∧
    (l.delivers t = true → 16 ≤ l.handlerQ.length → exec (.trapReport inst k) s = .next s) ∧
    ((l.delivers t = true → l.handlerQ.length < 16) →
      (∀ v, s.writeTrap inst t = .ok v () →
        let w := (v.modLaunch inst fun l => { l with trapQ := l.trapQ.erase t, lastMove := v.now }).release inst t
        exec (.trapReport inst k) s = .next (
          if l.delivers t then w.modLaunch inst fun l => { l with handlerQ := l.handlerQ ++ [t.record.delivered l.record.hblk] }
          else if l.record.policy = 0 ∨ (l.record.policy = 2 ∧ t.holder = .sideLog) then w
          else w.beginHalt inst)) ∧
      (∀ v, s.writeTrap inst t = .wait v → exec (.trapReport inst k) s = .next v) ∧
      (∀ v, (s.writeTrap inst t).Fails v → exec (.trapReport inst k) s = .next v)) ∧
    (∀ block, (t.record.delivered block).words = t.record.words ∧
      (t.record.delivered block).ctl = { c with trapped := true, ret1 := c.ret0, ret0 := c.blk, blk := block })) ∧
  (∀ (s : State) (l : Launch) (inst : Nat) (t : TrapInfo), s.launch? inst = some l →
    let c := l.record
    let status := c.statusAddr.toNat
    let entry := c.trapAddr.toNat + l.traps.toNat % c.trapEntries.toNat * 128
    let first := if l.firstCause = 0 then t.cause.code else l.firstCause
    (∀ v cons, s.readRegion c.space (status + 0x30) 1 = .ok v [cons] →
      (l.traps - cons = c.trapEntries.zeroExtend 32 →
        (∀ w, v.storeRegion c.space [(status + 8, l.trapLost + 1)] = .ok w () →
          s.writeTrap inst t = .ok (w.modLaunch inst fun k => { k with trapLost := k.trapLost + 1, firstCause := first }) ()) ∧
        (∀ w, (v.storeRegion c.space [(status + 8, l.trapLost + 1)]).Fails w →
          (s.writeTrap inst t).Fails (w.failRegion inst c.statusAddr))) ∧
      (l.traps - cons ≠ c.trapEntries.zeroExtend 32 →
        (∀ w, (v.storeRegion c.space (placed entry (trapWords l (v.cycles l) t))).Fails w →
          (s.writeTrap inst t).Fails (w.failRegion inst c.trapAddr)) ∧
        (∀ w, v.storeRegion c.space (placed entry (trapWords l (v.cycles l) t)) = .ok w () →
          (∀ x, w.storeRegion c.space [(status + 4, l.traps + 1)] = .ok x () →
            s.writeTrap inst t = .ok (x.modLaunch inst fun k => { k with traps := k.traps + 1, firstCause := first }) ()) ∧
          (∀ x, (w.storeRegion c.space [(status + 4, l.traps + 1)]).Fails x →
            (s.writeTrap inst t).Fails (x.failRegion inst c.statusAddr))))) ∧
    (∀ v, (s.readRegion c.space (status + 0x30) 1).Fails v → (s.writeTrap inst t).Fails (v.failRegion inst c.statusAddr)) ∧
    (∀ a, (s.failRegion inst a).launch? inst = some { l with fatal := some (l.fatal.getD a) }) ∧
    -- the record
    (∀ cycle : DWord, let ws := trapWords l cycle t
      let pair := fun (n : Nat) => ws.getD (n + 1) 0 ++ ws.getD n 0
      ws.length = 32 ∧ ws.take 16 = t.record.all ∧ pair 16 = t.record.rcw ∧
        (ws.getD 18 0).toNat = t.cause.code.toNat + t.block.toNat * 2 ^ 8 + t.opIndex.toNat * 2 ^ 16 + t.unit % 16 * 2 ^ 24 ∧
        ws.getD 19 0 = BitVec.ofNat 32 (t.x + t.y * 2 ^ 8 + l.absX t.x * 2 ^ 16 + l.absY t.y * 2 ^ 24) ∧
        pair 20 = t.addr ∧ pair 22 = t.detail ∧ (ws.getD 24 0).toNat = c.space.toNat * 2 ^ 20 ∧ ws.getD 25 0 = 0 ∧ pair 26 = cycle ∧
        ws.drop 28 = [0, 0, 0, 0]) ∧
    -- the trapped record leaves its place
    (∀ p, t.holder = .latch p → s.release inst t =
      s.setLaunch inst (l.setUnit t.x t.y t.unit { (l.unit t.x t.y t.unit).setPort p (((l.unit t.x t.y t.unit).port p).drop 1) with
        held := false })) ∧
    (∀ id, t.holder = .access id → ∃ u, s.release inst t = s.setLaunch inst (l.setUnit t.x t.y t.unit u) ∧
      u = { l.unit t.x t.y t.unit with flight := u.flight, resume := u.resume } ∧
      (∀ a, a ∈ u.flight ↔ a ∈ (l.unit t.x t.y t.unit).flight ∧ a.id ≠ id) ∧
      ∀ a, a ∈ u.resume ↔ a ∈ (l.unit t.x t.y t.unit).resume ∧ a.id ≠ id) ∧
    (t.holder = .item → ∃ more, s.release inst t = s.setLaunch inst (l.setUnit t.x t.y t.unit { l.unit t.x t.y t.unit with held := more }) ∧
      (more = true ↔ ∃ q ∈ l.trapQ, q.holder = .item ∧ q.x = t.x ∧ q.y = t.y ∧ q.unit = t.unit)) ∧
    (t.holder = .sideLog → s.release inst t = s) ∧
    -- the halt begins
    let v := s.setLaunch inst { l with halting := true, lastMove := s.now }
    ((l.phase = .preempting ∨ (l.wanted = true ∧ l.phase = .running)) → s.beginHalt inst = v.abandonPreempt inst) ∧
    (¬ (l.phase = .preempting ∨ (l.wanted = true ∧ l.phase = .running)) → s.beginHalt inst = v)) ∧
  ([.illegal, .brk, .trapop, .callDepth, .retEmpty, .misalign, .noncanon, .protect, .attr, .waitBudget, .overread, .scope, .poison, .format,
    .bound, .unmapped, .deviceErr, .killed, .kennelFull, .depth].map Cause.code = (List.range 20).map fun n => BitVec.ofNat 8 (n + 1)) ∧
  (∀ (s : State) (l : Launch) (inst : Nat) (r : Record) (rest : List Record), s.launch? inst = some l → l.acts = true →
    l.handlerQ = r :: rest → (l.unit 0 0 5).port 0 = [] →
    exec (.handlerDeliver inst) s =
      .next (s.setLaunch inst { l.setUnit 0 0 5 ((l.unit 0 0 5).setPort 0 [r]) with handlerQ := rest, lastMove := s.now }))

/-- R160, R175, R195, R229, R230: the end of a region. When its work is done its records are counted in DROPS and its counted granules as
under-read; then the granules and the dirty lines are written back, its streams' ranges deposited, the status block and the completion word
written, and the region is gone. A fatal error ends it with status 0x0A, its one trap record written once its engine operations have ended, or
changes the status of an end under way, whose trap record it gives where none has been given. Under halt an idle span advances the reorder banks, removes the records that wait, or lets the
region end.
Where the spec leaves the choice, it is the model's (logs 70, 97, 106). -/
def Obligations.RegionsEnd : Prop :=
  ∀ (s : State) (l : Launch) (inst : Nat), s.launch? inst = some l →
    (∀ a, l.fatal = some a → l.phase ≠ .completing → exec (.regionEnd inst) s = .next (s.endFatal inst 0x0A .deviceErr 2 a)) ∧
    (∀ a, l.fatal = some a → l.phase = .completing →
      let given := l.stage = 3 ∨ l.status = 0x09 ∨ l.status = 0x0A
      let after := fun (v : State) => v.modLaunch inst fun k =>
        { k with fatal := none, status := if k.stage = 3 then k.status else 0x0A,
                 lastTrap := k.lastTrap.map fun t => if t.1 = .deviceErr then t else (.deviceErr, 2, a) }
      (given → exec (.regionEnd inst) s = .next (after s)) ∧
      (¬ given → exec (.regionEnd inst) s = .next (match s.fatalTrap inst l .deviceErr 2 a with
        | .wait v => v
        | done => after done.state))) ∧
    (l.fatal = none → l.phase ≠ .completing → s.mayEnd inst l = true →
      exec (.regionEnd inst) s = .next ((((s.storedAll inst l).freeContext inst).modLaunch inst fun k => { k.emptied with
        drops := k.drops + BitVec.ofNat 64 l.fabricRecords, phase := .completing, stage := 2,
        status := if k.halting then 0x08 else 0, wanted := false, held := none, moving := none }).underRead inst l)) ∧
    (l.fatal = none → l.phase = .completing → l.stage = 1 →
      let v := s.killEngines inst
      (v.enginesOf inst = true → exec (.regionEnd inst) s = .next v) ∧
      (v.enginesOf inst = false → exec (.regionEnd inst) s = .next (match v.reportFatal inst with
        | .wait w => w
        | done => (done.state.underRead inst l).modLaunch inst fun l => { l with stage := 2 }))) ∧
    (l.fatal = none → l.phase = .completing → l.stage = 2 →
      exec (.regionEnd inst) s = .next (match s.flushCounted inst (s.countedOf inst) with
        | (false, v) => v
        | (true, v) => match v.flushRegionWays inst (l.tiles.map (·.1)) with
          | (false, w) => w
          | (true, w) => ((w.depositAll inst 0 l).modLaunch inst fun l =>
              if l.status = 0 ∧ l.underRead ≠ 0 then { l with status := 0x0B } else l).finish inst)) ∧
    (∀ reply, l.fatal = none → l.phase = .completing → l.stage = 3 → l.doneReply = some reply →
      let v := (if 2 ^ 32 ≤ inst then s.reportLaunch inst 1 0 else s).reportLaunch inst 6 l.status.toNat
      let rest := SMap.erase s.launches inst
      exec (.regionEnd inst) s = .next { v with
        launches := rest, killing := (if s.killing = some inst then none else s.killing), warm := s.warm && !rest.isEmpty }) ∧
    (s.finish inst = match s.storeRegion l.record.space ((l.statusBlock (s.cycles l)).map fun p => (l.record.statusAddr.toNat + p.1, p.2)) with
      | .ok v _ => v.postDone inst
      | .wait v => v
      | other => match (if l.committed = true ∧ l.status ≠ 0x09 ∧ l.status ≠ 0x0A then other.state.fatalTrap inst l .deviceErr 2 l.record.statusAddr
          else .ok other.state ()) with
        | .wait v => v
        | done => (done.state.modLaunch inst fun l => { l with status := 0x0A }).postDone inst) ∧
    (s.postDone inst = (s.setLaunch inst { l with stage := 3, doneReply := none }).post
      (mkReq (.control inst) l.record.space (.glob l.record.doneAddr) (.store .f [BitVec.ofNat 32 (2 ^ 31 + l.status.toNat)])
        (l.scope (scopeOf l.record.dscope.toNat)) inst (0, 0) l.die)) ∧
    (l.halting = true → l.phase = .running → l.fatal = none → 256 ≤ s.now - l.lastMove →
      (l.advancing ≠ [] → exec (.haltIdleSpan inst) s = .next (s.advanceBanks inst l.advancing)) ∧
      (l.advancing = [] → s.sideLogOf inst = [] → s.regionWaits inst l = false →
        exec (.haltIdleSpan inst) s = .next (s.setLaunch inst { l with spent := true })) ∧
      (l.advancing = [] → (s.sideLogOf inst ≠ [] ∨ s.regionWaits inst l = true) → exec (.haltIdleSpan inst) s =
        .next ((s.sideLogOf inst).foldl (fun (s : State) e => s.raise inst (sideLogTrap e)) ((s.removeWaiting inst l).dropSideLog inst))))

/-! ### Matrix tiles -/

/-- R286, R287, R290, R291: the commands of a matrix tile. Each leaves when its tile accepts it: mtcfg writes the shape of an EMPTY register
that nothing names, tload queues a binding, mzero and mdrain join the queue of eight, mrel releases readers of a FULL register; a shape or a
row range out of bounds, and a release of readers that are not there, trap; a tile that cannot accept, and a register that a firing reads,
make the command wait.
Where the spec leaves the choice, it is the model's (logs 63, 96). -/
def Obligations.MatrixCommands : Prop :=
  ∀ (s : State) (l : Launch) (u : UnitState) (r : Record),
    let f := s.focus
    let t := l.mtile f.x f.y
    let left := fun (i : Instr) (t' : MatrixTile) =>
      exec i s = .next (((s.modMtile f.inst f.x f.y fun _ => t').takeHead.answeredAccess i r 0 (some replyDone)).noteStep u ((u.port 0).headD r) r)
    let traps := fun (i : Instr) (c : Cause) (d : DWord) => ∃ v, exec i s = .next v ∧ s.TrapsAs v l u r c d 0
    let w0 := r.at 0
    (∀ n shape, s.AccessReady l u r (.mtcfg n shape) →
      let sh := if shape = 0 then w0.extractLsb' 0 20 else shape
      let g := t.target n.toNat
      let fits := (sh.extractLsb' 16 4).toNat ≤ 13 ∧
        (shapeRows sh) * (shapeCols sh) * (shapeFmt sh).width ≤ 131072
      let free := g.state = .empty ∧ (∀ bs ∈ t.binds.toList, ∀ b ∈ bs, b.target ≠ n.toNat) ∧ s.copyNames f.inst f.x f.y n.toNat = false
      (¬ fits → traps (.mtcfg n shape) .bound (sh.zeroExtend 64)) ∧
      (fits → free → left (.mtcfg n shape) (t.setTarget n.toNat { g with shape := sh })) ∧
      (fits → ¬ free → exec (.mtcfg n shape) s = .next s)) ∧
    (∀ target mask readers port, s.AccessReady l u r (.tload target mask readers port) →
      let bs := t.binds[port.toNat]?.getD []
      (bs.length < 4 → left (.tload target mask readers port)
        { t with binds := t.binds.setIfInBounds port.toNat (bs ++ [{ target := target.toNat, mask := mask, readers := readers }]) }) ∧
      (4 ≤ bs.length → exec (.tload target mask readers port) s = .next s)) ∧
    (∀ c, s.AccessReady l u r (.mzero c) →
      (t.queued < 8 → left (.mzero c) { t with cmds := t.cmds ++
        [{ drain := false, acc := c.toNat, after := t.arrived, fmt := 0, w0 := 0, token := false, blk := 0 }] }) ∧
      (8 ≤ t.queued → exec (.mzero c) s = .next s)) ∧
    (∀ c fmt, s.AccessReady l u r (.mdrain c fmt) →
      let bad := w0.extractLsb' 24 8 ≠ 0 ∨ 128 < (w0.extractLsb' 0 8).toNat + (w0.extractLsb' 8 8).toNat
      (bad → traps (.mdrain c fmt) .bound (w0.zeroExtend 64)) ∧
      (¬ bad → t.queued < 8 → left (.mdrain c fmt) { t with cmds := t.cmds ++
        [{ drain := true, acc := c.toNat, after := t.arrived, fmt := Fmt.code fmt, w0 := w0, token := false, blk := 0 }] }) ∧
      (¬ bad → 8 ≤ t.queued → exec (.mdrain c fmt) s = .next s)) ∧
    (∀ n, s.AccessReady l u r (.mrel n) →
      let g := t.target n.toNat
      let w : BitVec 12 := w0.extractLsb' 0 12
      let leaves := fun (rest : BitVec 12) =>
        if t.reads n.toNat = true ∧ rest = 0 then exec (.mrel n) s = .next s
        else left (.mrel n) (t.setTarget n.toNat { g with readers := rest, state := if rest = 0 then .empty else g.state })
      (g.state ≠ .full → exec (.mrel n) s = .next s) ∧
      (g.state = .full → w = 0 → leaves 0) ∧
      (g.state = .full → w ≠ 0 → g.maskMode = false → w.toNat ≤ g.readers.toNat → leaves (g.readers - w)) ∧
      (g.state = .full → w ≠ 0 → g.maskMode = false → g.readers.toNat < w.toNat → traps (.mrel n) .overread (g.gen.zeroExtend 64)) ∧
      (g.state = .full → w ≠ 0 → g.maskMode = true → (∀ k, k < 12 → w.getLsbD k = true → g.readers.getLsbD k = true) →
        leaves (g.readers &&& ~~~w)) ∧
      (∀ k, g.state = .full → g.maskMode = true → k < 12 → w.getLsbD k = true → g.readers.getLsbD k = false →
        (∀ j, j < k → w.getLsbD j = true → g.readers.getLsbD j = true) →
        traps (.mrel n) .overread (BitVec.ofNat 64 (g.gen.toNat + 256 * k + 4096))))

/-- R27, R54, R224, R287, R288, R289, R290, R297 to R300: what a matrix tile does of itself. A port fills the target of its oldest binding
record by record, record i giving words 16i to 16i + 15 of the image; step records reach the sequence port in order; a firing begins when its
registers are ready, lasts as its format, columns and LEVEL say, and writes its accumulator; when it completes it counts as reader 0 of its
operands, its length is a sample, and a TRACE operation posts; a step record that never fires is removed, and one that may not fire traps;
mzero clears its accumulator, and a drain sends its rows one record at a time, each with its columns in the output format and the next ord of
the tile, and its token after them.
Where the spec leaves the choice, it is the model's (logs 63, 64). -/
def Obligations.MatrixTileActs : Prop :=
  ∀ (s : State) (l : Launch) (inst x y : Nat), s.launch? inst = some l → l.acts = true →
    let t := l.mtile x y
    let u := l.unit x y 12
    let moves := fun (s : State) => s.modLaunch inst fun l => { l with lastMove := s.now }
    let trapped := fun (r : Record) (c : Cause) (d : DWord) =>
      ((s.modMtile inst x y fun t => { t with latch := none }).modUnit inst x y 12 fun u => { u with held := true }).raise inst
        (trapAt u x y 12 r c d 0 .item)
    let opens := ∀ rt ∈ l.routesOf x y 12 0, l.canAccept rt = true
    (∀ port r rest, port < 4 → u.port port = r :: rest → r.isToken = true → exec (.operandPortFill inst x y port) s =
      .next (moves (s.modUnit inst x y 12 fun u => u.pop port))) ∧
    (∀ port r rest b bs, port < 4 → u.port port = r :: rest → r.isToken = false → t.binds[port]? = some (b :: bs) →
      let g := t.target b.target
      (g.state = .empty ∨ (g.state = .filling ∧ g.filler = some (.port port)) → ∃ g' v, exec (.operandPortFill inst x y port) s = .next v ∧
        v = (moves (s.modUnit inst x y 12 fun u => u.pop port)).modMtile inst x y (fun t => t.take port b bs r) ∧
        g'.shape = g.shape ∧ g'.gen = g.gen ∧
        (SMap.wf 0 g.data = true → g.taken < targetRecords b.target g → ∀ i, SMap.getD g'.data i 0 =
          if 16 * g.taken ≤ i ∧ i < 16 * g.taken + 16 then r.at (i - 16 * g.taken) else SMap.getD g.data i 0) ∧
        (g.taken + 1 = targetRecords b.target g → g'.state = .full ∧ g'.poisoned = (r.ctl.poison || (g.taken != 0 && g.tainted)) ∧ g'.readers = b.readers ∧ g'.maskMode = b.mask ∧
          t.take port b bs r = { t.setTarget b.target g' with binds := t.binds.setIfInBounds port bs }) ∧
        (g.taken + 1 ≠ targetRecords b.target g → g'.state = .filling ∧ g'.filler = some (.port port) ∧ g'.taken = g.taken + 1 ∧
          g'.poisoned = g.poisoned ∧ g'.tainted = (r.ctl.poison || (g.taken != 0 && g.tainted)) ∧
          t.take port b bs r = t.setTarget b.target g')) ∧
      (g.state = .full ∨ (g.state = .filling ∧ g.filler ≠ some (.port port)) → exec (.operandPortFill inst x y port) s = .next s)) ∧
    (∀ r rest, u.open_ = true → u.held = false → t.latch = none → u.port 4 = r :: rest →
      let arrived := (s.setLaunch inst { (l.setUnit x y 12 (u.pop 4)).setMtile x y
        { t with latch := some (r, t.arrived), arrived := t.arrived + 1 } with lastMove := s.now })
      exec (.stepRecordArrival inst x y) s = .next (arrived.removeEmptyStep inst x y)) ∧
    (∀ r n, t.latch = some (r, n) → t.firing = none → (r.isToken = true ∨ (r.at 3).getLsbD 4 = true ∨ firingOp u = none) →
      (firingOp u = none ∨ (breakpoint u r).isSome = true) →
      s.removeEmptyStep inst x y = s.setLaunch inst { l.setMtile x y { t with latch := none } with drops := l.drops + 1, lastMove := s.now }) ∧
    (∀ r0 n o k, t.latch = some (r0, n) → t.firing = none → firingOp u = some (o, k) → u.held = false → breakpoint u r0 = none →
      exec (.firingBegin inst x y) s = .next (trapped r0 .brk 0)) ∧
    (∀ r n, t.latch = some (r, n) → t.firing = none → u.held = false →
      (firingOp u = none ∨ ((r.isToken = true ∨ (r.at 3).getLsbD 4 = true) ∧ breakpoint u r = some r)) →
      exec (.firingBegin inst x y) s = .next (s.setLaunch inst { l.setMtile x y { t with latch := none } with
        drops := l.drops + 1, lastMove := s.now })) ∧
    (∀ r0 r n o k a b c v, t.latch = some (r0, n) → t.firing = none → firingOp u = some (o, k) → u.held = false → breakpoint u r0 = some r →
      r.isToken = false → (r.at 3).getLsbD 4 = false →
      a = (o.a ^^^ (r.at 4).extractLsb' 0 3).toNat → b = (o.b ^^^ (r.at 4).extractLsb' 4 3).toNat → c = (o.d ^^^ (r.at 4).extractLsb' 8 2).toNat →
      v = (match k with | .msca v _ => (v ^^^ (r.at 4).extractLsb' 12 2).toNat | _ => 4) →
      (t.target a).ready = true → (t.target b).ready = true → (v < 4 → (t.target (8 + v)).ready = true) → t.accFree c n = true →
      let fits := a ≠ b ∧ shapeFmt (t.target a).shape = o.fmt ∧ shapeFmt (t.target b).shape = o.fmt ∧
        shapeCols (t.target a).shape = shapeCols (t.target b).shape
      let strict := u.strict = true ∧ o.fmt = .t2
      let at_ := fun (n i k : Nat) => BitVec.ofNat 64 (n + 2 ^ 8 * i + 2 ^ 16 * k + 2 ^ 31)
      (fits → (strict → (t.target a).badCode = none ∧ (t.target b).badCode = none) → exec (.firingBegin inst x y) s =
        .next (moves (s.modMtile inst x y fun t => { t with
          latch := none, firing := some { step := r, number := n, a := a, b := b, c := c, v := v, written := false,
                                          length := firingLength o.fmt (shapeCols (t.target a).shape) s.level.toNat } }))) ∧
      (∀ i k, fits → strict → (t.target a).badCode = some (i, k) → exec (.firingBegin inst x y) s = .next (trapped r0 .format (at_ a i k))) ∧
      (∀ i k, fits → strict → (t.target a).badCode = none → (t.target b).badCode = some (i, k) →
        exec (.firingBegin inst x y) s = .next (trapped r0 .format (at_ b i k))) ∧
      (¬ fits → exec (.firingBegin inst x y) s = .next (trapped r0 .bound
        (BitVec.ofNat 64 (o.a.toNat + 8 * o.b.toNat + 256 * (Fmt.code o.fmt).toNat + 2 ^ 31))))) ∧
    (∀ g, t.firing = some g → g.written = true →
      let once := fun (t : MatrixTile) (n : Nat) => t.setTarget n (t.target n).readOnce
      let v := s.modMtile inst x y fun t =>
        { (if g.v < 4 then once (once (once t g.a) g.b) (8 + g.v) else once (once t g.a) g.b) with firing := none }
      let w := if u.traces then v.tracePost (l.dieOf x y) u g.step.ctl.ord else v
      exec (.firingComplete inst x y) s = .next
        ((moves (w.sample (l.dieOf x y) 8 l.record.space (BitVec.ofNat 32 g.length))).removeEmptyStep inst x y)) ∧
    (∀ fmt columns level, level < 8 →
      let block := match fmt with
        | .fp32 => 8
        | .fp16 | .bf16 => 64
        | .e5m2 | .e4m3 | .s8 | .n8 | .e8m0 => 128
        | .e3m2 | .e2m3 | .e2m1 | .s4 | .n4 => 256
        | .s2 | .t2 => 512
      let cycles := 64 * ((columns + block - 1) / block)
      cycles * 8 ≤ firingLength fmt columns level * (8 - level) ∧
        firingLength fmt columns level * (8 - level) < cycles * 8 + (8 - level)) ∧
    (∀ (g : TileReg), g.state = .full → 0 < g.readers.toNat →
      let left := if g.maskMode then g.readers &&& 0xFFE else g.readers - 1
      g.readOnce = { g with readers := left, state := if left = 0 then .empty else .full }) ∧
    (∀ i c, t.nextCmd false = some (i, c) → (∀ d, t.drain = some d → d.acc ≠ c.acc) → exec (.mzeroAct inst x y) s =
      .next (s.modMtile inst x y fun t =>
        { t with cmds := t.cmds.eraseIdx i, accs := t.accs.setIfInBounds c.acc { data := [], poisoned := false } })) ∧
    (∀ i c, t.drain = none → t.nextCmd true = some (i, c) → c.token = false →
      let first := (c.w0.extractLsb' 0 8).toNat
      let count := (c.w0.extractLsb' 8 8).toNat
      exec (.mdrainAct inst x y) s = .next (s.modMtile inst x y fun t => { t with
        cmds := t.cmds.eraseIdx i
        drain := if count = 0 then none else some { acc := c.acc, fmt := c.fmt, row := first, rowEnd := first + count, part := 0,
                                                     blk := c.w0.extractLsb' 16 8, integer := u.integerFiring } })) ∧
    (∀ d, t.drain = some d → opens → ∃ v, s.depart inst x y 12 [out0 (drainRecord l t d)] t.resultOrd = some v ∧
      exec (.mdrainAct inst x y) s = .next (v.modMtile inst x y fun t => { t with resultOrd := t.resultOrd + 1, drain := d.next })) ∧
    (∀ d : Drain, let n := if d.fmt = 0 then 16 else if d.fmt = 1 ∨ d.fmt = 2 then 32 else 64
      let acc := t.accs[d.acc]?.getD { data := [], poisoned := false }
      let r := drainRecord l t d
      (∀ i, i < n → let w := SMap.getD acc.data (d.row * 128 + d.part * n + i) 0
        r.element 0 (512 / n) i = if d.fmt = 0 then w.toNat
          else convert (Fmt.ofCode d.fmt) .rne true 0 (if d.integer then Val.ofInt w.toInt else Fmt.value .fp32 w.toNat) % 2 ^ (512 / n)) ∧
      r.ctl = { blk := d.blk, ret0 := 0, ret1 := 0, bud := budOf l.record.budget, eos := false, p := false, poison := acc.poisoned,
                trapped := false, ord := t.resultOrd } ∧
      (d.part + 1 < 128 / n → d.next = some { d with part := d.part + 1 }) ∧
      (128 / n ≤ d.part + 1 → d.row + 1 < d.rowEnd → d.next = some { d with row := d.row + 1, part := 0 }) ∧
      (128 / n ≤ d.part + 1 → d.rowEnd ≤ d.row + 1 → d.next = none)) ∧
    (∀ i c, t.drain = none → t.nextCmd true = some (i, c) → c.token = true → opens →
      let r := Record.zero (sourceRcw c.blk l.record.budget true false t.resultOrd)
      ∃ v, s.depart inst x y 12 [out0 r] t.resultOrd = some v ∧ exec (.mdrainAct inst x y) s =
        .next (v.modMtile inst x y fun t => { t with resultOrd := t.resultOrd + 1, cmds := t.cmds.eraseIdx i }))

/-- R289, R301, R302: mma, mmap and msca. A firing writes the elements of its M rows and N columns and no other. An element of an integer format
is the exact sum of products added to the old element, or to zero, wrapped or clamped; an element of a float format is the model's
accumulateF of the rows, group sums rounded to FP32 and added with one rounding each; an element of msca is the model's scaleOnto of the old
element, the sum, vS and kS; poison of any operand marks the accumulator.
Where the spec leaves the choice, it is the model's (logs 12, 63). -/
def Obligations.FiringResults : Prop :=
  (∀ (s : State) (l : Launch) (u : UnitState) (o : FireOp) (g : Firing), s.here = some (l, u) → l.acts = true →
    let f := s.focus
    let t := l.mtile f.x f.y
    t.firing = some g → g.written = false → g.c < 4 → g.a < 8 → g.b < 8 →
    let a := t.target g.a
    let b := t.target g.b
    let v := if g.v < 4 then t.target (8 + g.v) else TileReg.reset
    let acc := t.accs[g.c]?.getD { data := [], poisoned := false }
    let key := fun q => Config.groupKey (l.absY f.y * 128 + l.absX f.x) t.epoch (Fmt.code o.fmt).toNat
      (shapeRows a.shape * 128 + shapeRows b.shape) (shapeCols a.shape) q
    let poisoned := acc.poisoned || a.poisoned || b.poisoned || (decide (g.v < 4) && v.poisoned)
    let writes := fun (i : Instr) (kind : FireKind) => exec i s = .next (s.modMtile f.inst f.x f.y fun t => { t with
      accs := t.accs.setIfInBounds g.c { data := fired o.fmt kind u.isat key u.k a b v acc.data, poisoned := poisoned }
      firing := some { g with written := true } })
    writes (.mma o) .mma ∧ writes (.mmap o) .mmap ∧ ∀ vs k, writes (.msca o vs k) (.msca vs k)) ∧
  (∀ (fmt : Fmt) (isat : Bool) (key : Nat → Nat) (kword : Nat → Word) (a b v : TileReg) (data : SMap Word) (i j : Nat),
    SMap.wf 0 data = true → shapeFmt a.shape = fmt → shapeFmt b.shape = fmt → shapeCols a.shape = shapeCols b.shape →
    i < 128 → j < 128 →
    let element := fun (kind : FireKind) => SMap.getD (fired fmt kind isat key kword a b v data) (i * 128 + j) 0
    let old := SMap.getD data (i * 128 + j) 0
    let width := fmt.width
    let columns := shapeCols a.shape
    let row := fun (g : TileReg) (i : Nat) => (List.range columns).map fun k => g.code width (i * columns + k)
    let inside := i < shapeRows a.shape ∧ j < shapeRows b.shape
    let sum := (List.range columns).foldl
      (fun (n : Int) k => n + fmt.intOf (a.code width (i * columns + k)) * fmt.intOf (b.code width (j * columns + k))) 0
    (¬ inside → ∀ kind, element kind = old) ∧
    (inside → fmt.floats = false → IsResult isat 32 (old.toInt + sum) (element .mma).toNat ∧ IsResult isat 32 sum (element .mmap).toNat) ∧
    (inside → fmt.floats = true → element .mma = BitVec.ofNat 32 (accumulateF fmt key old.toNat (row a i) (row b j)) ∧
      element .mmap = BitVec.ofNat 32 (accumulateF fmt key 0 (row a i) (row b j))) ∧
    (inside → ∀ n k, element (.msca n k) = BitVec.ofNat 32
      (scaleOnto fmt old.toNat (accumulated fmt isat key 0 (row a i) (row b j)) (SMap.getD v.data i 0).toNat (kword k.toNat).toNat)))

/-! ### Engines and page operations -/

/-- R97, R135, R136, R139, R140, R143: the operations that hand their record's request to an engine, the loader or a controller. Each checks its
request, releases, and queues it: copy at its page's engine while that has room, bin.app and bin.rpl at their bin set's Kelpie, cfg behind the
region's cfgs, space.retire at its controller.
Where the spec leaves the choice, it is the model's (logs 65, 66, 67, 91). -/
def Obligations.EngineRequests : Prop :=
  ∀ (s t : State) (l l' : Launch) (u u' : UnitState) (r : Record) (m : MemRef),
    let f := s.focus
    let ea := effectiveAddr l m (indexWord m r)
    let r0 := (u.port 0).headD r
    let releases := fun (i : Instr) =>
      s.releaseWays f.inst f.x f.y (l.requestScope m i) = (true, t) ∧ t.here = some (l', u') ∧ t.focus = f
    (∀ loc, s.AccessReady l u r (.copy m) → IsAt l f.x f.y m 1 ea loc →
      (∀ w, copyBad (s.feature 7) l r.words = some w →
        ∃ v, exec (.copy m) s = .next v ∧ s.TrapsAs v l u r .illegal (BitVec.ofNat 64 (7 + 256 * w)) ea) ∧
      (copyBad (s.feature 7) l r.words = none → releases (.copy m) →
        let page := l'.pageOf f.x f.y
        let q := SMap.getD t.copies page []
        let clash := t.clashes u' f.inst f.x f.y f.unit (copyRanges r.words)
        let job : CopyJob := { desc := r.words, completion := ea, space := l'.record.space, inst := f.inst, x := f.x, y := f.y, unit := f.unit,
                               started := false, row := 0, offset := 0, phase := 0, data := [], states := [], reply := none, status := 0 }
        let v := t.takeHead.answeredAccess (.copy m) r ea (some replyDone)
        (q.length < 16 → clash = false → exec (.copy m) s =
          .next (({ v with copies := SMap.insert v.copies page (q ++ [job]) } : State).noteStep u r0 r)) ∧
        (16 ≤ q.length ∨ clash = true → exec (.copy m) s = .next t))) ∧
    (∀ loc, IsAt l f.x f.y m 16 ea loc →
      let d := vaDie ea.toNat
      let job := fun (replay : Bool) => ({
        replay := replay, set := ea, record := r, space := l'.record.space, scope := l'.scope m.scope, inst := f.inst, x := f.x, y := f.y
        unit := f.unit, id := u'.nextId, block := u'.block, opIndex := u'.opIndex, desc := [], done := 0, total := 0, asked := false
        reply := none, stall := none, status := 0, ending := false } : KelpieJob)
      let queued := fun (i : Instr) (replay : Bool) =>
        let v := t.takeHead.answeredAccess i r ea none
        exec i s = .next ((v.setDie d { v.die d with kelpie := (v.die d).kelpie ++ [job replay] }).noteStep u r0 r)
      let trap := fun (i : Instr) (word : Nat) =>
        ∃ v, exec i s = .next v ∧ s.TrapsAs v l u r .illegal (BitVec.ofNat 64 (7 + 256 * word)) ea
      let place := fun (k : Nat) => (r.pair k).toNat < 2 ^ 52 ∧ (r.pair k).toNat % 4 = 0
      (s.AccessReady l u r (.binApp m) →
        ((r.at 0).extractLsb' 0 3 = 0 → trap (.binApp m) 0) ∧
        ((r.at 0).extractLsb' 0 3 ≠ 0 → releases (.binApp m) → queued (.binApp m) false)) ∧
      (s.AccessReady l u r (.binRpl m) →
        ((r.at 1).getLsbD 0 = false → ¬ place 2 → trap (.binRpl m) 2) ∧
        ((r.at 1).getLsbD 0 = true ∨ place 2 → ¬ place 4 → trap (.binRpl m) 4) ∧
        ((r.at 1).getLsbD 0 = true ∨ place 2 → place 4 → releases (.binRpl m) → queued (.binRpl m) true))) ∧
    (∀ d b, s.AccessReady l u r (.cfg d b m) →
      let n := (r.w b).toNat
      (n = 0 ∨ 2 ^ 20 < n → exec (.cfg d b m) s =
        .next ((s.takeHead.answeredAccess (.cfg d b m) r ea (some (.ok [1, 0] [] true false))).noteStep u r0 r)) ∧
      (∀ loc, n ≠ 0 → n ≤ 2 ^ 20 → IsAt l f.x f.y m 1 ea loc → exec (.cfg d b m) s =
        .next (((s.takeHead.answeredAccess (.cfg d b m) r ea none).modLaunch f.inst fun l =>
          { l with cfgs := l.cfgs ++ [Loader.start ea n l.record.space (l.scope m.scope) (some (f.x, f.y, f.unit, u.nextId))] }).noteStep
            u r0 r))) ∧
    (∀ loc, s.AccessReady l u r (.spaceRetire m) →
      (pageLevel r = 3 ∨ (r.at 0).extractLsb' 14 18 ≠ 0 →
        ∃ v, exec (.spaceRetire m) s = .next v ∧ s.TrapsAs v l u r .illegal 7 ea) ∧
      (pageLevel r ≠ 3 → (r.at 0).extractLsb' 14 18 = 0 → IsAt l f.x f.y m 1 ea loc → releases (.spaceRetire m) →
        exec (.spaceRetire m) s = .next (({ t.takeHead.answeredAccess (.spaceRetire m) r ea (some replyDone) with
          retires := t.retires ++ [{ space := pageSpace r, completion := ea, reqSpace := l'.record.space, scope := l'.scope m.scope,
                                     inst := f.inst, die := vaDie ea.toNat, worked := false }] } : State).noteStep u r0 r)))

/-- R136, R137, R138, R139, R140, R198, R297, R312, R313, R314, R352: what the engines do of themselves. A copy starts, reads a unit, writes it,
and at the end or at a failure stores its completion word with its status and rows; a row does not begin at a tile whose banks a commit
changes, and a tile of a region that is away is read as it was saved. Kelpie accepts its head once its bin set has been read and found valid.
Of a pair, one whose bin does not exist counts in DISCARDED; one whose bin is full is asked of TARGET, and counts in OVERFLOW once it has been
performed; any other becomes the next entry of its bin. A replay asks for its bin's entries in the order of appending, each at the chunk's
word of its offset, then clears the fill word and stores its completion word. A retirement works on the four dies once no region of its space
is left, and then stores its word.
Where the spec leaves the choice, it is the model's (logs 42, 65, 66, 99, 100, 123, 125). -/
def Obligations.EnginesAct : Prop :=
  (∀ (s : State) (page : Nat) (l : Launch) (j : CopyJob), s.copyHead page = some (l, j) →
    let d := j.desc
    let becomes := fun (j : CopyJob) => s.setCopy page (some j)
    let ends := fun (status : Nat) => ({ j with status := status, phase := 4, reply := none } : CopyJob)
    (j.started = false → j.mayRun l = true →
      let size := descRows d * descBytes d
      let (x, y, n) := j.register
      let g := (l.mtile x y).target n
      let fits := (descDSpace d = 3 → targetRecords n g * 64 = size) ∧ j.misfit l = false
      (¬ fits → exec (.copyStart page) s = .next (becomes { ends 6 with started := true })) ∧
      (fits → descDSpace d ≠ 3 → exec (.copyStart page) s = .next (becomes { j with started := true })) ∧
      (fits → descDSpace d = 3 → g.state ≠ .empty → exec (.copyStart page) s = .next s) ∧
      (fits → descDSpace d = 3 → g.state = .empty → exec (.copyStart page) s =
        .next ((s.modMtile j.inst x y fun m => m.setTarget n { g with state := .filling, filler := some .copy, taken := 0 }).setCopy page
          (some { j with started := true })))) ∧
    (j.mayRun l = true ↔ l.resident = true ∨ (descDSpace d ≠ 1 ∧ descDSpace d ≠ 3)) ∧
    (j.shut l = true ↔ j.offset = 0 ∧ j.data = [] ∧ ∃ c ∈ j.rowCells l, (l.tile c.1 c.2).closed ≠ []) ∧
    (∀ c : Nat × Nat, c ∈ j.rowCells l ↔
      (descSSpace d = 1 ∧ c = ((tilePlace ((j.srcAt l 0).toNat / 4)).1, (tilePlace ((j.srcAt l 0).toNat / 4)).2.1)) ∨
      (descDSpace d = 1 ∧ c = ((tilePlace ((j.dstAt l 0).toNat / 4)).1, (tilePlace ((j.dstAt l 0).toNat / 4)).2.1))) ∧
    (j.started = true → j.mayRun l = true → j.phase = 0 → j.row < descRows d → j.shut l = true → exec (.copyUnit page) s = .next s) ∧
    (j.started = true → j.mayRun l = true → j.phase = 0 → j.row < descRows d → j.shut l = false →
      (j.offset ≠ 0 ∨ j.data ≠ [] ∨ j.misfit l = false) →
      let byte := j.srcAt l (if descCount d then 4 * j.data.length else j.offset)
      let n := if descCount d = true ∧ j.data ≠ [] then 1 else j.unitWords l
      let op : HomeOp := .load (if descSMode d = 1 then .w else if descSMode d = 2 then .c else .plain) n
      (endCanonical (descSSpace d) byte = true → (l.saved = none ∨ descSSpace d ≠ 1) → exec (.copyUnit page) s =
        .next ((becomes { j with phase := 1, reply := none }).copyPost page l j (endLoc (descSSpace d) byte) op)) ∧
      (∀ x y w, l.saved ≠ none → descSSpace d = 1 → endLoc (descSSpace d) byte = .tile x y w →
        let asked := s.tileForm l (mkReq (.copy page) j.space (.tile x y w) op .region j.inst (j.x, j.y) 0)
        let answered := fun (s : State) (r : Reply) => Host.Outcome.next (s.setCopy page (some { j with phase := 1, reply := some r }))
        (asked = none → exec (.copyUnit page) s = answered s (.trap .illegal 5 0)) ∧
        (∀ q, asked = some q →
          let v := l.tileRow x y q.key
          (∀ v' r c a e ev, v.perform q.word q.op = .done v' r c a e ev → exec (.copyUnit page) s = answered
            (s.modLaunch j.inst fun k =>
              let row := (l.tile x y).setRow q.key (l.rowCounts x y q.key) v v'
              { k with saved := k.saved.map fun t => if v' = v then t else { t with tiles := SMap.put t.tiles TileState.reset (cellKey x y) row } })
            r) ∧
          (∀ c a, v.perform q.word q.op = .trap c a → exec (.copyUnit page) s = answered s (.trap c a 0)) ∧
          (v.perform q.word q.op = .wait → exec (.copyUnit page) s = .next s))) ∧
      (endCanonical (descSSpace d) byte = false → exec (.copyUnit page) s = .next (becomes (ends 7)))) ∧
    (j.started = true → j.mayRun l = true → j.phase = 0 → descRows d ≤ j.row → exec (.copyUnit page) s = .next (becomes (ends 0))) ∧
    (j.started = true → j.mayRun l = true → j.phase = 0 → j.row < descRows d → j.offset = 0 → j.data = [] → j.shut l = false → j.misfit l = true →
      exec (.copyUnit page) s = .next (becomes (ends 6))) ∧
    (∀ ws fs held, j.started = true → j.mayRun l = true → j.phase = 1 → j.reply = some (.ok ws fs held false) →
      exec (.copyUnit page) s = .next ((becomes { j with
        data := j.data ++ ws, states := j.states ++ fs, reply := none
        phase := if descCount d = true ∧ j.data.length + ws.length < 16 then 0 else 2 }).moved j.inst)) ∧
    (∀ reply status, j.started = true → j.mayRun l = true → (j.phase = 1 ∨ j.phase = 3) → j.reply = some reply → stopStatus reply = some status →
      exec (.copyUnit page) s = .next ((becomes (ends status)).moved j.inst)) ∧
    (j.started = true → j.mayRun l = true → j.phase = 2 → descDSpace d ≠ 3 →
      let byte := j.dstAt l j.offset
      let unread := (d.get 9).extractLsb' 8 12 = 0
      let unpaid := descDSpace d = 0 ∧ l.record.quota = 0
      (endCanonical (descDSpace d) byte = true → descCount d = true → unread ∨ unpaid → exec (.copyUnit page) s = .next (becomes (ends 7))) ∧
      (endCanonical (descDSpace d) byte = true → descCount d = true → ¬ unread → ¬ unpaid → exec (.copyUnit page) s =
        .next ((becomes { j with phase := 3, reply := none }).copyPost page l j (endLoc (descDSpace d) byte) (.fill (d.get 9) j.data))) ∧
      (endCanonical (descDSpace d) byte = true → descCount d = false → exec (.copyUnit page) s =
        .next ((becomes { j with phase := 3, reply := none }).copyPost page l j (endLoc (descDSpace d) byte)
          (if descDMode d = 3 then .storeStates j.data j.states
           else .store (if descDMode d = 1 then .s else if descDMode d = 2 then .f else .plain) j.data))) ∧
      (endCanonical (descDSpace d) byte = false → exec (.copyUnit page) s = .next (becomes (ends 7)))) ∧
    (j.started = true → j.mayRun l = true → j.phase = 2 → descDSpace d = 3 → exec (.copyUnit page) s = .next (s.copyToRegister page j)) ∧
    (∀ reply, j.started = true → j.mayRun l = true → j.phase = 3 → j.reply = some reply → stopStatus reply = none →
      exec (.copyUnit page) s = .next ((becomes j.advance).moved j.inst)) ∧
    (j.started = true → j.phase = 4 → exec (.copyUnit page) s =
      .next ((s.peerSettle.setCopy page (some { j with phase := 5, reply := none })).copyPost page l j (.glob j.completion)
        (.store .s [BitVec.ofNat 32 (2 ^ 31 + j.status * 2 ^ 24 + j.row % 2 ^ 24)]))) ∧
    (∀ reply, j.started = true → j.phase = 5 → j.reply = some reply → exec (.copyUnit page) s = .next ((s.setCopy page none).moved j.inst))) ∧
  (∀ (s : State) (die : Nat) (l : Launch) (j : KelpieJob) (rest : List KelpieJob), (s.die die).kelpie = j :: rest →
    s.launch? j.inst = some l →
    let b := (j.record.at 0).toNat
    let target := pair64 (j.word 0) (j.word 1)
    let fillAt := fun (b : Nat) => (pair64 (j.word 4) (j.word 5)).toNat + 4 * b
    let entryAt := fun (b n : Nat) => (pair64 (j.word 2) (j.word 3)).toNat + (b * (j.word 6).toNat + n) * 8
    let nBins := (j.word 7).toNat
    let chunk := 2 ^ ((j.word 8).extractLsb' 0 8).toNat
    let code : BitVec 8 := match ((j.word 8).extractLsb' 8 4).toNat with
      | 1 => 0x8D
      | 2 => 0x86
      | 3 => 0x87
      | 4 => 0x89
      | 5 => 0x8B
      | _ => 0x84
    let goes := { j with done := j.done + 1, asked := false, reply := none, stall := none }
    let asks := fun (v : State) (loc : Loc) (value : Word) (sc : Scope) =>
      (v.setKelpie die (some { j with asked := true, reply := none, stall := none })).post
        (mkReq (.kelpie die) j.space loc (.atom code false (value.zeroExtend 64) .relaxed) sc j.inst (j.x, j.y) die)
    let stops := fun (v : State) (status : Nat) =>
      if j.desc = [] then (v.setKelpie die none).kelpieAnswer j (if status = 1 then .trap .unmapped 0 j.set
        else if status = 7 then .trap .attr 2 j.set else .trap .deviceErr 3 j.set)
      else if j.replay then v.setKelpie die (some { j with status := status, ending := true, asked := false, reply := none, stall := none })
      else v.setKelpie die (some goes)
    -- an access of Kelpie's own that is not made
    (∀ va op go v, s.accessNow j.space va j.inst op = .wait v → s.kelpieAccess die j va op go = v) ∧
    (∀ va op go v, s.accessNow j.space va j.inst op = .fault v →
      s.kelpieAccess die j va op go = (v.faultEvent j.space va 2).setKelpie die (some { j with stall := some (va / 2 ^ 16) })) ∧
    (∀ va op go v, s.accessNow j.space va j.inst op = .denied v → s.kelpieAccess die j va op go = stops v 7) ∧
    (∀ va op go v, s.accessNow j.space va j.inst op = .error v ∨ s.accessNow j.space va j.inst op = .hole v →
      s.kelpieAccess die j va op go = stops v 2) ∧
    (∀ va op go v q, s.accessNow j.space va j.inst op = .ok v q → q.poisoned = true → s.kelpieAccess die j va op go = stops v 3) ∧
    (let index := j.record.at (2 * j.done + 2)
      let first : Nat × HomeOp :=
        if j.desc = [] then (j.set.toNat, .load .plain 16)
        else if j.replay then (if j.done < j.total then (entryAt b j.done, .load .plain 2) else (fillAt b, .store .plain [0]))
        else if j.asked then (j.set.toNat + 0x24, .load .plain 1)
        else if nBins ≤ index.toNat / chunk then (j.set.toNat + 0x28, .load .plain 1)
        else (fillAt (index.toNat / chunk), .load .plain 1)
      (j.desc = [] ∨
        (j.replay = false ∧ j.done < j.total ∧ (j.asked = false ∨ ∃ r, j.reply = some r ∧ stopStatus r = none)) ∨
        (j.replay = true ∧ j.asked = false ∧ j.ending = false ∧
          (j.total ≤ j.done ∨ (j.record.at 1).getLsbD 0 = false ∨ l.resident = true))) →
      ∃ go, exec (if j.replay then .kelpieReplay die else .kelpieAppend die) s = .next (s.kelpieAccess die j first.1 first.2 go)) ∧
    -- acceptance
    (∀ ws : List Word, let w := fun i => ws.getD i 0
      let addr := fun i => (pair64 (w i) (w (i + 1))).toNat
      let valid := addr 0 < 2 ^ 52 ∧ addr 0 % 4 = 0 ∧ addr 2 < 2 ^ 52 ∧ addr 2 % 8 = 0 ∧ addr 4 < 2 ^ 52 ∧ addr 4 % 4 = 0 ∧
        1 ≤ (w 6).toNat ∧ (w 6).toNat ≤ 2 ^ 24 ∧ 1 ≤ (w 7).toNat ∧ (w 7).toNat ≤ 2 ^ 20 ∧ (w 8).extractLsb' 15 17 = 0 ∧
        ((w 8).extractLsb' 12 3).toNat ≤ 4 ∧ ((w 8).extractLsb' 8 4).toNat ≤ 5 ∧ ((w 8).extractLsb' 0 8).toNat ≤ 24 ∧
        w 11 = 0 ∧ w 12 = 0 ∧ w 13 = 0 ∧ w 14 = 0 ∧ w 15 = 0
      binSetBad ws = none ↔ valid) ∧
    (∀ v ws, j.desc = [] → s.Reads j.space j.set.toNat j.inst 16 v ws →
      let a := { j with desc := ws, stall := none }
      let run := fun (t : State) => exec (if j.replay then .kelpieReplay die else .kelpieAppend die) s = .next t
      let invalid := fun (n : Nat) => run ((v.setKelpie die none).kelpieAnswer j (.trap .illegal (BitVec.ofNat 64 (7 + 256 * n)) j.set))
      (∀ n, binSetBad ws = some n → invalid n) ∧
      (binSetBad ws = none → j.replay = false →
        run ((v.setKelpie die (some { a with total := ((j.record.at 0).extractLsb' 0 3).toNat })).kelpieAnswer j replyDone)) ∧
      (binSetBad ws = none → j.replay = true → (a.word 7).toNat ≤ b → invalid 0) ∧
      (binSetBad ws = none → j.replay = true → b < (a.word 7).toNat →
        let c := (j.record.at 2).toNat
        let p := tilePlace c
        let bad := (j.record.at 1).getLsbD 0 = true ∧
          (2 ^ 28 ≤ c ∨ l.has p.1 p.2.1 = false ∨ 2 ^ 15 < p.2.2 + 2 ^ ((a.word 8).extractLsb' 0 8).toNat)
        (bad → invalid 2) ∧
        (∀ x fill, ¬ bad → v.Reads j.space ((pair64 (a.word 4) (a.word 5)).toNat + 4 * b) j.inst 1 x [fill] →
          run ((x.setKelpie die (some { a with total := fill.toNat })).kelpieAnswer j replyDone)))) ∧
    -- the pairs of a bin.app
    (j.replay = false → j.desc ≠ [] → j.total ≤ j.done → exec (.kelpieAppend die) s = .next (s.setKelpie die none)) ∧
    (j.replay = false → j.desc ≠ [] → j.done < j.total → j.asked = false →
      let index := j.record.at (2 * j.done + 2)
      let value := j.record.at (2 * j.done + 3)
      let bin := index.toNat / chunk
      (∀ v n w, nBins ≤ bin → s.Reads j.space (j.set.toNat + 0x28) j.inst 1 v [n] →
        v.Writes j.space (j.set.toNat + 0x28) j.inst [n + 1] w → exec (.kelpieAppend die) s = .next (w.setKelpie die (some goes))) ∧
      (∀ v fill, bin < nBins → s.Reads j.space (fillAt bin) j.inst 1 v [fill] →
        (fill = j.word 6 → exec (.kelpieAppend die) s = .next (asks v (.glob (target + BitVec.ofNat 64 (4 * index.toNat))) value j.scope)) ∧
        (∀ w x, fill ≠ j.word 6 → v.Writes j.space (entryAt bin fill.toNat) j.inst [index, value] w →
          w.Writes j.space (fillAt bin) j.inst [fill + 1] x →
          exec (.kelpieAppend die) s = .next ((x.setKelpie die (some goes)).moved j.inst)))) ∧
    (∀ reply, j.replay = false → j.desc ≠ [] → j.done < j.total → j.asked = true → j.reply = some reply →
      (stopStatus reply ≠ none → exec (.kelpieAppend die) s = .next ((s.setKelpie die (some goes)).moved j.inst)) ∧
      (∀ v n w, stopStatus reply = none → s.Reads j.space (j.set.toNat + 0x24) j.inst 1 v [n] →
        v.Writes j.space (j.set.toNat + 0x24) j.inst [n + 1] w →
        exec (.kelpieAppend die) s = .next ((w.setKelpie die (some goes)).moved j.inst))) ∧
    -- the entries of a bin.rpl
    (∀ v index value, j.replay = true → j.desc ≠ [] → j.asked = false → j.ending = false → j.done < j.total →
      ((j.record.at 1).getLsbD 0 = false ∨ l.resident = true) → s.Reads j.space (entryAt b j.done) j.inst 2 v [index, value] →
      let offset := index.toNat % chunk
      let p := tilePlace ((j.record.at 2).toNat + offset)
      exec (.kelpieReplay die) s = .next (asks v
        (if (j.record.at 1).getLsbD 0 then .tile p.1 p.2.1 p.2.2 else .glob (j.record.pair 2 + BitVec.ofNat 64 (4 * offset))) value
        (l.scope (scopeOf ((j.word 8).extractLsb' 12 3).toNat)))) ∧
    (∀ reply, j.replay = true → j.desc ≠ [] → j.asked = true → j.ending = false → j.reply = some reply → stopStatus reply = none →
      exec (.kelpieReplay die) s =
        .next ((s.setKelpie die (some { j with done := j.done + 1, asked := false, reply := none })).moved j.inst)) ∧
    (∀ reply status, j.replay = true → j.desc ≠ [] → j.asked = true → j.ending = false → j.reply = some reply →
      stopStatus reply = some status → exec (.kelpieReplay die) s = .next (s.setKelpie die (some
        { j with status := status, ending := true, asked := false, reply := none, stall := none }))) ∧
    (j.replay = true → j.desc ≠ [] → j.asked = false → j.ending = true → exec (.kelpieReplay die) s = .next (s.kelpieFinish die l j)) ∧
    (∀ v, j.replay = true → j.desc ≠ [] → j.asked = false → j.ending = false → j.total ≤ j.done → s.Writes j.space (fillAt b) j.inst [0] v →
      exec (.kelpieReplay die) s = .next (v.kelpieFinish die l j)) ∧
    s.kelpieFinish die l j = (s.setKelpie die (some { j with asked := true, ending := true, reply := none, stall := none })).post
      (mkReq (.kelpie die) j.space (.glob (j.record.pair 4)) (.store .s [BitVec.ofNat 32 (2 ^ 31 + j.status * 2 ^ 24 + j.done % 2 ^ 24)])
        (l.scope (scopeOf j.setScope)) j.inst (j.x, j.y) die) ∧
    (∀ reply, j.replay = true → j.desc ≠ [] → j.asked = true → j.ending = true → j.reply = some reply →
      exec (.kelpieReplay die) s = .next ((s.setKelpie die none).moved j.inst))) ∧
  (∀ (s : State) (k : Nat) (q : Retire), s.retires[k]? = some q →
    (q.worked = false → s.spaceLive q.space = true → exec (.spaceRetireRun k) s = .next s) ∧
    (q.worked = false → s.spaceLive q.space = false → exec (.spaceRetireRun k) s = .next (match s.retireOn q.space q.dies with
      | some v => { v with retires := v.retires.set k { q with dies := q.dies + 1, worked := decide (3 ≤ q.dies) } }
      | none => s)) ∧
    (q.worked = true → exec (.spaceRetireRun k) s = .next (
      match s.performNow (mkReq (.ring q.die 2) q.reqSpace (.glob q.completion) (.store .s [BitVec.ofNat 32 (2 ^ 31)]) q.scope q.inst (0, 0) q.die) with
      | .ok v _ => ({ v with retires := v.retires.eraseIdx k } : State).moved q.inst
      | .wait v => v
      | .fault v => v.faultEvent q.reqSpace q.completion.toNat 2
      | other => { other.state with retires := other.state.retires.eraseIdx k })))

/-- R141, R142, R143, R336, R342, R346, R347, R349, R350: the privileged operations act at the owning controller after their release and write
w12 to w15, or wait; their checks stop the others, MISALIGN before NONCANON (log 44). Each finds its page's entry, waits while the
copy-on-write engine holds it, and answers a status by it; with OK page.map names its frames, changes the leaf and gives up the old frames,
page.share writes the source's leaf without write and with COW, marks a writable source COW and raises the counts, and page.prot changes the
leaf in its place. tlb.inv forgets the translations of its range; fault.resume sends the range's faulted accesses and logged writes again,
and fault.fail ends them, with UNMAPPED and without effect. The rings' engine takes and returns frames and blocks, by .c and .f where the
spec does not name the form (log 83), FRPUSH takes a frame of count 0 only, and copy-on-write splits, copies or reclaims the page at its head.
Where the spec leaves the choice, it is the model's (logs 44, 67, 83, 104, 105, 107). -/
def Obligations.PageOperations : Prop :=
  (∀ (s t : State) (l : Launch) (u : UnitState) (r : Record) (m : MemRef),
    let f := s.focus
    let ea := effectiveAddr l m (indexWord m r)
    let level := pageLevel r
    let sound := level ≠ 3 ∧ (r.at 0).extractLsb' 14 18 = 0
    let performs := fun (i : Instr) (op : BitVec 12 → Nat → Nat → Record → State → State × Option PageResult) =>
      s.AccessReady l u r i →
      (¬ sound → ∃ w, exec i s = .next w ∧ s.TrapsAs w l u r .illegal 7 ea) ∧
      (sound → ea.toNat % levelBytes level ≠ 0 →
        ∃ w, exec i s = .next w ∧ s.TrapsAs w l u r .misalign (BitVec.ofNat 64 m.size.code.toNat) ea) ∧
      (sound → ea.toNat % levelBytes level = 0 → 2 ^ 52 ≤ ea.toNat → ∃ w, exec i s = .next w ∧ s.TrapsAs w l u r .noncanon 0 ea) ∧
      (sound → ea.toNat % levelBytes level = 0 → ea.toNat < 2 ^ 52 →
        s.releaseWays f.inst f.x f.y (l.requestScope m i) = (true, t) →
        exec i s = .next ((match op (pageSpace r) ea.toNat level r t with
          | (v, none) => v
          | (v, some .deviceErr) => v.takeHead.answeredAccess i r ea (some (.trap .deviceErr 3 ea))
          | (v, some (.scope detail addr)) => v.takeHead.answeredAccess i r ea (some (.trap .scope detail addr))
          | (v, some (.status st cur)) =>
            v.takeHead.answeredAccess i (r.setWords 12 [lo32 cur, hi32 cur, BitVec.ofNat 32 st, 0]) ea (some replyDone)
          | (v, some (.counts entries writes)) =>
            v.takeHead.answeredAccess i (r.setWords 12 [BitVec.ofNat 32 entries, BitVec.ofNat 32 writes, 0, 0]) ea (some replyDone)).noteStep
              u ((u.port 0).headD r) r))
    performs (.pageMap m) pageMap ∧ performs (.pageUnmap m) pageUnmap ∧ performs (.pageShare m) pageShare ∧ performs (.pageProt m) pageProt ∧
    performs (.tlbInv m) tlbInvalidate ∧ performs (.faultResume m) faultResume ∧ performs (.faultFail m) faultFail) ∧
  (∀ (s : State) (space : BitVec 12) (va level : Nat) (r : Record) (e : DWord) (at_ : Nat),
    let d := vaDie va
    let lo := va / levelBytes level * levelBytes level
    let new := r.pair 2
    let answers := fun (op : BitVec 12 → Nat → Nat → Record → State → State × Option PageResult) (st : Nat) (cur : DWord) =>
      op space va level r s = (s, some (.status st cur))
    let old := r.pair 4
    let namesNew := localRun new
    let held := fun (x : Nat) (frames : List Nat) => s.pageHeld d space (x / levelBytes level * levelBytes level)
      (x / levelBytes level * levelBytes level + levelBytes level) frames = true
    let waits := fun (op : BitVec 12 → Nat → Nat → Record → State → State × Option PageResult) => op space va level r s = (s, none)
    let bad := fun (e : DWord) => pteOk level e = false ∨ pteLeaf e = false ∨ s.frameOk d e = false
    -- the entry of the page's level built where it is missing, and what the operation then does there
    let built := fun (op : BitVec 12 → Nat → Nat → Record → State → State × Option PageResult) (cur : DWord) (go : State → Nat → State) =>
      (∀ v a, s.entryFor space va level = .got v a → op space va level r s = (go v a, some (.status 0 cur))) ∧
      (∀ v, s.entryFor space va level = .empty v → op space va level r s = (v, some (.status 7 cur))) ∧
      (∀ v, s.entryFor space va level = .wait v → op space va level r s = (v, none)) ∧
      (∀ v x y, s.entryFor space va level = .scope v x y → op space va level r s = (v, some (.scope x y))) ∧
      (∀ v, s.entryFor space va level = .error v → op space va level r s = (v, some .deviceErr))
    let parked := fun (e : DWord) => localRun e ≠ [] ∧ s.framesParked d (leafFrame e) (leafFrames (pteSize e)) = true
    (s.find space va level = .deviceErr → ∀ op ∈ [pageMap, pageUnmap, pageProt], op space va level r s = (s, some .deviceErr)) ∧
    (s.find space va level = .missing → answers pageUnmap 5 0 ∧ answers pageProt 5 0) ∧
    (s.find space va level = .level e → answers pageMap 8 e ∧ answers pageUnmap 8 e ∧ answers pageProt 8 e) ∧
    (s.find space va level = .badPte e → answers pageMap 4 e ∧ answers pageUnmap 4 e ∧ answers pageProt 4 e) ∧
    -- page.map, at an entry or where a level is missing
    (∀ cur, (s.find space va level = .missing ∧ cur = 0) ∨ (s.find space va level = .entry at_ e ∧ cur = e) →
      let differ := namesNew ≠ localRun cur
      let malformed := if pteV new then bad new else new ≠ 0
      (held va (namesNew ++ localRun cur) → waits pageMap) ∧
      (¬ held va (namesNew ++ localRun cur) →
        (cur ≠ old → answers pageMap 2 cur) ∧
        (cur = old → malformed → answers pageMap 4 cur) ∧
        (cur = old → ¬ malformed → differ → (∃ n ∈ namesNew, s.frameCount d n ≠ 0) → answers pageMap 3 cur) ∧
        (cur = old → ¬ malformed → differ → (∀ n ∈ namesNew, s.frameCount d n = 0) → parked cur → answers pageMap 1 cur) ∧
        (cur = old → ¬ malformed → (differ → (∀ n ∈ namesNew, s.frameCount d n = 0) ∧ ¬ parked cur) →
          (pteV new = false → pteV cur = false → answers pageMap 0 cur) ∧
          (pteV new = true ∨ pteV cur = true → built pageMap cur fun v a =>
            if differ then ((v.framesNamed d namesNew).changeLeaf space va level a cur new).framesLeft d (localRun cur)
            else v.changeLeaf space va level a cur new)))) ∧
    -- page.unmap and page.prot at an entry
    (s.find space va level = .entry at_ e →
      (held va (localRun e) → waits pageUnmap) ∧
      (¬ held va (localRun e) →
        (pteV e = false → answers pageUnmap 5 e) ∧
        (pteV e = true → parked e → answers pageUnmap 1 e) ∧
        (pteV e = true → ¬ parked e → pageUnmap space va level r s =
          ((s.changeLeaf space va level at_ e 0).framesLeft d (localRun e), some (.status 0 e)))) ∧
      (held va (localRun e ++ namesNew) → waits pageProt) ∧
      (¬ held va (localRun e ++ namesNew) →
        let joins := localRun e = [] ∧ namesNew ≠ []
        let leaves := localRun e ≠ [] ∧ namesNew = []
        let writes := pteW new = true ∧ (pteW e = false ∨ pteCow new = false)
        let other := pteV new = false ∨ bad new ∨ new &&& ~~~(0x1E : DWord) ≠ e &&& ~~~(0x1E : DWord)
        let synonym := (joins ∧ ∃ n ∈ namesNew, s.frameCount d n ≠ 0) ∨ (writes ∧ ∃ n ∈ localRun e, 1 < s.frameCount d n)
        (pteV e = false → answers pageProt 5 e) ∧
        (pteV e = true → other → answers pageProt 4 e) ∧
        (pteV e = true → ¬ other → synonym → answers pageProt 3 e) ∧
        (pteV e = true → ¬ other → ¬ synonym →
          let w := (if joins then s.framesNamed d namesNew else s).changeLeaf space va level at_ e new
          pageProt space va level r s = (if leaves then w.framesLeft d (localRun e) else w, some (.status 0 e))))) ∧
    -- page.share
    (let src := (r.pair 2).toNat
      let from_ := (r.at 1).extractLsb' 0 12
      let sheld := fun (frames : List Nat) => s.pageHeld d from_ (src / levelBytes level * levelBytes level)
        (src / levelBytes level * levelBytes level + levelBytes level) frames = true
      let source := s.find from_ src level
      (vaDie src ≠ d → answers pageShare 4 0) ∧
      (vaDie src = d → source = .missing → answers pageShare 5 0) ∧
      (vaDie src = d → source = .level e → answers pageShare 8 e) ∧
      (vaDie src = d → source = .badPte e → answers pageShare 4 e) ∧
      (vaDie src = d → source = .deviceErr → pageShare space va level r s = (s, some .deviceErr)) ∧
      (vaDie src = d → source = .entry at_ e → sheld [] → waits pageShare) ∧
      (vaDie src = d → source = .entry at_ e → ¬ sheld [] → pteV e = false → answers pageShare 5 e) ∧
      (vaDie src = d → source = .entry at_ e → ¬ sheld [] → pteV e = true →
        (∀ t, s.find space va level = .level t → answers pageShare 8 t) ∧
        (∀ t, s.find space va level = .badPte t → answers pageShare 4 t) ∧
        (s.find space va level = .deviceErr → pageShare space va level r s = (s, some .deviceErr)) ∧
        (∀ cur, (s.find space va level = .missing ∧ cur = 0) ∨ (∃ a, s.find space va level = .entry a cur) →
          (held va (localRun e) → waits pageShare) ∧
          (¬ held va (localRun e) → pteV cur = true → answers pageShare 6 cur) ∧
          (¬ held va (localRun e) → pteV cur = false → pteAttr e = 2 → answers pageShare 4 cur) ∧
          (¬ held va (localRun e) → pteV cur = false → pteAttr e ≠ 2 → built pageShare cur fun v a =>
            let t := v.changeLeaf space va level a 0 (setBitAt (setBitAt e 1 false) 4 true)
            let t := if pteW e then t.changeLeaf from_ src level at_ e (setBitAt e 4 true) else t
            (leafRun e).foldl (fun (t : State) n => t.frameUp d n)
              (t.forgetRange d from_ (src / levelBytes level * levelBytes level)
                (src / levelBytes level * levelBytes level + levelBytes level)))))) ∧
    -- a leaf written, and the counts of frames
    (∀ new, let written := (s.writeDword (memKey d at_) new).forgetRange d space lo (lo + levelBytes level)
      let moved := pteV e = true ∧ (pteV new = false ∨ pteAddr e ≠ pteAddr new ∨ pteAttr e ≠ pteAttr new)
      let revokes := pteV e = true ∧
        ((pteW e = true ∧ pteW new = false) ∨ (pteCow e = false ∧ pteCow new = true) ∨ (pteD e = true ∧ pteD new = false))
      s.changeLeaf space va level at_ e new =
        if moved then (written.flushLines d space lo (lo + levelBytes level)).rewait d space lo (lo + levelBytes level)
        else if revokes then written.unwriteLines d space lo (lo + levelBytes level) else written) ∧
    (∀ frame, let n := s.frameCount d frame
      (n = 0 ∨ n = 255 → s.frameDown d frame = s) ∧
      (n = 1 → s.frameDown d frame = (s.setFrameCount d frame 0).frameBack d frame) ∧
      (1 < n → n ≠ 255 → s.frameDown d frame = s.setFrameCount d frame (n - 1)) ∧
      (n = 255 → s.frameUp d frame = s) ∧
      (n = 254 → s.frameUp d frame = (s.setFrameCount d frame 255).event d 4 0 0 (BitVec.ofNat 64 frame) 0) ∧
      (n ≠ 254 → n ≠ 255 → s.frameUp d frame = s.setFrameCount d frame (n + 1))) ∧
    -- tlb.inv
    (let pages := (r.at 1).toNat
      let first := if pages = 0 then d * 2 ^ 50 else va
      let last := if pages = 0 then (d + 1) * 2 ^ 50 else va + pages * levelBytes level
      tlbInvalidate space va level r s = (s.forgetRange d space first last, some (.status 0 0))) ∧
    (∀ (x : Die) (first last : Nat), let y := x.forget space first last
      y = { x with tlb := y.tlb, walkCache := y.walkCache } ∧
      (∀ t, t ∈ y.tlb ↔ t ∈ x.tlb ∧ ¬ (t.1 = space ∧ t.2.2.1 * levelSpan t.2.1 < last ∧ first < (t.2.2.1 + 1) * levelSpan t.2.1)) ∧
      ∀ t, t ∈ y.walkCache ↔ t ∈ x.walkCache ∧ t.1 ≠ space) ∧
    -- fault.resume and fault.fail
    (let top := va + levelBytes level
      let entries := s.faultEntries space va top
      let logs := (s.die d).sideLog.filter fun q => q.within space va top
      let resident := fun (t : State) (i : Nat) => ((t.launch? i).filter (·.resident)).isSome
      (∀ i k, (i, k) ∈ entries ↔ ∃ l, (i, l) ∈ s.launches ∧ l.record.space = space ∧ k ∈ l.kennel.entries ∧ k.kind = .fault ∧ k.out = false ∧
        va ≤ k.granule.toNat ∧ k.granule.toNat < top) ∧
      (∀ q : LogEntry, q.within space va top = true ↔
        q.req.space = space ∧ q.replaying = false ∧ va ≤ q.addr.toNat ∧ q.addr.toNat < top) ∧
      (∃ t, faultResume space va level r s = (t, some (.counts entries.length logs.length)) ∧
        let again := entries.foldl (fun (t : State) p => if resident t p.1 then t.reissue p.1 p.2 else t) (s.resolve d space va top)
        let replayed := logs.foldl (fun (t : State) q => t.replayLog d q) again
        let back := (replayed.die d).stalled.filter fun w => w.within space va top
        let asked := back.foldl (fun (t : State) w => t.askAgain w)
          (replayed.setDie d { replayed.die d with stalled := (replayed.die d).stalled.filter fun w => !w.within space va top })
        t = (asked.kelpieResolve d space va top false).walkResolve space va top false) ∧
      (let gone := if (r.at 1).getLsbD 0 then logs else []
        ∃ t, faultFail space va level r s = (t, some (.counts entries.length gone.length)) ∧
        let failed := entries.foldl (fun (t : State) p =>
          if resident t p.1 then t.failEntry p.1 p.2
          else t.kennelMap p.1 fun k => if k.offset = p.2.offset then { k with failed := true } else k) (s.resolve d space va top)
        let cut := failed.setDie d { failed.die d with sideLog := (failed.die d).sideLog.filter fun q => !gone.contains q }
        let told := gone.foldl (fun (t : State) q => t.raise q.inst (sideLogTrap q)) cut
        let stops := fun (w : WalkReq) => w.within space va top && w.req.party.fails
        let freed := told.setDie d { told.die d with stalled := (told.die d).stalled.filter fun w => !stops w }
        let ended := ((told.die d).stalled.filter stops).foldl (fun (t : State) w =>
          (t.unmiss w.slice w.req).deliver w.req (.trap .unmapped 0 (BitVec.ofNat 64 w.req.va))) freed
        t = (ended.kelpieResolve d space va top true).walkResolve space va top true)) ∧
    (∀ inst k l a op x m, s.readEntry inst k = s → s.launch? inst = some l → l.fatal = none → k.access = some a →
      faultLaneOp a.op a.record = some op → memRefOf a.op = some (x, m) →
      s.reissue inst k = a.lanes.foldl (fun (t : State) q =>
        t.post (mkReq (.access inst k.x k.y k.unit a.id q.lane) l.record.space (if m.space = .peer then .peer q.addr else .glob q.addr) op
          (l.requestScope m a.op) inst (k.x, k.y) (l.dieOf k.x k.y)))
        ((s.kennelMap inst fun f => if f.offset = k.offset then
          { f with access := some a.unanswered, req := none, more := [], out := true } else f).moved inst)) ∧
    (∀ inst k l a, s.readEntry inst k = s → s.launch? inst = some l → l.fatal = none → k.access = some a →
      s.failEntry inst k = s.resumeAccess inst k.x k.y k.unit (a.answerAll (.trap .unmapped 0 k.granule))) ∧
    (∀ q : LogEntry, let rq := { q.req with party := .log d, seq := s.reqSeq, resends := 0 }
      s.replayLog d q = (s.setDie d { s.die d with sideLog := (s.die d).sideLog.map fun f =>
        if f = q then { f with req := rq, replaying := true } else f }).post rq)) ∧
  (∀ (s : State) (die : Nat),
    let x := s.die die
    (∀ va, s.needsFrame die = true → x.taking = false → x.taken = none → x.frCtl.getLsbD 0 = true → x.frSlot x.frHead = some va →
      exec (.freeFrameTake die) s = .next ((s.setDie die { x with taking := true }).ringPost die 0 (x.frCtl.extractLsb' 32 12) va (.load .c 1))) ∧
    (∀ va frame rest, x.frameReturns = frame :: rest → x.returning = false → x.frCtl.getLsbD 0 = true → x.frSlot x.frTail = some va →
      exec (.freeFrameReturn die) s = .next ((s.setDie die { x with returning := true }).ringPost die 1 (x.frCtl.extractLsb' 32 12) va
        (.store .f [BitVec.ofNat 32 (frame % 2 ^ 24)]))) ∧
    (∀ va block rest, x.blockReturns = block :: rest → x.blockReturning = false →
      ringSlot x.tbBase (field x.tbCtl 0 20) x.tbTail = some va →
      exec (.tableBlockReturn die) s = .next ((s.setDie die { x with blockReturning := true }).ringPost die 2 (x.tbCtl.extractLsb' 32 12) va
        (.store .f [BitVec.ofNat 32 (block / 2 ^ 12 % 2 ^ 28)]))) ∧
    (∀ frame, s.inReset = false →
      (x.ftFrames.toNat ≤ frame.toNat ∨ s.frameCount die frame.toNat ≠ 0 →
        exec (.frpush die frame) s = .next (s.setDie die { x with frRefused := true })) ∧
      (frame.toNat < x.ftFrames.toNat → s.frameCount die frame.toNat = 0 → exec (.frpush die frame) s =
        .next ((s.setDie die { x with frRefused := false }).frameBack die frame.toNat))) ∧
    (∀ frame v reply va, x.frSlot x.frTail = some va → x.frCtl.getLsbD 0 = true → x.frameReturns = [] →
      s.performNow (ringReq die 1 (x.frCtl.extractLsb' 32 12) va (.store .f [BitVec.ofNat 32 (frame % 2 ^ 24)])) = .ok v reply →
      s.frameBack die frame = v.setDie die { v.die die with frTail := (v.die die).frTail + 1 }) ∧
    (∀ frame, x.frCtl.getLsbD 0 = false ∨ x.frameReturns ≠ [] →
      s.frameBack die frame = s.setDie die { x with frameReturns := x.frameReturns ++ [frame] }) ∧
    (∀ c rest, x.cow = c :: rest → (∀ entry level e, s.walk die c.space (c.page * 2 ^ 16) ≠ .leaf entry level e) →
      exec (.cowService die) s = .next (s.cowRelease die c none)) ∧
    (∀ c rest entry level e, x.cow = c :: rest → s.walk die c.space (c.page * 2 ^ 16) = .leaf entry level e →
      let va := c.page * 2 ^ 16
      let shared := ∃ n ∈ localRun e, 1 < s.frameCount die n
      let begun := s.setDie die { x with cow := { c with begun := true } :: rest }
      (pteCow e = false → exec (.cowService die) s = .next (s.cowRelease die c none)) ∧
      (∀ block more, pteCow e = true → level ≠ 0 → c.blocks = block :: more →
        exec (.cowService die) s = .next (s.cowSplit die c entry level e block)) ∧
      (pteCow e = true → level ≠ 0 → c.blocks = [] → exec (.cowService die) s = .next (begun.askBlock die)) ∧
      (∀ frame, pteCow e = true → level = 0 → shared → x.taken = some frame →
        exec (.cowService die) s = .next (s.cowCopy die c entry e frame)) ∧
      (pteCow e = true → level = 0 → shared → x.taken = none → exec (.cowService die) s = .next begun) ∧
      (pteCow e = true → level = 0 → ¬ shared → exec (.cowService die) s =
        .next (((s.writeDword (memKey die entry) (setBitAt (setBitAt e 1 true) 4 false)).forgetRange die c.space va (va + 2 ^ 16)).cowRelease
          die c none))))

/-! ### The loader -/

/-- R13, R15, R16, R17, R18, R67, R97: the commands of a configuration stream. Outside a group only begin is taken, and a field write to unit 13
is a BADPRIV there; inside, each command is staged, or leaves
its failure for the commit; a stream that ends inside a group fails the load; commit fails the load, waits for the units, banks and copies
that a cfg's group meets, or applies the group whole.
Where the spec leaves the choice, it is the model's (logs 26, 27, 28, 123). -/
def Obligations.LoaderCommands : Prop :=
  ∀ (s : State) (l : Launch) (ld : Loader),
    let inst := s.focus.inst
    s.launch? inst = some l → l.loading? = some ld → l.loads = true →
    let sum := fun (i : Instr) => ld.sums ++ (encodeCommand i).toList
    let goes := fun (i : Instr) (ld' : Loader) => exec i s = .next (s.setLaunch inst (l.setLoading { ld' with pos := ld'.pos + 1 }))
    let outside := fun (i : Instr) => exec i s = .next (s.loadFail inst (1, ld.pos, 0))
    (ld.inGroup = false →
      (∀ (c : BitVec 6) u f v, exec (.fieldWrite c u f v) s =
        .next (s.loadFail inst (if c = 0 ∧ u = 13 then 2 else 1, ld.pos, loadErrOf (c.toNat % 8) (c.toNat / 8) u.toNat f.toNat))) ∧
      (∀ c u p n h t, outside (.routeHead c u p n h t)) ∧ (∀ t, outside (.routeContinuation t)) ∧ (∀ x y, outside (.page x y)) ∧
      (∀ c, outside (.checksum c)) ∧ (∀ c b r n, outside (.preload c b r n)) ∧ outside .commit ∧
      (ld.pos + 1 < ld.length → goes .begin { ld with
        inGroup := true, groupStart := ld.pos, px := 0, py := 0, staged := [], failures := [], sums := (encodeCommand .begin).toList })) ∧
    (ld.inGroup = true → ld.pos + 1 < ld.length →
      let staged := fun (i : Instr) => ({ ld with
        staged := ld.staged ++ [{ index := ld.pos, px := ld.px, py := ld.py, cmd := i, data := [] }], sums := sum i } : Loader)
      let noted := fun (i : Instr) => ({ ld with sums := sum i } : Loader)
      let failed := fun (status : Nat) (ld' : Loader) => ({ ld' with failures := ld.failures ++ [(status, ld.pos, 0)] } : Loader)
      (∀ c u f v, goes (.fieldWrite c u f v) (staged (.fieldWrite c u f v))) ∧
      (∀ c u p n h t, goes (.routeHead c u p n h t) (staged (.routeHead c u p n h t))) ∧
      (∀ t, routeCommands ld.staged ≠ [] → goes (.routeContinuation t) (staged (.routeContinuation t))) ∧
      (∀ t, routeCommands ld.staged = [] → goes (.routeContinuation t) (failed 1 (staged (.routeContinuation t)))) ∧
      (∀ x y, x.toNat ≤ l.record.width.toNat → y.toNat ≤ l.record.height.toNat →
        goes (.page x y) { noted (.page x y) with px := x.toNat, py := y.toNat }) ∧
      (∀ x y, (l.record.width.toNat < x.toNat ∨ l.record.height.toNat < y.toNat) → goes (.page x y) (failed 1 (noted (.page x y)))) ∧
      (∀ c, let bytes := ld.sums.flatMap fun w => (List.range 4).map fun i => w.extractLsb' (8 * i) 8
        let crc := (~~~ crcBytes 0xFFFFFFFF bytes).extractLsb' 0 24
        (crc = c → goes (.checksum c) (noted (.checksum c))) ∧ (crc ≠ c → goes (.checksum c) (failed 3 (noted (.checksum c))))) ∧
      goes .begin (failed 1 (noted .begin))) ∧
    (ld.inGroup = true → ld.length ≤ ld.pos + 1 → ld.failures = [] →
      ∀ c u f v, exec (.fieldWrite c u f v) s = .next (s.loadFail inst (1, ld.groupStart, 0))) ∧
    (∀ c b r n v ws, ld.inGroup = true → ld.pos + 1 + (n.toNat + 1) < ld.length →
      s.streamWords ld (ld.pos + 1) (n.toNat + 1) = .ok v ws → v.launch? inst = some l → v.focus = s.focus → ws.length = n.toNat + 1 →
      let i : Instr := .preload c b r n
      exec i s = .next (v.setLaunch inst (l.setLoading { ld with
        staged := ld.staged ++ [{ index := ld.pos, px := ld.px, py := ld.py, cmd := i, data := ws }], sums := sum i ++ ws
        pos := ld.pos + (n.toNat + 1) + 1 }))) ∧
    (ld.inGroup = true →
      let isCfg := ld.cfg.isSome
      let last := decide (ld.length ≤ ld.pos + 1)
      let writes := s.writes ld.staged
      let writers := writes.foldl (fun (m : SMap Nat) w => SMap.insert m (unitKey w.2.1 w.2.2.1 w.2.2.2.1 * 16 + w.2.2.2.2.1) w.1) ld.writers
      let b : Blame := { writers := writers, writes := writes, routes := s.stagedRoutes l ld.staged, commit := ld.pos }
      let new := (l.withWrites writes).withRoutes b.routes
      let fails := ld.failures ++ s.groupFails l new ld.staged b last isCfg
      let cs := bankChanges l new b
      let banks := commitBanks cs ld.staged
      let asks := fails = [] ∧ isCfg = true
      let row := s.copyInRow inst l (cs.map fun c => (c.1, c.2.1, c.2.2.1)) = true
      let free := l.drained b banks = true
      (asks → row → exec .commit s = .next s) ∧
      (asks → ¬ row → ¬ free → exec .commit s = .next (s.setLaunch inst ((l.hold b).closeBanks b banks))) ∧
      ((asks → ¬ row ∧ free) →
        (∀ e, worstFail (fails ++ bankFails l new b) = some e → exec .commit s = .next (s.loadFail inst e)) ∧
        (worstFail (fails ++ bankFails l new b) = none → exec .commit s = .next (match s.departWays inst cs with
          | (false, v) => v.modLaunch inst fun l => (l.hold b).closeBanks b banks
          | (true, v) => match v.launch? inst with
            | none => v
            | some w =>
              let w := w.keepLeaving
              v.applyGroup inst w ((w.withWrites writes).withRoutes b.routes) ld b last isCfg))))

/-! ### Launches and walks -/

/-- R34, R35, R96, R352, R354, R355, R358, R359, R361, R362: a launch on its way to its pages. A walk's offer, a peer's packet and a child are accepted while the
waiting set has room; a record one of whose two addresses fails is dropped and
reported, a child with an event that says which; any other failure ends the launch with its status; the first
launch in the order of service that fits is placed at its first origin, and its load begins.
Where the spec leaves the choice, it is the model's (logs 34, 39, 69, 101), and that the
base block is read in the step of LAUNCH_PLACE itself (log 24, DESIGN CHOICE). -/
def Obligations.LaunchesArrive : Prop :=
  (∀ (s : State) (q : Nat) (n : Node),
    let w := s.queue q
    s.noRoom = false → w.phase = .offer → w.stall = none → w.failed = false → decodeNode (execLaunchAccept.nodeBits w.words) = some (.walkRun n) →
    let goes := fun (v : State) (w : HostQueue) (join : Option DWord) => v.setQueue q { w with phase := .accepted join, failed := false }
    exec (.launchAccept (.host q)) s = .next (match s.readRecord w.space n.arg with
      | .ok v r =>
        let r0 := { r with level := 0 }
        if r0.reportable then goes (v.acceptLaunch r0 (.host q) none false) w (if n.join then some r.doneAddr else none)
        else goes v (w.error 2 n.arg) none
      | .wait v => v
      | .fault v => (v.faultEvent w.space n.arg.toNat 2).setQueue q { w with stall := some (n.arg.toNat / 2 ^ 16) }
      | other => goes other.state (w.error 2 w.node) none)) ∧
  (∀ (s : State) (d : Nat) (ws : List Word) (tag : DWord) (rest : List (List Word × DWord)), s.noRoom = false → (s.die d).peerQ = (ws, tag) :: rest →
    let r := { LaunchRec.ofWords ws with system := false, level := 0 }
    let v := s.setDie d { s.die d with peerQ := rest }
    (r.reportable = true → exec (.launchAccept (.peer d)) s = .next (v.acceptLaunch r (.peer d tag) none false)) ∧
    (r.reportable = false → exec (.launchAccept (.peer d)) s = .next ((v.report d tag r.pri 1 0 0 0).report d tag r.pri 6 4 0 0))) ∧
  (∀ (s : State) (r : LaunchRec) (origin : Origin) (allowed : Option (Nat × Nat × Nat × Nat)) (child : Bool),
    let l := Launch.new r origin allowed s.nextSequence
    let inst := s.nextInstance % 2 ^ 32
    let retiring := ∃ q ∈ s.retires, q.space = r.space
    let key := 2 ^ 40 + s.reqSeq
    let ended := fun (status : BitVec 8) => s.acceptLaunch r origin allowed child =
      (({ s with reqSeq := s.reqSeq + 1 } : State).enter key l).endUnrun key status 0 0
    (r.ok child = true → ¬ retiring → s.everFits l = true → s.acceptLaunch r origin allowed child =
      ({ s.enter inst l with nextInstance := s.nextInstance + 1, nextSequence := s.nextSequence + 1 } : State).reportLaunch inst 1 0) ∧
    (r.ok child = false → ended 4) ∧ (r.ok child = true → retiring → ended 5) ∧
    (r.ok child = true → ¬ retiring → s.everFits l = false → ended 7)) ∧
  (∀ (s : State) (die : Nat) (record : List Word) (tag : DWord), die < 4 →
    let pri := (LaunchRec.ofWords record).pri
    let x := s.die die
    ((s.featureTaken = false ∨ s.feature 7 = false) → exec (.peerLaunchPacket die record tag) s = .next (s.report die tag pri 2 2 0 0)) ∧
    (s.featureTaken = true → s.feature 7 = true → 64 ≤ x.peerQ.length →
      exec (.peerLaunchPacket die record tag) s = .next (s.report die tag pri 2 1 0 0)) ∧
    (s.featureTaken = true → s.feature 7 = true → x.peerQ.length < 64 →
      exec (.peerLaunchPacket die record tag) s = .next (s.setDie die { x with peerQ := x.peerQ ++ [(record, tag)] }))) ∧
  (∀ (s : State) (k d : Nat) (c : Child) (rest : List Child), s.noRoom = false → k < 4 → d = (s.childTurn + k) % 4 →
    (∀ j, j < k → (s.die ((s.childTurn + j) % 4)).children = []) → (s.die d).children = c :: rest →
    let v : State := { s.setDie d { s.die d with children := rest } with childTurn := (d + 1) % 4 }
    exec .childQueueMove s = .next (v.acceptChild d c) ∧
    (c.record.reportable = true → v.acceptChild d c = v.acceptLaunch c.record .child (v.allowedFor c) true) ∧
    (c.record.reportable = false → v.acceptChild d c = v.event d 8 0 c.parentSpace c.addr (BitVec.ofNat 32
      ((if addrOk c.record.doneAddr 4 then 0 else 1) + (if addrOk c.record.statusAddr 64 then 0 else 2) + c.record.level.toNat * 256)))) ∧
  (∀ (s : State) (before after : List (Nat × Launch)) (inst x y : Nat) (l : Launch),
    (s.waitingOrder.filter fun e => !e.2.compacting) = before ++ (inst, l) :: after → (∀ e ∈ before, s.firstFit e.1 e.2 [] = none) → s.firstFit inst l [] = some (x, y) →
    let placed : Launch := { l with px := x, py := y, hasPages := true, held := none, compacting := false, placedAt := s.now, blocked := 0 }
    let retiring := ∃ q ∈ s.retires, q.space = l.record.space
    (l.phase = .away → exec .launchPlace s = .next (s.setLaunch inst { placed with phase := .restoring })) ∧
    (l.phase = .waiting → retiring → exec .launchPlace s = .next ((s.setLaunch inst placed).endUnrun inst 5 0 0)) ∧
    (l.phase = .waiting → ¬ retiring →
      let loading : Launch := { placed with
        phase := .loading, loader := some (Loader.start l.record.cfgAddr l.record.cfgLen.toNat l.record.space .dev none) }
      let reported := fun (v : State) => (v.setLaunch inst loading).reportLaunch inst 3 0
      exec .launchPlace s = .next (match s.loadWords l.record.space l.record.baseBlk.toNat 32 with
        | .ok v ws => (v.setLaunch inst { loading with
            bases := Vector.ofFn fun (i : Fin 16) => pair64 (ws.getD (2 * i.val) 0) (ws.getD (2 * i.val + 1) 0) }).reportLaunch inst 3 0
        | .wait v => v
        | .fault v => ((reported v).faultEvent l.record.space l.record.baseBlk.toNat 0).endUnrun inst 4 0xFFFFFFFF 0
        | .denied v => (reported v).endUnrun inst 4 0xFFFFFFFF 0
        | .error v => (reported v).endUnrun inst 0x0A 0xFFFFFFFF 0
        | .hole v => (reported v).endUnrun inst 0x0A 0xFFFFFFFF 0)))

/-- R37, R38, R356, R357: the host queues and their walks. A write of HQSTART begins a walk where none is in progress, and a write of HQTAIL wakes one that
waits at a successor of 0; wait, cond and loop read ARG as .w and signal writes it as .s, each at its node's scope; cond and loop choose the
successor by the value; run offers its launch, and reads its completion word under JOIN; end ends the walk.
Where the spec leaves the choice, it is the model's (log 40). -/
def Obligations.WalksGo : Prop :=
  ∀ (s : State),
    (∀ (n : BitVec 2) (v : DWord),
      let w := s.queue n.toNat
      (w.walking = false → s.featureTaken = true → s.inReset = false → exec (.hqStartWrite n v) s = .next (s.setQueue n.toNat { w with
        start := v, node := v, space := s.swCtl.extractLsb' 32 12, walking := true, phase := .fetch, words := [], stall := none, failed := false })) ∧
      (w.walking = true ∨ s.featureTaken = false ∨ s.inReset = true → exec (.hqStartWrite n v) s = .next s) ∧
      (∀ f, w.phase = .tail f → s.inReset = false → exec (.hqTailWrite n v) s = .next (s.setQueue n.toNat { w with tail := v, phase := .next f })) ∧
      ((∀ f, w.phase ≠ .tail f) → s.inReset = false → exec (.hqTailWrite n v) s = .next (s.setQueue n.toNat { w with tail := v }))) ∧
    (∀ (q : Nat) (w : HostQueue) (n : Node), q < 4 → s.focus.queue = q → s.queue q = w → w.walking = true → w.stall = none →
      let asks := fun (i : Instr) (va : DWord) (op : HomeOp) => exec i s =
        .next ((s.setQueue q { w with phase := .asked none }).post (mkReq (.walk q) w.space (.glob va) op n.scope (walkParty q) (0, 0) 0))
      let goes := fun (i : Instr) (phase : WalkPhase) => exec i s = .next (s.setQueue q { w with phase := phase })
      exec (.walkEnd n) s = .next (s.setQueue q { w with walking := false, phase := .idle, words := [], stall := none, failed := false }) ∧
      (w.phase = .fetch → goes (.walkRun n) .offer ∧ asks (.walkWait n) n.arg (.load .w 1) ∧ asks (.walkCond n) n.arg (.load .w 1) ∧
        asks (.walkLoop n) n.arg (.load .w 1) ∧ asks (.walkSignal n) n.arg (.store .s [n.val])) ∧
      (w.phase = .accepted none → goes (.walkRun n) (.next 8)) ∧
      (∀ done, w.phase = .accepted (some done) → asks (.walkRun n) done (.load .w 1)) ∧
      (∀ word full held, w.phase = .asked (some (.ok [word] full held false)) →
        goes (.walkRun n) (.next 8) ∧ goes (.walkWait n) (.next 8) ∧ goes (.walkSignal n) (.next 8) ∧
        goes (.walkCond n) (.next (if word = n.val then 8 else 16)) ∧
        (let taken := word ≠ 0 ∧ (n.val = 0 ∨ n.iter.toNat < n.val.toNat)
         let iter : BitVec 20 := if taken then (if n.iter = 0xFFFFF then n.iter else n.iter + 1) else 0
         ∀ v, w.failed = false →
           s.storeWords w.space w.node.toNat [((w.words.getD 0 0).extractLsb' 20 12 ++ iter : Word)] = .ok v () →
           exec (.walkLoop n) s = .next (v.setQueue q { w with phase := .next (if taken then 16 else 8) }))) ∧
      (∀ f v lo hi, w.phase = .next f → w.failed = false → s.loadWords w.space (w.node.toNat + f) 2 = .ok v [lo, hi] →
        exec (.walkWait n) s = .next (v.setQueue q
          (if pair64 lo hi = 0 then { w with phase := .tail f } else { w with node := pair64 lo hi, phase := .fetch, words := [] }))) ∧
      (w.phase = .asked none → exec (.walkWait n) s = .next s))

/-! ### The scheduler -/

/-- R94, R190, R230, R361, R363, R364, R365, R366, R368, R369, R370, R372: the scheduler's acts. At each quantum end launches age,
compactions go on and victims are chosen for the first that has no origin; a yield brings about the choice at once;
a region that gives up its pages diverts records at its YIELD operations, saves its context once it is quiescent and goes away, its place
in the pool taken anew where a cfg has made it grow, or gives up the pre-emption, its diverted records back at their ports; at its new place it
is loaded, unless its context or its saved stream cannot be read, and runs once its entries have been presented; KILL ends the live launch of
a completion word.
Where the spec leaves the choice, it is the model's (logs 35, 36, 52, 102, 122). -/
def Obligations.SchedulerActs : Prop :=
  (∀ (s : State), s.quantumDue = true →
    let v := ({ s with quantumMark := s.nextQuantum } : State).age.compactOn
    let c := match v.toCompact with
      | some (inst, w) => v.compact inst w
      | none => v
    exec .quantumEnd s = .next (match c.blockedFirst 3 with
      | some (inst, w) => (c.chooseVictims inst w none).tire
      | none => c.tire)) ∧
  (∀ (s : State), s.quantumDue = false →
    ((∀ e ∈ s.launches, e.2.offered = false) → exec .quantumEnd s = .next s) ∧
    (∀ before after inst l, s.launches = before ++ (inst, l) :: after → (∀ e ∈ before, e.2.offered = false) → l.offered = true →
      let v := s.modLaunch inst fun l => { l with offered := false }
      exec .quantumEnd s = .next (match v.blockedFirst l.record.pri.toNat with
        | some (j, w) => v.chooseVictims j w (some inst)
        | none => v))) ∧
  (∀ (s : State) (inst : Nat) (l : Launch), s.launch? inst = some l →
    let blocked := if (s.firstFit inst l []).isNone then l.blocked + 1 else 0
    s.age.launch? inst = some (if l.waits then { l with aging := l.aging + 1, blocked := blocked } else l)) ∧
  (∀ (s : State) (inst : Nat) (l : Launch) (x y unit port : Nat) (r : Record) (rest : List Record), s.launch? inst = some l →
    l.phase = .preempting → l.fatal = none → unit ≤ 7 → (l.unit x y unit).port port = r :: rest → (l.unit x y unit).held = false →
    (l.unit x y unit).yields = true →
    let u := l.unit x y unit
    let entry : KEntry := { offset := 0, kind := .yieldEntry, x := x, y := y, unit := unit, port := port, seq := s.reqSeq,
                            granule := BitVec.ofNat 64 (0xC000000000000000 + y * 2 ^ 16 + x * 2 ^ 8 + unit)
                            opid := (0 : BitVec 9) ++ u.opIndex ++ u.block ++ (0 : BitVec 7) ++ (if port = 1 then 1 else 0 : BitVec 1)
                            record := r, access := none, req := none, failed := false, out := false, words := [] }
    (∀ v, s.kennelPut inst entry = some v → exec (.yieldDivert inst x y unit port) s =
      .next ((({ v with reqSeq := v.reqSeq + 1 } : State).modUnit inst x y unit fun u => u.pop port).moved inst)) ∧
    (s.kennelPut inst entry = none → exec (.yieldDivert inst x y unit port) s =
      .next ((s.modUnit inst x y unit fun u => { u with held := true }).raise inst
        (trapAt u x y unit r .kennelFull 0 entry.granule (.latch port))))) ∧
  (∀ (s : State) (inst : Nat) (l : Launch), s.launch? inst = some l → l.fatal = none →
    (l.wanted = true → l.phase = .running → l.cfgs = [] →
      let begun := fun (v : State) => v.modLaunch inst fun l => { l with phase := .preempting, wanted := false }
      (∀ run, l.context = some run → l.contextUnits ≤ run.2 → exec (.preemptSave inst) s = .next (begun s)) ∧
      (∀ run, l.context = some run → run.2 < l.contextUnits → exec (.preemptSave inst) s =
        .next (match (s.freeContext inst).takeContext inst with
          | some v => v
          | none => s.abandonPreempt inst))) ∧
    (l.wanted = true → l.phase = .running → l.cfgs ≠ [] → exec (.preemptSave inst) s = .next s) ∧
    (∀ run, l.phase = .preempting → s.quiescent inst l = true → l.context = some run → run.2 < l.contextUnits → exec (.preemptSave inst) s =
      .next (match (s.freeContext inst).takeContext inst with
        | some v => v
        | none => s.abandonPreempt inst)) ∧
    (∀ w v z at_ n, l.phase = .preempting → s.quiescent inst l = true → (s.parkAll inst).launch? inst = some w →
      l.context = some (at_, n) → l.contextUnits ≤ n → (s.parkAll inst).quiescent inst w = true → (∀ e ∈ w.units, e.2.flight = []) →
      (s.parkAll inst).flushRegionWays inst (w.tiles.map (·.1)) = (true, v) → (v.depositAll inst 1 w).launch? inst = some z →
      (∀ t, (v.depositAll inst 1 w).writeContext z at_ = .ok t () → exec (.preemptSave inst) s = .next ((t.suspendCopies inst).goAway inst z)) ∧
      (∀ t, ((v.depositAll inst 1 w).writeContext z at_).Fails t → exec (.preemptSave inst) s =
        .next (t.failRegion inst ((v.depositAll inst 1 w).ctxBase + BitVec.ofNat 64 (4096 * at_))))) ∧
    (∀ (t : State) x y, l.moving = some (x, y) →
      let count : BitVec 16 := if l.preempts = 0xFFFF then 0xFFFF else l.preempts + 1
      t.goAway inst l = (t.setLaunch inst { l with
        phase := .restoring, wanted := false, saved := some l.saved_, units := [], tiles := [], matrix := [], routes := [], hasPages := true
        preempts := count, blocked := 0, offered := false, px := x, py := y, held := none, moving := none
        placedAt := t.now }).reportLaunch inst 4 0) ∧
    (∀ (t : State), l.moving = none →
      let count : BitVec 16 := if l.preempts = 0xFFFF then 0xFFFF else l.preempts + 1
      t.goAway inst l = ({ t.setLaunch inst { l with
        phase := .away, wanted := false, saved := some l.saved_, units := [], tiles := [], matrix := [], routes := [], hasPages := false
        preempts := count, blocked := 0, offered := false, sequence := t.nextSequence, aging := 0 } with
        nextSequence := t.nextSequence + 1 } : State).reportLaunch inst 4 0) ∧
    ((l.wanted = true ∨ l.phase = .preempting) → s.preemptWait.toNat ≤ s.now - l.preemptAt →
      (l.phase = .preempting → s.quiescent inst l = false) →
      exec (.preemptAbandon inst) s = .next ((s.freeContext inst).abandonPreempt inst)) ∧
    (l.phase ≠ .preempting → (l.wanted = false ∨ l.phase ≠ .running) → s.abandonPreempt inst = s) ∧
    ((l.phase = .preempting ∨ (l.wanted = true ∧ l.phase = .running)) →
      let diverted := sortBy (fun a b => decide (b.seq ≤ a.seq)) (l.kennel.entries.filter (·.kind == .yieldEntry))
      let trapped := fun (e : KEntry) => l.trapQ.any fun t => t.x == e.x && t.y == e.y && t.unit == e.unit && t.holder == .latch e.port
      let back := diverted.foldl (fun (t : State) e => t.modUnit inst e.x e.y e.unit fun u => u.putBack e.port (trapped e) e.record)
        (diverted.foldl (fun (t : State) e => t.readEntry inst e) s)
      let freed := (back.kennelFree inst (·.kind == .yieldEntry)).freeContext inst
      s.abandonPreempt inst = ((freed.modLaunch inst fun l =>
        { l with phase := .running, wanted := false, exempt := 16, moving := none, held := none }).unhold l).event l.die 7 0
          l.record.space 0 (BitVec.ofNat 32 inst)) ∧
    (∀ (u : UnitState) p r q rest, u.port p = q :: rest →
      u.putBack p true r = u.setPort p (q :: r :: rest) ∧ u.putBack p false r = u.setPort p (r :: q :: rest)) ∧
    (∀ (u : UnitState) p r t, u.port p = [] → u.putBack p t r = u.setPort p [r]) ∧
    (∀ v run t, l.phase = .restoring → l.saved = some v → l.context = some run → (s.readContext run).Fails t →
      exec (.restore inst) s = .next ((t.freeContext inst).endFatal inst 0x0A .deviceErr 2 (t.ctxBase + BitVec.ofNat 64 (4096 * run.1)))) ∧
    (∀ v run x block y ws w t, l.phase = .restoring → l.saved = some v → l.context = some run → s.readContext run = .ok x block →
      x.readRegion l.record.space l.record.baseBlk.toNat 32 = .ok y ws → blockFits v.units block = true →
      ({ l with bases := Vector.ofFn fun (i : Fin 16) => pair64 (ws.getD (2 * i.val) 0) (ws.getD (2 * i.val + 1) 0) } : Launch).restored
        y.retiredLinks y.retired v = some w → (y.readStream block w).Fails t →
      exec (.restore inst) s = .next ((t.freeContext inst).endFatal inst 0x0A .deviceErr 2 (t.ctxBase + BitVec.ofNat 64 (4096 * run.1)))) ∧
    (∀ v, l.phase = .restoring → l.saved = some v → exec (.restore inst) s = .next (s.reload inst l v)) ∧
    (l.phase = .restoring → l.saved = none → s.presenting inst l = false → exec (.restore inst) s =
      .next ((((s.freeContext inst).modLaunch inst fun l => { l with phase := .running, lastMove := s.now }).reportLaunch inst 5 0).compactOn)) ∧
    (l.phase = .restoring → l.saved = none → s.presenting inst l = true → exec (.restore inst) s = .next s)) ∧
  (∀ (s : State) (done : DWord), s.killing = none → s.inReset = false →
    ((∀ e ∈ s.launches, e.2.record.doneAddr = done → e.2.phase = .completing) →
      exec (.kill done) s = .next { s with killResult := 0 }) ∧
    (∀ before after inst l, s.launches = before ++ (inst, l) :: after →
      (∀ e ∈ before, e.2.record.doneAddr = done → e.2.phase = .completing) → l.record.doneAddr = done → l.phase ≠ .completing →
      let v : State := { s with killResult := 1, killing := some inst }
      (l.phase = .waiting ∨ l.phase = .loading → exec (.kill done) s = .next (v.endUnrun inst 9 0 0)) ∧
      (l.phase ≠ .waiting → l.phase ≠ .loading →
        exec (.kill done) s = .next ((v.freeContext inst).endFatal inst 9 .killed 0 0))))

/-- R322, R323, R324, R325: a die's commands. A ranged write-back writes the range's dirty lines and counts them, or ends with RESULT 3; a switch of domains
ends with RESULT 2 on a bad staged configuration, with RESULT 1 at a blocking line, and otherwise walks the slices, makes the staged copies
live and presents what it caught; a request that found the catch buffer full is presented again.
Where the spec leaves the choice, it is the model's (log 79). -/
def Obligations.DieCommands : Prop :=
  ∀ (s : State) (die : Nat),
    let x := s.die die
    (x.domOp = 3 ∨ (x.domOp = 1 ∧ x.rangeOk die = false) → exec (.writeBackRange die) s = .next (s.setDie die (x.domEnd 0 x.lastCaught 3))) ∧
    (x.domOp = 1 → x.rangeOk die = true →
      let lo := x.wbBase.toNat
      let lines := (dieSlices die).flatMap fun sl =>
        (s.dirtyLines sl (x.wbLen.extractLsb' 32 12) lo (lo + 128 * field x.wbLen 0 32)).map (sl, ·)
      let v := lines.foldl (fun (s : State) p => s.writeBack p.1 p.2.1) s
      exec (.writeBackRange die) s = .next (v.setDie die ((v.die die).domEnd lines.length x.lastCaught 0))) ∧
    (x.domOp = 2 → x.phase = .idle →
      (x.stagedOk = false → exec (.domainSwitch die) s = .next (s.setDie die (x.domEnd 0 0 2))) ∧
      (x.stagedOk = true → x.anyAffected = false → exec (.domainSwitch die) s = .next (s.setDie die (x.domEnd 0 0 0))) ∧
      (x.stagedOk = true → x.anyAffected = true → exec (.domainSwitch die) s = .next (s.setDie die { x with phase := .frozen }))) ∧
    (x.phase = .frozen → s.stillPerforming die = false →
      (s.switchBlocked die = true → exec (.domainSwitchWalk die) s =
        .next ((s.setDie die (x.domEnd 0 x.caughtCount 1)).presentCaught die)) ∧
      (s.switchBlocked die = false →
        let v := (dieSlices die).foldl (fun (s : State) sl => s.leaveSlice die sl) s
        exec (.domainSwitchWalk die) s = .next (v.setDie die { v.die die with phase := .walked }))) ∧
    (x.phase = .walked →
      let live := { x with domMap := x.domMapStaged, domCfg := x.domCfgStaged }
      exec (.domainSwitchReplay die) s = .next ((s.setDie die (live.domEnd x.moved x.caughtCount 0)).presentCaught die)) ∧
    (∀ k rq, x.catchRefused[k]? = some rq → rq.retryAt ≤ s.now →
      let v := s.setDie die { x with catchRefused := x.catchRefused.eraseIdx k }
      let sl := v.homeSlice rq.va
      exec (.catchRetry die k) s = .next (v.setSlice sl { v.slice sl with reqs := (v.slice sl).reqs ++ [rq] })) ∧
    (∀ k rq, x.catchRefused[k]? = some rq → s.now < rq.retryAt → exec (.catchRetry die k) s = .next s) ∧
    (∀ v, x.domOp ≠ 0 → x.domCommand v = { x with domStat := x.domStat ||| 2 }) ∧
    (∀ moved caught result, (x.domEnd moved caught result).domOp = 0 ∧ (x.domEnd moved caught result).phase = .idle ∧
      (x.domEnd moved caught result).domStat.getLsbD 0 = false ∧
      (x.domEnd moved caught result).domStat.extractLsb' 16 16 = BitVec.ofNat 16 (min caught 0xFFFF) ∧
      (x.domEnd moved caught result).domStat.extractLsb' 4 4 = BitVec.ofNat 4 result ∧
      (x.domEnd moved caught result).domStat.extractLsb' 32 32 = BitVec.ofNat 32 moved)

/-! ### The control window and the platform -/

/-- R375, R376, R377, R378, R379, R380, R381, R382, R383: the control window, resets, attestation, peer accesses, power and histograms. Writes
and aperture accesses act as their fields say, and are ignored in a reset; a cold reset goes from state to state, an event naming every unit
and link that training retires, or fails with a code; a report measures the image and is signed with a fresh signature; LEVEL moves by one at
the end of each span of 65,536 cycles, each for itself, and the estimate is a sample; a sample reaches its bin.
Where the spec leaves the choice, it is the model's (logs 77, 78, 80, 110, 133). -/
def Obligations.HostAndPlatform : Prop :=
  ∀ (s : State),
    (s.inReset = true → (∀ o b v, exec (.apertureWritePlain o b v) s = .next s ∧ exec (.apertureWriteS o b v) s = .next s ∧
        exec (.apertureWriteEmpty o b v) s = .next s ∧ exec (.featureOn v) s = .next s) ∧
      (∀ o b, exec (.apertureRead o b) s = .next { s with hostReplies := s.hostReplies ++ [0] })) ∧
    (s.inReset = false →
      let space : BitVec 12 := s.swCtl.extractLsb' 32 12
      let u : State := { s with windowHeld := false }
      let at_ := fun (o : BitVec 14) => s.swBase + o.zeroExtend 64
      let lies := fun (o : BitVec 14) (b : Bool) => (at_ o).toNat % (if b then 8 else 4) = 0 ∧ (at_ o).toNat < 2 ^ 52
      (∀ (o : BitVec 14) (b : Bool),
        let reply := fun (t : State) (v : DWord) => ({ t with hostReplies := t.hostReplies ++ [v] } : State)
        let fails := fun (t : State) (bit : BitVec 3) =>
          reply { t with swStat := t.swStat ||| bit } (if b then 0xFFFFFFFFFFFFFFFF else 0xFFFFFFFF)
        (¬ lies o b → exec (.apertureRead o b) s = .next (fails u 4)) ∧
        (lies o b → exec (.apertureRead o b) s =
          .next (match u.performNow (outsideReq space (at_ o) (.load .plain (if b then 2 else 1))) with
            | .ok t r => if r.poisoned then fails t 2 else reply t (pair64 (r.words.getD 0 0) (if b then r.words.getD 1 0 else 0))
            | .wait t => { t with windowHeld := true }
            | .fault t => fails t 1
            | .denied t => fails t (u.deniedBit space (at_ o).toNat false)
            | .error t => fails t 4
            | .hole t => fails t 4))) ∧
      (∀ (i : Instr) (mode : Nat) (op : HomeOp) (o : BitVec 14) (b : Bool) (v : DWord),
        let data : List Word := if b then [lo32 v, hi32 v] else [lo32 v]
        let fails := fun (t : State) (bit : BitVec 3) => ({ t with swStat := t.swStat ||| bit } : State)
        (i = .apertureWritePlain o b v ∧ mode = 0 ∧ op = .store .plain data) ∨ (i = .apertureWriteS o b v ∧ mode = 1 ∧ op = .store .s data) ∨
          (i = .apertureWriteEmpty o b v ∧ mode = 2 ∧ op = .storeEmpty data) →
        (field s.swCtl 0 2 ≠ mode → exec i s = .next s) ∧
        (field s.swCtl 0 2 = mode → ¬ lies o b → exec i s = .next (fails u 4)) ∧
        (field s.swCtl 0 2 = mode → lies o b → exec i s = .next (match u.performNow (outsideReq space (at_ o) op) with
          | .ok t r => if r.poisoned then fails t 2 else t
          | .wait t => { t with windowHeld := true }
          | .fault t => fails t 1
          | .denied t => fails t (u.deniedBit space (at_ o).toNat true)
          | .error t => fails t 4
          | .hole t => fails t 4))) ∧
      (∀ v, s.featureLocked = false → exec (.featureOn v) s =
        .next { s with featureOn := (Vector.replicate 4 0).set 0 (s.featureStaged[0] &&& 0x7FF), featureTaken := true }) ∧
      (∀ v, s.featureLocked = true → exec (.featureOn v) s = .next s) ∧
      (∀ (space : BitVec 12) va op,
        let align := match op with
          | .atomic _ pair _ _ => if pair then 8 else 4
          | .swap pair _ _ _ => if pair then 8 else 4
          | _ => 4
        va.toNat < 2 ^ 52 → va.toNat % align = 0 → va.toNat / 4 % 16 + (Machine.OutsideOp.home op).words ≤ 16 →
        exec (.peerAccess space va op) s = .next (s.post (outsideReq space va (Machine.OutsideOp.home op)))) ∧
      (∀ v, exec (.registerWrite 0x50 v) s = .next { s with swBase := v } ∧ exec (.registerWrite 0x70 v) s = .next { s with attAddr := v } ∧
        exec (.registerWrite 0xC0 v) s = .next { s with
          quantum := lo32 v, quantumMark := if s.nextQuantum ≤ s.now then s.quantumMark else s.now } ∧
        exec (.registerWrite 0xD0 v) s = .next { s with preemptWait := lo32 v } ∧
        exec (.registerWrite 0x200 v) s = .next { s with powerCap := v.extractLsb' 0 12 } ∧
        exec (.registerWrite 0x60 v) s = .next { s with swStat := s.swStat &&& v.extractLsb' 0 3 })) ∧
    (let v := ({ s with queues := s.queues.map HostQueue.ended, featureLocked := false } : State).removeReqs fun r =>
        match r.party with
        | .walk _ => true
        | _ => false
      let w := (v.launches.map (·.1)).foldl (fun (t : State) i => t.killLaunch i) v
      exec .warmReset s = .next { w with warm := !w.launches.isEmpty }) ∧
    (let b := s.boot
      let cold : State := { s with resetState := 1, failCode := 0, svn := 0, warm := false }
      (s.resetState ≠ 1 → s.resetState ≠ 2 → exec .coldReset s = .next cold) ∧
      (s.resetState = 1 → exec .coldReset s = .next (
        if b.signed = false then s.dormant 1 0
        else if b.svn.toNat < b.fusedSvn.toNat then s.dormant 2 0
        else if b.trained = false then s.dormant 3 b.svn
        else
          let units := b.failing.foldl (fun (t : State) u =>
            t.event (cellDie (u / 16 % 128) (u / 2048)) 5 0 0 0 (BitVec.ofNat 32 (u % 65536))) s
          let links := b.failingLinks.foldl (fun (t : State) n => t.event 0 5 0 0 0 (BitVec.ofNat 32 n)) units
          { links with resetState := 2, svn := b.svn })) ∧
      (∀ code svn, let d := s.dormant code svn
        d.resetState = 4 ∧ d.failCode = code ∧ d.svn = svn ∧ d.mem = [] ∧ d.launches = [] ∧ d.slices = [] ∧ d.inReset = true) ∧
      (s.resetState = 2 → ∃ t, exec .coldReset s = .next t ∧ t.resetState = 3 ∧ t.svn = b.svn ∧ t.mem = [] ∧ t.launches = [] ∧ t.slices = [] ∧
        t.retired = b.failing ∧ t.retiredLinks = b.failingLinks ∧ t.dies = State.reset.dies ∧ t.queues = State.reset.queues ∧ t.swBase = 0 ∧
        t.swCtl = 0 ∧ t.quantum = State.reset.quantum ∧ t.featureOn = State.reset.featureOn ∧ t.powerCap = State.reset.powerCap) ∧
      (∀ v, field v 0 2 = 2 → exec (.registerWrite 0x40 v) s = .next cold) ∧
      (∀ v, field v 0 2 = 1 → s.resetState = 3 → s.warm = false → exec (.registerWrite 0x40 v) s = exec .warmReset s) ∧
      (∀ (o : BitVec 16) v, s.inReset = true → o ≠ 0x40 → exec (.registerWrite o v) s = .next s)) ∧
    (∀ v, s.attBusy = true → 0 < s.attSigs.toNat →
      let ends := fun (t : State) (ok : Bool) => ({ t with attBusy := false, attDone := ok, attErr := !ok } : State)
      let right := s.attAddr.toNat % 4096 = 0 ∧ s.attAddr.toNat < 2 ^ 52
      (¬ right → exec (.attestationReport v) s = .next (ends s false)) ∧
      (right → exec (.attestationReport v) s =
        .next (match s.storeReleased (v.extractLsb' 32 12) s.attAddr.toNat s.attestation with
          | .ok t _ => ends { t with attSigs := t.attSigs - 1 } true
          | .wait t => t
          | other => ends { other.state with attSigs := other.state.attSigs - 1 } false))) ∧
    (∀ i, i < 8 → s.attestation.getD (12 + i) 0 =
      (sha256 s.boot.image).getD (4 * i + 3) 0 ++ (sha256 s.boot.image).getD (4 * i + 2) 0 ++ (sha256 s.boot.image).getD (4 * i + 1) 0 ++
        (sha256 s.boot.image).getD (4 * i) 0) ∧
    (∀ v, s.attBusy = true → s.attSigs = 0 →
      exec (.attestationReport v) s = .next { s with attBusy := false, attDone := false, attErr := true }) ∧
    (∀ die n source space value,
      let h := (s.die die).histogram n
      let w := value.toNat / 2 ^ field h.config 8 5
      let bin := if w = 0 then 0 else min 31 (Nat.log2 w + 1)
      let old := h.bins[bin]?.getD 0
      (s.inReset = true → exec (.histogramClear die n) s = .next s) ∧
      (s.inReset = false → exec (.histogramClear die n) s = .next (s.setHistogram die n Histogram.reset)) ∧
      (h.takes source space = false → exec (.histogramSample die n source space value) s = .next s) ∧
      (h.takes source space = true → h.config.getLsbD 62 = true →
        exec (.histogramSample die n source space value) s = .next (s.setHistogram die n { h with dropped := h.dropped + 1 })) ∧
      (h.takes source space = true → h.config.getLsbD 62 = false → exec (.histogramSample die n source space value) s =
        .next (s.setHistogram die n { h with
          min := if value < h.min then value else h.min, max := if h.max < value then value else h.max, count := h.count + 1
          bins := h.bins.setIfInBounds bin (if old = 0xFFFFFFFF then old else old + 1) }))) ∧
    (s.now < s.nextPower → exec .powerLevelUpdate s = .next s) ∧
    (s.powerMark < s.nextPower ∧ s.nextPower % 65536 = 0 ∧ s.nextPower ≤ s.powerMark + 65536) ∧
    (s.nextPower ≤ s.now →
      let cap := max 1000 (min 3600 s.powerCap.toNat)
      let estimate := Config.powerEstimate s.tick
      let level : BitVec 3 := if cap < estimate then (if s.level = 7 then 7 else s.level + 1)
        else if 100 * estimate < 95 * cap then (if s.level = 0 then 0 else s.level - 1) else s.level
      let lengthened := if s.level = 0 then s.throttled
        else BitVec.ofNat 32 (min 0xFFFFFFFF (s.throttled.toNat + (s.nextPower - s.throttleMark)))
      let v := { s with powerMark := s.nextPower, throttled := lengthened, throttleMark := max s.throttleMark s.nextPower
                        overCap := s.level == 7 && decide (cap < estimate), level := level }
      let w := if level = s.level then v else v.event 0 6 0 0 0 (level.zeroExtend 32)
      exec .powerLevelUpdate s = .next ((List.range 4).foldl (fun (t : State) d => t.sample d 9 0 (BitVec.ofNat 32 estimate)) w))

/-! ### Encodings, memory and the step -/

/-- The words that the spec works out by hand decode to the operations that they stand for (R18, R22 to R26, R29): a word of each of its
worked encodings. -/
def Obligations.DecodesListedWords : Prop :=
  let mem := fun (shift : BitVec 4) (a : Reg) (base : BitVec 4) (space : Space) (scope : Scope) (size : Size) (imm8 : BitVec 8) =>
    ({ shift := shift, a := a, base := base, space := space, scope := scope, size := size, hint := .dflt, imm8 := imm8 } : MemRef)
  decodeTableWord 48 0x826010291C00 = some (.ldv 0 .c (mem 6 1 2 .global .region .vector 0)) ∧
  decodeTableWord 48 0x484250001000 = some (.fcvt 2 5 .e4m3 .fp32 .one .rne true) ∧
  decodeTableWord 48 0x0E0010000642 = some (.setp .lt 1 (.inl 100)) ∧
  decodeTableWord 48 0x090000063092 = some (.emit 3 (.pred 6 9)) ∧
  decodeTableWord 48 0x842425393002 = some (.atomAdd 4 5 .rel (mem 2 2 3 .global .dev .word 2)) ∧
  decodeTableWord 48 0x800210041010 = some (.ld 2 .plain (mem 0 1 0 .regionTile .region .word 16)) ∧
  decodeTableWord 48 0x8200F0011C00 = some (.ldv 0 .c (mem 0 15 0 .ownTile .region .vector 0)) ∧
  decodeTableWord 48 0x8300F0059C00 = some (.stv 0 .f (mem 0 15 0 .regionTile .region .vector 0)) ∧
  decodeTableWord 48 0x430804C42000 =
    some (.ffma { ty := .f32, d := 8, a := 0, b := 4, c := 12, len := .four, round := .rtz, sat := false }) ∧
  decodeTableWord 48 0x744104000060 = some (.msca { fmt := .e4m3, d := 1, a := 0, b := 4 } 2 1) ∧
  decodeTableWord 48 0x7000004FE7F0 = some (.mtcfg 0 0x4FE7F) ∧
  decodeTableWord 48 0x710800001000 = some (.tload 8 false 1 0) ∧
  decodeTableWord 48 0x760000000000 = some (.mdrain 0 .fp32) ∧
  decodeTableWord 48 0x734020000000 = some (.mmap { fmt := .e4m3, d := 0, a := 2, b := 0 }) ∧
  decodeTableWord 48 0x9D60C0E81C01 = some (.copy (mem 6 12 14 .global .region .vector 1)) ∧
  decodeTableWord 48 0xB20060081C00 = some (.pageShare (mem 0 6 0 .global .region .vector 0)) ∧
  decodeTableWord 16 0x00086000 = some (.carry 8) ∧
  decodeTableWord 32 0x84000000 = some .begin ∧ decodeTableWord 32 0x88000000 = some .commit ∧
  decodeTableWord 32 0x13601C00 = some (.fieldWrite 19 6 0 0x1C00) ∧ decodeTableWord 32 0x13611029 = some (.fieldWrite 19 6 1 0x1029) ∧
  decodeTableWord 32 0x49B0A0C8 = some (.routeHead 19 6 0 1 1 0xC8) ∧ decodeTableWord 32 0x80000001 = some (.page 1 0)

/-- R22 to R31, R37, R53 to R64: decode of encode is the instruction itself, for every well-formed instruction that has an encoding: the
element operations, the router operators, the stream commands and the nodes. -/
def Obligations.EncodeDecodeRoundTrip : Prop :=
  ∀ (i : Instr) (nbits w : Nat), i.wf = true → encode i = some (nbits, w) → decodeTableWord nbits w = some i

/-- R5, R55, R65: what decodes is a well-formed instruction and its word is that instruction's encoding, so that no other word decodes to it
and no word with a reserved opcode, a reserved code or a must-be-zero bit decodes at all. -/
def Obligations.DecodedWordsAreCanonical : Prop :=
  (∀ (w : BitVec 48) (i : Instr), decodeOp w = .ok i → i.wf = true ∧ encode i = some (48, w.toNat)) ∧
  (∀ (w : BitVec 32) (i : Instr), decodeSlot w = some i → i.wf = true ∧ encode i = some (16, w.toNat)) ∧
  (∀ (w : BitVec 32) (i : Instr), decodeCommand w = some i → i.wf = true ∧ encode i = some (32, w.toNat)) ∧
  (∀ (w : BitVec 256) (i : Instr), decodeNode w = some i → i.wf = true ∧ encode i = some (256, w.toNat))

/-- A step performs a task that is at hand, and time goes on: an operation's is what the fields of its unit decode to, at that unit; a
loader's is what the next word of its stream decodes to; a walk's is what the node that it reads decodes to; an input's is the input.
Where the spec leaves the choice, it is the model's (logs 3, 5, 18). -/
def Obligations.StepRunsDecoded : Prop :=
  (∀ s : State, s.tasks = [] → step s = .next (s.elapsed s.tick)) ∧
  (∀ s : State, s.tasks ≠ [] → ∃ t ∈ s.tasks, s.pick = some t) ∧
  (∀ (s : State) (t : Task), s.tasks = [t] → s.pick = some t) ∧
  (∀ (s : State) (n : Nat), (s.elapsed n).tick = n + 1 ∧ (s.elapsed n).now = s.now + Config.elapse n) ∧
  (∀ (s : State) (inst x y unit slot : Nat) (l : Launch) (i : Instr), s.pick = some (.op inst x y unit slot) →
    s.launch? inst = some l → ¬ (8 ≤ unit ∧ unit ≤ 10) →
    let u := l.unit x y unit
    decodeTableWord 48 (u.fld 2 ++ u.fld 1 ++ u.fld 0).toNat = some i →
    step s = timed s.tick (exec i (s.focusAt inst x y unit slot 0))) ∧
  (∀ (s : State) (inst x y unit slot : Nat) (l : Launch) (i : Instr), s.pick = some (.op inst x y unit slot) →
    s.launch? inst = some l → 8 ≤ unit → unit ≤ 10 →
    let u := l.unit x y unit
    decodeTableWord 16 (u.fld (2 + slot) ++ u.fld slot).toNat = some i →
    step s = timed s.tick (exec i (s.focusAt inst x y unit slot 0))) ∧
  (∀ (s : State) (i : Instr), s.pick = some (.event i) → step s = timed s.tick (exec i s)) ∧
  (∀ (s t : State) (inst : Nat) (l : Launch) (ld : Loader) (w : Word) (i : Instr), s.pick = some (.load inst) →
    s.launch? inst = some l → l.loading? = some ld → (s.focusAt inst 0 0 0 0 0).streamWords ld ld.pos 1 = .ok t [w] →
    decodeTableWord 32 w.toNat = some i → step s = timed s.tick (exec i t)) ∧
  (∀ (s t : State) (q : Nat) (ws : List Word) (i : Instr), s.pick = some (.walk q) → (s.queue q).phase = .fetch →
    (s.queue q).node.toNat % 32 = 0 → canonical (s.queue q).node = true → (s.queue q).failed = false →
    (s.focusAt 0 0 0 0 0 q).loadWords (s.queue q).space (s.queue q).node.toNat 8 = .ok t ws →
    decodeTableWord 256 (execLaunchAccept.nodeBits ws).toNat = some i →
    step s = timed s.tick (exec i (t.setQueue q { s.queue q with words := ws }))) ∧
  (∀ (s : State) (k : Nat) (i : Instr) (t : State), s.pick = some (.input k) → s.inputs[k]? = some i →
    exec i { s with inputs := dropAt s.inputs k, windowHeld := false } = .next t → t.windowHeld = false →
    step s = .next (t.elapsed s.tick))

/-- R179, R185, R285, R293, R321, R323, R348, R356, R360, R375, R377, R381: what the spec says the machine holds at reset; the other
registers' reset values are the model's own (log 1). -/
def Obligations.ResetState : Prop :=
  let s := State.reset
  s.Canonical ∧ s.resetState = 3 ∧ s.launches = [] ∧ s.slices = [] ∧
  (∀ key, s.readByte key = 0 ∧ s.wordFull key = true ∧ s.sectorParked key = false) ∧
  (s.quantum = 65536 ∧ s.compactAfter = 8 ∧ s.preemptWait = 0x100000 ∧ s.ctxCtl = 0 ∧ s.ctxBase = 0 ∧ s.killResult = 0) ∧
  (s.swBase = 0 ∧ s.swCtl = 0 ∧ s.swStat = 0 ∧ s.powerCap = 3600 ∧ s.throttled = 0 ∧ s.overCap = false ∧ s.level = 0) ∧
  (∀ q, q < 4 → let w := s.queue q; w.start = 0 ∧ w.tail = 0 ∧ w.space = 0 ∧ w.walking = false ∧ w.errCount = 0 ∧ w.errCode = 0 ∧ w.errAddr = 0) ∧
  (∀ n, n < 4 → let d := s.die n
    d.parkAfter = 4096 ∧ d.laggard = 0x1000000 ∧ d.domMap = 0 ∧ d.domCfg[0] = 0x80C007FFFFFFFFFF ∧
    (∀ k (h : k < 8), 0 < k → d.domCfg[k] = 0x000007FFFFFFFFFF) ∧ d.wbBase = 0 ∧ d.wbLen = 0 ∧ d.domStat = 0 ∧
    d.rootBase = 0 ∧ d.ftBase = 0 ∧ d.ftFrames = 0 ∧ d.tbCtl = 0 ∧ d.tbBase = 0 ∧ d.tbHead = 0 ∧ d.tbTail = 0 ∧
    d.frCtl = 0 ∧ d.frBase = 0 ∧ d.frHead = 0 ∧ d.frTail = 0) ∧
  (∀ t, t < 8 → let g := MatrixTile.reset.regs[t]?.getD TileReg.reset
    g.state = .empty ∧ g.readers = 0 ∧ g.poisoned = false ∧ g.gen = 0 ∧ g.shape = 0x0FE1F)

/-- R3, R178: a byte, a word and a range of words read back as they were written, every other byte and full/empty bit is as it was, and
memory stays in canonical form. -/
def Obligations.MemoryReadsBack : Prop :=
  ∀ s : State, s.Canonical →
    (∀ key b k, (s.writeByte key b).Canonical ∧ (s.writeByte key b).readByte k = if k = key then b else s.readByte k) ∧
    (∀ key w k, (s.writeWord key w).readWord key = w ∧
      (k < key ∨ key + 4 ≤ k → (s.writeWord key w).readByte k = s.readByte k)) ∧
    (∀ key ws k, (s.writeWords key ws).Canonical ∧ (s.writeWords key ws).readWords key ws.length = ws ∧
      (k < key ∨ key + 4 * ws.length ≤ k → (s.writeWords key ws).readByte k = s.readByte k)) ∧
    (∀ key v, (s.writeDword key v).readDword key = v) ∧
    (∀ key fs k, (s.setFull key fs).Canonical ∧ (key % 4 = 0 → (s.setFull key fs).wordsFull key fs.length = fs) ∧
      (k / 4 < key / 4 ∨ key / 4 + fs.length ≤ k / 4 → (s.setFull key fs).wordFull k = s.wordFull k)) ∧
    (∀ key bs, (s.setBad key bs).Canonical ∧ (key % 4 = 0 → (s.setBad key bs).wordsBad key bs.length = bs)) ∧
    (∀ key b k, (s.setParked key b).Canonical ∧
      (s.setParked key b).sectorParked k = if k / 64 = key / 64 then b else s.sectorParked k) ∧
    ∀ block, (s.compress block).Canonical

/-- Every step keeps memory in canonical form: addresses rise strictly, and no entry is what an unlisted place reads as. -/
def Obligations.StepKeepsMemoryCanonical : Prop :=
  ∀ s t : State, s.Canonical → step s = .next t → t.Canonical
end

