-- ==== Sys2Proof/Laws/Records.lean ====
section
/-! SUPPORT. Laws/Records.lean: reading a record's words and lanes after writing them (R22, R23, R73), and its control word by
field (R32). -/

namespace Sys2Proof.Machine

/-! ### Lists -/

theorem getD_of_lt {α : Type} (xs : List α) {n : Nat} (d : α) (h : n < xs.length) : xs.getD n d = xs[n] := by
  simp [List.getD, h]

/-! ### Words -/

theorem Record.at_of_le (r : Record) {k : Nat} (h : 16 ≤ k) : r.at k = 0 := by
  simp [Record.at, Vector.getElem?_eq_none h]

theorem Record.at_eq_w (r : Record) (i : Reg) : r.at i.toNat = r.w i := by
  have h : i.toNat < 16 := i.isLt
  simp [Record.at, Record.w, Vector.get, h]

@[simp] theorem Record.at_setAt (r : Record) (n k : Nat) (x : Word) :
    (r.setAt n x).at k = if k = n ∧ n < 16 then x else r.at k := by
  unfold Record.at Record.setAt
  simp only [Vector.getElem?_setIfInBounds]
  by_cases h : n = k
  · subst h
    by_cases h2 : n < 16
    · simp [h2]
    · simp [h2]
  · simp [h, Ne.symm h]

@[simp] theorem Record.rcw_setAt (r : Record) (n : Nat) (x : Word) : (r.setAt n x).rcw = r.rcw := rfl
@[simp] theorem Record.rcw_setW (r : Record) (d : Reg) (x : Word) : (r.setW d x).rcw = r.rcw := rfl

@[simp] theorem Record.rcw_setWords (ws : List Word) : ∀ (r : Record) (d : Nat), (r.setWords d ws).rcw = r.rcw := by
  induction ws with
  | nil => intro r d; rfl
  | cons x xs ih => intro r d; rw [Record.setWords, ih]; rfl

theorem Record.at_setWords (ws : List Word) : ∀ (r : Record) (d k : Nat),
    (r.setWords d ws).at k = if d ≤ k ∧ k < d + ws.length ∧ k < 16 then ws.getD (k - d) 0 else r.at k := by
  induction ws with
  | nil => intro r d k; simp [Record.setWords]; omega
  | cons x xs ih =>
    intro r d k
    rw [Record.setWords, ih, Record.at_setAt]
    by_cases h1 : k = d
    · subst h1
      have h3 : ¬(k + 1 ≤ k ∧ k < k + 1 + xs.length ∧ k < 16) := by omega
      rw [if_neg h3]
      by_cases h2 : k < 16 <;> simp [h2]
    · by_cases h2 : d ≤ k ∧ k < d + (xs.length + 1) ∧ k < 16
      · have h3 : d + 1 ≤ k ∧ k < d + 1 + xs.length ∧ k < 16 := by omega
        obtain ⟨n, hn⟩ : ∃ n, k - d = n + 1 := ⟨k - d - 1, by omega⟩
        have hn' : k - (d + 1) = n := by omega
        simp [h3, hn, hn']
        omega
      · have h3 : ¬(d + 1 ≤ k ∧ k < d + 1 + xs.length ∧ k < 16) := by omega
        simp only [List.length_cons]
        rw [if_neg h3, if_neg (by omega), if_neg h2]

theorem Record.at_setW (r : Record) (d : Reg) (x : Word) (k : Nat) :
    (r.setW d x).at k = if k = d.toNat then x else r.at k := by
  have h : d.toNat < 16 := d.isLt
  have e : r.setW d x = r.setAt d.toNat x := by
    simp [Record.setW, Record.setAt, Vector.setIfInBounds, Vector.set, Array.setIfInBounds, h]
  rw [e, Record.at_setAt]
  simp [h]

theorem Record.w_setW (r : Record) (d i : Reg) (x : Word) : (r.setW d x).w i = if i = d then x else r.w i := by
  rw [← Record.at_eq_w, Record.at_setW, Record.at_eq_w]
  by_cases h : i = d
  · simp [h]
  · have : i.toNat ≠ d.toNat := fun e => h (BitVec.eq_of_toNat_eq e)
    simp [h, this]

@[simp] theorem Record.at_rcw (r : Record) (c : Rcw) (k : Nat) : (r.setCtl c).at k = r.at k := rfl

@[simp] theorem Record.length_slice (r : Record) (x n : Nat) : (r.slice x n).length = n := by simp [Record.slice]

theorem Record.getD_slice (r : Record) (x n i : Nat) (h : i < n) : (r.slice x n).getD i 0 = r.at (x + i) := by
  simp [Record.slice, h]

/-! ### Lanes -/

theorem bitStream_lt (ws : List Word) : bitStream ws < 2 ^ (32 * ws.length) := by
  induction ws with
  | nil => simp [bitStream]
  | cons w ws ih =>
    have h : w.toNat < 2 ^ 32 := w.isLt
    have e : 2 ^ (32 * (w :: ws).length) = 2 ^ 32 * 2 ^ (32 * ws.length) := by
      rw [List.length_cons, Nat.mul_add, Nat.mul_one, Nat.add_comm, Nat.pow_add]
    rw [e, bitStream]
    have : bitStream ws + 1 ≤ 2 ^ (32 * ws.length) := ih
    calc w.toNat + 2 ^ 32 * bitStream ws < 2 ^ 32 + 2 ^ 32 * bitStream ws := by omega
      _ = 2 ^ 32 * (bitStream ws + 1) := by rw [Nat.mul_add, Nat.mul_one, Nat.add_comm]
      _ ≤ 2 ^ 32 * 2 ^ (32 * ws.length) := Nat.mul_le_mul_left _ this

/-- Word k of a bit stream. -/
theorem bitStream_word (ws : List Word) : ∀ k, bitStream ws / 2 ^ (32 * k) % 2 ^ 32 = (ws.getD k 0).toNat := by
  induction ws with
  | nil => intro k; simp [bitStream]
  | cons w ws ih =>
    intro k
    have h : w.toNat < 2 ^ 32 := w.isLt
    cases k with
    | zero => simp only [bitStream, Nat.mul_zero, Nat.pow_zero, Nat.div_one, List.getD_cons_zero]; omega
    | succ k =>
      have e : 2 ^ (32 * (k + 1)) = 2 ^ 32 * 2 ^ (32 * k) := by rw [Nat.mul_add, Nat.mul_one, Nat.add_comm, Nat.pow_add]
      have q : (w.toNat + 2 ^ 32 * bitStream ws) / 2 ^ 32 = bitStream ws := by omega
      rw [bitStream, e, ← Nat.div_div_eq_div_mul, q, ih k, List.getD_cons_succ]

/-- Element j of a width in a stream is bits of one word, for a width that divides 32 (R73). -/
theorem bitStream_lane (ws : List Word) (n q j : Nat) (h : n * q = 32) :
    bitStream ws / 2 ^ (j * n) % 2 ^ n = (ws.getD (j / q) 0).toNat / 2 ^ (j % q * n) % 2 ^ n := by
  have hq : 0 < q := by
    rcases Nat.eq_zero_or_pos q with e | e
    · subst e; omega
    · exact e
  rw [← bitStream_word ws (j / q)]
  have e : j * n = 32 * (j / q) + j % q * n := by
    have := Nat.div_add_mod j q
    calc j * n = (q * (j / q) + j % q) * n := by rw [this]
      _ = n * q * (j / q) + j % q * n := by rw [Nat.add_mul]; congr 1; rw [Nat.mul_comm q, Nat.mul_assoc, Nat.mul_comm, Nat.mul_comm q]
      _ = 32 * (j / q) + j % q * n := by rw [h]
  rw [e, Nat.pow_add, ← Nat.div_div_eq_div_mul]
  generalize bitStream ws / 2 ^ (32 * (j / q)) = y
  have hm : j % q * n + n ≤ 32 := by
    have h1 : j % q + 1 ≤ q := Nat.mod_lt _ hq
    calc j % q * n + n = (j % q + 1) * n := by rw [Nat.add_mul, Nat.one_mul]
      _ ≤ q * n := Nat.mul_le_mul_right _ h1
      _ = 32 := by rw [Nat.mul_comm]; exact h
  generalize j % q * n = m at hm
  apply Nat.eq_of_testBit_eq
  intro i
  simp only [Nat.testBit_mod_two_pow, Nat.testBit_div_two_pow]
  by_cases hi : i < n
  · have : i + m < 32 := by omega
    simp [hi, this]
  · simp [hi]

theorem packElements_word (n : Nat) (vs : List Nat) : ∀ j, packElements n vs / 2 ^ (j * n) % 2 ^ n = vs.getD j 0 % 2 ^ n := by
  induction vs with
  | nil => intro j; simp [packElements]
  | cons v vs ih =>
    intro j
    have hp : 0 < 2 ^ n := Nat.two_pow_pos n
    have hv : v % 2 ^ n < 2 ^ n := Nat.mod_lt _ hp
    cases j with
    | zero => simp [packElements]
    | succ j =>
      have e : 2 ^ ((j + 1) * n) = 2 ^ n * 2 ^ (j * n) := by rw [Nat.add_mul, Nat.one_mul, Nat.add_comm, Nat.pow_add]
      have q : (v % 2 ^ n + 2 ^ n * packElements n vs) / 2 ^ n = packElements n vs := by
        rw [Nat.add_mul_div_left _ _ hp, Nat.div_eq_of_lt hv, Nat.zero_add]
      rw [packElements, e, ← Nat.div_div_eq_div_mul, q, ih j, List.getD_cons_succ]

@[simp] theorem length_streamWords (n s : Nat) : (streamWords n s).length = n := by simp [streamWords]

theorem getD_streamWords (n s i : Nat) (h : i < n) : (streamWords n s).getD i 0 = BitVec.ofNat 32 (s / 2 ^ (32 * i)) := by
  simp [streamWords, h]

theorem lane_bits_dvd (lane : Lane) : lane.bits * (32 / lane.bits) = 32 := by cases lane <;> rfl
theorem lane_bits_pos (lane : Lane) : 0 < lane.bits := by cases lane <;> decide

@[simp] theorem Record.length_lanes (r : Record) (x : Reg) (len : Len) (lane : Lane) :
    (r.lanes x len lane).length = len.words * 32 / lane.bits := by simp [Record.lanes, Machine.elements]

theorem laneWord_lt {len : Len} {lane : Lane} {j : Nat} (h : j < len.words * 32 / lane.bits) : j / (32 / lane.bits) < len.words := by
  cases len <;> cases lane <;> simp only [Len.words, Lane.bits] at * <;> omega

theorem Record.getD_lanes (r : Record) (x : Reg) (len : Len) (lane : Lane) (j : Nat) (h : j < len.words * 32 / lane.bits) :
    (r.lanes x len lane).getD j 0 = r.lane x lane j := by
  have e : (r.lanes x len lane).getD j 0 = bitStream (r.slice x.toNat len.words) / 2 ^ (j * lane.bits) % 2 ^ lane.bits := by
    simp [Record.lanes, Machine.elements, h]
  rw [e, bitStream_lane _ lane.bits (32 / lane.bits) j (lane_bits_dvd lane), Record.getD_slice _ _ _ _ (laneWord_lt h)]
  rfl

theorem Record.rcw_setLanes (r : Record) (d : Reg) (len : Len) (lane : Lane) (vs : List Nat) :
    (r.setLanes d len lane vs).rcw = r.rcw := by simp [Record.setLanes]

/-- Words outside a vector destination stay. -/
theorem Record.at_setLanes_outside (r : Record) (d : Reg) (len : Len) (lane : Lane) (vs : List Nat) (k : Nat)
    (h : k < d.toNat ∨ d.toNat + len.words ≤ k) : (r.setLanes d len lane vs).at k = r.at k := by
  rw [Record.setLanes, Record.at_setWords, if_neg]
  simp only [length_streamWords]
  omega

/-- A lane of a vector destination reads as it was written (R73). -/
theorem Record.lane_setLanes (r : Record) (d : Reg) (len : Len) (lane : Lane) (vs : List Nat) (j : Nat)
    (hd : aligned len d = true) (h : j < len.words * 32 / lane.bits) :
    (r.setLanes d len lane vs).lane d lane j = vs.getD j 0 % 2 ^ lane.bits := by
  have hw := laneWord_lt h
  have hd' : d.toNat + len.words ≤ 16 := by
    have : d.toNat < 16 := d.isLt
    cases len <;> simp [aligned, Len.words] at * <;> omega
  have hq : (lane.bits) * (32 / lane.bits) = 32 := (lane_bits_dvd lane)
  have hc : d.toNat ≤ d.toNat + j / (32 / lane.bits) ∧
      d.toNat + j / (32 / lane.bits) < d.toNat + (streamWords len.words (packElements lane.bits vs)).length ∧
      d.toNat + j / (32 / lane.bits) < 16 := by
    rw [length_streamWords]
    generalize j / (32 / lane.bits) = e at hw
    omega
  unfold Record.lane
  rw [Record.setLanes, Record.at_setWords, if_pos hc, Nat.add_sub_cancel_left, getD_streamWords _ _ _ hw]
  rw [← packElements_word lane.bits vs j]
  have e : j * lane.bits = 32 * (j / (32 / lane.bits)) + j % (32 / lane.bits) * lane.bits := by
    have h1 := Nat.div_add_mod j (32 / lane.bits)
    cases lane <;> simp only [Lane.bits] at * <;> omega
  rw [e, Nat.pow_add, ← Nat.div_div_eq_div_mul]
  generalize packElements lane.bits vs / 2 ^ (32 * (j / (32 / lane.bits))) = y
  have hm : j % (32 / lane.bits) * lane.bits + lane.bits ≤ 32 := by cases lane <;> simp only [Lane.bits] <;> omega
  generalize j % (32 / lane.bits) * lane.bits = m at hm
  simp only [BitVec.toNat_ofNat]
  apply Nat.eq_of_testBit_eq
  intro i
  simp only [Nat.testBit_mod_two_pow, Nat.testBit_div_two_pow]
  by_cases hi : i < lane.bits
  · have : i + m < 32 := by omega
    simp [hi, this]
  · simp [hi]

/-! ### The control word -/

theorem Rcw.getLsbD_toBits (c : Rcw) (k : Nat) : c.toBits.getLsbD k =
    (if k < 32 then c.ord.getLsbD k else
    if k < 33 then (bit1 c.trapped).getLsbD (k - 32) else
    if k < 34 then (bit1 c.poison).getLsbD (k - 33) else
    if k < 35 then (bit1 c.p).getLsbD (k - 34) else
    if k < 36 then (bit1 c.eos).getLsbD (k - 35) else
    if k < 40 then c.bud.getLsbD (k - 36) else
    if k < 48 then c.ret1.getLsbD (k - 40) else
    if k < 56 then c.ret0.getLsbD (k - 48) else
    c.blk.getLsbD (k - 56)) := by
  have e : c.toBits.getLsbD k = BitVec.getLsbD (c.blk ++ c.ret0 ++ c.ret1 ++ c.bud ++ bit1 c.eos ++ bit1 c.p ++ bit1 c.poison ++
      bit1 c.trapped ++ c.ord) k := rfl
  rw [e]
  simp only [BitVec.getLsbD_append]
  by_cases h32 : k < 32
  · rw [if_pos (show _ by omega), if_pos h32]
    try (exact congrArg _ (by omega))
  rw [if_neg (show ¬_ by omega), if_neg h32]
  by_cases h33 : k < 33
  · rw [if_pos (show _ by omega), if_pos h33]
    try (exact congrArg _ (by omega))
  rw [if_neg (show ¬_ by omega), if_neg h33]
  by_cases h34 : k < 34
  · rw [if_pos (show _ by omega), if_pos h34]
    try (exact congrArg _ (by omega))
  rw [if_neg (show ¬_ by omega), if_neg h34]
  by_cases h35 : k < 35
  · rw [if_pos (show _ by omega), if_pos h35]
    try (exact congrArg _ (by omega))
  rw [if_neg (show ¬_ by omega), if_neg h35]
  by_cases h36 : k < 36
  · rw [if_pos (show _ by omega), if_pos h36]
    try (exact congrArg _ (by omega))
  rw [if_neg (show ¬_ by omega), if_neg h36]
  by_cases h40 : k < 40
  · rw [if_pos (show _ by omega), if_pos h40]
    try (exact congrArg _ (by omega))
  rw [if_neg (show ¬_ by omega), if_neg h40]
  by_cases h48 : k < 48
  · rw [if_pos (show _ by omega), if_pos h48]
    try (exact congrArg _ (by omega))
  rw [if_neg (show ¬_ by omega), if_neg h48]
  by_cases h56 : k < 56
  · rw [if_pos (show _ by omega), if_pos h56]
    try (exact congrArg _ (by omega))
  rw [if_neg (show ¬_ by omega), if_neg h56]
  try (exact congrArg _ (by omega))

theorem bit1_beq (b : Bool) : (bit1 b == 1) = b := by cases b <;> rfl

/-- The fields of a control word made of fields (R32). -/
@[simp] theorem Rcw.ofBits_toBits (c : Rcw) : Rcw.ofBits c.toBits = c := by
  have field : ∀ (lo w : Nat) (x : BitVec w), (∀ i, i < w → c.toBits.getLsbD (lo + i) = x.getLsbD i) →
      c.toBits.extractLsb' lo w = x := by
    intro lo w x h
    apply BitVec.eq_of_getLsbD_eq
    intro i hi
    rw [BitVec.getLsbD_extractLsb', h i hi]
    simp [hi]
  have bits : ∀ i, c.toBits.getLsbD i = _ := c.getLsbD_toBits
  have hord : c.toBits.extractLsb' 0 32 = c.ord := field _ _ _ fun i hi => by
    rw [bits]
    repeat (first | rw [if_pos (by omega)] | rw [if_neg (by omega)])
    try (congr 1; omega)
  have htrapped : c.toBits.extractLsb' 32 1 = (bit1 c.trapped) := field _ _ _ fun i hi => by
    rw [bits]
    repeat (first | rw [if_pos (by omega)] | rw [if_neg (by omega)])
    try (congr 1; omega)
  have hpoison : c.toBits.extractLsb' 33 1 = (bit1 c.poison) := field _ _ _ fun i hi => by
    rw [bits]
    repeat (first | rw [if_pos (by omega)] | rw [if_neg (by omega)])
    try (congr 1; omega)
  have hp : c.toBits.extractLsb' 34 1 = (bit1 c.p) := field _ _ _ fun i hi => by
    rw [bits]
    repeat (first | rw [if_pos (by omega)] | rw [if_neg (by omega)])
    try (congr 1; omega)
  have heos : c.toBits.extractLsb' 35 1 = (bit1 c.eos) := field _ _ _ fun i hi => by
    rw [bits]
    repeat (first | rw [if_pos (by omega)] | rw [if_neg (by omega)])
    try (congr 1; omega)
  have hbud : c.toBits.extractLsb' 36 4 = c.bud := field _ _ _ fun i hi => by
    rw [bits]
    repeat (first | rw [if_pos (by omega)] | rw [if_neg (by omega)])
    try (congr 1; omega)
  have hret1 : c.toBits.extractLsb' 40 8 = c.ret1 := field _ _ _ fun i hi => by
    rw [bits]
    repeat (first | rw [if_pos (by omega)] | rw [if_neg (by omega)])
    try (congr 1; omega)
  have hret0 : c.toBits.extractLsb' 48 8 = c.ret0 := field _ _ _ fun i hi => by
    rw [bits]
    repeat (first | rw [if_pos (by omega)] | rw [if_neg (by omega)])
    try (congr 1; omega)
  have hblk : c.toBits.extractLsb' 56 8 = c.blk := field _ _ _ fun i hi => by
    rw [bits]
    repeat (first | rw [if_pos (by omega)] | rw [if_neg (by omega)])
    try (congr 1; omega)
  unfold Rcw.ofBits
  rw [hblk, hret0, hret1, hbud, heos, hp, hpoison, htrapped, hord]
  simp only [bit1_beq]

/-- A control word is what its fields make (R32). -/
@[simp] theorem Rcw.toBits_ofBits (x : DWord) : (Rcw.ofBits x).toBits = x := by
  have flag : ∀ y : BitVec 1, bit1 (y == 1) = y := by decide
  apply BitVec.eq_of_getLsbD_eq
  intro i hi
  rw [Rcw.getLsbD_toBits]
  simp only [Rcw.ofBits, flag, BitVec.getLsbD_extractLsb', Nat.zero_add]
  repeat' split
  all_goals
    rw [show decide _ = true from decide_eq_true (by omega), Bool.true_and]
    try (congr 1)
    try omega

@[simp] theorem Record.ctl_setCtl (r : Record) (c : Rcw) : (r.setCtl c).ctl = c := Rcw.ofBits_toBits c
@[simp] theorem Record.words_setCtl (r : Record) (c : Rcw) : (r.setCtl c).words = r.words := rfl

theorem Record.ctl_of_rcw {r r' : Record} (h : r'.rcw = r.rcw) : r'.ctl = r.ctl := by unfold Record.ctl; rw [h]

end Sys2Proof.Machine
end

