-- ==== Sys2Proof/Laws/Sparse.lean ====
section
/-! SUPPORT. Laws/Sparse.lean: reading a sparse map or set after a write, and the canonical form that every write keeps. -/

namespace Sys2Proof

variable {β : Type}

theorem SMap.get?_insert (m : SMap β) (key k : Nat) (x : β) :
    (SMap.insert m key x).get? k = if k = key then some x else m.get? k := by
  induction m with
  | nil => simp only [SMap.insert, SMap.get?]
  | cons e m ih =>
    obtain ⟨a, v⟩ := e
    unfold SMap.insert
    split
    · simp only [SMap.get?]
    · split
      · subst_vars; simp only [SMap.get?]; split <;> rfl
      · simp only [SMap.get?, ih]
        by_cases h1 : k = a <;> by_cases h2 : k = key <;> simp_all

@[simp] theorem SMap.get?_insert_self (m : SMap β) (key : Nat) (x : β) : (SMap.insert m key x).get? key = some x := by
  rw [SMap.get?_insert, if_pos rfl]

theorem SMap.get?_insert_of_ne (m : SMap β) {key k : Nat} (x : β) (h : k ≠ key) : (SMap.insert m key x).get? k = m.get? k := by
  rw [SMap.get?_insert, if_neg h]

@[simp] theorem SMap.insert_insert (m : SMap β) (key : Nat) (x y : β) :
    SMap.insert (SMap.insert m key x) key y = SMap.insert m key y := by
  induction m with
  | nil => simp [SMap.insert]
  | cons e m ih =>
    obtain ⟨a, v⟩ := e
    simp only [SMap.insert]
    split
    · simp [SMap.insert]
    · split
      · subst_vars; simp [SMap.insert]
      · simp [SMap.insert, *]

theorem SMap.get?_erase_of_ne (m : SMap β) {key k : Nat} (h : k ≠ key) : (SMap.erase m key).get? k = m.get? k := by
  induction m with
  | nil => rfl
  | cons e m ih =>
    obtain ⟨a, v⟩ := e
    unfold SMap.erase
    split
    · subst_vars; simp only [SMap.get?, if_neg h]
    · simp only [SMap.get?, ih]

theorem SMap.risingFrom_mono {m : SMap β} {a b : Nat} (h : SMap.risingFrom b m = true) (hab : a ≤ b) : SMap.risingFrom a m = true := by
  cases m with
  | nil => rfl
  | cons e m =>
    obtain ⟨k, v⟩ := e
    simp only [SMap.risingFrom, Bool.and_eq_true, decide_eq_true_eq] at h ⊢
    exact ⟨by omega, h.2⟩

theorem SMap.get?_of_rising {m : SMap β} {b k : Nat} (h : SMap.risingFrom b m = true) (hk : k < b) : m.get? k = none := by
  induction m generalizing b with
  | nil => rfl
  | cons e m ih =>
    obtain ⟨a, v⟩ := e
    simp only [SMap.risingFrom, Bool.and_eq_true, decide_eq_true_eq] at h
    simp only [SMap.get?]
    rw [if_neg (by omega)]
    exact ih h.2 (by omega)

theorem SMap.risingFrom_insert {m : SMap β} {b key : Nat} (x : β) (h : SMap.risingFrom b m = true) (hb : b ≤ key) :
    SMap.risingFrom b (SMap.insert m key x) = true := by
  induction m generalizing b with
  | nil => simp [SMap.insert, SMap.risingFrom, hb]
  | cons e m ih =>
    obtain ⟨a, v⟩ := e
    simp only [SMap.risingFrom, Bool.and_eq_true, decide_eq_true_eq] at h
    simp only [SMap.insert]
    split
    · simp only [SMap.risingFrom, Bool.and_eq_true, decide_eq_true_eq]; exact ⟨hb, by omega, h.2⟩
    · split
      · subst_vars; simp only [SMap.risingFrom, Bool.and_eq_true, decide_eq_true_eq]; exact h
      · simp only [SMap.risingFrom, Bool.and_eq_true, decide_eq_true_eq]; exact ⟨h.1, ih h.2 (by omega)⟩

theorem SMap.risingFrom_erase {m : SMap β} {b : Nat} (key : Nat) (h : SMap.risingFrom b m = true) :
    SMap.risingFrom b (SMap.erase m key) = true := by
  induction m generalizing b with
  | nil => rfl
  | cons e m ih =>
    obtain ⟨a, v⟩ := e
    simp only [SMap.risingFrom, Bool.and_eq_true, decide_eq_true_eq] at h
    unfold SMap.erase
    split
    · exact SMap.risingFrom_mono h.2 (by omega)
    · simp only [SMap.risingFrom, Bool.and_eq_true, decide_eq_true_eq]; exact ⟨h.1, ih h.2⟩

theorem SMap.mem_insert {m : SMap β} {key : Nat} {x : β} {e : Nat × β} (h : e ∈ SMap.insert m key x) : e = (key, x) ∨ e ∈ m := by
  induction m with
  | nil => simpa [SMap.insert] using h
  | cons f m ih =>
    obtain ⟨a, v⟩ := f
    unfold SMap.insert at h
    split at h
    · rcases List.mem_cons.1 h with h | h
      · exact .inl h
      · exact .inr h
    · split at h
      · rcases List.mem_cons.1 h with h | h
        · exact .inl h
        · exact .inr (List.mem_cons_of_mem _ h)
      · rcases List.mem_cons.1 h with h | h
        · exact .inr (h ▸ List.mem_cons_self)
        · rcases ih h with h | h
          · exact .inl h
          · exact .inr (List.mem_cons_of_mem _ h)

theorem SMap.mem_erase {m : SMap β} {key : Nat} {e : Nat × β} (h : e ∈ SMap.erase m key) : e ∈ m := by
  induction m with
  | nil => exact h
  | cons f m ih =>
    obtain ⟨a, v⟩ := f
    unfold SMap.erase at h
    split at h
    · exact List.mem_cons_of_mem _ h
    · rcases List.mem_cons.1 h with h | h
      · exact h ▸ List.mem_cons_self
      · exact List.mem_cons_of_mem _ (ih h)

/-- Every write to a map keeps its canonical form. -/
theorem SMap.wf_put [DecidableEq β] {m : SMap β} {dflt : β} (key : Nat) (x : β) (h : SMap.wf dflt m = true) :
    SMap.wf dflt (SMap.put m dflt key x) = true := by
  simp only [SMap.wf, Bool.and_eq_true, List.all_eq_true, decide_eq_true_eq] at h ⊢
  unfold SMap.put
  split
  · exact ⟨SMap.risingFrom_erase key h.1, fun e he => h.2 e (SMap.mem_erase he)⟩
  · rename_i hx
    refine ⟨SMap.risingFrom_insert x h.1 (Nat.zero_le _), fun e he => ?_⟩
    rcases SMap.mem_insert he with he | he
    · subst he; exact hx
    · exact h.2 e he

/-- What a canonical map reads as after a write. -/
theorem SMap.getD_put [DecidableEq β] {m : SMap β} {dflt : β} (key k : Nat) (x : β) (h : SMap.wf dflt m = true) :
    SMap.getD (SMap.put m dflt key x) k dflt = if k = key then x else SMap.getD m k dflt := by
  simp only [SMap.wf, Bool.and_eq_true] at h
  have rise := h.1
  unfold SMap.getD SMap.put
  split
  · rename_i hx
    subst hx
    by_cases hk : k = key
    · subst hk
      rw [if_pos rfl]
      have : ∀ (m : SMap β) (b : Nat), SMap.risingFrom b m = true → (SMap.erase m k).get? k = none := by
        intro m
        induction m with
        | nil => intros; rfl
        | cons e m ih =>
          intro b h
          obtain ⟨a, v⟩ := e
          simp only [SMap.risingFrom, Bool.and_eq_true, decide_eq_true_eq] at h
          unfold SMap.erase
          split
          · subst_vars; exact SMap.get?_of_rising h.2 (by omega)
          · simp only [SMap.get?]; rw [if_neg (by assumption)]; exact ih _ h.2
      rw [this m 0 rise]; rfl
    · rw [if_neg hk, SMap.get?_erase_of_ne m hk]
  · rw [SMap.get?_insert]; split <;> rfl

/-- A write elsewhere is not seen, whatever the form of the map. -/
theorem SMap.getD_put_of_ne [DecidableEq β] {m : SMap β} {dflt : β} {key k : Nat} (x : β) (h : k ≠ key) :
    SMap.getD (SMap.put m dflt key x) k dflt = SMap.getD m k dflt := by
  unfold SMap.getD SMap.put
  split
  · rw [SMap.get?_erase_of_ne m h]
  · rw [SMap.get?_insert_of_ne m x h]

/-- A value that a missing key does not read as is read back, whatever the form of the map. -/
theorem SMap.getD_put_self [DecidableEq β] {m : SMap β} {dflt : β} (key : Nat) {x : β} (h : x ≠ dflt) :
    SMap.getD (SMap.put m dflt key x) key dflt = x := by
  unfold SMap.getD SMap.put
  rw [if_neg h, SMap.get?_insert_self]; rfl

/-! ### Sets -/

theorem NSet.risingFrom_mono {s : NSet} {a b : Nat} (h : NSet.risingFrom b s = true) (hab : a ≤ b) : NSet.risingFrom a s = true := by
  cases s with
  | nil => rfl
  | cons k s =>
    simp only [NSet.risingFrom, Bool.and_eq_true, decide_eq_true_eq] at h ⊢
    exact ⟨by omega, h.2⟩

theorem NSet.risingFrom_add {s : NSet} {b key : Nat} (h : NSet.risingFrom b s = true) (hb : b ≤ key) :
    NSet.risingFrom b (NSet.add s key) = true := by
  induction s generalizing b with
  | nil => simp [NSet.add, NSet.risingFrom, hb]
  | cons k s ih =>
    simp only [NSet.risingFrom, Bool.and_eq_true, decide_eq_true_eq] at h
    unfold NSet.add
    split
    · simp only [NSet.risingFrom, Bool.and_eq_true, decide_eq_true_eq]; exact ⟨hb, by omega, h.2⟩
    · split
      · simp only [NSet.risingFrom, Bool.and_eq_true, decide_eq_true_eq]; exact h
      · simp only [NSet.risingFrom, Bool.and_eq_true, decide_eq_true_eq]; exact ⟨h.1, ih h.2 (by omega)⟩

theorem NSet.risingFrom_remove {s : NSet} {b : Nat} (key : Nat) (h : NSet.risingFrom b s = true) :
    NSet.risingFrom b (NSet.remove s key) = true := by
  induction s generalizing b with
  | nil => rfl
  | cons k s ih =>
    simp only [NSet.risingFrom, Bool.and_eq_true, decide_eq_true_eq] at h
    unfold NSet.remove
    split
    · exact NSet.risingFrom_mono h.2 (by omega)
    · simp only [NSet.risingFrom, Bool.and_eq_true, decide_eq_true_eq]; exact ⟨h.1, ih h.2⟩

/-- Every write to a set keeps its canonical form. -/
theorem NSet.wf_set {s : NSet} (key : Nat) (b : Bool) (h : NSet.wf s = true) : NSet.wf (NSet.set s key b) = true := by
  unfold NSet.wf NSet.set at *
  split
  · exact NSet.risingFrom_add h (Nat.zero_le _)
  · exact NSet.risingFrom_remove key h

end Sys2Proof
end

