-- ==== Sys2Proof/Laws/State.lean ====
section
/-! SUPPORT. Laws/State.lean: what each update of the state leaves alone, one lemma a field, and what it writes. -/

namespace Sys2Proof.Machine

/-! ### Launches, units and tiles -/

@[simp] theorem State.launch?_setLaunch (s : State) (i j : Nat) (l : Launch) :
    (s.setLaunch i l).launch? j = if j = i then some l else s.launch? j := SMap.get?_insert _ _ _ _

theorem State.launch?_setLaunch_self (s : State) (i : Nat) (l : Launch) : (s.setLaunch i l).launch? i = some l :=
  SMap.get?_insert_self _ _ _

@[simp] theorem State.setLaunch_setLaunch (s : State) (i : Nat) (l k : Launch) : (s.setLaunch i l).setLaunch i k = s.setLaunch i k := by
  simp only [State.setLaunch, SMap.insert_insert]

theorem State.modLaunch_of_some {s : State} {i : Nat} {l : Launch} (f : Launch → Launch) (h : s.launch? i = some l) :
    s.modLaunch i f = s.setLaunch i (f l) := by unfold State.modLaunch; rw [h]

theorem State.modUnit_of_some {s : State} {i x y u : Nat} {l : Launch} (f : UnitState → UnitState) (h : s.launch? i = some l) :
    s.modUnit i x y u f = s.setLaunch i (l.setUnit x y u (f (l.unit x y u))) := State.modLaunch_of_some _ h

theorem State.launch?_of_here {s : State} {l : Launch} {u : UnitState} (h : s.here = some (l, u)) :
    s.launch? s.focus.inst = some l ∧ u = l.unit s.focus.x s.focus.y s.focus.unit := by
  unfold State.here at h
  cases e : s.launch? s.focus.inst with
  | none => rw [e] at h; cases h
  | some k => rw [e] at h; cases h; exact ⟨rfl, rfl⟩

/-- A unit that is not as no configuration has touched it is read back as it was written. -/
theorem Launch.unit_setUnit_self (l : Launch) (x y u : Nat) {v : UnitState} (h : v ≠ UnitState.reset) :
    (l.setUnit x y u v).unit x y u = v := SMap.getD_put_self _ h

theorem Launch.unit_setUnit_of_ne (l : Launch) {x y u a b c : Nat} (v : UnitState) (h : unitKey a b c ≠ unitKey x y u) :
    (l.setUnit x y u v).unit a b c = l.unit a b c := SMap.getD_put_of_ne _ h

/-- Where the units are in canonical form, a written unit is read back. -/
theorem Launch.unit_setUnit (l : Launch) (x y u a b c : Nat) (v : UnitState) (h : SMap.wf UnitState.reset l.units = true) :
    (l.setUnit x y u v).unit a b c = if unitKey a b c = unitKey x y u then v else l.unit a b c := SMap.getD_put _ _ _ h

theorem Launch.get?_setUnit_of_ne (l : Launch) {x y u k : Nat} (v : UnitState) (h : k ≠ unitKey x y u) :
    SMap.get? (l.setUnit x y u v).units k = SMap.get? l.units k := by
  unfold Launch.setUnit SMap.put
  split
  · exact SMap.get?_erase_of_ne _ h
  · exact SMap.get?_insert_of_ne _ _ h

/-- Units of the grid have keys of their own. -/
theorem unitKey_inj {x y u a b c : Nat} (hx : x < 128) (hu : u < 16) (ha : a < 128) (hc : c < 16) :
    unitKey x y u = unitKey a b c ↔ x = a ∧ y = b ∧ u = c := by
  unfold unitKey cellKey
  constructor
  · intro h; omega
  · rintro ⟨rfl, rfl, rfl⟩; rfl

/-! ### Fields -/

@[simp] theorem State.setLaunch_mem (s : State) (i : Nat) (l : Launch) : (s.setLaunch i l).mem = s.mem := rfl
@[simp] theorem State.setLaunch_empties (s : State) (i : Nat) (l : Launch) : (s.setLaunch i l).empties = s.empties := rfl
@[simp] theorem State.setLaunch_parked (s : State) (i : Nat) (l : Launch) : (s.setLaunch i l).parked = s.parked := rfl
@[simp] theorem State.setLaunch_bad (s : State) (i : Nat) (l : Launch) : (s.setLaunch i l).bad = s.bad := rfl
@[simp] theorem State.setLaunch_sizes (s : State) (i : Nat) (l : Launch) : (s.setLaunch i l).sizes = s.sizes := rfl
@[simp] theorem State.setLaunch_slices (s : State) (i : Nat) (l : Launch) : (s.setLaunch i l).slices = s.slices := rfl
@[simp] theorem State.setLaunch_dies (s : State) (i : Nat) (l : Launch) : (s.setLaunch i l).dies = s.dies := rfl
@[simp] theorem State.setLaunch_copies (s : State) (i : Nat) (l : Launch) : (s.setLaunch i l).copies = s.copies := rfl
@[simp] theorem State.setLaunch_retires (s : State) (i : Nat) (l : Launch) : (s.setLaunch i l).retires = s.retires := rfl
@[simp] theorem State.setLaunch_queues (s : State) (i : Nat) (l : Launch) : (s.setLaunch i l).queues = s.queues := rfl
@[simp] theorem State.setLaunch_nextInstance (s : State) (i : Nat) (l : Launch) : (s.setLaunch i l).nextInstance = s.nextInstance := rfl
@[simp] theorem State.setLaunch_nextSequence (s : State) (i : Nat) (l : Launch) : (s.setLaunch i l).nextSequence = s.nextSequence := rfl
@[simp] theorem State.setLaunch_childTurn (s : State) (i : Nat) (l : Launch) : (s.setLaunch i l).childTurn = s.childTurn := rfl
@[simp] theorem State.setLaunch_reqSeq (s : State) (i : Nat) (l : Launch) : (s.setLaunch i l).reqSeq = s.reqSeq := rfl
@[simp] theorem State.setLaunch_now (s : State) (i : Nat) (l : Launch) : (s.setLaunch i l).now = s.now := rfl
@[simp] theorem State.setLaunch_tick (s : State) (i : Nat) (l : Launch) : (s.setLaunch i l).tick = s.tick := rfl
@[simp] theorem State.setLaunch_quantumMark (s : State) (i : Nat) (l : Launch) : (s.setLaunch i l).quantumMark = s.quantumMark := rfl
@[simp] theorem State.setLaunch_powerMark (s : State) (i : Nat) (l : Launch) : (s.setLaunch i l).powerMark = s.powerMark := rfl
@[simp] theorem State.setLaunch_quantum (s : State) (i : Nat) (l : Launch) : (s.setLaunch i l).quantum = s.quantum := rfl
@[simp] theorem State.setLaunch_compactAfter (s : State) (i : Nat) (l : Launch) : (s.setLaunch i l).compactAfter = s.compactAfter := rfl
@[simp] theorem State.setLaunch_preemptWait (s : State) (i : Nat) (l : Launch) : (s.setLaunch i l).preemptWait = s.preemptWait := rfl
@[simp] theorem State.setLaunch_ctxCtl (s : State) (i : Nat) (l : Launch) : (s.setLaunch i l).ctxCtl = s.ctxCtl := rfl
@[simp] theorem State.setLaunch_ctxBase (s : State) (i : Nat) (l : Launch) : (s.setLaunch i l).ctxBase = s.ctxBase := rfl
@[simp] theorem State.setLaunch_killing (s : State) (i : Nat) (l : Launch) : (s.setLaunch i l).killing = s.killing := rfl
@[simp] theorem State.setLaunch_warm (s : State) (i : Nat) (l : Launch) : (s.setLaunch i l).warm = s.warm := rfl
@[simp] theorem State.setLaunch_killResult (s : State) (i : Nat) (l : Launch) : (s.setLaunch i l).killResult = s.killResult := rfl
@[simp] theorem State.setLaunch_killDone (s : State) (i : Nat) (l : Launch) : (s.setLaunch i l).killDone = s.killDone := rfl
@[simp] theorem State.setLaunch_featureOn (s : State) (i : Nat) (l : Launch) : (s.setLaunch i l).featureOn = s.featureOn := rfl
@[simp] theorem State.setLaunch_featureStaged (s : State) (i : Nat) (l : Launch) : (s.setLaunch i l).featureStaged = s.featureStaged := rfl
@[simp] theorem State.setLaunch_featureTaken (s : State) (i : Nat) (l : Launch) : (s.setLaunch i l).featureTaken = s.featureTaken := rfl
@[simp] theorem State.setLaunch_featureLocked (s : State) (i : Nat) (l : Launch) : (s.setLaunch i l).featureLocked = s.featureLocked := rfl
@[simp] theorem State.setLaunch_resetState (s : State) (i : Nat) (l : Launch) : (s.setLaunch i l).resetState = s.resetState := rfl
@[simp] theorem State.setLaunch_failCode (s : State) (i : Nat) (l : Launch) : (s.setLaunch i l).failCode = s.failCode := rfl
@[simp] theorem State.setLaunch_svn (s : State) (i : Nat) (l : Launch) : (s.setLaunch i l).svn = s.svn := rfl
@[simp] theorem State.setLaunch_swBase (s : State) (i : Nat) (l : Launch) : (s.setLaunch i l).swBase = s.swBase := rfl
@[simp] theorem State.setLaunch_swCtl (s : State) (i : Nat) (l : Launch) : (s.setLaunch i l).swCtl = s.swCtl := rfl
@[simp] theorem State.setLaunch_swStat (s : State) (i : Nat) (l : Launch) : (s.setLaunch i l).swStat = s.swStat := rfl
@[simp] theorem State.setLaunch_attBusy (s : State) (i : Nat) (l : Launch) : (s.setLaunch i l).attBusy = s.attBusy := rfl
@[simp] theorem State.setLaunch_attDone (s : State) (i : Nat) (l : Launch) : (s.setLaunch i l).attDone = s.attDone := rfl
@[simp] theorem State.setLaunch_attErr (s : State) (i : Nat) (l : Launch) : (s.setLaunch i l).attErr = s.attErr := rfl
@[simp] theorem State.setLaunch_attSigs (s : State) (i : Nat) (l : Launch) : (s.setLaunch i l).attSigs = s.attSigs := rfl
@[simp] theorem State.setLaunch_attAddr (s : State) (i : Nat) (l : Launch) : (s.setLaunch i l).attAddr = s.attAddr := rfl
@[simp] theorem State.setLaunch_attSpace (s : State) (i : Nat) (l : Launch) : (s.setLaunch i l).attSpace = s.attSpace := rfl
@[simp] theorem State.setLaunch_attNonce (s : State) (i : Nat) (l : Launch) : (s.setLaunch i l).attNonce = s.attNonce := rfl
@[simp] theorem State.setLaunch_peerId (s : State) (i : Nat) (l : Launch) : (s.setLaunch i l).peerId = s.peerId := rfl
@[simp] theorem State.setLaunch_powerCap (s : State) (i : Nat) (l : Launch) : (s.setLaunch i l).powerCap = s.powerCap := rfl
@[simp] theorem State.setLaunch_throttled (s : State) (i : Nat) (l : Launch) : (s.setLaunch i l).throttled = s.throttled := rfl
@[simp] theorem State.setLaunch_throttleMark (s : State) (i : Nat) (l : Launch) : (s.setLaunch i l).throttleMark = s.throttleMark := rfl
@[simp] theorem State.setLaunch_overCap (s : State) (i : Nat) (l : Launch) : (s.setLaunch i l).overCap = s.overCap := rfl
@[simp] theorem State.setLaunch_level (s : State) (i : Nat) (l : Launch) : (s.setLaunch i l).level = s.level := rfl
@[simp] theorem State.setLaunch_retired (s : State) (i : Nat) (l : Launch) : (s.setLaunch i l).retired = s.retired := rfl
@[simp] theorem State.setLaunch_boot (s : State) (i : Nat) (l : Launch) : (s.setLaunch i l).boot = s.boot := rfl
@[simp] theorem State.setLaunch_inputs (s : State) (i : Nat) (l : Launch) : (s.setLaunch i l).inputs = s.inputs := rfl
@[simp] theorem State.setLaunch_windowHeld (s : State) (i : Nat) (l : Launch) : (s.setLaunch i l).windowHeld = s.windowHeld := rfl
@[simp] theorem State.setLaunch_hostReplies (s : State) (i : Nat) (l : Launch) : (s.setLaunch i l).hostReplies = s.hostReplies := rfl
@[simp] theorem State.setLaunch_reports (s : State) (i : Nat) (l : Launch) : (s.setLaunch i l).reports = s.reports := rfl
@[simp] theorem State.setLaunch_peerReplies (s : State) (i : Nat) (l : Launch) : (s.setLaunch i l).peerReplies = s.peerReplies := rfl
@[simp] theorem State.setLaunch_peerReqs (s : State) (i : Nat) (l : Launch) : (s.setLaunch i l).peerReqs = s.peerReqs := rfl
@[simp] theorem State.setLaunch_focus (s : State) (i : Nat) (l : Launch) : (s.setLaunch i l).focus = s.focus := rfl
@[simp] theorem State.setLaunch_badTags (s : State) (i : Nat) (l : Launch) : (s.setLaunch i l).badTags = s.badTags := rfl
@[simp] theorem State.setLaunch_tableOwed (s : State) (i : Nat) (l : Launch) : (s.setLaunch i l).tableOwed = s.tableOwed := rfl
@[simp] theorem State.setLaunch_retiredLinks (s : State) (i : Nat) (l : Launch) : (s.setLaunch i l).retiredLinks = s.retiredLinks := rfl
@[simp] theorem State.setLaunch_peerMem (s : State) (i : Nat) (l : Launch) : (s.setLaunch i l).peerMem = s.peerMem := rfl

@[simp] theorem State.setDie_mem (s : State) (d : Nat) (x : Die) : (s.setDie d x).mem = s.mem := rfl
@[simp] theorem State.setDie_empties (s : State) (d : Nat) (x : Die) : (s.setDie d x).empties = s.empties := rfl
@[simp] theorem State.setDie_parked (s : State) (d : Nat) (x : Die) : (s.setDie d x).parked = s.parked := rfl
@[simp] theorem State.setDie_bad (s : State) (d : Nat) (x : Die) : (s.setDie d x).bad = s.bad := rfl
@[simp] theorem State.setDie_sizes (s : State) (d : Nat) (x : Die) : (s.setDie d x).sizes = s.sizes := rfl
@[simp] theorem State.setDie_slices (s : State) (d : Nat) (x : Die) : (s.setDie d x).slices = s.slices := rfl
@[simp] theorem State.setDie_launches (s : State) (d : Nat) (x : Die) : (s.setDie d x).launches = s.launches := rfl
@[simp] theorem State.setDie_copies (s : State) (d : Nat) (x : Die) : (s.setDie d x).copies = s.copies := rfl
@[simp] theorem State.setDie_retires (s : State) (d : Nat) (x : Die) : (s.setDie d x).retires = s.retires := rfl
@[simp] theorem State.setDie_queues (s : State) (d : Nat) (x : Die) : (s.setDie d x).queues = s.queues := rfl
@[simp] theorem State.setDie_reqSeq (s : State) (d : Nat) (x : Die) : (s.setDie d x).reqSeq = s.reqSeq := rfl
@[simp] theorem State.setDie_now (s : State) (d : Nat) (x : Die) : (s.setDie d x).now = s.now := rfl
@[simp] theorem State.setDie_tick (s : State) (d : Nat) (x : Die) : (s.setDie d x).tick = s.tick := rfl
@[simp] theorem State.setDie_quantumMark (s : State) (d : Nat) (x : Die) : (s.setDie d x).quantumMark = s.quantumMark := rfl
@[simp] theorem State.setDie_inputs (s : State) (d : Nat) (x : Die) : (s.setDie d x).inputs = s.inputs := rfl
@[simp] theorem State.setDie_focus (s : State) (d : Nat) (x : Die) : (s.setDie d x).focus = s.focus := rfl
@[simp] theorem State.setDie_peerId (s : State) (d : Nat) (x : Die) : (s.setDie d x).peerId = s.peerId := rfl
@[simp] theorem State.setDie_peerReqs (s : State) (d : Nat) (x : Die) : (s.setDie d x).peerReqs = s.peerReqs := rfl
@[simp] theorem State.setDie_badTags (s : State) (d : Nat) (x : Die) : (s.setDie d x).badTags = s.badTags := rfl
@[simp] theorem State.setDie_nextInstance (s : State) (d : Nat) (x : Die) : (s.setDie d x).nextInstance = s.nextInstance := rfl
@[simp] theorem State.setDie_nextSequence (s : State) (d : Nat) (x : Die) : (s.setDie d x).nextSequence = s.nextSequence := rfl
@[simp] theorem State.setDie_childTurn (s : State) (d : Nat) (x : Die) : (s.setDie d x).childTurn = s.childTurn := rfl
@[simp] theorem State.setDie_powerMark (s : State) (d : Nat) (x : Die) : (s.setDie d x).powerMark = s.powerMark := rfl
@[simp] theorem State.setDie_quantum (s : State) (d : Nat) (x : Die) : (s.setDie d x).quantum = s.quantum := rfl
@[simp] theorem State.setDie_compactAfter (s : State) (d : Nat) (x : Die) : (s.setDie d x).compactAfter = s.compactAfter := rfl
@[simp] theorem State.setDie_preemptWait (s : State) (d : Nat) (x : Die) : (s.setDie d x).preemptWait = s.preemptWait := rfl
@[simp] theorem State.setDie_ctxCtl (s : State) (d : Nat) (x : Die) : (s.setDie d x).ctxCtl = s.ctxCtl := rfl
@[simp] theorem State.setDie_ctxBase (s : State) (d : Nat) (x : Die) : (s.setDie d x).ctxBase = s.ctxBase := rfl
@[simp] theorem State.setDie_tableOwed (s : State) (d : Nat) (x : Die) : (s.setDie d x).tableOwed = s.tableOwed := rfl
@[simp] theorem State.setDie_killing (s : State) (d : Nat) (x : Die) : (s.setDie d x).killing = s.killing := rfl
@[simp] theorem State.setDie_warm (s : State) (d : Nat) (x : Die) : (s.setDie d x).warm = s.warm := rfl
@[simp] theorem State.setDie_killResult (s : State) (d : Nat) (x : Die) : (s.setDie d x).killResult = s.killResult := rfl
@[simp] theorem State.setDie_killDone (s : State) (d : Nat) (x : Die) : (s.setDie d x).killDone = s.killDone := rfl
@[simp] theorem State.setDie_featureOn (s : State) (d : Nat) (x : Die) : (s.setDie d x).featureOn = s.featureOn := rfl
@[simp] theorem State.setDie_featureStaged (s : State) (d : Nat) (x : Die) : (s.setDie d x).featureStaged = s.featureStaged := rfl
@[simp] theorem State.setDie_featureTaken (s : State) (d : Nat) (x : Die) : (s.setDie d x).featureTaken = s.featureTaken := rfl
@[simp] theorem State.setDie_featureLocked (s : State) (d : Nat) (x : Die) : (s.setDie d x).featureLocked = s.featureLocked := rfl
@[simp] theorem State.setDie_resetState (s : State) (d : Nat) (x : Die) : (s.setDie d x).resetState = s.resetState := rfl
@[simp] theorem State.setDie_failCode (s : State) (d : Nat) (x : Die) : (s.setDie d x).failCode = s.failCode := rfl
@[simp] theorem State.setDie_svn (s : State) (d : Nat) (x : Die) : (s.setDie d x).svn = s.svn := rfl
@[simp] theorem State.setDie_swBase (s : State) (d : Nat) (x : Die) : (s.setDie d x).swBase = s.swBase := rfl
@[simp] theorem State.setDie_swCtl (s : State) (d : Nat) (x : Die) : (s.setDie d x).swCtl = s.swCtl := rfl
@[simp] theorem State.setDie_swStat (s : State) (d : Nat) (x : Die) : (s.setDie d x).swStat = s.swStat := rfl
@[simp] theorem State.setDie_attBusy (s : State) (d : Nat) (x : Die) : (s.setDie d x).attBusy = s.attBusy := rfl
@[simp] theorem State.setDie_attDone (s : State) (d : Nat) (x : Die) : (s.setDie d x).attDone = s.attDone := rfl
@[simp] theorem State.setDie_attErr (s : State) (d : Nat) (x : Die) : (s.setDie d x).attErr = s.attErr := rfl
@[simp] theorem State.setDie_attSigs (s : State) (d : Nat) (x : Die) : (s.setDie d x).attSigs = s.attSigs := rfl
@[simp] theorem State.setDie_attAddr (s : State) (d : Nat) (x : Die) : (s.setDie d x).attAddr = s.attAddr := rfl
@[simp] theorem State.setDie_attSpace (s : State) (d : Nat) (x : Die) : (s.setDie d x).attSpace = s.attSpace := rfl
@[simp] theorem State.setDie_attNonce (s : State) (d : Nat) (x : Die) : (s.setDie d x).attNonce = s.attNonce := rfl
@[simp] theorem State.setDie_powerCap (s : State) (d : Nat) (x : Die) : (s.setDie d x).powerCap = s.powerCap := rfl
@[simp] theorem State.setDie_throttled (s : State) (d : Nat) (x : Die) : (s.setDie d x).throttled = s.throttled := rfl
@[simp] theorem State.setDie_throttleMark (s : State) (d : Nat) (x : Die) : (s.setDie d x).throttleMark = s.throttleMark := rfl
@[simp] theorem State.setDie_overCap (s : State) (d : Nat) (x : Die) : (s.setDie d x).overCap = s.overCap := rfl
@[simp] theorem State.setDie_level (s : State) (d : Nat) (x : Die) : (s.setDie d x).level = s.level := rfl
@[simp] theorem State.setDie_retired (s : State) (d : Nat) (x : Die) : (s.setDie d x).retired = s.retired := rfl
@[simp] theorem State.setDie_retiredLinks (s : State) (d : Nat) (x : Die) : (s.setDie d x).retiredLinks = s.retiredLinks := rfl
@[simp] theorem State.setDie_boot (s : State) (d : Nat) (x : Die) : (s.setDie d x).boot = s.boot := rfl
@[simp] theorem State.setDie_windowHeld (s : State) (d : Nat) (x : Die) : (s.setDie d x).windowHeld = s.windowHeld := rfl
@[simp] theorem State.setDie_hostReplies (s : State) (d : Nat) (x : Die) : (s.setDie d x).hostReplies = s.hostReplies := rfl
@[simp] theorem State.setDie_reports (s : State) (d : Nat) (x : Die) : (s.setDie d x).reports = s.reports := rfl
@[simp] theorem State.setDie_peerReplies (s : State) (d : Nat) (x : Die) : (s.setDie d x).peerReplies = s.peerReplies := rfl
@[simp] theorem State.setDie_peerMem (s : State) (d : Nat) (x : Die) : (s.setDie d x).peerMem = s.peerMem := rfl

@[simp] theorem State.setSlice_mem (s : State) (d : Nat) (x : Slice) : (s.setSlice d x).mem = s.mem := rfl
@[simp] theorem State.setSlice_empties (s : State) (d : Nat) (x : Slice) : (s.setSlice d x).empties = s.empties := rfl
@[simp] theorem State.setSlice_parked (s : State) (d : Nat) (x : Slice) : (s.setSlice d x).parked = s.parked := rfl
@[simp] theorem State.setSlice_bad (s : State) (d : Nat) (x : Slice) : (s.setSlice d x).bad = s.bad := rfl
@[simp] theorem State.setSlice_sizes (s : State) (d : Nat) (x : Slice) : (s.setSlice d x).sizes = s.sizes := rfl
@[simp] theorem State.setSlice_dies (s : State) (d : Nat) (x : Slice) : (s.setSlice d x).dies = s.dies := rfl
@[simp] theorem State.setSlice_launches (s : State) (d : Nat) (x : Slice) : (s.setSlice d x).launches = s.launches := rfl
@[simp] theorem State.setSlice_copies (s : State) (d : Nat) (x : Slice) : (s.setSlice d x).copies = s.copies := rfl
@[simp] theorem State.setSlice_retires (s : State) (d : Nat) (x : Slice) : (s.setSlice d x).retires = s.retires := rfl
@[simp] theorem State.setSlice_queues (s : State) (d : Nat) (x : Slice) : (s.setSlice d x).queues = s.queues := rfl
@[simp] theorem State.setSlice_reqSeq (s : State) (d : Nat) (x : Slice) : (s.setSlice d x).reqSeq = s.reqSeq := rfl
@[simp] theorem State.setSlice_now (s : State) (d : Nat) (x : Slice) : (s.setSlice d x).now = s.now := rfl
@[simp] theorem State.setSlice_tick (s : State) (d : Nat) (x : Slice) : (s.setSlice d x).tick = s.tick := rfl
@[simp] theorem State.setSlice_quantumMark (s : State) (d : Nat) (x : Slice) : (s.setSlice d x).quantumMark = s.quantumMark := rfl
@[simp] theorem State.setSlice_inputs (s : State) (d : Nat) (x : Slice) : (s.setSlice d x).inputs = s.inputs := rfl
@[simp] theorem State.setSlice_focus (s : State) (d : Nat) (x : Slice) : (s.setSlice d x).focus = s.focus := rfl
@[simp] theorem State.setSlice_peerId (s : State) (d : Nat) (x : Slice) : (s.setSlice d x).peerId = s.peerId := rfl
@[simp] theorem State.setSlice_peerReqs (s : State) (d : Nat) (x : Slice) : (s.setSlice d x).peerReqs = s.peerReqs := rfl
@[simp] theorem State.setSlice_badTags (s : State) (d : Nat) (x : Slice) : (s.setSlice d x).badTags = s.badTags := rfl
@[simp] theorem State.setSlice_nextInstance (s : State) (d : Nat) (x : Slice) : (s.setSlice d x).nextInstance = s.nextInstance := rfl
@[simp] theorem State.setSlice_nextSequence (s : State) (d : Nat) (x : Slice) : (s.setSlice d x).nextSequence = s.nextSequence := rfl
@[simp] theorem State.setSlice_childTurn (s : State) (d : Nat) (x : Slice) : (s.setSlice d x).childTurn = s.childTurn := rfl
@[simp] theorem State.setSlice_powerMark (s : State) (d : Nat) (x : Slice) : (s.setSlice d x).powerMark = s.powerMark := rfl
@[simp] theorem State.setSlice_quantum (s : State) (d : Nat) (x : Slice) : (s.setSlice d x).quantum = s.quantum := rfl
@[simp] theorem State.setSlice_compactAfter (s : State) (d : Nat) (x : Slice) : (s.setSlice d x).compactAfter = s.compactAfter := rfl
@[simp] theorem State.setSlice_preemptWait (s : State) (d : Nat) (x : Slice) : (s.setSlice d x).preemptWait = s.preemptWait := rfl
@[simp] theorem State.setSlice_ctxCtl (s : State) (d : Nat) (x : Slice) : (s.setSlice d x).ctxCtl = s.ctxCtl := rfl
@[simp] theorem State.setSlice_ctxBase (s : State) (d : Nat) (x : Slice) : (s.setSlice d x).ctxBase = s.ctxBase := rfl
@[simp] theorem State.setSlice_tableOwed (s : State) (d : Nat) (x : Slice) : (s.setSlice d x).tableOwed = s.tableOwed := rfl
@[simp] theorem State.setSlice_killing (s : State) (d : Nat) (x : Slice) : (s.setSlice d x).killing = s.killing := rfl
@[simp] theorem State.setSlice_warm (s : State) (d : Nat) (x : Slice) : (s.setSlice d x).warm = s.warm := rfl
@[simp] theorem State.setSlice_killResult (s : State) (d : Nat) (x : Slice) : (s.setSlice d x).killResult = s.killResult := rfl
@[simp] theorem State.setSlice_killDone (s : State) (d : Nat) (x : Slice) : (s.setSlice d x).killDone = s.killDone := rfl
@[simp] theorem State.setSlice_featureOn (s : State) (d : Nat) (x : Slice) : (s.setSlice d x).featureOn = s.featureOn := rfl
@[simp] theorem State.setSlice_featureStaged (s : State) (d : Nat) (x : Slice) : (s.setSlice d x).featureStaged = s.featureStaged := rfl
@[simp] theorem State.setSlice_featureTaken (s : State) (d : Nat) (x : Slice) : (s.setSlice d x).featureTaken = s.featureTaken := rfl
@[simp] theorem State.setSlice_featureLocked (s : State) (d : Nat) (x : Slice) : (s.setSlice d x).featureLocked = s.featureLocked := rfl
@[simp] theorem State.setSlice_resetState (s : State) (d : Nat) (x : Slice) : (s.setSlice d x).resetState = s.resetState := rfl
@[simp] theorem State.setSlice_failCode (s : State) (d : Nat) (x : Slice) : (s.setSlice d x).failCode = s.failCode := rfl
@[simp] theorem State.setSlice_svn (s : State) (d : Nat) (x : Slice) : (s.setSlice d x).svn = s.svn := rfl
@[simp] theorem State.setSlice_swBase (s : State) (d : Nat) (x : Slice) : (s.setSlice d x).swBase = s.swBase := rfl
@[simp] theorem State.setSlice_swCtl (s : State) (d : Nat) (x : Slice) : (s.setSlice d x).swCtl = s.swCtl := rfl
@[simp] theorem State.setSlice_swStat (s : State) (d : Nat) (x : Slice) : (s.setSlice d x).swStat = s.swStat := rfl
@[simp] theorem State.setSlice_attBusy (s : State) (d : Nat) (x : Slice) : (s.setSlice d x).attBusy = s.attBusy := rfl
@[simp] theorem State.setSlice_attDone (s : State) (d : Nat) (x : Slice) : (s.setSlice d x).attDone = s.attDone := rfl
@[simp] theorem State.setSlice_attErr (s : State) (d : Nat) (x : Slice) : (s.setSlice d x).attErr = s.attErr := rfl
@[simp] theorem State.setSlice_attSigs (s : State) (d : Nat) (x : Slice) : (s.setSlice d x).attSigs = s.attSigs := rfl
@[simp] theorem State.setSlice_attAddr (s : State) (d : Nat) (x : Slice) : (s.setSlice d x).attAddr = s.attAddr := rfl
@[simp] theorem State.setSlice_attSpace (s : State) (d : Nat) (x : Slice) : (s.setSlice d x).attSpace = s.attSpace := rfl
@[simp] theorem State.setSlice_attNonce (s : State) (d : Nat) (x : Slice) : (s.setSlice d x).attNonce = s.attNonce := rfl
@[simp] theorem State.setSlice_powerCap (s : State) (d : Nat) (x : Slice) : (s.setSlice d x).powerCap = s.powerCap := rfl
@[simp] theorem State.setSlice_throttled (s : State) (d : Nat) (x : Slice) : (s.setSlice d x).throttled = s.throttled := rfl
@[simp] theorem State.setSlice_throttleMark (s : State) (d : Nat) (x : Slice) : (s.setSlice d x).throttleMark = s.throttleMark := rfl
@[simp] theorem State.setSlice_overCap (s : State) (d : Nat) (x : Slice) : (s.setSlice d x).overCap = s.overCap := rfl
@[simp] theorem State.setSlice_level (s : State) (d : Nat) (x : Slice) : (s.setSlice d x).level = s.level := rfl
@[simp] theorem State.setSlice_retired (s : State) (d : Nat) (x : Slice) : (s.setSlice d x).retired = s.retired := rfl
@[simp] theorem State.setSlice_retiredLinks (s : State) (d : Nat) (x : Slice) : (s.setSlice d x).retiredLinks = s.retiredLinks := rfl
@[simp] theorem State.setSlice_boot (s : State) (d : Nat) (x : Slice) : (s.setSlice d x).boot = s.boot := rfl
@[simp] theorem State.setSlice_windowHeld (s : State) (d : Nat) (x : Slice) : (s.setSlice d x).windowHeld = s.windowHeld := rfl
@[simp] theorem State.setSlice_hostReplies (s : State) (d : Nat) (x : Slice) : (s.setSlice d x).hostReplies = s.hostReplies := rfl
@[simp] theorem State.setSlice_reports (s : State) (d : Nat) (x : Slice) : (s.setSlice d x).reports = s.reports := rfl
@[simp] theorem State.setSlice_peerReplies (s : State) (d : Nat) (x : Slice) : (s.setSlice d x).peerReplies = s.peerReplies := rfl
@[simp] theorem State.setSlice_peerMem (s : State) (d : Nat) (x : Slice) : (s.setSlice d x).peerMem = s.peerMem := rfl

@[simp] theorem State.setQueue_mem (s : State) (q : Nat) (x : HostQueue) : (s.setQueue q x).mem = s.mem := rfl
@[simp] theorem State.setQueue_empties (s : State) (q : Nat) (x : HostQueue) : (s.setQueue q x).empties = s.empties := rfl
@[simp] theorem State.setQueue_parked (s : State) (q : Nat) (x : HostQueue) : (s.setQueue q x).parked = s.parked := rfl
@[simp] theorem State.setQueue_bad (s : State) (q : Nat) (x : HostQueue) : (s.setQueue q x).bad = s.bad := rfl
@[simp] theorem State.setQueue_sizes (s : State) (q : Nat) (x : HostQueue) : (s.setQueue q x).sizes = s.sizes := rfl
@[simp] theorem State.setQueue_slices (s : State) (q : Nat) (x : HostQueue) : (s.setQueue q x).slices = s.slices := rfl
@[simp] theorem State.setQueue_dies (s : State) (q : Nat) (x : HostQueue) : (s.setQueue q x).dies = s.dies := rfl
@[simp] theorem State.setQueue_launches (s : State) (q : Nat) (x : HostQueue) : (s.setQueue q x).launches = s.launches := rfl
@[simp] theorem State.setQueue_copies (s : State) (q : Nat) (x : HostQueue) : (s.setQueue q x).copies = s.copies := rfl
@[simp] theorem State.setQueue_retires (s : State) (q : Nat) (x : HostQueue) : (s.setQueue q x).retires = s.retires := rfl
@[simp] theorem State.setQueue_reqSeq (s : State) (q : Nat) (x : HostQueue) : (s.setQueue q x).reqSeq = s.reqSeq := rfl
@[simp] theorem State.setQueue_now (s : State) (q : Nat) (x : HostQueue) : (s.setQueue q x).now = s.now := rfl
@[simp] theorem State.setQueue_tick (s : State) (q : Nat) (x : HostQueue) : (s.setQueue q x).tick = s.tick := rfl
@[simp] theorem State.setQueue_quantumMark (s : State) (q : Nat) (x : HostQueue) : (s.setQueue q x).quantumMark = s.quantumMark := rfl
@[simp] theorem State.setQueue_inputs (s : State) (q : Nat) (x : HostQueue) : (s.setQueue q x).inputs = s.inputs := rfl
@[simp] theorem State.setQueue_focus (s : State) (q : Nat) (x : HostQueue) : (s.setQueue q x).focus = s.focus := rfl
@[simp] theorem State.setQueue_peerId (s : State) (q : Nat) (x : HostQueue) : (s.setQueue q x).peerId = s.peerId := rfl
@[simp] theorem State.setQueue_peerReqs (s : State) (q : Nat) (x : HostQueue) : (s.setQueue q x).peerReqs = s.peerReqs := rfl
@[simp] theorem State.setQueue_badTags (s : State) (q : Nat) (x : HostQueue) : (s.setQueue q x).badTags = s.badTags := rfl
@[simp] theorem State.setQueue_nextInstance (s : State) (q : Nat) (x : HostQueue) : (s.setQueue q x).nextInstance = s.nextInstance := rfl
@[simp] theorem State.setQueue_nextSequence (s : State) (q : Nat) (x : HostQueue) : (s.setQueue q x).nextSequence = s.nextSequence := rfl
@[simp] theorem State.setQueue_childTurn (s : State) (q : Nat) (x : HostQueue) : (s.setQueue q x).childTurn = s.childTurn := rfl
@[simp] theorem State.setQueue_powerMark (s : State) (q : Nat) (x : HostQueue) : (s.setQueue q x).powerMark = s.powerMark := rfl
@[simp] theorem State.setQueue_quantum (s : State) (q : Nat) (x : HostQueue) : (s.setQueue q x).quantum = s.quantum := rfl
@[simp] theorem State.setQueue_compactAfter (s : State) (q : Nat) (x : HostQueue) : (s.setQueue q x).compactAfter = s.compactAfter := rfl
@[simp] theorem State.setQueue_preemptWait (s : State) (q : Nat) (x : HostQueue) : (s.setQueue q x).preemptWait = s.preemptWait := rfl
@[simp] theorem State.setQueue_ctxCtl (s : State) (q : Nat) (x : HostQueue) : (s.setQueue q x).ctxCtl = s.ctxCtl := rfl
@[simp] theorem State.setQueue_ctxBase (s : State) (q : Nat) (x : HostQueue) : (s.setQueue q x).ctxBase = s.ctxBase := rfl
@[simp] theorem State.setQueue_tableOwed (s : State) (q : Nat) (x : HostQueue) : (s.setQueue q x).tableOwed = s.tableOwed := rfl
@[simp] theorem State.setQueue_killing (s : State) (q : Nat) (x : HostQueue) : (s.setQueue q x).killing = s.killing := rfl
@[simp] theorem State.setQueue_warm (s : State) (q : Nat) (x : HostQueue) : (s.setQueue q x).warm = s.warm := rfl
@[simp] theorem State.setQueue_killResult (s : State) (q : Nat) (x : HostQueue) : (s.setQueue q x).killResult = s.killResult := rfl
@[simp] theorem State.setQueue_killDone (s : State) (q : Nat) (x : HostQueue) : (s.setQueue q x).killDone = s.killDone := rfl
@[simp] theorem State.setQueue_featureOn (s : State) (q : Nat) (x : HostQueue) : (s.setQueue q x).featureOn = s.featureOn := rfl
@[simp] theorem State.setQueue_featureStaged (s : State) (q : Nat) (x : HostQueue) : (s.setQueue q x).featureStaged = s.featureStaged := rfl
@[simp] theorem State.setQueue_featureTaken (s : State) (q : Nat) (x : HostQueue) : (s.setQueue q x).featureTaken = s.featureTaken := rfl
@[simp] theorem State.setQueue_featureLocked (s : State) (q : Nat) (x : HostQueue) : (s.setQueue q x).featureLocked = s.featureLocked := rfl
@[simp] theorem State.setQueue_resetState (s : State) (q : Nat) (x : HostQueue) : (s.setQueue q x).resetState = s.resetState := rfl
@[simp] theorem State.setQueue_failCode (s : State) (q : Nat) (x : HostQueue) : (s.setQueue q x).failCode = s.failCode := rfl
@[simp] theorem State.setQueue_svn (s : State) (q : Nat) (x : HostQueue) : (s.setQueue q x).svn = s.svn := rfl
@[simp] theorem State.setQueue_swBase (s : State) (q : Nat) (x : HostQueue) : (s.setQueue q x).swBase = s.swBase := rfl
@[simp] theorem State.setQueue_swCtl (s : State) (q : Nat) (x : HostQueue) : (s.setQueue q x).swCtl = s.swCtl := rfl
@[simp] theorem State.setQueue_swStat (s : State) (q : Nat) (x : HostQueue) : (s.setQueue q x).swStat = s.swStat := rfl
@[simp] theorem State.setQueue_attBusy (s : State) (q : Nat) (x : HostQueue) : (s.setQueue q x).attBusy = s.attBusy := rfl
@[simp] theorem State.setQueue_attDone (s : State) (q : Nat) (x : HostQueue) : (s.setQueue q x).attDone = s.attDone := rfl
@[simp] theorem State.setQueue_attErr (s : State) (q : Nat) (x : HostQueue) : (s.setQueue q x).attErr = s.attErr := rfl
@[simp] theorem State.setQueue_attSigs (s : State) (q : Nat) (x : HostQueue) : (s.setQueue q x).attSigs = s.attSigs := rfl
@[simp] theorem State.setQueue_attAddr (s : State) (q : Nat) (x : HostQueue) : (s.setQueue q x).attAddr = s.attAddr := rfl
@[simp] theorem State.setQueue_attSpace (s : State) (q : Nat) (x : HostQueue) : (s.setQueue q x).attSpace = s.attSpace := rfl
@[simp] theorem State.setQueue_attNonce (s : State) (q : Nat) (x : HostQueue) : (s.setQueue q x).attNonce = s.attNonce := rfl
@[simp] theorem State.setQueue_powerCap (s : State) (q : Nat) (x : HostQueue) : (s.setQueue q x).powerCap = s.powerCap := rfl
@[simp] theorem State.setQueue_throttled (s : State) (q : Nat) (x : HostQueue) : (s.setQueue q x).throttled = s.throttled := rfl
@[simp] theorem State.setQueue_throttleMark (s : State) (q : Nat) (x : HostQueue) : (s.setQueue q x).throttleMark = s.throttleMark := rfl
@[simp] theorem State.setQueue_overCap (s : State) (q : Nat) (x : HostQueue) : (s.setQueue q x).overCap = s.overCap := rfl
@[simp] theorem State.setQueue_level (s : State) (q : Nat) (x : HostQueue) : (s.setQueue q x).level = s.level := rfl
@[simp] theorem State.setQueue_retired (s : State) (q : Nat) (x : HostQueue) : (s.setQueue q x).retired = s.retired := rfl
@[simp] theorem State.setQueue_retiredLinks (s : State) (q : Nat) (x : HostQueue) : (s.setQueue q x).retiredLinks = s.retiredLinks := rfl
@[simp] theorem State.setQueue_boot (s : State) (q : Nat) (x : HostQueue) : (s.setQueue q x).boot = s.boot := rfl
@[simp] theorem State.setQueue_windowHeld (s : State) (q : Nat) (x : HostQueue) : (s.setQueue q x).windowHeld = s.windowHeld := rfl
@[simp] theorem State.setQueue_hostReplies (s : State) (q : Nat) (x : HostQueue) : (s.setQueue q x).hostReplies = s.hostReplies := rfl
@[simp] theorem State.setQueue_reports (s : State) (q : Nat) (x : HostQueue) : (s.setQueue q x).reports = s.reports := rfl
@[simp] theorem State.setQueue_peerReplies (s : State) (q : Nat) (x : HostQueue) : (s.setQueue q x).peerReplies = s.peerReplies := rfl
@[simp] theorem State.setQueue_peerMem (s : State) (q : Nat) (x : HostQueue) : (s.setQueue q x).peerMem = s.peerMem := rfl

@[simp] theorem State.writeByte_empties (s : State) (k : Nat) (b : Byte) : (s.writeByte k b).empties = s.empties := rfl
@[simp] theorem State.writeByte_parked (s : State) (k : Nat) (b : Byte) : (s.writeByte k b).parked = s.parked := rfl
@[simp] theorem State.writeByte_bad (s : State) (k : Nat) (b : Byte) : (s.writeByte k b).bad = s.bad := rfl
@[simp] theorem State.writeByte_sizes (s : State) (k : Nat) (b : Byte) : (s.writeByte k b).sizes = s.sizes := rfl
@[simp] theorem State.writeByte_slices (s : State) (k : Nat) (b : Byte) : (s.writeByte k b).slices = s.slices := rfl
@[simp] theorem State.writeByte_dies (s : State) (k : Nat) (b : Byte) : (s.writeByte k b).dies = s.dies := rfl
@[simp] theorem State.writeByte_launches (s : State) (k : Nat) (b : Byte) : (s.writeByte k b).launches = s.launches := rfl
@[simp] theorem State.writeByte_copies (s : State) (k : Nat) (b : Byte) : (s.writeByte k b).copies = s.copies := rfl
@[simp] theorem State.writeByte_retires (s : State) (k : Nat) (b : Byte) : (s.writeByte k b).retires = s.retires := rfl
@[simp] theorem State.writeByte_queues (s : State) (k : Nat) (b : Byte) : (s.writeByte k b).queues = s.queues := rfl
@[simp] theorem State.writeByte_reqSeq (s : State) (k : Nat) (b : Byte) : (s.writeByte k b).reqSeq = s.reqSeq := rfl
@[simp] theorem State.writeByte_now (s : State) (k : Nat) (b : Byte) : (s.writeByte k b).now = s.now := rfl
@[simp] theorem State.writeByte_tick (s : State) (k : Nat) (b : Byte) : (s.writeByte k b).tick = s.tick := rfl
@[simp] theorem State.writeByte_quantumMark (s : State) (k : Nat) (b : Byte) : (s.writeByte k b).quantumMark = s.quantumMark := rfl
@[simp] theorem State.writeByte_inputs (s : State) (k : Nat) (b : Byte) : (s.writeByte k b).inputs = s.inputs := rfl
@[simp] theorem State.writeByte_focus (s : State) (k : Nat) (b : Byte) : (s.writeByte k b).focus = s.focus := rfl
@[simp] theorem State.writeByte_peerId (s : State) (k : Nat) (b : Byte) : (s.writeByte k b).peerId = s.peerId := rfl
@[simp] theorem State.writeByte_peerReqs (s : State) (k : Nat) (b : Byte) : (s.writeByte k b).peerReqs = s.peerReqs := rfl
@[simp] theorem State.writeByte_badTags (s : State) (k : Nat) (b : Byte) : (s.writeByte k b).badTags = s.badTags := rfl
@[simp] theorem State.writeByte_nextInstance (s : State) (k : Nat) (b : Byte) : (s.writeByte k b).nextInstance = s.nextInstance := rfl
@[simp] theorem State.writeByte_nextSequence (s : State) (k : Nat) (b : Byte) : (s.writeByte k b).nextSequence = s.nextSequence := rfl
@[simp] theorem State.writeByte_childTurn (s : State) (k : Nat) (b : Byte) : (s.writeByte k b).childTurn = s.childTurn := rfl
@[simp] theorem State.writeByte_powerMark (s : State) (k : Nat) (b : Byte) : (s.writeByte k b).powerMark = s.powerMark := rfl
@[simp] theorem State.writeByte_quantum (s : State) (k : Nat) (b : Byte) : (s.writeByte k b).quantum = s.quantum := rfl
@[simp] theorem State.writeByte_compactAfter (s : State) (k : Nat) (b : Byte) : (s.writeByte k b).compactAfter = s.compactAfter := rfl
@[simp] theorem State.writeByte_preemptWait (s : State) (k : Nat) (b : Byte) : (s.writeByte k b).preemptWait = s.preemptWait := rfl
@[simp] theorem State.writeByte_ctxCtl (s : State) (k : Nat) (b : Byte) : (s.writeByte k b).ctxCtl = s.ctxCtl := rfl
@[simp] theorem State.writeByte_ctxBase (s : State) (k : Nat) (b : Byte) : (s.writeByte k b).ctxBase = s.ctxBase := rfl
@[simp] theorem State.writeByte_tableOwed (s : State) (k : Nat) (b : Byte) : (s.writeByte k b).tableOwed = s.tableOwed := rfl
@[simp] theorem State.writeByte_killing (s : State) (k : Nat) (b : Byte) : (s.writeByte k b).killing = s.killing := rfl
@[simp] theorem State.writeByte_warm (s : State) (k : Nat) (b : Byte) : (s.writeByte k b).warm = s.warm := rfl
@[simp] theorem State.writeByte_killResult (s : State) (k : Nat) (b : Byte) : (s.writeByte k b).killResult = s.killResult := rfl
@[simp] theorem State.writeByte_killDone (s : State) (k : Nat) (b : Byte) : (s.writeByte k b).killDone = s.killDone := rfl
@[simp] theorem State.writeByte_featureOn (s : State) (k : Nat) (b : Byte) : (s.writeByte k b).featureOn = s.featureOn := rfl
@[simp] theorem State.writeByte_featureStaged (s : State) (k : Nat) (b : Byte) : (s.writeByte k b).featureStaged = s.featureStaged := rfl
@[simp] theorem State.writeByte_featureTaken (s : State) (k : Nat) (b : Byte) : (s.writeByte k b).featureTaken = s.featureTaken := rfl
@[simp] theorem State.writeByte_featureLocked (s : State) (k : Nat) (b : Byte) : (s.writeByte k b).featureLocked = s.featureLocked := rfl
@[simp] theorem State.writeByte_resetState (s : State) (k : Nat) (b : Byte) : (s.writeByte k b).resetState = s.resetState := rfl
@[simp] theorem State.writeByte_failCode (s : State) (k : Nat) (b : Byte) : (s.writeByte k b).failCode = s.failCode := rfl
@[simp] theorem State.writeByte_svn (s : State) (k : Nat) (b : Byte) : (s.writeByte k b).svn = s.svn := rfl
@[simp] theorem State.writeByte_swBase (s : State) (k : Nat) (b : Byte) : (s.writeByte k b).swBase = s.swBase := rfl
@[simp] theorem State.writeByte_swCtl (s : State) (k : Nat) (b : Byte) : (s.writeByte k b).swCtl = s.swCtl := rfl
@[simp] theorem State.writeByte_swStat (s : State) (k : Nat) (b : Byte) : (s.writeByte k b).swStat = s.swStat := rfl
@[simp] theorem State.writeByte_attBusy (s : State) (k : Nat) (b : Byte) : (s.writeByte k b).attBusy = s.attBusy := rfl
@[simp] theorem State.writeByte_attDone (s : State) (k : Nat) (b : Byte) : (s.writeByte k b).attDone = s.attDone := rfl
@[simp] theorem State.writeByte_attErr (s : State) (k : Nat) (b : Byte) : (s.writeByte k b).attErr = s.attErr := rfl
@[simp] theorem State.writeByte_attSigs (s : State) (k : Nat) (b : Byte) : (s.writeByte k b).attSigs = s.attSigs := rfl
@[simp] theorem State.writeByte_attAddr (s : State) (k : Nat) (b : Byte) : (s.writeByte k b).attAddr = s.attAddr := rfl
@[simp] theorem State.writeByte_attSpace (s : State) (k : Nat) (b : Byte) : (s.writeByte k b).attSpace = s.attSpace := rfl
@[simp] theorem State.writeByte_attNonce (s : State) (k : Nat) (b : Byte) : (s.writeByte k b).attNonce = s.attNonce := rfl
@[simp] theorem State.writeByte_powerCap (s : State) (k : Nat) (b : Byte) : (s.writeByte k b).powerCap = s.powerCap := rfl
@[simp] theorem State.writeByte_throttled (s : State) (k : Nat) (b : Byte) : (s.writeByte k b).throttled = s.throttled := rfl
@[simp] theorem State.writeByte_throttleMark (s : State) (k : Nat) (b : Byte) : (s.writeByte k b).throttleMark = s.throttleMark := rfl
@[simp] theorem State.writeByte_overCap (s : State) (k : Nat) (b : Byte) : (s.writeByte k b).overCap = s.overCap := rfl
@[simp] theorem State.writeByte_level (s : State) (k : Nat) (b : Byte) : (s.writeByte k b).level = s.level := rfl
@[simp] theorem State.writeByte_retired (s : State) (k : Nat) (b : Byte) : (s.writeByte k b).retired = s.retired := rfl
@[simp] theorem State.writeByte_retiredLinks (s : State) (k : Nat) (b : Byte) : (s.writeByte k b).retiredLinks = s.retiredLinks := rfl
@[simp] theorem State.writeByte_boot (s : State) (k : Nat) (b : Byte) : (s.writeByte k b).boot = s.boot := rfl
@[simp] theorem State.writeByte_windowHeld (s : State) (k : Nat) (b : Byte) : (s.writeByte k b).windowHeld = s.windowHeld := rfl
@[simp] theorem State.writeByte_hostReplies (s : State) (k : Nat) (b : Byte) : (s.writeByte k b).hostReplies = s.hostReplies := rfl
@[simp] theorem State.writeByte_reports (s : State) (k : Nat) (b : Byte) : (s.writeByte k b).reports = s.reports := rfl
@[simp] theorem State.writeByte_peerReplies (s : State) (k : Nat) (b : Byte) : (s.writeByte k b).peerReplies = s.peerReplies := rfl
@[simp] theorem State.writeByte_peerMem (s : State) (k : Nat) (b : Byte) : (s.writeByte k b).peerMem = s.peerMem := rfl

@[simp] theorem State.setParked_mem (s : State) (k : Nat) (b : Bool) : (s.setParked k b).mem = s.mem := rfl
@[simp] theorem State.setParked_empties (s : State) (k : Nat) (b : Bool) : (s.setParked k b).empties = s.empties := rfl
@[simp] theorem State.setParked_bad (s : State) (k : Nat) (b : Bool) : (s.setParked k b).bad = s.bad := rfl
@[simp] theorem State.setParked_sizes (s : State) (k : Nat) (b : Bool) : (s.setParked k b).sizes = s.sizes := rfl
@[simp] theorem State.setParked_slices (s : State) (k : Nat) (b : Bool) : (s.setParked k b).slices = s.slices := rfl
@[simp] theorem State.setParked_dies (s : State) (k : Nat) (b : Bool) : (s.setParked k b).dies = s.dies := rfl
@[simp] theorem State.setParked_launches (s : State) (k : Nat) (b : Bool) : (s.setParked k b).launches = s.launches := rfl
@[simp] theorem State.setParked_copies (s : State) (k : Nat) (b : Bool) : (s.setParked k b).copies = s.copies := rfl
@[simp] theorem State.setParked_retires (s : State) (k : Nat) (b : Bool) : (s.setParked k b).retires = s.retires := rfl
@[simp] theorem State.setParked_queues (s : State) (k : Nat) (b : Bool) : (s.setParked k b).queues = s.queues := rfl
@[simp] theorem State.setParked_reqSeq (s : State) (k : Nat) (b : Bool) : (s.setParked k b).reqSeq = s.reqSeq := rfl
@[simp] theorem State.setParked_now (s : State) (k : Nat) (b : Bool) : (s.setParked k b).now = s.now := rfl
@[simp] theorem State.setParked_tick (s : State) (k : Nat) (b : Bool) : (s.setParked k b).tick = s.tick := rfl
@[simp] theorem State.setParked_quantumMark (s : State) (k : Nat) (b : Bool) : (s.setParked k b).quantumMark = s.quantumMark := rfl
@[simp] theorem State.setParked_inputs (s : State) (k : Nat) (b : Bool) : (s.setParked k b).inputs = s.inputs := rfl
@[simp] theorem State.setParked_focus (s : State) (k : Nat) (b : Bool) : (s.setParked k b).focus = s.focus := rfl
@[simp] theorem State.setParked_peerId (s : State) (k : Nat) (b : Bool) : (s.setParked k b).peerId = s.peerId := rfl
@[simp] theorem State.setParked_peerReqs (s : State) (k : Nat) (b : Bool) : (s.setParked k b).peerReqs = s.peerReqs := rfl
@[simp] theorem State.setParked_badTags (s : State) (k : Nat) (b : Bool) : (s.setParked k b).badTags = s.badTags := rfl
@[simp] theorem State.setParked_nextInstance (s : State) (k : Nat) (b : Bool) : (s.setParked k b).nextInstance = s.nextInstance := rfl
@[simp] theorem State.setParked_nextSequence (s : State) (k : Nat) (b : Bool) : (s.setParked k b).nextSequence = s.nextSequence := rfl
@[simp] theorem State.setParked_childTurn (s : State) (k : Nat) (b : Bool) : (s.setParked k b).childTurn = s.childTurn := rfl
@[simp] theorem State.setParked_powerMark (s : State) (k : Nat) (b : Bool) : (s.setParked k b).powerMark = s.powerMark := rfl
@[simp] theorem State.setParked_quantum (s : State) (k : Nat) (b : Bool) : (s.setParked k b).quantum = s.quantum := rfl
@[simp] theorem State.setParked_compactAfter (s : State) (k : Nat) (b : Bool) : (s.setParked k b).compactAfter = s.compactAfter := rfl
@[simp] theorem State.setParked_preemptWait (s : State) (k : Nat) (b : Bool) : (s.setParked k b).preemptWait = s.preemptWait := rfl
@[simp] theorem State.setParked_ctxCtl (s : State) (k : Nat) (b : Bool) : (s.setParked k b).ctxCtl = s.ctxCtl := rfl
@[simp] theorem State.setParked_ctxBase (s : State) (k : Nat) (b : Bool) : (s.setParked k b).ctxBase = s.ctxBase := rfl
@[simp] theorem State.setParked_tableOwed (s : State) (k : Nat) (b : Bool) : (s.setParked k b).tableOwed = s.tableOwed := rfl
@[simp] theorem State.setParked_killing (s : State) (k : Nat) (b : Bool) : (s.setParked k b).killing = s.killing := rfl
@[simp] theorem State.setParked_warm (s : State) (k : Nat) (b : Bool) : (s.setParked k b).warm = s.warm := rfl
@[simp] theorem State.setParked_killResult (s : State) (k : Nat) (b : Bool) : (s.setParked k b).killResult = s.killResult := rfl
@[simp] theorem State.setParked_killDone (s : State) (k : Nat) (b : Bool) : (s.setParked k b).killDone = s.killDone := rfl
@[simp] theorem State.setParked_featureOn (s : State) (k : Nat) (b : Bool) : (s.setParked k b).featureOn = s.featureOn := rfl
@[simp] theorem State.setParked_featureStaged (s : State) (k : Nat) (b : Bool) : (s.setParked k b).featureStaged = s.featureStaged := rfl
@[simp] theorem State.setParked_featureTaken (s : State) (k : Nat) (b : Bool) : (s.setParked k b).featureTaken = s.featureTaken := rfl
@[simp] theorem State.setParked_featureLocked (s : State) (k : Nat) (b : Bool) : (s.setParked k b).featureLocked = s.featureLocked := rfl
@[simp] theorem State.setParked_resetState (s : State) (k : Nat) (b : Bool) : (s.setParked k b).resetState = s.resetState := rfl
@[simp] theorem State.setParked_failCode (s : State) (k : Nat) (b : Bool) : (s.setParked k b).failCode = s.failCode := rfl
@[simp] theorem State.setParked_svn (s : State) (k : Nat) (b : Bool) : (s.setParked k b).svn = s.svn := rfl
@[simp] theorem State.setParked_swBase (s : State) (k : Nat) (b : Bool) : (s.setParked k b).swBase = s.swBase := rfl
@[simp] theorem State.setParked_swCtl (s : State) (k : Nat) (b : Bool) : (s.setParked k b).swCtl = s.swCtl := rfl
@[simp] theorem State.setParked_swStat (s : State) (k : Nat) (b : Bool) : (s.setParked k b).swStat = s.swStat := rfl
@[simp] theorem State.setParked_attBusy (s : State) (k : Nat) (b : Bool) : (s.setParked k b).attBusy = s.attBusy := rfl
@[simp] theorem State.setParked_attDone (s : State) (k : Nat) (b : Bool) : (s.setParked k b).attDone = s.attDone := rfl
@[simp] theorem State.setParked_attErr (s : State) (k : Nat) (b : Bool) : (s.setParked k b).attErr = s.attErr := rfl
@[simp] theorem State.setParked_attSigs (s : State) (k : Nat) (b : Bool) : (s.setParked k b).attSigs = s.attSigs := rfl
@[simp] theorem State.setParked_attAddr (s : State) (k : Nat) (b : Bool) : (s.setParked k b).attAddr = s.attAddr := rfl
@[simp] theorem State.setParked_attSpace (s : State) (k : Nat) (b : Bool) : (s.setParked k b).attSpace = s.attSpace := rfl
@[simp] theorem State.setParked_attNonce (s : State) (k : Nat) (b : Bool) : (s.setParked k b).attNonce = s.attNonce := rfl
@[simp] theorem State.setParked_powerCap (s : State) (k : Nat) (b : Bool) : (s.setParked k b).powerCap = s.powerCap := rfl
@[simp] theorem State.setParked_throttled (s : State) (k : Nat) (b : Bool) : (s.setParked k b).throttled = s.throttled := rfl
@[simp] theorem State.setParked_throttleMark (s : State) (k : Nat) (b : Bool) : (s.setParked k b).throttleMark = s.throttleMark := rfl
@[simp] theorem State.setParked_overCap (s : State) (k : Nat) (b : Bool) : (s.setParked k b).overCap = s.overCap := rfl
@[simp] theorem State.setParked_level (s : State) (k : Nat) (b : Bool) : (s.setParked k b).level = s.level := rfl
@[simp] theorem State.setParked_retired (s : State) (k : Nat) (b : Bool) : (s.setParked k b).retired = s.retired := rfl
@[simp] theorem State.setParked_retiredLinks (s : State) (k : Nat) (b : Bool) : (s.setParked k b).retiredLinks = s.retiredLinks := rfl
@[simp] theorem State.setParked_boot (s : State) (k : Nat) (b : Bool) : (s.setParked k b).boot = s.boot := rfl
@[simp] theorem State.setParked_windowHeld (s : State) (k : Nat) (b : Bool) : (s.setParked k b).windowHeld = s.windowHeld := rfl
@[simp] theorem State.setParked_hostReplies (s : State) (k : Nat) (b : Bool) : (s.setParked k b).hostReplies = s.hostReplies := rfl
@[simp] theorem State.setParked_reports (s : State) (k : Nat) (b : Bool) : (s.setParked k b).reports = s.reports := rfl
@[simp] theorem State.setParked_peerReplies (s : State) (k : Nat) (b : Bool) : (s.setParked k b).peerReplies = s.peerReplies := rfl
@[simp] theorem State.setParked_peerMem (s : State) (k : Nat) (b : Bool) : (s.setParked k b).peerMem = s.peerMem := rfl

@[simp] theorem State.focusAt_mem (s : State) (i x y u t q : Nat) : (s.focusAt i x y u t q).mem = s.mem := rfl
@[simp] theorem State.focusAt_empties (s : State) (i x y u t q : Nat) : (s.focusAt i x y u t q).empties = s.empties := rfl
@[simp] theorem State.focusAt_parked (s : State) (i x y u t q : Nat) : (s.focusAt i x y u t q).parked = s.parked := rfl
@[simp] theorem State.focusAt_bad (s : State) (i x y u t q : Nat) : (s.focusAt i x y u t q).bad = s.bad := rfl
@[simp] theorem State.focusAt_sizes (s : State) (i x y u t q : Nat) : (s.focusAt i x y u t q).sizes = s.sizes := rfl
@[simp] theorem State.focusAt_slices (s : State) (i x y u t q : Nat) : (s.focusAt i x y u t q).slices = s.slices := rfl
@[simp] theorem State.focusAt_dies (s : State) (i x y u t q : Nat) : (s.focusAt i x y u t q).dies = s.dies := rfl
@[simp] theorem State.focusAt_launches (s : State) (i x y u t q : Nat) : (s.focusAt i x y u t q).launches = s.launches := rfl
@[simp] theorem State.focusAt_copies (s : State) (i x y u t q : Nat) : (s.focusAt i x y u t q).copies = s.copies := rfl
@[simp] theorem State.focusAt_retires (s : State) (i x y u t q : Nat) : (s.focusAt i x y u t q).retires = s.retires := rfl
@[simp] theorem State.focusAt_queues (s : State) (i x y u t q : Nat) : (s.focusAt i x y u t q).queues = s.queues := rfl
@[simp] theorem State.focusAt_reqSeq (s : State) (i x y u t q : Nat) : (s.focusAt i x y u t q).reqSeq = s.reqSeq := rfl
@[simp] theorem State.focusAt_now (s : State) (i x y u t q : Nat) : (s.focusAt i x y u t q).now = s.now := rfl
@[simp] theorem State.focusAt_tick (s : State) (i x y u t q : Nat) : (s.focusAt i x y u t q).tick = s.tick := rfl
@[simp] theorem State.focusAt_quantumMark (s : State) (i x y u t q : Nat) : (s.focusAt i x y u t q).quantumMark = s.quantumMark := rfl
@[simp] theorem State.focusAt_inputs (s : State) (i x y u t q : Nat) : (s.focusAt i x y u t q).inputs = s.inputs := rfl
@[simp] theorem State.focusAt_peerId (s : State) (i x y u t q : Nat) : (s.focusAt i x y u t q).peerId = s.peerId := rfl
@[simp] theorem State.focusAt_peerReqs (s : State) (i x y u t q : Nat) : (s.focusAt i x y u t q).peerReqs = s.peerReqs := rfl
@[simp] theorem State.focusAt_badTags (s : State) (i x y u t q : Nat) : (s.focusAt i x y u t q).badTags = s.badTags := rfl
@[simp] theorem State.focusAt_nextInstance (s : State) (i x y u t q : Nat) : (s.focusAt i x y u t q).nextInstance = s.nextInstance := rfl
@[simp] theorem State.focusAt_nextSequence (s : State) (i x y u t q : Nat) : (s.focusAt i x y u t q).nextSequence = s.nextSequence := rfl
@[simp] theorem State.focusAt_childTurn (s : State) (i x y u t q : Nat) : (s.focusAt i x y u t q).childTurn = s.childTurn := rfl
@[simp] theorem State.focusAt_powerMark (s : State) (i x y u t q : Nat) : (s.focusAt i x y u t q).powerMark = s.powerMark := rfl
@[simp] theorem State.focusAt_quantum (s : State) (i x y u t q : Nat) : (s.focusAt i x y u t q).quantum = s.quantum := rfl
@[simp] theorem State.focusAt_compactAfter (s : State) (i x y u t q : Nat) : (s.focusAt i x y u t q).compactAfter = s.compactAfter := rfl
@[simp] theorem State.focusAt_preemptWait (s : State) (i x y u t q : Nat) : (s.focusAt i x y u t q).preemptWait = s.preemptWait := rfl
@[simp] theorem State.focusAt_ctxCtl (s : State) (i x y u t q : Nat) : (s.focusAt i x y u t q).ctxCtl = s.ctxCtl := rfl
@[simp] theorem State.focusAt_ctxBase (s : State) (i x y u t q : Nat) : (s.focusAt i x y u t q).ctxBase = s.ctxBase := rfl
@[simp] theorem State.focusAt_tableOwed (s : State) (i x y u t q : Nat) : (s.focusAt i x y u t q).tableOwed = s.tableOwed := rfl
@[simp] theorem State.focusAt_killing (s : State) (i x y u t q : Nat) : (s.focusAt i x y u t q).killing = s.killing := rfl
@[simp] theorem State.focusAt_warm (s : State) (i x y u t q : Nat) : (s.focusAt i x y u t q).warm = s.warm := rfl
@[simp] theorem State.focusAt_killResult (s : State) (i x y u t q : Nat) : (s.focusAt i x y u t q).killResult = s.killResult := rfl
@[simp] theorem State.focusAt_killDone (s : State) (i x y u t q : Nat) : (s.focusAt i x y u t q).killDone = s.killDone := rfl
@[simp] theorem State.focusAt_featureOn (s : State) (i x y u t q : Nat) : (s.focusAt i x y u t q).featureOn = s.featureOn := rfl
@[simp] theorem State.focusAt_featureStaged (s : State) (i x y u t q : Nat) : (s.focusAt i x y u t q).featureStaged = s.featureStaged := rfl
@[simp] theorem State.focusAt_featureTaken (s : State) (i x y u t q : Nat) : (s.focusAt i x y u t q).featureTaken = s.featureTaken := rfl
@[simp] theorem State.focusAt_featureLocked (s : State) (i x y u t q : Nat) : (s.focusAt i x y u t q).featureLocked = s.featureLocked := rfl
@[simp] theorem State.focusAt_resetState (s : State) (i x y u t q : Nat) : (s.focusAt i x y u t q).resetState = s.resetState := rfl
@[simp] theorem State.focusAt_failCode (s : State) (i x y u t q : Nat) : (s.focusAt i x y u t q).failCode = s.failCode := rfl
@[simp] theorem State.focusAt_svn (s : State) (i x y u t q : Nat) : (s.focusAt i x y u t q).svn = s.svn := rfl
@[simp] theorem State.focusAt_swBase (s : State) (i x y u t q : Nat) : (s.focusAt i x y u t q).swBase = s.swBase := rfl
@[simp] theorem State.focusAt_swCtl (s : State) (i x y u t q : Nat) : (s.focusAt i x y u t q).swCtl = s.swCtl := rfl
@[simp] theorem State.focusAt_swStat (s : State) (i x y u t q : Nat) : (s.focusAt i x y u t q).swStat = s.swStat := rfl
@[simp] theorem State.focusAt_attBusy (s : State) (i x y u t q : Nat) : (s.focusAt i x y u t q).attBusy = s.attBusy := rfl
@[simp] theorem State.focusAt_attDone (s : State) (i x y u t q : Nat) : (s.focusAt i x y u t q).attDone = s.attDone := rfl
@[simp] theorem State.focusAt_attErr (s : State) (i x y u t q : Nat) : (s.focusAt i x y u t q).attErr = s.attErr := rfl
@[simp] theorem State.focusAt_attSigs (s : State) (i x y u t q : Nat) : (s.focusAt i x y u t q).attSigs = s.attSigs := rfl
@[simp] theorem State.focusAt_attAddr (s : State) (i x y u t q : Nat) : (s.focusAt i x y u t q).attAddr = s.attAddr := rfl
@[simp] theorem State.focusAt_attSpace (s : State) (i x y u t q : Nat) : (s.focusAt i x y u t q).attSpace = s.attSpace := rfl
@[simp] theorem State.focusAt_attNonce (s : State) (i x y u t q : Nat) : (s.focusAt i x y u t q).attNonce = s.attNonce := rfl
@[simp] theorem State.focusAt_powerCap (s : State) (i x y u t q : Nat) : (s.focusAt i x y u t q).powerCap = s.powerCap := rfl
@[simp] theorem State.focusAt_throttled (s : State) (i x y u t q : Nat) : (s.focusAt i x y u t q).throttled = s.throttled := rfl
@[simp] theorem State.focusAt_throttleMark (s : State) (i x y u t q : Nat) : (s.focusAt i x y u t q).throttleMark = s.throttleMark := rfl
@[simp] theorem State.focusAt_overCap (s : State) (i x y u t q : Nat) : (s.focusAt i x y u t q).overCap = s.overCap := rfl
@[simp] theorem State.focusAt_level (s : State) (i x y u t q : Nat) : (s.focusAt i x y u t q).level = s.level := rfl
@[simp] theorem State.focusAt_retired (s : State) (i x y u t q : Nat) : (s.focusAt i x y u t q).retired = s.retired := rfl
@[simp] theorem State.focusAt_retiredLinks (s : State) (i x y u t q : Nat) : (s.focusAt i x y u t q).retiredLinks = s.retiredLinks := rfl
@[simp] theorem State.focusAt_boot (s : State) (i x y u t q : Nat) : (s.focusAt i x y u t q).boot = s.boot := rfl
@[simp] theorem State.focusAt_windowHeld (s : State) (i x y u t q : Nat) : (s.focusAt i x y u t q).windowHeld = s.windowHeld := rfl
@[simp] theorem State.focusAt_hostReplies (s : State) (i x y u t q : Nat) : (s.focusAt i x y u t q).hostReplies = s.hostReplies := rfl
@[simp] theorem State.focusAt_reports (s : State) (i x y u t q : Nat) : (s.focusAt i x y u t q).reports = s.reports := rfl
@[simp] theorem State.focusAt_peerReplies (s : State) (i x y u t q : Nat) : (s.focusAt i x y u t q).peerReplies = s.peerReplies := rfl
@[simp] theorem State.focusAt_peerMem (s : State) (i x y u t q : Nat) : (s.focusAt i x y u t q).peerMem = s.peerMem := rfl

/-- A state that keeps everything outside its dies. -/
def State.OnlyDies (s t : State) : Prop := ∃ ds, t = { s with dies := ds }

theorem State.OnlyDies.refl (s : State) : s.OnlyDies s := ⟨s.dies, rfl⟩

theorem State.OnlyDies.trans {s t u : State} (h : s.OnlyDies t) (k : t.OnlyDies u) : s.OnlyDies u := by
  obtain ⟨ds, rfl⟩ := h; obtain ⟨es, rfl⟩ := k; exact ⟨es, rfl⟩

/-- A fold of steps that keep everything outside the dies keeps it. -/
theorem State.OnlyDies.foldl {α : Type} {f : State → α → State} (h : ∀ (s : State) (a : α), s.OnlyDies (f s a)) (xs : List α) :
    ∀ s : State, s.OnlyDies (xs.foldl f s) := by
  induction xs with
  | nil => exact State.OnlyDies.refl
  | cons a xs ih => exact fun s => (h s a).trans (ih (f s a))

theorem State.onlyDies_sampleAt (s : State) (d : Nat) (source : BitVec 8) (space : BitVec 12) (v : Word) (u : Nat) :
    s.OnlyDies (s.sampleAt d source space v u) := by
  unfold State.sampleAt
  simp only
  split
  · exact .refl s
  · split <;> exact ⟨_, rfl⟩

/-- A sample changes histogram units alone (R383). -/
theorem State.onlyDies_sample (s : State) (d : Nat) (source : BitVec 8) (space : BitVec 12) (v : Word) :
    s.OnlyDies (s.sample d source space v) :=
  State.OnlyDies.foldl (fun s u => s.onlyDies_sampleAt d source space v u) _ s

theorem State.onlyDies_sampleWaiters (s : State) (d : Nat) : s.OnlyDies (s.sampleWaiters d) := by
  unfold State.sampleWaiters
  split
  · exact State.OnlyDies.foldl (fun t _ => t.onlyDies_sample _ _ _ _) _ s
  · exact .refl s

theorem State.onlyDies_sampleWaitersFor (n : Nat) : ∀ s : State, s.OnlyDies (s.sampleWaitersFor n) := by
  induction n with
  | zero => exact State.OnlyDies.refl
  | succ n ih => exact fun s => (State.OnlyDies.foldl State.onlyDies_sampleWaiters _ s).trans (ih _)

/-- Time goes on: owed writes are made, and after that nothing but histogram units changes. -/
theorem State.elapsed_onlyDies (s : State) (n : Nat) :
    State.OnlyDies { s.payAll with tick := n + 1, now := s.now + Config.elapse n } (s.elapsed n) :=
  State.onlyDies_sampleWaitersFor _ _

/-- Time goes on, and nothing else happens outside the dies where no owed write waits to be made. -/
theorem State.elapsed_of_paid {s : State} (h : s.payAll = s) (n : Nat) :
    State.OnlyDies { s with tick := n + 1, now := s.now + Config.elapse n } (s.elapsed n) := by
  have := s.elapsed_onlyDies n; rwa [h] at this
@[simp] theorem State.elapsed_tick (s : State) (n : Nat) : (s.elapsed n).tick = n + 1 := by
  obtain ⟨_, h⟩ := s.elapsed_onlyDies n; rw [h]
@[simp] theorem State.elapsed_now (s : State) (n : Nat) : (s.elapsed n).now = s.now + Config.elapse n := by
  obtain ⟨_, h⟩ := s.elapsed_onlyDies n; rw [h]

end Sys2Proof.Machine
end

