-- ==== Sys2Proof/Laws/Elements.lean ====
section
/-! SUPPORT. Laws/Elements.lean: what an operation of one record does (R68, R69, R71), said once for every such operation. -/

namespace Sys2Proof.Machine

/-- Whether routes can accept does not depend on the record. -/
theorem State.accepts_out (s : State) (l : Launch) (port : Nat) (h : s.accepts l port) (r : Record) :
    l.canSend s.focus.x s.focus.y s.focus.unit [{ port := port, route := none, record := r }] = true := by
  simp only [Launch.canSend, List.all_cons, List.all_nil, Bool.and_true, Launch.outRoutes, List.all_eq_true]
  exact h

/-- What a record operation does with a ready record: it waits, traps with the record left in its latch, or sends (R68, R71). -/
theorem recordStep_ready {s : State} {l : Launch} {u : UnitState} {r : Record} (h : s.Ready l u r)
    (f : Launch → UnitState → Record → Effect) (act : Launch → Record → State → Now Unit) :
    recordStep f act s =
      match f l u r with
      | .wait => .next s
      | .trap c d a => .next (s.trapHead ((u.port 0).headD r) c d a)
      | .send u' outs =>
        if !l.canSend s.focus.x s.focus.y s.focus.unit outs then .next s
        else
          match act l r s with
          | .ok s _ => .next (s.complete u' outs r.ctl.ord)
          | .wait s => .next s
          | other => .next (State.failRegion s.focus.inst l.record.baseBlk other.state) := by
  obtain ⟨here, takes, r0, rest, head, pass⟩ := h
  unfold recordStep
  simp only [here, head, takes, pass, Bool.not_true, List.headD_cons]
  rfl

/-- A record operation that sends one record and does nothing beside. -/
theorem recordOp_sends {s : State} {l : Launch} {u u' : UnitState} {r : Record} {outs : List Out} (h : s.Ready l u r)
    {f : Launch → UnitState → Record → Effect} (hf : f l u r = .send u' outs)
    (hs : l.canSend s.focus.x s.focus.y s.focus.unit outs = true) :
    recordOp f s = .next (s.complete u' outs r.ctl.ord) := by
  unfold recordOp
  rw [recordStep_ready h]
  simp only [hf, hs, Bool.not_true]
  rfl

/-- A record operation that traps leaves its record in the latch (R71). -/
theorem recordOp_traps {s : State} {l : Launch} {u : UnitState} {r : Record} {c : Cause} {d a : DWord} (h : s.Ready l u r)
    {f : Launch → UnitState → Record → Effect} (hf : f l u r = .trap c d a) :
    recordOp f s = .next (s.trapHead ((u.port 0).headD r) c d a) := by
  unfold recordOp
  rw [recordStep_ready h]
  simp only [hf]

/-- An operation of the compute families passes a token unchanged (R69). -/
theorem plainOp_token {s : State} {l : Launch} {u : UnitState} {r : Record} (h : s.Ready l u r) (t : r.isToken = true)
    (a : s.accepts l 0) (f : Launch → UnitState → Record → Effect) : plainOp f s = .next (s.passes u r r) :=
  recordOp_sends h (by simp only [t, if_true]) (s.accepts_out l 0 a r)

/-- An operation of the compute families sends its result on out0. -/
theorem plainOp_sends {s : State} {l : Launch} {u u' : UnitState} {r r' : Record} (h : s.Ready l u r) (t : r.isToken = false)
    (a : s.accepts l 0) {f : Launch → UnitState → Record → Effect} (hf : f l u r = .send u' [out0 r']) :
    plainOp f s = .next (s.passes u' r r') :=
  recordOp_sends h (by simp only [t, Bool.false_eq_true, if_false]; exact hf) (s.accepts_out l 0 a r')

/-- What a trap of the record at the focus leaves (R71, R225). -/
theorem State.trapHead_trapsAs {s : State} {l : Launch} {u : UnitState} (h : s.here = some (l, u)) (r : Record) (c : Cause)
    (d a : DWord) : s.TrapsAs (s.trapHead ((u.port 0).headD r) c d a) l u r c d a := by
  obtain ⟨hl, hu⟩ := State.launch?_of_here h
  have ne : ({ u with held := true } : UnitState) ≠ UnitState.reset := fun e => by
    have := congrArg UnitState.held e; simp [UnitState.reset] at this
  unfold State.trapHead State.raise
  simp only [h]
  rw [State.modUnit_of_some _ hl, State.modLaunch_of_some _ (State.launch?_setLaunch_self _ _ _), State.setLaunch_setLaunch]
  refine ⟨_, rfl, ?_, rfl, rfl, fun k hk => Launch.get?_setUnit_of_ne l _ hk⟩
  rw [← hu]
  exact Launch.unit_setUnit_self l _ _ _ ne

/-- An operation of the compute families that traps. -/
theorem plainOp_traps {s : State} {l : Launch} {u : UnitState} {r : Record} {c : Cause} {d ad : DWord} (h : s.Ready l u r)
    (t : r.isToken = false) {f : Launch → UnitState → Record → Effect} (hf : f l u r = .trap c d ad) :
    plainOp f s = .next (s.trapHead ((u.port 0).headD r) c d ad) :=
  recordOp_traps h (by simp only [t, Bool.false_eq_true, if_false]; exact hf)

/-- An operation that only computes a record sends what it computes. -/
theorem computeOp_sends {s : State} {l : Launch} {u : UnitState} {r : Record} (h : s.Ready l u r) (t : r.isToken = false)
    (a : s.accepts l 0) (f : Record → Record) : computeOp f s = .next (s.passes u r (f r)) :=
  plainOp_sends h t a rfl

/-! ### What is written -/

theorem Record.keepsOutside_setW (r : Record) (d : Reg) (x : Word) : r.KeepsOutside (r.setW d x) d.toNat 1 :=
  ⟨fun k h => by rw [Record.at_setW, if_neg (by omega)], rfl⟩

theorem Record.keepsOutside_setWords (r : Record) (d : Nat) (ws : List Word) : r.KeepsOutside (r.setWords d ws) d ws.length :=
  ⟨fun k h => by rw [Record.at_setWords, if_neg (by omega)], Record.rcw_setWords ws r d⟩

/-- The lanes that a list of results makes. -/
theorem Record.lanesBecome (r : Record) (d : Reg) (len : Len) (lane : Lane) (vs : List Nat) (hd : aligned len d = true) :
    r.LanesBecome (r.setLanes d len lane vs) d len lane fun j z => z = vs.getD j 0 % 2 ^ lane.bits :=
  ⟨fun j h => Record.lane_setLanes r d len lane vs j hd h,
   fun k h => Record.at_setLanes_outside r d len lane vs k h, Record.rcw_setLanes r d len lane vs⟩

theorem Record.LanesBecome.mono {r r' : Record} {d : Reg} {len : Len} {lane : Lane} {P Q : Nat → Nat → Prop}
    (h : r.LanesBecome r' d len lane P) (hpq : ∀ j z, j < laneCount len lane → P j z → Q j z) :
    r.LanesBecome r' d len lane Q := ⟨fun j hj => hpq j _ hj (h.1 j hj), h.2⟩

theorem Record.lane_lt (r : Record) (x : Reg) (lane : Lane) (j : Nat) : r.lane x lane j < 2 ^ lane.bits :=
  Nat.mod_lt _ (Nat.two_pow_pos _)

/-- Lanes of a lane-wise operation of two operands. -/
theorem lanewise_lanes (o : Lanewise) (g : Nat → Nat → Nat → Nat) (r : Record) (hd : aligned o.len o.d = true) :
    r.LanesBecome (lanewise o g r) o.d o.len o.lane fun j z =>
      z = g o.lane.bits (r.lane o.a o.lane j) (r.lane o.b o.lane j) % 2 ^ o.lane.bits := by
  refine (r.lanesBecome o.d o.len o.lane _ hd).mono ?_
  intro j z hj h
  have ha := Record.getD_lanes r o.a o.len o.lane j hj
  have hb := Record.getD_lanes r o.b o.len o.lane j hj
  have la : j < (r.lanes o.a o.len o.lane).length := by rw [Record.length_lanes]; exact hj
  have lb : j < (r.lanes o.b o.len o.lane).length := by rw [Record.length_lanes]; exact hj
  rw [getD_of_lt _ _ la] at ha
  rw [getD_of_lt _ _ lb] at hb
  rw [h, getD_of_lt _ _ (by rw [List.length_zipWith]; omega), List.getElem_zipWith, ha, hb]

/-- Lanes of a lane-wise operation of one operand. -/
theorem lanewise1_lanes (o : Lanewise1) (g : Nat → Nat → Nat) (r : Record) (hd : aligned o.len o.d = true) :
    r.LanesBecome (lanewise1 o g r) o.d o.len o.lane fun j z => z = g o.lane.bits (r.lane o.a o.lane j) % 2 ^ o.lane.bits := by
  refine (r.lanesBecome o.d o.len o.lane _ hd).mono ?_
  intro j z hj h
  have ha := Record.getD_lanes r o.a o.len o.lane j hj
  have la : j < (r.lanes o.a o.len o.lane).length := by rw [Record.length_lanes]; exact hj
  rw [getD_of_lt _ _ la] at ha
  rw [h, getD_of_lt _ _ (by rw [List.length_map]; omega), List.getElem_map, ha]

/-- Lanes of mad. -/
theorem mad_lanes (o : Lanewise) (c : Reg) (r : Record) (hd : aligned o.len o.d = true) :
    r.LanesBecome (madRecord o c r) o.d o.len o.lane fun j z =>
      z = narrow o.sat o.lane.bits (signedOf o.lane.bits (r.lane o.a o.lane j) * signedOf o.lane.bits (r.lane o.b o.lane j) +
        signedOf o.lane.bits (r.lane c o.lane j)) % 2 ^ o.lane.bits := by
  refine (r.lanesBecome o.d o.len o.lane _ hd).mono ?_
  intro j z hj h
  have ha := Record.getD_lanes r o.a o.len o.lane j hj
  have hb := Record.getD_lanes r o.b o.len o.lane j hj
  have hc := Record.getD_lanes r c o.len o.lane j hj
  have la : j < (r.lanes o.a o.len o.lane).length := by rw [Record.length_lanes]; exact hj
  have lb : j < (r.lanes o.b o.len o.lane).length := by rw [Record.length_lanes]; exact hj
  have lc : j < (r.lanes c o.len o.lane).length := by rw [Record.length_lanes]; exact hj
  rw [getD_of_lt _ _ la] at ha
  rw [getD_of_lt _ _ lb] at hb
  rw [getD_of_lt _ _ lc] at hc
  rw [h, getD_of_lt _ _ (by simp only [List.length_zipWith, List.length_zip]; omega), List.getElem_zipWith,
    List.getElem_zip, ha, hb, hc]

end Sys2Proof.Machine
end

