-- ==== Sys2Proof/Laws/Accesses.lean ====
section
/-! SUPPORT. Laws/Accesses.lean: what an access element does with a ready record (R111 to R113, R173, R205), said once for every
access operation. -/

namespace Sys2Proof.Machine

/-- An access element with a ready record traps as its plan says, waits for the scoreboard, for room or for its release, or starts its
access. -/
theorem accessStep_ready {s : State} {l : Launch} {u : UnitState} {r : Record} {i : Instr} (h : s.AccessReady l u r i) (m : MemRef)
    (plan : Plan) (start : Record → DWord → List LaneReq → State → Option State) :
    accessStep i m plan start s =
      match plan l u r with
      | .error (c, d, a) => .next (s.trapHead ((u.port 0).headD r) c d a)
      | .ok (ea, lanes) =>
        let ranges := match rangeKind i with
          | some w => lanes.map (·.range w)
          | none => []
        if s.clashes u s.focus.inst s.focus.x s.focus.y s.focus.unit ranges || !l.roomFor s.focus.x s.focus.y lanes then .next s
        else
          match (if releases i then s.releaseWays s.focus.inst s.focus.x s.focus.y (l.requestScope m i) else (true, s)) with
          | (false, s) => .next s
          | (true, s) =>
            match start r ea lanes s with
            | none => .next s
            | some s => .next (s.noteStep u ((u.port 0).headD r) r) := by
  obtain ⟨here, takes, ⟨r0, rest, head, tok, pass⟩, place, clean⟩ := h
  have hp : ¬ placesOf i ≤ u.busy i := by omega
  have hc : (poisonTraps i && r.ctl.poison) = false := by
    cases hq : poisonTraps i
    · rfl
    · rw [clean hq]; rfl
  unfold accessStep
  simp only [here, head, takes, tok, hp, pass, hc, Bool.not_true, Bool.false_eq_true, if_false, List.headD_cons] <;> rfl

/-- A plan that stops a ready record traps it in its latch (R71). -/
theorem accessStep_traps {s : State} {l : Launch} {u : UnitState} {r : Record} {i : Instr} (h : s.AccessReady l u r i) (m : MemRef)
    {plan : Plan} (start : Record → DWord → List LaneReq → State → Option State) {c : Cause} {d a : DWord}
    (hp : plan l u r = .error (c, d, a)) : accessStep i m plan start s = .next (s.trapHead ((u.port 0).headD r) c d a) := by
  rw [accessStep_ready h, hp]

/-- An access of no lanes that releases nothing starts, or waits, as `start` says. -/
theorem accessStep_starts {s : State} {l : Launch} {u : UnitState} {r : Record} {i : Instr} (h : s.AccessReady l u r i) (m : MemRef)
    {plan : Plan} (start : Record → DWord → List LaneReq → State → Option State) {ea : DWord} (hp : plan l u r = .ok (ea, []))
    (hr : releases i = false) : accessStep i m plan start s =
      .next (((start r ea [] s).map fun t => t.noteStep u ((u.port 0).headD r) r).getD s) := by
  rw [accessStep_ready h, hp]
  have e : (match rangeKind i with | some w => ([] : List LaneReq).map (·.range w) | none => []) = [] := by
    cases rangeKind i <;> rfl
  simp only [e, hr]
  simp only [State.clashes, Launch.roomFor, List.any_nil, Bool.false_or, Bool.false_eq_true, if_false]
  cases start r ea [] s <;> rfl

end Sys2Proof.Machine
end

