-- ==== Sys2Proof/Laws/Memory.lean ====
section
/-! SUPPORT. Laws/Memory.lean: every memory operation keeps memory in canonical form, and what one of them leaves of bytes elsewhere. -/

namespace Sys2Proof.Machine

/-- The canonical form is a matter of memory and its marked places only. -/
theorem State.Canonical.of_eq {s t : State} (h : s.Canonical) (hm : t.mem = s.mem) (he : t.empties = s.empties) (hb : t.bad = s.bad)
    (hp : t.parked = s.parked) (hz : t.sizes = s.sizes) (ht : t.badTags = s.badTags) : t.Canonical := by
  unfold State.Canonical at *; rw [hm, he, hb, hp, hz, ht]; exact h

/-- Reset memory is in canonical form. -/
theorem State.reset_canonical : State.reset.Canonical := ⟨rfl, rfl, rfl, rfl, rfl, rfl⟩

theorem State.Canonical.writeByte {s : State} (h : s.Canonical) (key : Nat) (b : Byte) : (s.writeByte key b).Canonical :=
  ⟨SMap.wf_put key b h.1, h.2⟩

theorem State.Canonical.writeWord {s : State} (h : s.Canonical) (key : Nat) (w : Word) : (s.writeWord key w).Canonical :=
  (((h.writeByte _ _).writeByte _ _).writeByte _ _).writeByte _ _

theorem State.Canonical.writeWords (ws : List Word) : ∀ {s : State}, s.Canonical → ∀ key, (s.writeWords key ws).Canonical := by
  induction ws with
  | nil => exact fun h _ => h
  | cons w ws ih => exact fun h key => ih (h.writeWord key w) _

theorem State.Canonical.setFull (fs : List Bool) : ∀ {s : State}, s.Canonical → ∀ key, (s.setFull key fs).Canonical := by
  induction fs with
  | nil => exact fun h _ => h
  | cons f fs ih =>
    intro s h key
    refine ih (s := { s with empties := NSet.set s.empties (key / 4) (!f) }) ⟨h.1, NSet.wf_set _ _ h.2.1, h.2.2⟩ _

theorem State.Canonical.setBad (bs : List Bool) : ∀ {s : State}, s.Canonical → ∀ key, (s.setBad key bs).Canonical := by
  induction bs with
  | nil => exact fun h _ => h
  | cons b bs ih =>
    intro s h key
    refine ih (s := { s with bad := NSet.set s.bad (key / 4) b }) ⟨h.1, h.2.1, NSet.wf_set _ _ h.2.2.1, h.2.2.2⟩ _

theorem State.Canonical.setParked {s : State} (h : s.Canonical) (key : Nat) (b : Bool) : (s.setParked key b).Canonical :=
  ⟨h.1, h.2.1, h.2.2.1, NSet.wf_set (key / 64) b h.2.2.2.1, h.2.2.2.2⟩

theorem State.Canonical.compress {s : State} (h : s.Canonical) (block : Nat) : (s.compress block).Canonical :=
  ⟨h.1, h.2.1, h.2.2.1, h.2.2.2.1, SMap.wf_put block _ h.2.2.2.2.1, h.2.2.2.2.2⟩

theorem State.Canonical.compressRun {s : State} (h : s.Canonical) (key n : Nat) : (s.compressRun key n).Canonical := by
  unfold State.compressRun
  generalize List.range n = ks
  induction ks generalizing s with
  | nil => exact h
  | cons k ks ih => exact ih (h.compress _)

theorem State.Canonical.mendTag {s : State} (h : s.Canonical) (block : Nat) : (s.mendTag block).Canonical := by
  unfold State.mendTag
  split
  · have w := State.Canonical.setBad (List.replicate 64 true) h (block * 256)
    generalize s.setBad (block * 256) (List.replicate 64 true) = t at w
    exact ⟨w.1, w.2.1, w.2.2.1, w.2.2.2.1, SMap.wf_put block 4 h.2.2.2.2.1, NSet.wf_set block false h.2.2.2.2.2⟩
  · exact h

theorem State.Canonical.writeDword {s : State} (h : s.Canonical) (key : Nat) (v : DWord) : (s.writeDword key v).Canonical :=
  (State.Canonical.writeWords _ (h.mendTag _) key).compress _

/-- Time goes on without a change of memory where no owed write is made. -/
theorem State.Canonical.elapsed {s : State} (h : s.Canonical) (p : s.payAll = s) (n : Nat) : (s.elapsed n).Canonical := by
  obtain ⟨_, e⟩ := State.elapsed_of_paid p n; rw [e]; exact h

/-- A byte at another address is as it was. -/
theorem State.readByte_writeByte_of_ne (s : State) {key k : Nat} (b : Byte) (h : k ≠ key) :
    (s.writeByte key b).readByte k = s.readByte k := SMap.getD_put_of_ne b h

/-- Bytes outside a written word are as they were. -/
theorem State.readByte_writeWord_outside (s : State) {key k : Nat} (w : Word) (h : k < key ∨ key + 4 ≤ k) :
    (s.writeWord key w).readByte k = s.readByte k := by
  unfold State.writeWord
  rw [readByte_writeByte_of_ne _ _ (by omega), readByte_writeByte_of_ne _ _ (by omega), readByte_writeByte_of_ne _ _ (by omega),
    readByte_writeByte_of_ne _ _ (by omega)]

end Sys2Proof.Machine
end

