-- ==== Sys2Proof/Laws/Owed.lean ====
section
/-! SUPPORT. Laws/Owed.lean: where controllers owe memory nothing the passing of time writes nothing. -/

namespace Sys2Proof.Machine

/-- Where no kennel owes a word, nothing is written. -/
theorem State.payKennels_of_none {s : State} (h : ∀ e ∈ s.launches, ∀ l, s.launch? e.1 = some l → l.kennel.owed = []) :
    s.payKennels = s := by
  unfold State.payKennels
  suffices ∀ ls : List (Nat × Launch), (∀ e ∈ ls, ∀ l, s.launch? e.1 = some l → l.kennel.owed = []) →
      ls.foldl (fun (s : State) e => match s.launch? e.1 with
        | some l => if l.kennel.owed.isEmpty then s else s.setKennel e.1 l.kennel
        | none => s) s = s from this s.launches h
  intro ls
  induction ls with
  | nil => intro _; rfl
  | cons e es ih =>
    intro h
    rw [List.foldl_cons]
    have : (match s.launch? e.1 with
        | some l => if l.kennel.owed.isEmpty then s else s.setKennel e.1 l.kennel
        | none => s) = s := by
      split
      · next l hl => rw [h e (List.mem_cons_self ..) l hl]; rfl
      · rfl
    rw [this]
    exact ih fun e' he => h e' (List.mem_cons_of_mem _ he)

/-- Where no run of the pool's table is owed, nothing is written. -/
theorem State.payTable_of_none {s : State} (h : s.tableOwed = []) : s.payTable = s := by
  unfold State.payTable
  rw [h]
  cases s
  simp only at h
  subst h
  rfl

/-- Where nothing is owed, the controllers write nothing: the form in which `elapsed_of_paid` is used. -/
theorem State.payAll_of_none {s : State} (hk : ∀ e ∈ s.launches, ∀ l, s.launch? e.1 = some l → l.kennel.owed = [])
    (ht : s.tableOwed = []) (hd : ∀ d, d < 4 → (s.die d).pendingReports = [] ∧ (s.die d).pendingPosts = []) : s.payAll = s := by
  unfold State.payAll
  rw [State.payKennels_of_none hk, State.payTable_of_none ht]
  have step : ∀ d, d < 4 →
      (s.payReports d (s.die d).pendingReports.length).payPosts d (s.die d).pendingPosts.length = s := by
    intro d h
    rw [(hd d h).1, (hd d h).2]
    rfl
  simp only [show List.range 4 = [0, 1, 2, 3] from rfl, List.foldl_cons, List.foldl_nil]
  rw [step 0 (by decide), step 1 (by decide), step 2 (by decide), step 3 (by decide)]

end Sys2Proof.Machine
end

