-- ==== Sys2Proof/Laws/Peer.lean ====
section
/-! SUPPORT. Laws/Peer.lean: what this part leaves at a peer's home stands there, and a later access of it finds it where no other party has
written (R215). -/

namespace Sys2Proof.Machine

theorem peerKey_inj {part : BitVec 8} {addr i j : Nat} : peerKey part addr i = peerKey part addr j ↔ i = j := by
  unfold peerKey; omega

/-- Words put at a peer leave the words below them as they were. -/
theorem State.peerPut_before (p : PeerReq) (ws : List Word) (s : State) (i k : Nat) (h : k < i) :
    SMap.get? (s.peerPut p i ws).peerMem (peerKey p.part p.addr k) = SMap.get? s.peerMem (peerKey p.part p.addr k) := by
  induction ws generalizing s i with
  | nil => simp only [State.peerPut]
  | cons w ws ih =>
    have hne : peerKey p.part p.addr k ≠ peerKey p.part p.addr i := fun e => absurd (peerKey_inj.mp e) (by omega)
    simp only [State.peerPut]
    rw [ih _ (i + 1) (by omega)]
    exact SMap.get?_insert_of_ne _ _ hne

/-- Words put at a peer stand there. -/
theorem State.peerPut_at (p : PeerReq) (ws : List Word) (s : State) (i k : Nat) (w : Word) (h : ws[k]? = some w) :
    SMap.get? (s.peerPut p i ws).peerMem (peerKey p.part p.addr (i + k)) = some w := by
  induction ws generalizing s i k with
  | nil => cases h
  | cons v ws ih =>
    simp only [State.peerPut]
    cases k with
    | zero =>
      simp only [Nat.add_zero]
      rw [State.peerPut_before p ws _ (i + 1) i (by omega)]
      cases h
      exact SMap.get?_insert_self _ _ _
    | succ k =>
      rw [show i + (k + 1) = i + 1 + k by omega]
      exact ih _ (i + 1) k (by simpa using h)

/-- A word that this part left at a peer is read back where no other party has written it since. -/
theorem State.peerWords_own {s : State} {p : PeerReq} {i : Nat} {w : Word} (h : SMap.get? s.peerMem (peerKey p.part p.addr i) = some w)
    (q : Config.peerWrote p.req.seq i = false) : (s.peerWords p i 1).1 = [w] := by
  simp [State.peerWords, h, q]

end Sys2Proof.Machine
end

