-- ==== Sys2Proof/Tests/Slice0.lean ====
section
/-! SUPPORT. Tests/Slice0.lean: small checks of the definitions against the spec's own examples, ill-formed terms that the checks
refuse, and witnesses that meet the hypotheses of the statements. -/

namespace Sys2Proof.Tests

open Sys2Proof Sys2Proof.Machine

set_option Elab.async false

/-! ### Small states -/

/-- The fields of a unit that hold an operation. -/
def withOp (i : Instr) : UnitState :=
  let w := (encodeOp i).getD 0
  { UnitState.reset with
    fields := ((UnitState.reset.fields.set 0 (w.extractLsb' 0 16)).set 1 (w.extractLsb' 16 16)).set 2 (w.extractLsb' 32 16) }

/-- A unit with a constant k0 to k3. -/
def setK (u : UnitState) (n : Nat) (w : Word) : UnitState :=
  { u with fields := (u.fields.setIfInBounds (4 + 2 * n) (w.extractLsb' 0 16)).setIfInBounds (5 + 2 * n) (w.extractLsb' 16 16) }

/-- A record of block 5 with some words. -/
def rec5 (ws : List Word) : Record :=
  Record.ofWords ws (Rcw.toBits { blk := 5, ret0 := 0, ret1 := 0, bud := 3, eos := false, p := false, poison := false, trapped := false, ord := 9 })

/-- A token. -/
def token : Record := Record.ofWords [] (Rcw.toBits { (rec5 []).ctl with eos := true })

/-- A route of one latch from an output port of a unit of cell (0, 0) to port 0 of another unit of it. -/
def wire (unit port dest : Nat) : Route :=
  { origin := { x := 0, y := 0, unit := unit, port := port }, dest := { x := 0, y := 0, unit := dest, port := 0 }, net := 1, capacity := 1,
    heading := 0, turns := [] }

/-- A region that runs, with some units and routes. -/
def region (us : List (Nat × UnitState)) (routes : List Route) : Launch := { placedLaunch with units := us, routes := routes }

/-- The part with one region, at one of its units. -/
def at_ (l : Launch) (unit : Nat) : State := (State.reset.setLaunch 0 l).focusAt 0 0 0 unit 0 0

/-- Unit 0 with an operation and records in its two latches, its out0 routed to unit 1 and its out1 to unit 2. -/
def element (i : Instr) (in0 in1 : List Record) : Launch :=
  region [(0, { withOp i with ins := (if in0 = [] then [] else [(0, in0)]) ++ if in1 = [] then [] else [(1, in1)] })]
    [wire 0 0 1, wire 0 1 2]

/-- What stands in in0 of a unit after a step. -/
def arrived (unit : Nat) : Host.Outcome State Fault Refusal → Option Record
  | .next s => (s.launch? 0).bind fun l => ((l.unit 0 0 unit).port 0).head?
  | _ => none

/-- The trap last raised in a step, by its cause and DETAIL. -/
def trapped : Host.Outcome State Fault Refusal → Option (Cause × DWord)
  | .next s => (s.launch? 0).bind fun l => l.trapQ.getLast?.map fun t => (t.cause, t.detail)
  | _ => none

/-- The words that an operation sends for a record. -/
def sends (i : Instr) (ws : List Word) : Option (List Word) :=
  (arrived 1 (exec i (at_ (element i [rec5 ws] []) 0))).map Record.all

/-- One word of what it sends. -/
def wordOf (i : Instr) (ws : List Word) (k : Nat) : Option Word := (sends i ws).bind (·[k]?)

def lw (d a b : Reg) : Lanewise := { d := d, a := a, b := b, len := .one, lane := .l32, sat := false }
def lw1 (d a : Reg) : Lanewise1 := { d := d, a := a, len := .one, lane := .l32, sat := false }
def fl (d a b : Reg) : FloatOp := { ty := .f32, d := d, a := a, b := b, c := 0, len := .one, round := .rne, sat := false }
def vo (d a b c : Reg) (len : Len) (lane : Lane) : VecOp := { d := d, a := a, b := b, c := c, len := len, lane := lane }
def mg (space : Space) (size : Size) : MemRef :=
  { shift := 15, a := 0, base := 0, space := space, scope := .region, size := size, hint := .dflt, imm8 := 0 }


/-! ### Results of the element operations: each value is worked by hand from its rule, or is the spec's own example -/

theorem test_nop : sends .nop [7, 8] = some (rec5 [7, 8]).all := by decide +kernel
theorem test_movi : wordOf (.movi 3 0xFFFFE) [] 3 = some 0xFFFFFFFE := by decide +kernel
theorem test_movhi : wordOf (.movhi 3 0xABCDE) [0, 0, 0, 0x12345678] 3 = some 0xABCDE678 := by decide +kernel
theorem test_movk : (arrived 1 (exec (.movk 2 .k1) (at_ (region [(0, { setK (withOp (.movk 2 .k1)) 1 77 with ins := [(0, [rec5 []])] })]
    [wire 0 0 1]) 0))).map (·.w 2) = some 77 := by decide +kernel
/-- The source and the destination overlap: the words are those that arrived. -/
theorem test_mov_reads_first : (sends (.mov 4 0 .four) [1, 2, 3, 4]).map (·.take 8) = some [1, 2, 3, 4, 1, 2, 3, 4] := by decide +kernel
theorem test_sel : wordOf (.sel 2 0 1 .one) [5, 6] 2 = some 6 := by decide +kernel
theorem test_setp_lt : (arrived 1 (exec (.setp .lt 1 (.inl 100)) (at_ (element (.setp .lt 1 (.inl 100)) [rec5 [0, 37]] []) 0))).map (·.ctl.p) =
    some true := by decide +kernel
/-- R77: setp.ltu w1, −1 is true for every w1 except 0xFFFF_FFFF. -/
theorem test_setp_ltu : (arrived 1 (exec (.setp .ltu 1 (.inl 0xFFFFF)) (at_ (element (.setp .ltu 1 (.inl 0xFFFFF))
    [rec5 [0, 0xFFFFFFFF]] []) 0))).map (·.ctl.p) = some false := by decide +kernel
theorem test_clrp : (arrived 1 (exec .clrp (at_ (element .clrp [(rec5 []).setCtl { (rec5 []).ctl with p := true }] []) 0))).map (·.ctl.p) =
    some false := by decide +kernel
theorem test_setbud_zero : (arrived 1 (exec (.setbud 0) (at_ (element (.setbud 0) [rec5 []] []) 0))).map (·.ctl.bud) = some 15 := by decide +kernel
theorem test_getrcw : (sends (.getrcw 2) []).map (·.take 4) = some [0, 0, 9, 0x05000030] := by decide +kernel
theorem test_setord : (arrived 1 (exec (.setord 1) (at_ (element (.setord 1) [rec5 [0, 44]] []) 0))).map (·.ctl.ord) = some 44 := by
  decide +kernel
theorem test_eos : (arrived 1 (exec .eos (at_ (element .eos [rec5 []] []) 0))).map (·.isToken) = some true := by decide +kernel
theorem test_token_passes : (arrived 1 (exec (.movi 0 5) (at_ (element (.movi 0 5) [token] []) 0))) = some token := by decide +kernel
/-- R81's call trace: a record of block 0x05 calls 0x14 and returns to 0x06. -/
theorem test_call : (arrived 1 (exec (.call 6) (at_ (region [(0, { setK (withOp (.call 6)) 0 0x14 with ins := [(0, [rec5 []])] })]
    [wire 0 0 1]) 0))).map (fun r => (r.ctl.blk, r.ctl.ret0, r.ctl.ret1)) = some (0x14, 6, 0) := by decide +kernel
theorem test_ret_empty : trapped (exec .ret (at_ (element .ret [rec5 []] []) 0)) = some (.retEmpty, 0) := by decide +kernel
theorem test_retTrap_untrapped : trapped (exec .retTrap (at_ (element .retTrap [rec5 []] []) 0)) = some (.retEmpty, 1) := by decide +kernel
theorem test_trap : trapped (exec (.trap 3) (at_ (element (.trap 3) [rec5 []] []) 0)) = some (.trapop, 3) := by decide +kernel
theorem test_brk : trapped (exec (.brk 3) (at_ (element (.brk 3) [rec5 []] []) 0)) = some (.brk, 0x100003) := by decide +kernel
/-- The emit of R79's example, whose P is 1: route 0, block 6. -/
theorem test_emit_pred : (arrived 1 (exec (.emit 3 (.pred 6 9)) (at_ (region [(0, { setK (withOp (.emit 3 (.pred 6 9))) 0 0x0906 with
    ins := [(0, [(rec5 []).setCtl { (rec5 []).ctl with p := true }])] })] [wire 0 0 1, wire 0 0 2]) 0))).map (·.ctl.blk) = some 6 := by
  decide +kernel
theorem test_emit_no_route : trapped (exec (.emit 1 (.target 7)) (at_ (region [(0, { setK (withOp (.emit 1 (.target 7))) 0 0x0006 with
    ins := [(0, [rec5 []])] })] [wire 0 0 1]) 0)) = some (.illegal, 0x10701) := by decide +kernel
theorem test_fork : (arrived 2 (exec (.fork 8) (at_ (element (.fork 8) [rec5 [3]] []) 0))).map (fun r => (r.ctl.blk, r.at 0)) = some (8, 3) := by
  decide +kernel
theorem test_split : (arrived 2 (exec (.split 1 0 .one) (at_ (element (.split 1 0 .one) [rec5 [3, 4]] []) 0))).map (fun r => (r.at 0, r.at 1)) =
    some (0, 3) := by decide +kernel
theorem test_zip : (arrived 1 (exec (.zip 2 0 .one) (at_ (element (.zip 2 0 .one) [rec5 [3, 4]] [rec5 [9]]) 0))).map (fun r => (r.at 0, r.at 2)) =
    some (3, 9) := by decide +kernel
theorem test_zip_token : trapped (exec (.zip 2 0 .one) (at_ (element (.zip 2 0 .one) [rec5 []] [token]) 0)) = some (.illegal, 0x202) := by
  decide +kernel
theorem test_retire : arrived 1 (exec .retire (at_ (element .retire [rec5 [1]] []) 0)) = some (rec5 [1]) := by decide +kernel
/-- The counts that a step leaves. -/
def dropsAfter : Host.Outcome State Fault Refusal → Option DWord
  | .next s => (s.launch? 0).map (·.drops)
  | _ => none
theorem test_drop : dropsAfter (exec .drop (at_ (element .drop [rec5 []] []) 0)) = some 1 := by decide +kernel
/-- The accumulator that a step leaves. -/
def accAfter : Host.Outcome State Fault Refusal → Option Word
  | .next s => (s.launch? 0).map fun l => (l.unit 0 0 0).acc
  | _ => none
/-- Unit 0 with an accumulator and a record. -/
def withAcc (i : Instr) (acc : Word) (r : Record) : State :=
  at_ (region [(0, { withOp i with acc := acc, ins := [(0, [r])] })] [wire 0 0 1]) 0
theorem test_acc_min : accAfter (exec (.acc .min 0 .rne) (withAcc (.acc .min 0 .rne) 3 (rec5 [0xFFFFFFFF]))) = some 0xFFFFFFFF := by decide +kernel
theorem test_acc_fadd : accAfter (exec (.acc .fadd 0 .rne) (withAcc (.acc .fadd 0 .rne) 0x3F800000 (rec5 [0x40000000]))) = some 0x40400000 := by
  decide +kernel
theorem test_accget_token : (arrived 1 (exec (.accget 3 true) (withAcc (.accget 3 true) 21 token))).map (·.at 3) = some 21 := by decide +kernel
theorem test_accget_clr : accAfter (exec (.accget 3 true) (withAcc (.accget 3 true) 21 (rec5 []))) = some 0 := by decide +kernel
theorem test_rdid_space : (arrived 1 (exec (.rdid 3 .rcell) (at_ (element (.rdid 3 .rcell) [rec5 [1, 1, 1, 1]] []) 0))).map (·.at 3) = some 0 := by
  decide +kernel
theorem test_yield_alone : arrived 1 (exec .yield (at_ (element .yield [rec5 [6]] []) 0)) = some (rec5 [6]) := by decide +kernel
theorem test_chk : trapped (exec (.chk 1 8 false) (at_ (element (.chk 1 8 false) [rec5 [0, 0xFFFFFFFF, 0, 0, 0, 0, 0, 0, 128]] []) 0)) =
    some (.bound, 0x00000080FFFFFFFF) := by decide +kernel

theorem test_add_wraps : wordOf (.add (lw 2 0 1)) [0xFFFFFFFF, 2] 2 = some 1 := by decide +kernel
theorem test_add_saturates_lanes : wordOf (.add { lw 2 0 1 with lane := .l8, sat := true }) [0x7F80FF01, 0x01FF0101] 2 = some 0x7F800002 := by
  decide +kernel
theorem test_sub : wordOf (.sub (lw 2 0 1)) [1, 2] 2 = some 0xFFFFFFFF := by decide +kernel
theorem test_addi : wordOf (.addi { d := 2, a := 0, imm := 0xFFFFF }) [5] 2 = some 4 := by decide +kernel
theorem test_mul_saturates : wordOf (.mul { lw 2 0 1 with sat := true }) [0x00010000, 0x00010000] 2 = some 0x7FFFFFFF := by decide +kernel
theorem test_mulh : wordOf (.mulh (lw 2 0 1) false) [0xFFFFFFFF, 2] 2 = some 0xFFFFFFFF := by decide +kernel
theorem test_mulh_u : wordOf (.mulh (lw 2 0 1) true) [0xFFFFFFFF, 2] 2 = some 1 := by decide +kernel
theorem test_mad : wordOf (.mad (lw 3 0 1) 2) [3, 4, 5] 3 = some 17 := by decide +kernel
theorem test_and : wordOf (.and (lw 2 0 1)) [0xF0F0, 0x3C3C] 2 = some 0x3030 := by decide +kernel
theorem test_or : wordOf (.or (lw 2 0 1)) [0xF0F0, 0x0C0C] 2 = some 0xFCFC := by decide +kernel
theorem test_xor : wordOf (.xor (lw 2 0 1)) [0xF0F0, 0x3C3C] 2 = some 0xCCCC := by decide +kernel
/-- R99: andi w3, w0, −8 clears the low three bits. -/
theorem test_andi : wordOf (.andi { d := 3, a := 0, imm := 0xFFFF8 }) [0x12345677] 3 = some 0x12345670 := by decide +kernel
theorem test_ori : wordOf (.ori { d := 3, a := 0, imm := 0x80000 }) [1] 3 = some 0xFFF80001 := by decide +kernel
theorem test_xori : wordOf (.xori { d := 3, a := 0, imm := 0xFFFFF }) [0] 3 = some 0xFFFFFFFF := by decide +kernel
theorem test_shl_mod : wordOf (.shl (lw 2 0 1)) [1, 33] 2 = some 2 := by decide +kernel
theorem test_shr : wordOf (.shr (lw 2 0 1)) [0x80000000, 31] 2 = some 1 := by decide +kernel
theorem test_sar : wordOf (.sar (lw 2 0 1)) [0x80000000, 31] 2 = some 0xFFFFFFFF := by decide +kernel
theorem test_shli : wordOf (.shli { d := 2, a := 0, n := 4 }) [0xF0000001] 2 = some 0x10 := by decide +kernel
theorem test_shri : wordOf (.shri { d := 2, a := 0, n := 4 }) [0xF0000001] 2 = some 0x0F000000 := by decide +kernel
theorem test_sari : wordOf (.sari { d := 2, a := 0, n := 4 }) [0xF0000001] 2 = some 0xFF000000 := by decide +kernel
theorem test_rot_bytes : wordOf (.rot { lw 2 0 1 with lane := .l8 }) [0x80018001, 0x01010101] 2 = some 0x01020102 := by decide +kernel
theorem test_clz : wordOf (.clz (lw1 2 0)) [0x00010000] 2 = some 15 := by decide +kernel
theorem test_ctz_zero : wordOf (.ctz (lw1 2 0)) [0] 2 = some 32 := by decide +kernel
theorem test_popc : wordOf (.popc (lw1 2 0)) [0xF000000F] 2 = some 8 := by decide +kernel
theorem test_min : wordOf (.min (lw 2 0 1) false) [0xFFFFFFFF, 1] 2 = some 0xFFFFFFFF := by decide +kernel
theorem test_max_u : wordOf (.max (lw 2 0 1) true) [0xFFFFFFFF, 1] 2 = some 0xFFFFFFFF := by decide +kernel
theorem test_abs_least : wordOf (.abs (lw1 2 0)) [0x80000000] 2 = some 0x80000000 := by decide +kernel
theorem test_abs_saturates : wordOf (.abs { lw1 2 0 with sat := true }) [0x80000000] 2 = some 0x7FFFFFFF := by decide +kernel
theorem test_bfx_s : wordOf (.bfx { d := 2, a := 0, lsb := 4, widthM1 := 3 } true) [0x000000F0] 2 = some 0xFFFFFFFF := by decide +kernel
theorem test_bfi : wordOf (.bfi { d := 2, a := 0, lsb := 8, widthM1 := 7 }) [0xAB, 0, 0x11223344] 2 = some 0x1122AB44 := by decide +kernel
/-- CRC32C of four zero bytes is 0x48674BC7, which the step leaves inverted (R101). -/
theorem test_hash_crc : wordOf (.hash { d := 2, a := 0, b := 1 } false) [0xFFFFFFFF, 0] 2 = some 0xB798B438 := by decide +kernel
/-- R101: hash.mix maps 0 to 0. -/
theorem test_hash_mix : wordOf (.hash { d := 2, a := 0, b := 1 } true) [5, 5, 9] 2 = some 0 := by decide +kernel
theorem test_lea : wordOf (.lea { d := 2, a := 0, b := 1 } 3) [100, 5] 2 = some 140 := by decide +kernel
theorem test_add64_carries : (sends (.add64 { d := 4, a := 0, b := 2 }) [0xFFFFFFFF, 0, 1, 0]).map (·.drop 4 |>.take 2) = some [0, 1] := by
  decide +kernel
theorem test_sub64 : (sends (.sub64 { d := 4, a := 0, b := 2 }) [0, 0, 1, 0]).map (·.drop 4 |>.take 2) = some [0xFFFFFFFF, 0xFFFFFFFF] := by
  decide +kernel
theorem test_shl64 : (sends (.shl64 { d := 4, a := 0, b := 2 }) [1, 0, 33]).map (·.drop 4 |>.take 2) = some [0, 2] := by decide +kernel

theorem test_fadd : wordOf (.fadd (fl 2 0 1)) [0x3F800000, 0x40000000] 2 = some 0x40400000 := by decide +kernel
/-- −0 + +0 is +0 under RNE (R268). -/
theorem test_fsub_zero : wordOf (.fsub (fl 2 0 1)) [0x80000000, 0x80000000] 2 = some 0 := by decide +kernel
theorem test_fmul_subnormal : wordOf (.fmul (fl 2 0 1)) [0x00800000, 0x3F000000] 2 = some 0x00400000 := by decide +kernel
theorem test_ffma_once : wordOf (.ffma { fl 3 0 1 with c := 2 }) [0x3F800001, 0x3F800001, 0xBF800002] 3 = some 0x28800000 := by decide +kernel
theorem test_fmin_nan : wordOf (.fmin (fl 2 0 1)) [0x7FC00001, 0x3F800000] 2 = some 0x3F800000 := by decide +kernel
theorem test_fmax_zero : wordOf (.fmax (fl 2 0 1)) [0x80000000, 0] 2 = some 0 := by decide +kernel
theorem test_fsgn_neg : wordOf (.fsgn (fl 2 0 0) .neg) [0x7FC12345] 2 = some 0xFFC12345 := by decide +kernel
theorem test_fcmp_zero : wordOf (.fcmp (fl 2 0 1) .eq) [0, 0x80000000] 2 = some 0xFFFFFFFF := by decide +kernel
/-- R250's example: four lanes of 1.75 · 2⁻⁷ above 1.0 under stochastic rounding from SEED 1. -/
theorem test_fcvt_stochastic : (sends (.fcvt 4 0 .bf16 .fp32 .four .stochastic false) [0x3F80C000, 0x3F80C000, 0x3F80C000, 0x3F80C000]).map
    (·.drop 4 |>.take 2) = some [0x3F813F81, 0x3F803F80] := by decide +kernel
/-- R252: 464 into E4M3 under RNE is 0x7E, and 465 without sat is 0x7F. -/
theorem test_fcvt_e4m3 : (sends (.fcvt 4 0 .e4m3 .fp32 .four .rne false) [0x43E80000, 0x43E88000, 0, 0]).map (·.drop 4 |>.take 1) =
    some [0x00007F7E] := by decide +kernel
theorem test_frcp : wordOf (.frcp (fl 2 0 0)) [0x40400000] 2 = some 0x3EAAAAAB := by decide +kernel
theorem test_fsqrt : wordOf (.fsqrt (fl 2 0 0)) [0x40000000] 2 = some 0x3FB504F3 := by decide +kernel
theorem test_frsq_power : wordOf (.frsq (fl 2 0 0)) [0x40800000] 2 = some 0x3F000000 := by decide +kernel
theorem test_fexp2_integral : wordOf (.fexp2 (fl 2 0 0)) [0x40400000] 2 = some 0x41000000 := by decide +kernel
theorem test_flog2_power : wordOf (.flog2 (fl 2 0 0)) [0x41000000] 2 = some 0x40400000 := by decide +kernel
theorem test_fsin_zero : wordOf (.fsin (fl 2 0 0)) [0x80000000] 2 = some 0x80000000 := by decide +kernel
theorem test_fcos_zero : wordOf (.fcos (fl 2 0 0)) [0x80000000] 2 = some 0x3F800000 := by decide +kernel
/-- R276: −0.3 under RTZ gives −0. -/
theorem test_fint : wordOf (.fint { fl 2 0 0 with round := .rtz }) [0xBE99999A] 2 = some 0x80000000 := by decide +kernel
theorem test_f2i_nan : wordOf (.f2i (fl 2 0 0)) [0x7FC00000] 2 = some 0x80000000 := by decide +kernel
theorem test_i2f : wordOf (.i2f (fl 2 0 0)) [0xFFFFFFFF] 2 = some 0xBF800000 := by decide +kernel
theorem test_fscale : wordOf (.fscale (fl 2 0 1)) [0x3F800000, 0xFFFFFFFF] 2 = some 0x3F000000 := by decide +kernel
theorem test_fclass : wordOf (.fclass (fl 2 0 0)) [0x80000001] 2 = some 4 := by decide +kernel

/-- R261's example: the tree of four lanes gives 1. -/
theorem test_vred_fadd : wordOf (.vred (.fadd .f32 .rne) (vo 0 4 0 0 .four .l32)) [0, 0, 0, 0, 0x4B800000, 0x3F800000, 0x3F800000, 0xCB800000] 0 =
    some 0x3F800000 := by decide +kernel
/-- R261's example: the four prefixes. -/
theorem test_vscan_fadd : (sends (.vscan (.fadd .f32 .rne) (vo 0 4 0 0 .four .l32))
    [0, 0, 0, 0, 0x4B800000, 0x3F800000, 0x3F800000, 0xCB800000]).map (·.take 4) =
    some [0x4B800000, 0x4B800000, 0x4B800001, 0x3F800000] := by decide +kernel
theorem test_vbcast : (sends (.vbcast (vo 4 0 0 0 .four .l16)) [0x00010002]).map (·.drop 4 |>.take 4) =
    some [0x00020002, 0x00020002, 0x00020002, 0x00020002] := by decide +kernel
theorem test_vshuf_rev : (sends (.vshuf .rev (vo 4 0 0 0 .four .l32)) [1, 2, 3, 4]).map (·.drop 4 |>.take 4) = some [4, 3, 2, 1] := by decide +kernel
theorem test_vsel : (sends (.vsel (vo 0 4 8 12 .four .l32)) [0, 0, 0, 0, 1, 1, 1, 1, 2, 2, 2, 2, 0, 9, 0, 9]).map (·.take 4) = some [2, 1, 2, 1] := by
  decide +kernel
theorem test_vdot_s8 : wordOf (.vdot .s8 (vo 8 0 4 0 .four .l8) .rne) [0x000000FF, 0, 0, 0, 0x00000002] 8 = some 0xFFFFFFFE := by decide +kernel
theorem test_vpack_s4 : (sends (.vpack .s4 0 0 .rne true) (List.replicate 8 100 ++ List.replicate 8 0xFFFFFF00)).map (·.take 3) =
    some [0x77777777, 0x88888888, 100] := by decide +kernel
theorem test_vunpack_n4 : (sends (.vunpack .n4 0 0) [0x0000000F]).map (·.take 2) = some [15, 0] := by decide +kernel
theorem test_vunpack_reserved : trapped (exec (.vunpack .t2 0 0) (at_ (element (.vunpack .t2 0 0) [rec5 [0x80]] []) 0)) =
    some (.format, 0x367) := by decide +kernel
theorem test_vamax : wordOf (.vamax .f32 (vo 4 0 0 0 .four .l32)) [0x3F800000, 0xC0400000, 0, 0] 4 = some 0x40400000 := by decide +kernel
/-- R283's example: 5.0, −2.6, 0.3 and −0.2 in E2M1. -/
theorem test_vquant : (sends (.vquant .e2m1 0 0 4 .rne true) [0x40A00000, 0xC0266666, 0x3E99999A, 0xBE4CCCCD]).map
    (fun ws => (ws.getD 0 0, ws.getD 1 0, ws.getD 4 0)) = some (0x000081D6, 0, 0x7F) := by decide +kernel
/-- R284's example: an E4M3 element 0x7E with X = 0xFE decodes to +∞. -/
theorem test_vmxd : wordOf (.vmxd .e4m3 0 0 false) (0x7E :: List.replicate 14 0 ++ [0xFE]) 0 = some 0x7F800000 := by decide +kernel


/-! ### Worked examples of the spec beyond the elements -/

/-- Cell (77, 41) lies on die 3, in page (9, 5) and at page-local index 13. -/
theorem test_places : cellDie 77 41 = 3 ∧ pageDie 9 5 = 3 ∧ localCell 77 41 = 13 := by decide +kernel
/-- R154's example: 11 hops east, a left turn, 3 hops: a latency of 4. -/
theorem test_route_latency : (pathOf 128 64 0 10 1 (List.replicate 11 0 ++ [1, 0, 0, 3, 0, 2, 0])).map (·.length) = some 4 := by decide +kernel
/-- The worked address of "Instructions: memory": b3 + 5 × 4 + 8. -/
theorem test_effective_address :
    effectiveAddr { placedLaunch with bases := (Vector.replicate 16 0).set 3 0x0004000000100000 }
      { shift := 2, a := 2, base := 3, space := .global, scope := .dev, size := .word, hint := .dflt, imm8 := 2 } 5 = 0x000400000010001C := by
  decide +kernel
/-- R322's example: the line at 0x60_1280 has home slice 23 under the live map and 17 under the staged one. -/
theorem test_home_slice :
    localHome 0x1111110000002222 ((Vector.replicate 8 0).set 2 0x90800000000000FF) 0x601280 = 23 ∧
    localHome 0x1111110000003332 ((Vector.replicate 8 0).set 2 0x90600000000000FF) 0x601280 = 17 := by decide +kernel
/-- R339's example leaf: frame 0x1_0002, W and V set, COW clear. -/
theorem test_leaf : leafFrame 0x0000000100020263 = 0x10002 ∧ pteV 0x0000000100020263 = true ∧ pteW 0x0000000100020263 = true ∧
    pteCow 0x0000000100020263 = false ∧ pteOk 0 0x0000000100020263 = true := by decide +kernel
/-- R302's example: group sums 1, 1, +0 and +0 onto 2²⁴ leave 2²⁴. -/
theorem test_groups_onto : accumulateF .e4m3 id 0x4B800000 ((0x38 :: List.replicate 31 0) ++ (0x38 :: List.replicate 95 0))
    (List.replicate 128 0x38) = 0x4B800000 := by decide +kernel

/-- A granule of a slice: words full, none counted. -/
def plainView : View :=
  { words := List.replicate 16 7, full := List.replicate 16 true, bad := List.replicate 16 false, counted := none, rowGen := 0, rowMask := false, dropped := [],
    tile := false, normal := true, room := true, xbank := none }
/-- A granule filled with 0x207: count 2, generation 7. -/
def countedView : View := { plainView with counted := some { words := List.replicate 16 5, readers := 2, maskMode := false, gen := 7 } }

/-- What a request returns, and the readers left. -/
def outcome : Perf → Option (Reply × Option (BitVec 12))
  | .done v r _ _ _ _ => some (r, v.counted.map (·.readers))
  | _ => none
/-- A request waits. -/
def waits : Perf → Bool
  | .wait => true
  | _ => false
/-- A request traps a cause. -/
def trapsCause : Perf → Option Cause
  | .trap c _ => some c
  | _ => none

/-- R120's example, row by row: the fill, X's read, Y's wait, Z's read, and OVERREAD of a generation in the history. -/
theorem test_stvN_fills : (outcome (plainView.perform 0 (.fill 0x207 (List.replicate 16 5)))).map (·.2) = some (some 2) := by decide +kernel
theorem test_ldvN_reads : (outcome (countedView.perform 0 (.count 7))).map (·.2) = some (some 1) := by decide +kernel
theorem test_ldvN_waits : waits (countedView.perform 0 (.count 8)) = true := by decide +kernel
theorem test_ldvN_overread : trapsCause ({ plainView with dropped := [(7, false)] }.perform 0 (.count 7)) = some .overread := by decide +kernel
theorem test_dropN : (outcome (countedView.perform 0 (.done 7))).map (·.2) = some (some 1) := by decide +kernel
theorem test_ld_c_waits_when_empty : waits ({ plainView with full := List.replicate 16 false }.perform 3 (.load .c 1)) = true := by decide +kernel
theorem test_st_f_waits_when_full : waits (plainView.perform 3 (.store .f [1])) = true := by decide +kernel
theorem test_atomIncw_wraps : (match ({ plainView with words := List.replicate 16 9 }).perform 2 (.atom 0x8C false 9 .relaxed) with
    | .done v _ _ _ _ _ => v.words[2]? | _ => none) = some 0 := by decide +kernel
theorem test_cas_fails : (match plainView.perform 2 (.cas false 8 1 .relaxed) with
    | .done v r _ _ _ _ => some (v.words[2]?, r) | _ => none) = some (some 7, .ok [7] [] false false) := by decide +kernel
theorem test_feSet : (match plainView.perform 2 (.feSet false 1) with | .done v _ _ _ _ _ => v.full[2]? | _ => none) = some false := by decide +kernel

/-! ### Ill-formed terms: each check refuses one -/

theorem test_wf_record_control : [Instr.mov 1 0 .four, .mov 0 2 .four, .setb 0 1, .call 0, .emit 0 .keep, .sel 1 0 0 .four, .sel 0 1 0 .four,
    .sel 0 0 1 .four, .getrcw 15, .rdclk 3, .launch (mg .ownTile .vector), .launch (mg .global .word), .zip 1 0 .four, .zip 0 2 .four,
    .split 1 0 .four, .split 0 2 .four, .acc .add 0 .rtz, .cnt 0, .cfg 1 0 (mg .global .word), .cfg 0 0 (mg .global .vector),
    .cfg 0 0 (mg .ownTile .word)].any Instr.wf = false := by decide +kernel
theorem test_wf_integer : [Instr.add { lw 1 0 0 with len := .four }, .add { lw 0 1 0 with len := .four }, .add { lw 0 0 1 with len := .four },
    .mad { lw 0 0 0 with len := .four } 1, .and { lw 0 0 0 with sat := true }, .mulh { lw 0 0 0 with sat := true } true,
    .min { lw 0 0 0 with sat := true } false, .clz { lw1 0 0 with sat := true }, .abs { lw1 1 0 with len := .eight },
    .abs { lw1 0 1 with len := .eight }, .bfx { d := 0, a := 0, lsb := 1, widthM1 := 31 } false, .bfi { d := 0, a := 0, lsb := 31, widthM1 := 1 },
    .add64 { d := 1, a := 0, b := 0 }, .sub64 { d := 0, a := 1, b := 0 }, .add64 { d := 0, a := 0, b := 1 }, .shl64 { d := 1, a := 0, b := 0 },
    .shl64 { d := 0, a := 3, b := 0 }].any Instr.wf = false := by decide +kernel
theorem test_wf_floating : [Instr.fadd { fl 0 0 0 with c := 1 }, .fadd { fl 0 0 0 with sat := true }, .fmin { fl 0 0 0 with round := .rtz },
    .frcp (fl 0 0 1), .ffma { fl 0 0 0 with len := .four, c := 2 }, .fscale { fl 0 0 1 with len := .four }, .f2i { fl 1 0 0 with ty := .f16 },
    .fcmp { fl 1 0 0 with len := .four } .eq, .fsgn { fl 0 1 0 with len := .four } .copy, .fcvt 0 0 .fp32 .fp32 .one .rne false,
    .fcvt 0 0 .s8 .fp32 .one .rne false, .fcvt 0 0 .fp32 .s8 .one .rne false, .fcvt 4 0 .fp32 .e4m3 .four .rne false,
    .fcvt 0 1 .e4m3 .fp32 .four .rne false].any Instr.wf = false := by decide +kernel
theorem test_wf_vector : [Instr.vred .add (vo 0 0 0 0 .one .l32), .vred (.fmin .f16) (vo 0 0 0 0 .four .l32), .vred .add (vo 0 1 0 0 .four .l32),
    .vred .add (vo 0 0 1 0 .four .l32), .vred .add (vo 0 0 0 1 .four .l32), .vscan .add (vo 1 0 0 0 .four .l32), .vbcast (vo 1 0 0 0 .four .l32),
    .vshuf .rev (vo 0 0 4 0 .four .l32), .vshuf .lo (vo 0 0 1 0 .four .l32), .vsel (vo 0 0 0 1 .four .l32), .vdot .s8 (vo 0 0 0 0 .four .l32) .rne,
    .vdot .s4 (vo 0 0 0 0 .four .l8) .rne, .vdot .s8 (vo 0 0 0 0 .four .l8) .rtz, .vpack .fp32 0 0 .rne false, .vpack .e4m3 2 0 .rne false,
    .vpack .e4m3 0 1 .rne false, .vunpack .e4m3 1 0, .vunpack .e8m0 0 0, .vamax .f32 (vo 0 0 0 0 .four .l16), .vquant .fp16 0 0 8 .rne false,
    .vquant .e4m3 0 0 3 .rne false, .vmxd .fp16 0 0 false, .vmxd .e4m3 1 0 false].any Instr.wf = false := by decide +kernel
theorem test_wf_matrix : [Instr.mtcfg 0 0xFFFFF, .mtcfg 0 0x0FFFF, .tload 12 false 1 0, .tload 0 false 0 0, .mma { fmt := .e8m0, d := 0, a := 0, b := 1 },
    .mma { fmt := .e4m3, d := 0, a := 1, b := 1 }, .msca { fmt := .fp16, d := 0, a := 0, b := 1 } 0 0, .mdrain 0 .e3m2].any Instr.wf = false := by
  decide +kernel
theorem test_wf_memory : [Instr.ld 0 .plain { mg .ownTile .word with shift := 1 }, .ld 0 .plain { mg .ownTile .word with a := 1 },
    .ld 0 .plain { mg .ownTile .word with base := 1 }, .ld 0 .plain { mg .global .word with shift := 8 }, .ld 0 .f (mg .global .word),
    .ld 0 .plain (mg .global .vector), .ld 1 .plain (mg .global .pair), .st 0 .w (mg .global .word), .ldv 0 .plain (mg .global .word),
    .ldv 1 .plain (mg .global .vector), .ldvN 0 0 (mg .peer .vector), .ldvN 1 0 (mg .global .vector), .stvN 1 0 (mg .global .vector),
    .stv 0 .c (mg .global .vector), .atomIncw 0 0 .relaxed (mg .global .pair), .atomAdd 0 15 .relaxed (mg .global .pair),
    .atomAdd 1 0 .relaxed (mg .global .pair), .cas 0 15 .relaxed (mg .global .word), .cas 0 13 .relaxed (mg .global .pair),
    .feSet true (mg .peer .word), .feGet 0 { mg .global .word with scope := .dev }, .dropN 0 (mg .global .word), .pref (mg .ownTile .word),
    .fence .relaxed .dev, .gather .c (mg .global .vector), .gather .plain (mg .ownTile .vector),
    .gather .plain { mg .global .vector with a := 1, shift := 0 }, .scatter .w (mg .global .vector), .src .f (mg .global .word),
    .src .plain { mg .global .word with shift := 0 }, .sink .c (mg .global .word), .sink .plain (mg .peer .word), .copy (mg .global .word),
    .binApp (mg .ownTile .vector), .binRpl (mg .global .half), .pageMap (mg .peer .vector), .pageUnmap (mg .global .word),
    .pageShare (mg .global .word), .pageProt (mg .ownTile .vector), .spaceRetire (mg .global .word), .tlbInv (mg .global .word),
    .faultResume (mg .global .pair), .faultFail (mg .global .word)].any Instr.wf = false := by decide +kernel
/-- R55: the operations that list no hint take none but 0. -/
theorem test_wf_hints : (let ops := fun (h : Hint) =>
      let m : MemRef := { mg .global .vector with hint := h }
      [Instr.gather .plain { m with shift := 0 }, .scatter .plain { m with shift := 0 }, .feSet true m, .dropN 0 m, .sink .plain m, .copy m,
       .binApp m, .binRpl m, .pageMap m, .spaceRetire m, .tlbInv m, .launch m]
    (ops .dflt).all Instr.wf && !(ops .stream).any Instr.wf) = true := by decide +kernel

/-- A node with an argument. -/
def node (arg : DWord) : Node := { scope := .region, join := false, iter := 0, val := 0, next := 0, alt := 0, arg := arg }
theorem test_wf_routers_and_nodes : [Instr.carry 2, .walkRun (node 32), .walkRun { node 64 with iter := 1 }, .walkWait (node 2),
    .walkWait { node 4 with join := true }, .walkWait { node 4 with val := 1 }, .walkWait { node 4 with alt := 32 },
    .walkCond { node 4 with iter := 1 }, .walkLoop (node 4), .walkLoop { node 4 with alt := 32, val := 0x100000 },
    .walkSignal (node 0xFFF0000000000000), .walkEnd (node 4)].any Instr.wf = false := by decide +kernel

/-! ### Encodings, written out field by field from their layouts -/

/-- R23: add.x16.l8.sat w0, w0, w0, with tail c, len 11, lane 10, round 000, sa 1. -/
theorem test_decode_integer : decodeTableWord 48 0b001000000000000000000000000011100001000000000000 =
    some (.add { d := 0, a := 0, b := 0, len := .sixteen, lane := .l8, sat := true }) := by decide +kernel
/-- R22 to R26: opcode, v, d, a, b and tail of words of the other families. -/
theorem test_decode_control : decodeTableWord 48 0b000011100000000000010000000000000000011001000010 = some (.setp .lt 1 (.inl 100)) := by
  decide +kernel
theorem test_decode_floating : decodeTableWord 48 0b010000110000100000000100110001000010000000000000 =
    some (.ffma { ty := .f32, d := 8, a := 0, b := 4, c := 12, len := .four, round := .rtz, sat := false }) := by decide +kernel
theorem test_decode_vector : decodeTableWord 48 0b011000001000000001000000000001000000000000000000 =
    some (.vred (.fadd .f32 .rne) (vo 0 4 0 0 .four .l32)) := by decide +kernel
theorem test_decode_matrix : decodeTableWord 48 0b011101000100000100000100000000000000000001100000 =
    some (.msca { fmt := .e4m3, d := 1, a := 0, b := 4 } 2 1) := by decide +kernel
theorem test_decode_memory : decodeTableWord 48 0b100001000010010000100101001110010011000000000010 =
    some (.atomAdd 4 5 .rel { shift := 2, a := 2, base := 3, space := .global, scope := .dev, size := .word, hint := .dflt, imm8 := 2 }) := by
  decide +kernel
theorem test_decode_engines : decodeTableWord 48 0b100111010110000011000000111010000001110000000001 =
    some (.copy { shift := 6, a := 12, base := 14, space := .global, scope := .region, size := .vector, hint := .dflt, imm8 := 1 }) := by
  decide +kernel
theorem test_decode_pages : decodeTableWord 48 0b101100100000000001100000000010000001110000000000 =
    some (.pageShare { shift := 0, a := 6, base := 0, space := .global, scope := .region, size := .vector, hint := .dflt, imm8 := 0 }) := by
  decide +kernel
/-- R65, R67: what is refused, and the bit that offends: a reserved opcode, a sub-operation, a reserved lane, a misaligned destination. -/
theorem test_decode_refuses : [0xFF0000000000, 0x0E001000000B, 0x200000030000, 0x200100040000].map
    (fun w => match decodeOp w with | .ok _ => none | .error bit => some bit) = [some 47, some 3, some 17, some 35] := by decide +kernel
/-- R29: an empty slot is no operator, and a carry of 2 records is refused. -/
theorem test_decode_slots : decodeSlot 0 = none ∧ decodeSlot 0x00026000 = none ∧ decodeSlot 0x00012000 = some (.steer true) ∧
    decodeSlot 0x00004000 = some .merge := by decide +kernel
/-- R15 to R18: kind 11, a reserved control operation and a begin with a low bit are refused. -/
theorem test_decode_commands : decodeCommand 0xC0000000 = none ∧ decodeCommand 0x94000000 = none ∧ decodeCommand 0x84000001 = none ∧
    decodeCommand 0x8C123456 = some (.checksum 0x123456) ∧ decodeCommand 0x60000003 = some (.routeContinuation 3) := by decide +kernel
/-- R37: a wait node at scope dev with ARG 64, and a kind that does not exist. -/
theorem test_decode_nodes : decodeNode (BitVec.ofNat 256 (2 ^ 198 + 2 * 2 ^ 24 + 3 * 2 ^ 21)) = some (.walkWait { node 64 with scope := .dev }) ∧
    decodeNode (BitVec.ofNat 256 (7 * 2 ^ 24)) = none := by decide +kernel

/-! ### Witnesses: states and operands that meet the hypotheses of each statement -/

/-- A record of sixteen words whose lowest are 1, 2, 3 and 4. -/
def r4 : Record := rec5 [1, 2, 3, 4]
/-- The region, the unit and the part with r4 before an operation of unit 0. -/
def elL (i : Instr) : Launch := element i [r4] []
def elS (i : Instr) : State := at_ (elL i) 0
/-- An operation of unit 0 is ready for r4, which its output ports accept. -/
def IsReady (i : Instr) : Prop :=
  (elS i).Ready (elL i) ((elL i).unit 0 0 0) r4 ∧ r4.isToken = false ∧ (elS i).accepts (elL i) 0 ∧ (elS i).accepts (elL i) 1
theorem breakpoint_element (i : Instr) (in0 in1 : List Record) (r : Record) : breakpoint ((element i in0 in1).unit 0 0 0) r = some r := by
  have h : ((element i in0 in1).unit 0 0 0).breaks = false := by
    show (((((UnitState.reset.fields.set 0 _).set 1 _).set 2 _)[3]?).getD 0).getLsbD 0 = false
    simp [UnitState.reset]
  simp [breakpoint, h]
theorem ready (i : Instr) : IsReady i := by
  refine ⟨⟨rfl, rfl, ⟨_, _, rfl, breakpoint_element i _ _ _⟩⟩, by decide +kernel, ?_, ?_⟩ <;> (intro rt h; revert h; revert rt)
  · show ∀ rt ∈ [wire 0 0 1], _; intro rt h; obtain rfl := List.mem_singleton.mp h; rfl
  · show ∀ rt ∈ [wire 0 1 2], _; intro rt h; obtain rfl := List.mem_singleton.mp h; rfl

/-- The same with another record, which may be a token. -/
theorem ready_with (i : Instr) (r : Record) : (at_ (element i [r] []) 0).Ready (element i [r] []) ((element i [r] []).unit 0 0 0) r ∧
    (at_ (element i [r] []) 0).accepts (element i [r] []) 0 := by
  refine ⟨⟨rfl, rfl, ⟨_, _, rfl, breakpoint_element i _ _ _⟩⟩, ?_⟩
  intro rt h; revert h; revert rt
  show ∀ rt ∈ [wire 0 0 1], _; intro rt h; obtain rfl := List.mem_singleton.mp h; rfl

/-- r4 with its control word changed. -/
def r4c (f : Rcw → Rcw) : Record := r4.setCtl (f r4.ctl)

theorem witness_MoveResults : IsReady .nop ∧ aligned .sixteen 0 = true ∧ (14 : Reg).toNat % 2 = 0 := ⟨ready _, by decide, by decide⟩
theorem witness_IntegerLaneResults : IsReady (.add { lw 12 0 4 with len := .four, lane := .l8, sat := true }) ∧ aligned .four 12 = true ∧
    aligned .one 15 = true := ⟨ready _, by decide, by decide⟩
theorem witness_ScalarResults : IsReady (.bfx { d := 0, a := 0, lsb := 31, widthM1 := 0 } true) ∧ (31 : BitVec 5).toNat + (0 : BitVec 5).toNat + 1 ≤ 32 ∧
    (0 : BitVec 5).toNat + (31 : BitVec 5).toNat + 1 ≤ 32 ∧ (14 : Reg).toNat % 2 = 0 := ⟨ready _, by decide, by decide, by decide⟩
theorem witness_TokensGo : token.isToken = true ∧ (Instr.movi 0 5).wf = true ∧ passesTokens (.movi 0 5) = true ∧
    (at_ (element (.movi 0 5) [token] []) 0).accepts (element (.movi 0 5) [token] []) 0 :=
  ⟨by decide +kernel, by decide, by decide, (ready_with _ _).2⟩
/-- The first word below the second, equal to it, above it as a signed number only. -/
theorem witness_BoundsCheck : IsReady (.chk 0 1 false) ∧ (r4.w 0).toNat < (r4.w 1).toNat ∧ (r4.w 0).toInt < (r4.w 1).toInt ∧
    ¬ (r4.w 0).toNat < (r4.w 0).toNat ∧ ¬ (r4.w 0).toInt < ((rec5 [0xFFFFFFFF]).w 0).toInt := by
  refine ⟨ready _, ?_⟩; decide +kernel
theorem witness_CallAndReturn : IsReady .ret ∧ r4.ctl.ret1 = 0 ∧ r4.ctl.ret0 = 0 ∧ r4.ctl.trapped = false ∧
    (r4c fun c => { c with ret1 := 7, ret0 := 6, trapped := true }).ctl.ret1 ≠ 0 ∧
    (r4c fun c => { c with ret1 := 7, ret0 := 6, trapped := true }).ctl.ret0 ≠ 0 ∧
    (r4c fun c => { c with ret1 := 7, ret0 := 6, trapped := true }).ctl.trapped = true := by
  refine ⟨ready _, ?_⟩; decide +kernel
theorem witness_TrapOperations : IsReady (.trap 0xFFFFF) ∧ IsReady (.brk 0) := ⟨ready _, ready _⟩
/-- A unit whose k0 names block 6 on route 0 and block 9 on route 1. -/
def k0unit : UnitState := setK (withOp (.emit 3 (.pred 6 9))) 0 0x0906
/-- Records in both latches: alike, and a token with a record. -/
theorem witness_PathOperations : IsReady (.emit 1 (.target 6)) ∧ aligned .one 15 = true ∧
    (let byte := fun (i : Nat) => (k0unit.k 0).extractLsb' (8 * i) 8
     byte 0 = 6 ∧ byte 1 = 9 ∧ (3 : BitVec 4).getLsbD 1 = true ∧ byte 0 ≠ 9 ∧ (∀ i, i < 4 → (3 : BitVec 4).getLsbD i = true → byte i ≠ 7)) ∧
    ((element (.zip 0 0 .one) [r4] [r4]).unit 0 0 0).port 1 = [r4] ∧ r4.isToken ≠ token.isToken ∧ token.isToken = true := by
  refine ⟨ready _, by decide, by decide +kernel, rfl, by decide +kernel, by decide +kernel⟩
theorem witness_AccumulatorResults : IsReady (.acc .fadd 0 .stochastic) ∧ r4.isToken = false := ⟨ready _, by decide +kernel⟩

/-- A state with the first 256 bytes of space 0 in their slices. -/
def lineS (s : State) : State := s.withLines (List.replicate 32 3)
/-- An answer of a step that the tests ask about. -/
def isOk {α : Type} : Now α → Bool
  | .ok _ _ => true
  | _ => false
/-- A region that has committed, beside one of the same priority that waits. -/
def contendedS : State := (elS .yield).setLaunch 1 { elL .yield with phase := .waiting }
theorem witness_RegionOperations : IsReady .yield ∧ (elL (.rdclk 14)).committed = true ∧ (elS .yield).contended (elL .yield) = false ∧
    contendedS.contended (elL .yield) = true ∧ isOk ((lineS (elS (.setb 1 0))).storeWords 0 8 [1, 2]) = true ∧
    isOk ((elS (.setb 1 0)).storeWords 0 8 [1, 2]) = false := by
  refine ⟨ready _, ?_⟩; decide +kernel
theorem witness_RoundedLaneResults : IsReady (.fadd { fl 0 4 8 with len := .four, round := .stochastic }) ∧ aligned .four 0 = true ∧
    destOk (Len.words .four * 32 / Fmt.width .fp16) 32 8 = true ∧ destOk (fcvtCount .e2m1 .eight) (Fmt.width .bf16) 0 = true ∧
    destOk (fcvtCount .e2m1 .four) (Fmt.width .bf16) 8 = true := by
  refine ⟨ready _, ?_⟩; decide +kernel
theorem witness_UnroundedLaneResults : IsReady (.fcmp { fl 0 4 8 with len := .four } .ord) ∧ aligned .four 0 = true := ⟨ready _, by decide⟩
theorem witness_FunctionResults : IsReady (.fsin (fl 15 0 0)) ∧ aligned .one 15 = true ∧ Fmt.value .fp32 (0x7FC00000 : Word).toNat = .nan ∧
    Fmt.value .fp32 (0xFF800001 : Word).toNat = .nan := by
  refine ⟨ready _, ?_⟩; decide +kernel
theorem witness_VectorResults : IsReady (.vscan .add (vo 0 4 0 0 .four .l8)) ∧ Len.four ≠ .one ∧ aligned .four 0 = true ∧
    (vo 0 4 8 0 .four .l8).lane = .l8 ∧ (vo 0 4 8 0 .four .l16).lane = FTy.lane .bf16 ∧ Fmt.floats .bf16 = true := by
  refine ⟨ready _, ?_⟩; decide +kernel
theorem witness_PackedResults : IsReady (.vpack .s2 15 0 .rne true) ∧ (vo 0 0 0 0 .four .l16).lane = FTy.lane .f16 ∧
    destOk 16 (Fmt.width .s2) 15 = true ∧ destOk 16 (Fmt.width .s2) 14 = true ∧ destOk 16 (Fmt.width .fp16) 0 = true ∧
    Fmt.floats .e4m3 = true ∧ Fmt.floats .t2 = false ∧ (∀ j, j < 16 → (rec5 [0x55555555]).element 0 2 j ≠ 2) ∧
    (rec5 [0x80000000]).element 0 2 15 = 2 ∧ (∀ i, i < 15 → (rec5 [0x80000000]).element 0 2 i ≠ 2) ∧ Fmt.within .t2 3 13 = true ∧
    ((8 : Reg).toNat < (12 : Reg).toNat ∨ (12 : Reg).toNat + destWords 16 (Fmt.width .t2) ≤ (8 : Reg).toNat) ∧ Fmt.within .s8 3 8 = true := by
  refine ⟨ready _, ?_⟩; decide +kernel
theorem witness_RouteDelivery : ∀ rt ∈ (elL .nop).routes, rt.dest.x < 128 ∧ rt.dest.unit < 16 := by decide +kernel
theorem witness_CompletionFrame : (elS .nop).here = some (elL .nop, (elL .nop).unit 0 0 0) ∧ ((elL .nop).unit 0 0 0).traces = false ∧
    ∀ rt ∈ (elL .nop).routes, rt.dest.x < 128 ∧ rt.dest.unit < 16 := by
  refine ⟨rfl, ?_⟩; decide +kernel

/-- A router with records in its inputs, its outputs routed to units 1 and 2. -/
def routerL (in0 in1 : List Record) : Launch :=
  region [(8, { UnitState.reset with ins := (if in0 = [] then [] else [(0, in0)]) ++ if in1 = [] then [] else [(1, in1)] })]
    [wire 8 0 1, wire 8 1 2]
def routerS (in0 in1 : List Record) : State := at_ (routerL in0 in1) 8
/-- One record on in0, one on each input, none on in1; a loop of none has room for L = 3 and not for L = 1. -/
theorem witness_RouterSlots : (routerS [r4] [r4]).SlotReady (routerL [r4] [r4]) ((routerL [r4] [r4]).unit 0 0 8) 0 r4 ∧
    (routerS [r4] [r4]).SlotReady (routerL [r4] [r4]) ((routerL [r4] [r4]).unit 0 0 8) 1 r4 ∧
    (routerS [r4] [r4]).focus.slot < 2 ∧ ((routerL [r4] []).unit 0 0 8).port 1 = [] ∧ ((routerL [] [r4]).unit 0 0 8).port 0 = [] ∧
    ((routerL [r4] [r4]).unit 0 0 8).slot0.lastIn1 = false ∧ (routerL [r4] []).occupancy 0 0 8 0 + 2 ≤ (3 : BitVec 8).toNat ∧
    ¬ (routerL [r4] []).occupancy 0 0 8 0 + 2 ≤ (1 : BitVec 8).toNat := by
  refine ⟨⟨rfl, rfl, rfl, ⟨_, rfl⟩⟩, ⟨rfl, rfl, rfl, ⟨_, rfl⟩⟩, by decide +kernel, rfl, rfl, rfl, by decide +kernel, by decide +kernel⟩
theorem witness_EffectiveAddresses : (mg .ownTile .word).shiftOk = true ∧ ({ mg .global .word with shift := 7 } : MemRef).shiftOk = true ∧
    ({ mg .peer .vector with shift := 0, imm8 := 0x80 } : MemRef).shiftOk = true := by decide +kernel

/-- A region whose access element a0 holds a record for an operation. -/
def accL (i : Instr) (r : Record) : Launch := region [(6, { withOp i with ins := [(0, [r])] })] [wire 6 0 1]
def accS (i : Instr) (r : Record) : State := at_ (accL i r) 6
theorem breakpoint_access (i : Instr) (r s : Record) : breakpoint ((accL i r).unit 0 0 6) s = some s := by
  have h : ((accL i r).unit 0 0 6).breaks = false := by
    show (((((UnitState.reset.fields.set 0 _).set 1 _).set 2 _)[3]?).getD 0).getLsbD 0 = false
    simp [UnitState.reset]
  simp [breakpoint, h]
theorem placesOf_pos (i : Instr) : 0 < placesOf i := by unfold placesOf; split <;> decide
theorem busy_lt (i : Instr) (r : Record) : ((accL i r).unit 0 0 6).busy i < placesOf i := by
  have h : ((accL i r).unit 0 0 6).busy i = 0 := by unfold UnitState.busy; split <;> rfl
  rw [h]; exact placesOf_pos i
/-- The access element can take r4. -/
theorem access_ready (i : Instr) : (accS i r4).AccessReady (accL i r4) ((accL i r4).unit 0 0 6) r4 i :=
  ⟨rfl, rfl, ⟨_, _, rfl, by decide +kernel, breakpoint_access i _ _⟩, busy_lt i r4, fun _ => by decide +kernel⟩
/-- The unit of the access element. -/
def accU (i : Instr) : UnitState := (accL i r4).unit 0 0 6

theorem witness_TokensGo_access : (accS (.ld 0 .plain (mg .global .word)) token).here =
      some (accL (.ld 0 .plain (mg .global .word)) token, (accL (.ld 0 .plain (mg .global .word)) token).unit 0 0 6) ∧
    ((accL (.ld 0 .plain (mg .global .word)) token).unit 0 0 6).fields ≠ UnitState.reset.fields ∧
    (homeAccess (.ld 0 .plain (mg .global .word)) token).isSome = true := by
  refine ⟨rfl, ?_⟩; decide +kernel

/-- One access of each space, of a release and of a counted fill. -/
theorem witness_AccessIssue :
    (let m := mg .ownTile .word
     IsAt (accL (.ld 0 .plain m) r4) 0 0 m 1 (effectiveAddr (accL (.ld 0 .plain m) r4) m 0) (.tile 0 0 0)) ∧
    (let m : MemRef := { mg .regionTile .word with shift := 0, a := 15 }
     IsAt (accL (.ld 0 .plain m) r4) 0 0 m 1 (effectiveAddr (accL (.ld 0 .plain m) r4) m 0xF0008) (.tile 0 30 8) = False ∨
       IsAt (accL (.ld 0 .plain m) r4) 0 0 m 1 (effectiveAddr (accL (.ld 0 .plain m) r4) m 0x38008) (.tile 0 7 8)) ∧
    (let m := mg .peer .pair
     IsAt (accL (.ld 0 .plain m) r4) 0 0 m 2 (effectiveAddr (accL (.ld 0 .plain m) r4) m 0) (.peer 0)) ∧
    (let m : MemRef := { mg .global .vector with imm8 := 1 }
     let i : Instr := .stv 0 .s m
     let lane : LaneReq := { lane := 0, addr := 64, loc := .glob 64, op := .store .s (r4.slice 0 16), plain := false }
     IsAt (accL i r4) 0 0 m 16 (effectiveAddr (accL i r4) m 0) (.glob 64) ∧ i.wf = true ∧ homeAccess i r4 = some (m, .store .s (r4.slice 0 16), false) ∧
       mayIssue (accL i r4) m r4 i = true ∧ rangeKind i = some true ∧ (accS i r4).clashes (accU i) 0 0 0 6 [lane.range true] = false ∧
       (accL i r4).roomFor 0 0 [lane] = true ∧ ((accS i r4).releaseWays 0 0 0 .region).1 = true) ∧
    (accS (.ld 0 .plain (mg .global .word)) r4).AccessReady (accL (.ld 0 .plain (mg .global .word)) r4)
      ((accL (.ld 0 .plain (mg .global .word)) r4).unit 0 0 6) r4 (.ld 0 .plain (mg .global .word)) := by
  refine ⟨⟨?_, ?_, ?_⟩, Or.inr ⟨?_, ?_, ?_, ?_⟩, ⟨?_, ?_, ?_⟩, ⟨⟨?_, ?_, ?_⟩, ?_⟩, access_ready _⟩ <;> first | decide +kernel | rfl

/-- Addresses on each side of each bound: the last tile word and the first beyond it, the top canonical byte and the first beyond it. -/
theorem witness_AccessTraps :
    (let l := { accL .nop r4 with bases := (Vector.replicate 16 0).set 1 (2 ^ 52) }
     let own : MemRef := { mg .ownTile .pair with shift := 0, a := 0 }
     let far : MemRef := { mg .global .word with base := 1 }
     (effectiveAddr l own 32767).toNat < 2 ^ 15 ∧ (effectiveAddr l own 32767).toNat % 2 ≠ 0 ∧ 2 ^ 15 ≤ (effectiveAddr l own 32768).toNat ∧
     2 ^ 28 ≤ (effectiveAddr l { own with space := .regionTile } 0x10000000).toNat ∧
     l.has 7 7 = true ∧ l.has 8 7 = false ∧
     (effectiveAddr l { mg .global .pair with shift := 0, a := 0 } 4).toNat % 8 ≠ 0 ∧ (effectiveAddr l far 0).toNat % 4 = 0 ∧
     2 ^ 52 ≤ (effectiveAddr l far 0).toNat) ∧
    isLaunch (.launch (mg .global .vector)) = true ∧ (accL .nop r4).record.level ≠ 7 ∧
    ({ (accL .nop r4).record with level := 7 } : LaunchRec).level = 7 ∧ (r4.w 5).extractLsb' 8 12 = 0 ∧
    ((rec5 [0x100]).w 0).extractLsb' 8 12 ≠ 0 ∧ (accL .nop r4).record.quota = 0 ∧
    stopsPoison (.st 0 .plain (mg .global .word)) = true ∧ (r4c fun c => { c with poison := true }).ctl.poison = true := by decide +kernel

/-- Lanes that are skipped, and a region's base beyond the address space where pref asks for nothing. -/
theorem witness_LaneIssue :
    (accS (.gather .w (mg .global .vector)) r4).AccessReady (accL (.gather .w (mg .global .vector)) r4) (accU (.gather .w (mg .global .vector))) r4
      (.gather .w (mg .global .vector)) ∧
    (rec5 (List.replicate 16 0xFFFFFFFF)).at 15 = 0xFFFFFFFF ∧ r4.at 15 ≠ 0xFFFFFFFF ∧
    IsAt (accL .nop r4) 0 0 (mg .global .vector) 1 (effectiveAddr (accL .nop r4) (mg .global .vector) 0) (.glob 0) ∧
    (accS (.fence .ar .dev) r4).AccessReady (accL (.fence .ar .dev) r4) (accU (.fence .ar .dev)) r4 (.fence .ar .dev) ∧
    ((accS (.fence .ar .dev) r4).releaseWays 0 0 0 .dev).1 = true ∧ (Instr.pref { mg .global .word with scope := .cell }).wf = true ∧
    (∀ loc, ¬ IsAt { accL .nop r4 with bases := (Vector.replicate 16 0).set 0 (2 ^ 52) } 0 0 (mg .global .word) 1
      (effectiveAddr { accL .nop r4 with bases := (Vector.replicate 16 0).set 0 (2 ^ 52) } (mg .global .word) 0) loc) := by
  refine ⟨access_ready _, by decide +kernel, by decide +kernel, ⟨by decide +kernel, by decide +kernel, by decide +kernel⟩, access_ready _,
    by decide +kernel, by decide +kernel, ?_⟩
  intro loc h
  exact absurd h.1 (by decide +kernel)

theorem witness_AccessIsSent : (accS (.ld 0 .plain (mg .global .word)) r4).here =
      some (accL (.ld 0 .plain (mg .global .word)) r4, accU (.ld 0 .plain (mg .global .word))) ∧
    (accL (.ld 0 .plain (mg .global .word)) r4).wayServed 0 0 (mg .global .word) true = false := by
  refine ⟨rfl, ?_⟩; decide +kernel

/-- An access with one lane. -/
def access (i : Instr) (reply : Reply) : Access :=
  { id := 0, record := r4, op := i, ea := 0, ranges := [], lanes := [{ lane := 0, addr := 64, reply := some reply }], trapped := false,
    waitsFor := [] }
/-- A region with that access in its access element. -/
def flightL (i : Instr) (reply : Reply) : Launch :=
  region [(6, { withOp i with flight := [access i reply], nextId := 1 })] [wire 6 0 1]
/-- An access answered with a word, and one that a lane trapped. -/
theorem witness_AccessCompletion :
    (let i : Instr := .ld 0 .plain (mg .global .word)
     let l := flightL i (.ok [9] [true] true false)
     (State.reset.setLaunch 0 l).launch? 0 = some l ∧ l.acts = true ∧
     (l.unit 0 0 6).fields ≠ UnitState.reset.fields ∧ (l.unit 0 0 6).flight.find? (fun b => b.id == 0) = some (access i (.ok [9] [true] true false)) ∧
     (access i (.ok [9] [true] true false)).answered = true ∧ (access i (.ok [9] [true] true false)).trap? = none ∧
     (∀ q ∈ (access i (.ok [9] [true] true false)).lanes, q.line? = none) ∧ leavesPlainly i = true ∧
     l.canSend 0 0 6 [out0 (access i (.ok [9] [true] true false)).result] = true ∧
     (access i (.trap .protect 1 0)).trap? = some (.protect, 1, 64)) := by
  refine ⟨rfl, ?_⟩; decide +kernel
theorem witness_AccessRecords :
    (access (.ld 15 .plain (mg .global .word)) (.ok [9] [true] true false)).lanes =
      [{ lane := 0, addr := 64, reply := some (.ok [9] [true] true false) }] ∧ (15 : Reg).toNat + [(9 : Word)].length ≤ 16 ∧
    (0 : Reg).toNat + (List.replicate 16 (0 : Word)).length ≤ 16 := by decide +kernel

theorem witness_SyncForms : plainView.counted = none ∧ plainView.words.length = 16 ∧ plainView.full.length = 16 ∧
    plainView.bad = List.replicate 16 false ∧ 15 + 1 ≤ 16 ∧ 0 + 16 ≤ 16 ∧ [(1 : Word)].length = 1 ∧
    (∀ b ∈ (plainView.full.drop 15).take 1, b = true) ∧
    (∀ b ∈ (({ plainView with full := List.replicate 16 false }).full.drop 0).take 16, b = false) := by decide +kernel
theorem witness_AtomicResults : plainView.counted = none ∧ plainView.words.length = 16 ∧ plainView.bad = List.replicate 16 false ∧ 15 < 16 := by
  decide +kernel
/-- Both counting modes, a full and an empty quota, a generation in the history and one that is not. -/
theorem witness_CountedResults : plainView.tile = false ∧ plainView.normal = true ∧ plainView.counted = none ∧ plainView.room = true ∧
    ({ plainView with room := false } : View).room = false ∧ countedView.counted.isSome = true ∧
    (0x207 : Word).extractLsb' 0 8 = (7 : BitVec 8) ∧ (({ words := [], readers := 0x800, maskMode := true, gen := 7 } : Counted).readers).getLsbD 11 = true ∧
    ((0xB07 : Word).extractLsb' 8 4 : BitVec 4).toNat < 12 ∧ (∀ d ∈ plainView.dropped, d.1 ≠ 7) ∧
    (∃ d ∈ ({ plainView with dropped := [(7, false)] } : View).dropped, d.1 = 7) := by decide +kernel

/-- A request of an access element at a global granule. -/
def globReq (op : HomeOp) : Req := mkReq (.access 0 0 0 6 0 0) 0 (.glob 64) op .dev 0 (0, 0) 0
/-- A request at the own cell's tile. -/
def tileReq (op : HomeOp) : Req := mkReq (.access 0 0 0 6 0 0) 0 (.tile 0 0 16) op .region 0 (0, 0) 0
/-- A region whose tile holds requests in its buffer and on the network. -/
def tileL (reqs network : List Req) : Launch :=
  { region [] [] with tiles := [(0, { TileState.reset with reqs := reqs, network := network })] }
/-- Slice 0 with its line and a request. -/
def sliceS (rs : List Req) : State :=
  let s := lineS State.reset
  s.setSlice (s.homeSlice 64) { s.slice (s.homeSlice 64) with reqs := rs }
theorem witness_HomesServe :
    (let rq := tileReq (.load .plain 1)
     let l := tileL [rq] [rq]
     let s := State.reset.setLaunch 0 l
     (l.tile 0 0).reqs[0]? = some rq ∧ (∀ b ∈ rq.banks, ∀ older ∈ (l.tile 0 0).reqs.take 0, b ∉ older.banks) ∧
     s.walkHolds (.tile 0 0 0) rq.key = false ∧ (s.tileForm l rq).isSome = true ∧ (l.tile 0 0).network[0]? = some rq ∧ rq.retryAt ≤ s.now ∧
     (l.unit 0 0 11).paused = false ∧ (s.tileForm l { rq with op := .streamRead 1 }).isSome = true ∧
     ∀ r ∈ (l.tile 0 0).network.take 0, r.own = false) ∧
    (let rq := globReq (.load .w 1)
     let s := sliceS [rq]
     let sl := s.homeSlice 64
     (s.slice sl).reqs[0]? = some rq ∧ s.caught? rq.va = false ∧ s.homeSlice rq.va = sl ∧ s.homeSlice rq.va ≠ sl + 1 ∧
     ((s.slice sl).replies.find? fun e => e.1 == rq.party && e.2.1 == rq.seq) = none ∧ s.fillHolds (.slice sl) rq.granule = false ∧
     (s.slice sl).placeHolds rq.granule = false ∧ s.walkHolds (.slice sl) rq.granule = false ∧ s.needsWrite (.slice sl) rq = false ∧
     State.reset.needsWrite (.slice sl) rq = true) := by decide +kernel
theorem witness_HomePerforms :
    (let rq := globReq (.load .w 1)
     let s := sliceS [rq]
     let h := Home.slice (s.homeSlice 64)
     (s.viewAt h rq.key rq.inst).isSome = true ∧
     ((s.viewAt h rq.key rq.inst).map fun v => (outcome (v.perform rq.word rq.op)).isSome) = some true ∧
     ((s.viewAt h rq.key rq.inst).map fun v => waits (v.perform rq.word (.store .f [1]))) = some true ∧
     ((s.viewAt h rq.key rq.inst).map fun v => trapsCause (v.perform rq.word (.count 0))) = some none) ∧
    trapsCause ({ plainView with dropped := [(7, false)] }.perform 0 (.count 7)) = some .overread := by decide +kernel
theorem witness_AcquireScopes : ({ scope := .dev, die := 0, space := 0, inst := 0, cell := (0, 0), outside := false } : Release).outside = false := rfl

/-- A granule with a record that has waited 4,096 cycles, and one whose unpark walk has found nothing to present. -/
theorem witness_ParkAndUnpark :
    (let rq := { globReq (.load .c 1) with since := 0 }
     let s : State := { sliceS [] with now := 4096 }
     let sl := s.homeSlice 64
     let s := s.setSlice sl { s.slice sl with waiters := [rq] }
     (s.waiters (homeOf sl)).find? (fun r => r.key == rq.granule && r.party.isRecord) = some rq ∧
     max 16 (s.die (s.homeDie (homeOf sl))).parkAfter.toNat ≤ s.now - rq.since ∧ s.fillHolds (homeOf sl) rq.granule = false ∧
     s.caught? (granuleVa rq.granule) = false) ∧
    (let w : ParkWalk := { granule := 1, collected := false, todo := [], robbed := [], again := false }
     let s := (sliceS []).setSlice 0 { (sliceS []).slice 0 with walks := [w] }
     (s.walks (homeOf 0)).find? (·.granule == 1) = some w ∧ s.parkEntries (homeOf 0) 1 (s.parkRegions (homeOf 0) 1) = []) := by decide +kernel
theorem no_victim (s : State) (sl keep : Nat) (h : (s.slice sl).lines = []) : s.victimLine sl keep = none := by
  have hf : (s.slice sl).freeLines keep = [] := by simp [Slice.freeLines, h]
  simp only [State.victimLine, hf]
  cases Config.evict s.tick <;> rfl
theorem witness_SliceEvents :
    (let rq := globReq (.load .plain 1)
     let x : Slice := { Slice.reset with missing := [rq], fills := [(rq.seq, 0, true, false)] }
     let v := State.reset.setSlice 0 x
     (v.slice 0).fills[0]? = some (rq.seq, 0, true, false) ∧ (v.slice 0).missing.find? (fun r => r.seq == rq.seq) = some rq ∧
     (v.slice 0).lines = [] ∧
     (let t := (v.setSlice 0 { x with fills := [], missing := [] }).fillLine 0 rq.space rq.va 0 true false
      t.needsWrite (.slice 0) rq = false)) ∧
    (let rq := globReq (.load .plain 1)
     let g : Granule := { words := [], readers := 1, maskMode := false, gen := 0, inst := 0, since := 0, laggard := false }
     let x : Slice := { (lineS State.reset).slice 0 with quota := [rq], places := [rq.inst], refused := [rq], reqs := [rq], granules := [(1, g)] }
     let v : State := { (lineS State.reset).setSlice 0 x with now := 0x1000000 }
     (v.slice 0).quota[0]? = some rq ∧ rq.inst ∈ (v.slice 0).places ∧ v.fillHolds (.slice 0) rq.granule = false ∧
     (v.slice 0).refused[0]? = some rq ∧ rq.retryAt ≤ v.now ∧ rq.party.isRecord = true ∧
     ({ rq with party := .copy 0 } : Req).party.isRecord = false ∧ (v.slice 0).granules[0]? = some (1, g) ∧
     (v.die 0).laggard ≠ 0 ∧ (v.die 0).laggard.toNat ≤ v.now - 0 ∧ (v.slice 0).reqs[0]? = some rq ∧ rq.resends < 16) ∧
    (let rq := globReq (.store .f [1])
     let v := (State.reset.setDie 0 { State.reset.die 0 with logQ := [{ slice := 0, req := rq }] }).setLaunch 0 (accL .nop r4)
     (v.die 0).logQ[0]? = some { slice := 0, req := rq } ∧ v.logEntries rq ≠ [] ∧ (v.die 0).sideLog.length < 4096) := by
  decide +kernel
/-- A table walk that meets an empty root: the page is a fault. -/
theorem witness_TranslationEnds :
    (let rq := globReq (.load .plain 1)
     let s := State.reset.setDie 0 { State.reset.die 0 with walkQ := [{ slice := 0, req := rq }] }
     (s.die 0).walkQ[0]? = some { slice := 0, req := rq } ∧
     (match (s.translate rq.space rq.va false false).2 with | .fault => true | _ => false) = true) := by decide +kernel

/-- A region whose element has a bank in some mode beside it. -/
def bankL (mode : Nat) (i : Instr) (r : Record) (t : TileState) : Launch :=
  { region [(0, { withOp i with ins := [(0, [r])] }),
            (11, { UnitState.reset with fields := UnitState.reset.fields.set 3 (BitVec.ofNat 16 (mode * 2 ^ 13)) })] [wire 0 0 1] with
    tiles := [(0, t)] }
theorem breakpoint_bank (mode : Nat) (i : Instr) (r s : Record) (t : TileState) : breakpoint ((bankL mode i r t).unit 0 0 0) s = some s := by
  have h : ((bankL mode i r t).unit 0 0 0).breaks = false := by
    show (((((UnitState.reset.fields.set 0 _).set 1 _).set 2 _)[3]?).getD 0).getLsbD 0 = false
    simp [UnitState.reset]
  simp [breakpoint, h]
theorem bank_ready (mode : Nat) (i : Instr) (r : Record) (t : TileState) :
    (at_ (bankL mode i r t) 0).Ready (bankL mode i r t) ((bankL mode i r t).unit 0 0 0) r ∧
    (at_ (bankL mode i r t) 0).accepts (bankL mode i r t) 0 := by
  refine ⟨⟨rfl, rfl, ⟨_, _, rfl, breakpoint_bank _ i _ _ _⟩⟩, ?_⟩
  intro rt h; revert h; revert rt
  show ∀ rt ∈ [wire 0 0 1], _; intro rt h; obtain rfl := List.mem_singleton.mp h; rfl
/-- A tile whose bank 3 holds one entry, and an end marker behind it. -/
def oneEntry : TileState := ((TileState.reset.fifoPut 3 (r4.all) false).getD TileState.reset)
/-- An entry is put into an empty bank and taken again; a bank in another mode is met as well. -/
theorem witness_FifoOperations :
    ((at_ (bankL 2 (.fifoPush 3) r4 oneEntry) 0).Ready (bankL 2 (.fifoPush 3) r4 oneEntry) ((bankL 2 (.fifoPush 3) r4 oneEntry).unit 0 0 0) r4 ∧
      (at_ (bankL 2 (.fifoPush 3) r4 oneEntry) 0).accepts (bankL 2 (.fifoPush 3) r4 oneEntry) 0) ∧
    (bankL 2 (.fifoPush 3) r4 oneEntry).bankMode 0 0 3 = 2 ∧ (bankL 1 (.fifoPush 3) r4 oneEntry).bankMode 0 0 3 ≠ 2 ∧
    (oneEntry.fifoPut 3 r4.all false).isSome = true ∧ (oneEntry.fifoTake 3).map (fun e => (e.1, e.2.1)) = some (r4.all, false) ∧
    (r4.all).length = 16 ∧ r4.isToken = false ∧ (oneEntry.setBankRow 3 1 (some 128) none).fifoCount 3 = 128 ∧ TileState.reset.fifoCount 3 = 0 := by
  refine ⟨bank_ready _ _ _ _, ?_⟩; decide +kernel
theorem witness_FifoOrder : SMap.wf 0 oneEntry.words = true ∧ SMap.wf 0 oneEntry.rows = true ∧ (r4.all).length = 16 ∧ oneEntry.fifoHead 3 < 128 ∧
    oneEntry.fifoCount 3 < 128 ∧ 0 < oneEntry.fifoCount 3 ∧ (oneEntry.setBankRow 3 1 (some 128) none).fifoCount 3 = 128 ∧ TileState.reset.fifoCount 3 = 0 := by decide +kernel
/-- A record of ordinal 9 before banks that expect 9, 8, 10 and one far below. -/
theorem witness_ReorderResults :
    (let t := fun (e : Word) => TileState.reset.setExpected 3 e
     let s := fun (e : Word) => at_ (bankL 3 (.reorder 3 true) r4 (t e)) 0
     ((s 9).Ready (bankL 3 (.reorder 3 true) r4 (t 9)) ((bankL 3 (.reorder 3 true) r4 (t 9)).unit 0 0 0) r4 ∧
       (s 9).accepts (bankL 3 (.reorder 3 true) r4 (t 9)) 0) ∧
     (bankL 3 (.reorder 3 true) r4 (t 9)).bankMode 0 0 3 = 3 ∧ (bankL 2 (.reorder 3 true) r4 (t 9)).bankMode 0 0 3 ≠ 3 ∧ r4.isToken = false ∧
     r4.ctl.p = false ∧ r4.ctl.ord.toNat = 9 ∧ ((t 9).expected 3).toNat = 9 ∧ ((t 8).expected 3).toNat = 8 ∧ ((t 10).expected 3).toNat = 10 ∧
     (t 8).slotOf 3 r4.ctl.ord = none ∧ (t 8).slotOf 3 ((t 8).expected 3) = none ∧ ((t 8).hold 3 r4).isSome = true ∧
     ((s 9).depart 0 0 0 0 [out0 r4] r4.ctl.ord).isSome = true ∧
     (r4c fun c => { c with ord := 2048 }).ctl.ord.toNat = 2048 ∧ (TileState.reset.expected 3).toNat + 2048 ≤ 2048) := by
  refine ⟨bank_ready _ _ _ _, ?_⟩; decide +kernel

/-- A cnt: a run at its first and at its last record, one of an empty bound, one to begin, and one that has ended. -/
def cntL (c : SrcState) (bound : Bool) (ins : SMap (List Record)) : Launch :=
  region [(7, { withOp (.cnt 3) with ins := ins, src := c })]
    ([wire 7 0 1] ++ if bound then [{ wire 0 0 7 with dest := { x := 0, y := 0, unit := 7, port := 1 } }] else [])
theorem witness_CountingSource :
    (let first : SrcState := { UnitState.reset.src with running := true, counters := (0, 0, 0), bounds := (2, 2, 2) }
     let last : SrcState := { first with counters := (1, 1, 1) }
     let empty : SrcState := { first with bounds := (0, 2, 2) }
     let ok := fun (c : SrcState) => (at_ (cntL c false []) 7).here = some (cntL c false [], (cntL c false []).unit 0 0 7)
     (ok first ∧ ok last ∧ ok empty ∧ ok { first with running := false } ∧ ok { first with running := false, ending := true }) ∧
     (cntL first false []).acts = true ∧ ((cntL first false []).unit 0 0 7).open_ = true ∧ (cntL first false []).phase = .running ∧
     first.finished = false ∧ (cntL first false []).halting = false ∧ first.ending = false ∧
     ((cntL first false []).routeInto 0 0 7 1).isSome = false ∧ ((cntL first true [(1, [r4])]).routeInto 0 0 7 1).isSome = true ∧
     ((cntL first true [(1, [r4])]).unit 0 0 7).port 1 = [r4] ∧
     (((cntL first false []).routesOf 0 0 7 0).all fun rt => (cntL first false []).canAccept rt) = true) := by
  refine ⟨⟨rfl, rfl, rfl, rfl, rfl⟩, ?_⟩; decide +kernel

/-- A src and a sink at an access element. -/
def srcL (i : Instr) (c : SrcState) : Launch := region [(6, { withOp i with src := c })] [wire 6 0 1]
def sinkL (i : Instr) (r : Record) (k : SinkState) : Launch := region [(7, { withOp i with ins := [(0, [r])], sink := k })] []
theorem breakpoint_sink (i : Instr) (r s : Record) (k : SinkState) : breakpoint ((sinkL i r k).unit 0 0 7) s = some s := by
  have h : ((sinkL i r k).unit 0 0 7).breaks = false := by
    show (((((UnitState.reset.fields.set 0 _).set 1 _).set 2 _)[3]?).getD 0).getLsbD 0 = false
    simp [UnitState.reset]
  simp [breakpoint, h]
theorem witness_StreamsMove :
    (let i : Instr := .src .plain (mg .global .word)
     let c : SrcState := { UnitState.reset.src with count := 2, issued := 1, stride := 8 }
     let l := srcL i c
     (at_ l 6).here = some (l, l.unit 0 0 6) ∧ IsAt l 0 0 (mg .global .word) 1 (itemAddr l (mg .global .word) 1 8) (.glob 8) ∧ l.acts = true ∧ (l.unit 0 0 6).open_ = true ∧ l.phase = .running ∧ c.finished = false ∧
     (l.unit 0 0 6).held = false ∧ l.halting = false ∧ c.ending = false ∧ c.issued < c.count ∧ (l.unit 0 0 6).flight.length < 8 ∧
     srcBank l 0 0 (mg .global .word) = none ∧
     (l.roomFor 0 0 [{ lane := 0, addr := 8, loc := .glob 8, op := .load .plain 1, plain := true }]) = true ∧
     (l.unit 0 0 6).flight = [] ∧ l.awayOf 0 0 6 = [] ∧ (l.routesOf 0 0 6 0).all (fun rt => l.canAccept rt) = true) ∧
    (let i : Instr := .src .plain { mg .ownTile .word with imm8 := 3 }
     let l := { srcL i { UnitState.reset.src with count := 2 } with
       units := SMap.insert (srcL i { UnitState.reset.src with count := 2 }).units 11
         { UnitState.reset with fields := UnitState.reset.fields.set 3 0x4000 }, tiles := [(0, oneEntry)] }
     srcBank l 0 0 { mg .ownTile .word with imm8 := 3 } = some 3 ∧ ((l.tile 0 0).fifoTake 3).isSome = true) ∧
    (let i : Instr := .sink .plain (mg .global .word)
     let k : SinkState := { UnitState.reset.sink with slots := 4, index := 5 }
     let l := sinkL i r4 k
     (at_ l 7).here = some (l, l.unit 0 0 7) ∧ l.takes (l.unit 0 0 7) = true ∧ (l.unit 0 0 7).port 0 = [r4] ∧ r4.isToken = false ∧
     breakpoint (l.unit 0 0 7) r4 = some r4 ∧ IsAt l 0 0 (mg .global .word) 1 (effectiveAddr l (mg .global .word) 0 + 4) (.glob 4) ∧ (l.unit 0 0 7).places < 8 ∧ k.slots ≠ 0 ∧ k.complete = false ∧ ({ k with complete := true } : SinkState).complete = true ∧
     token.isToken = true ∧ r4.ctl.poison = false ∧
     (let lane : LaneReq := { lane := 0, addr := 4, loc := .glob 4, op := .store .plain (r4.slice 0 1), plain := true }
      (at_ l 7).clashes (l.unit 0 0 7) 0 0 0 7 [lane.range true] = false ∧ l.roomFor 0 0 [lane] = true)) := by
  refine ⟨⟨rfl, ⟨?_, ?_, ?_⟩, ?_⟩, ?_, ⟨rfl, ?_, ?_, ?_, breakpoint_sink _ _ _ _, ⟨?_, ?_, ?_⟩, ?_⟩⟩ <;> decide +kernel

/-- A trap of r4, and regions under each policy. -/
def trap0 : TrapInfo :=
  { cause := .trapop, detail := 3, addr := 0, record := r4, x := 0, y := 0, unit := 0, block := 5, opIndex := 0, holder := .latch 0 }
def trapL (policy : Nat) : Launch :=
  { element (.trap 3) [r4] [] with trapQ := [trap0], record := { placedRecord with policy := BitVec.ofNat 2 policy, trapEntries := 4 } }
def trapS (policy : Nat) : State := (lineS State.reset).setLaunch 0 (trapL policy)
theorem witness_TrapsAreTaken :
    ((trapS 0).launch? 0 = some (trapL 0) ∧ (trapS 1).launch? 0 = some (trapL 1) ∧ (trapS 2).launch? 0 = some (trapL 2)) ∧
    (trapL 0).acts = true ∧ (trapL 2).trapQ[0]? = some trap0 ∧ (trapL 2).record.policy = 2 ∧ (trapL 2).halting = false ∧ trap0.holder ≠ .sideLog ∧
    ({ trap0 with holder := .sideLog } : TrapInfo).holder = .sideLog ∧ trap0.record.ctl.trapped = false ∧ trap0.record.ctl.ret1 = 0 ∧
    (trapL 2).handlerQ.length < 16 ∧ ({ trapL 2 with handlerQ := List.replicate 16 r4 } : Launch).handlerQ.length = 16 ∧
    isOk ((trapS 0).writeTrap 0 trap0) = true ∧ isOk ((trapS 1).writeTrap 0 trap0) = true ∧ isOk ((trapS 2).writeTrap 0 trap0) = true ∧
    ((trapL 2).unit 0 0 5).port 0 = [] := by
  refine ⟨⟨rfl, rfl, rfl⟩, ?_⟩; decide +kernel

/-- Regions that may end, that end, and that wait under halt. -/
def endL (l : Launch → Launch) : Launch := l { region [] [] with units := [] }
theorem witness_RegionsEnd :
    (let l := endL id
     let s := State.reset.setLaunch 0 l
     s.launch? 0 = some l ∧ l.fatal = none ∧ l.phase ≠ .completing ∧ s.mayEnd 0 l = true) ∧
    (let l := endL fun l => { l with fatal := some 64 }
     l.fatal = some 64 ∧ l.phase ≠ .completing) ∧
    (let l := endL fun l => { l with phase := .completing, stage := 1 }
     l.phase = .completing ∧ ((State.reset.setLaunch 0 l).killEngines 0).enginesOf 0 = false) ∧
    (let l := endL fun l => { l with phase := .completing, stage := 2 }
     let s := (lineS State.reset).setLaunch 0 l
     (s.flushRegionWays 0 (l.tiles.map (·.1))).1 = true ∧
     isOk (s.storeAt l.record.space ((l.statusBlock (s.cycles l)).map fun p => (l.record.statusAddr.toNat + p.1, p.2))) = true) ∧
    (let l := endL fun l => { l with phase := .completing, stage := 3, doneReply := some (.ok [] [] true false) }
     l.doneReply.isSome = true ∧ l.stage = 3) ∧
    (let l := endL fun l => { l with halting := true }
     let s : State := { State.reset.setLaunch 0 l with now := 256 }
     l.halting = true ∧ 256 ≤ s.now - l.lastMove ∧ l.advancing = [] ∧ s.sideLogOf 0 = []) ∧
    (let rq := tileReq (.load .plain 1)
     let l := { endL id with halting := true, tiles := [(0, { TileState.reset with waiters := [rq] })] }
     let s : State := { State.reset.setLaunch 0 l with now := 256 }
     s.regionWaits 0 l = true ∧ l.advancing = []) ∧
    (let e : LogEntry := { req := globReq (.store .f [1]), inst := 0, record := r4, addr := 64, x := 0, y := 0, unit := 6, block := 5, opIndex := 0, replaying := false }
     ((State.reset.setLaunch 0 (endL id)).setDie 0 { State.reset.die 0 with sideLog := [e] }).sideLogOf 0 = [e]) ∧
    (let t := (TileState.reset.hold 3 r4).getD TileState.reset
     (bankL 3 (.reorder 3 false) r4 t).advancing ≠ []) := by
  decide +kernel

/-- The access element beside a matrix tile. -/
def tileAt (i : Instr) (r : Record) (t : MatrixTile) : Launch := { accL i r with matrix := [(0, t)] }
def tileReg (state : RegState) (readers : BitVec 12) (mask : Bool) : TileReg :=
  { TileReg.reset with state := state, readers := readers, maskMode := mask }
/-- The element is ready for every command; registers, queues and shapes on each side of each condition. -/
theorem witness_MatrixCommands :
    ((accS (.mrel 0) r4).AccessReady (accL (.mrel 0) r4) (accU (.mrel 0)) r4 (.mrel 0)) ∧
    (accL (.mrel 0) r4).mtile 0 0 = MatrixTile.reset ∧ r4.at 0 = 1 ∧
    (let sh : BitVec 20 := 0x4FE7F
     (sh.extractLsb' 16 4).toNat ≤ 13 ∧ (shapeRows sh) * (shapeCols sh) * (shapeFmt sh).width ≤ 131072) ∧
    ¬ ((0xE0000 : BitVec 20).extractLsb' 16 4).toNat ≤ 13 ∧
    (MatrixTile.reset.target 0).state = .empty ∧ (∀ bs ∈ MatrixTile.reset.binds.toList, ∀ b ∈ bs, b.target ≠ 0) ∧
    (accS (.mrel 0) r4).copyNames 0 0 0 0 = false ∧ (MatrixTile.reset.binds[3]?.getD []).length < 4 ∧ MatrixTile.reset.queued < 8 ∧
    ((r4.at 0).extractLsb' 24 8 = 0 ∧ ((r4.at 0).extractLsb' 0 8).toNat + ((r4.at 0).extractLsb' 8 8).toNat ≤ 128) ∧
    128 < (((rec5 [0x8001]).at 0).extractLsb' 0 8).toNat + (((rec5 [0x8001]).at 0).extractLsb' 8 8).toNat ∧
    (let t : MatrixTile := { MatrixTile.reset with regs := Vector.replicate 8 (tileReg .full 3 false) }
     (t.target 0).state = .full ∧ ((r4.at 0).extractLsb' 0 12 : BitVec 12) ≠ 0 ∧ ((r4.at 0).extractLsb' 0 12 : BitVec 12).toNat ≤ (t.target 0).readers.toNat ∧
     (t.target 0).readers.toNat < ((token.setWords 0 [4]).at 0).toNat ∧ (t.target 0).maskMode = false) ∧
    (tileReg .full 0xFFF true).maskMode = true ∧ (tileReg .full 0xFFF true).readers.getLsbD 0 = true ∧
    (tileReg .full 0x7FF true).readers.getLsbD 11 = false := by
  refine ⟨access_ready _, ?_⟩; decide +kernel

/-- A region with a matrix tile and its unit. -/
def matL (t : MatrixTile) (op : Instr) (ins : SMap (List Record)) : Launch :=
  { region [(12, { withOp op with ins := ins })] [wire 12 0 1] with matrix := [(0, t)] }
def fire0 : FireOp := { fmt := .s8, d := 0, a := 0, b := 1 }
def step0 : Record := rec5 []
def firing0 : Firing := { step := step0, number := 0, a := 0, b := 1, c := 0, v := 4, length := 1, written := false }
/-- A tile whose registers are FULL of int8 elements of one shape, 1 row by 4 columns. -/
def tile8 : MatrixTile :=
  { MatrixTile.reset with regs := Vector.replicate 8 { tileReg .full 1 false with
      shape := BitVec.ofNat 20 (3 + (Fmt.code .s8).toNat * 2 ^ 16), data := [(0, 0x04030201)] } }
theorem witness_MatrixTileActs :
    (∀ t op ins, (State.reset.setLaunch 0 (matL t op ins)).launch? 0 = some (matL t op ins) ∧ (matL t op ins).acts = true) ∧
    ((matL tile8 .nop [(0, [token])]).unit 0 0 12).port 0 = [token] ∧ token.isToken = true ∧
    ((matL tile8 .nop [(3, [r4])]).unit 0 0 12).port 3 = [r4] ∧ r4.isToken = false ∧
    (let b : Binding := { target := 2, mask := false, readers := 1 }
     ({ MatrixTile.reset with binds := Vector.replicate 4 [b] } : MatrixTile).binds[3]? = some [b]) ∧
    (MatrixTile.reset.target 2).state = .empty ∧ (tile8.target 2).state = .full ∧
    (MatrixTile.reset.target 2).taken + 1 ≠ targetRecords 2 (MatrixTile.reset.target 2) ∧ (tileReg .filling 0 false).taken + 1 ≠ 0 ∧
    ({ MatrixTile.reset.target 8 with taken := 7 } : TileReg).taken + 1 = targetRecords 8 (MatrixTile.reset.target 8) ∧
    (let l := matL tile8 (.mma fire0) [(4, [step0])]
     (l.unit 0 0 12).open_ = true ∧ (l.unit 0 0 12).held = false ∧ tile8.latch = none ∧ (l.unit 0 0 12).port 4 = [step0] ∧
     firingOp (l.unit 0 0 12) = some (fire0, .mma) ∧ (step0.at 3).getLsbD 4 = false ∧ step0.isToken = false ∧
     (fire0.a ^^^ (step0.at 4).extractLsb' 0 3).toNat = 0 ∧ (fire0.b ^^^ (step0.at 4).extractLsb' 4 3).toNat = 1 ∧
     (tile8.target 0).ready = true ∧ (tile8.target 1).ready = true ∧ tile8.accFree 0 0 = true ∧
     shapeFmt (tile8.target 0).shape = .s8 ∧ shapeFmt (tile8.target 1).shape = .s8 ∧ (l.unit 0 0 12).strict = false ∧
     shapeFmt (MatrixTile.reset.target 0).shape ≠ .s8) ∧
    ({ tile8 with latch := some (step0, 0) } : MatrixTile).latch = some (step0, 0) ∧ ((rec5 [0, 0, 0, 16]).at 3).getLsbD 4 = true ∧
    ({ firing0 with written := true } : Firing).written = true ∧ 0 < (tileReg .full 1 true).readers.toNat ∧
    (let c : TileCmd := { drain := false, acc := 0, after := 0, fmt := 0, w0 := 0x0100, token := false, blk := 0 }
     ({ MatrixTile.reset with cmds := [c] } : MatrixTile).nextCmd false = some (0, c) ∧
     ({ MatrixTile.reset with cmds := [{ c with drain := true }] } : MatrixTile).nextCmd true = some (0, { c with drain := true }) ∧
     ({ MatrixTile.reset with cmds := [{ c with drain := true, token := true }] } : MatrixTile).nextCmd true =
       some (0, { c with drain := true, token := true })) ∧
    (let d : Drain := { acc := 0, fmt := 0, row := 0, rowEnd := 1, part := 0, blk := 0, integer := false }
     let l := matL { MatrixTile.reset with drain := some d } (.mma fire0) []
     ((State.reset.setLaunch 0 l).depart 0 0 0 12 [out0 (drainRecord l (l.mtile 0 0) d)] (l.mtile 0 0).resultOrd).isSome = true ∧
     ((State.reset.setLaunch 0 l).depart 0 0 0 12 [out0 token] (l.mtile 0 0).resultOrd).isSome = true) := by
  refine ⟨fun t op ins => ⟨rfl, rfl⟩, ?_⟩; decide +kernel

/-- A firing of registers of int8 and of fp32 elements: 1 + 4 + 9 + 16 is added to the element of row 0 and column 0. -/
theorem witness_FiringResults :
    (let l := matL { tile8 with firing := some firing0 } (.mma fire0) []
     (at_ l 12).here = some (l, l.unit 0 0 12) ∧ l.acts = true ∧ (l.mtile 0 0).firing = some firing0 ∧ firing0.written = false ∧
     firing0.c < 4 ∧ firing0.a < 8 ∧ firing0.b < 8) ∧
    SMap.wf (0 : Word) [] = true ∧ shapeFmt (tile8.target 0).shape = .s8 ∧ 0 < shapeRows (tile8.target 0).shape ∧ (Fmt.s8).floats = false ∧
    (Fmt.fp32).floats = true ∧ ¬ 127 < shapeRows (tile8.target 0).shape := by
  refine ⟨⟨rfl, ?_⟩, ?_⟩ <;> decide +kernel
/-- R289: an int8 dot product of (1, 2, 3, 4) with itself. -/
theorem test_mma_int8 :
    (match exec (.mma fire0) (at_ (matL { tile8 with firing := some firing0 } (.mma fire0) []) 12) with
     | .next s => (s.launch? 0).map fun l => (((l.mtile 0 0).accs[0]).data)
     | _ => none) = some [(0, 30)] := by decide +kernel

/-- The access element can take a record that is no token and not poisoned. -/
theorem breakpoint_with (i : Instr) (r s : Record) : breakpoint ((accL i r).unit 0 0 6) s = some s := breakpoint_access i r s
theorem access_with (i : Instr) (r : Record) (h : r.isToken = false) (hp : r.ctl.poison = false) :
    (accS i r).AccessReady (accL i r) ((accL i r).unit 0 0 6) r i :=
  ⟨rfl, rfl, ⟨_, _, rfl, h, breakpoint_access i _ _⟩, busy_lt i r, fun _ => hp⟩
/-- A copy of one word from byte 0 to byte 64, one whose ROWS are 0, and one into a register of the own tile. -/
def desc (rows dspace : Nat) : Record := rec5 [0, 0, 64, 0, 4, BitVec.ofNat 32 rows, 0, 0, BitVec.ofNat 32 (dspace * 2 ^ 12)]
def copyJob (r : Record) (f : CopyJob → CopyJob) : CopyJob :=
  f { desc := r.words, completion := 128, space := 0, inst := 0, x := 0, y := 0, unit := 6, started := false, row := 0, offset := 0, phase := 0
      data := [], states := [], reply := none, status := 0 }
/-- A state whose releases are at once. -/
def releasesB (i : Instr) (r : Record) : Bool :=
  let (b, t) := (accS i r).releaseWays 0 0 0 .region
  b && t.here == some (accL i r, (accL i r).unit 0 0 6) && t.focus == (accS i r).focus
/-- A descriptor that is right and one whose ROWS are 0; sets, replays and streams with their fields at the bounds; lengths 0, 1, 2^20 and above. -/
theorem witness_EngineRequests :
    ((accS (.copy (mg .global .vector)) (desc 1 0)).AccessReady (accL (.copy (mg .global .vector)) (desc 1 0))
       ((accL (.copy (mg .global .vector)) (desc 1 0)).unit 0 0 6) (desc 1 0) (.copy (mg .global .vector)) ∧
     (accS (.copy (mg .global .vector)) (desc 0 0)).AccessReady (accL (.copy (mg .global .vector)) (desc 0 0))
       ((accL (.copy (mg .global .vector)) (desc 0 0)).unit 0 0 6) (desc 0 0) (.copy (mg .global .vector))) ∧
    ((accS (.binApp (mg .global .vector)) r4).AccessReady (accL (.binApp (mg .global .vector)) r4) (accU (.binApp (mg .global .vector))) r4
       (.binApp (mg .global .vector)) ∧
     (accS (.binRpl (mg .global .vector)) r4).AccessReady (accL (.binRpl (mg .global .vector)) r4) (accU (.binRpl (mg .global .vector))) r4
       (.binRpl (mg .global .vector)) ∧
     (accS (.cfg 0 1 (mg .global .vector)) r4).AccessReady (accL (.cfg 0 1 (mg .global .vector)) r4) (accU (.cfg 0 1 (mg .global .vector))) r4
       (.cfg 0 1 (mg .global .vector)) ∧
     (accS (.spaceRetire (mg .global .vector)) r4).AccessReady (accL (.spaceRetire (mg .global .vector)) r4)
       (accU (.spaceRetire (mg .global .vector))) r4 (.spaceRetire (mg .global .vector))) ∧
    (∀ n, n = 1 ∨ n = 16 → IsAt (accL .nop r4) 0 0 (mg .global .vector) n (effectiveAddr (accL .nop r4) (mg .global .vector) 0) (.glob 0)) ∧
    copyBad true (accL .nop r4) (desc 1 0).words = none ∧ copyBad true (accL .nop r4) (desc 0 0).words = some 5 ∧
    copyBad false (accL .nop r4) (desc 1 2).words = some 8 ∧ copyBad true (accL .nop r4) (desc 1 2).words = none ∧
    releasesB (.copy (mg .global .vector)) (desc 1 0) = true ∧ releasesB (.binApp (mg .global .vector)) r4 = true ∧
    (accS .nop (desc 1 0)).clashes (accU .nop) 0 0 0 6 (copyRanges (desc 1 0).words) = false ∧
    (SMap.getD (accS .nop r4).copies ((accL .nop r4).pageOf 0 0) []).length < 16 ∧
    ((r4.at 0).extractLsb' 0 3 : BitVec 3) ≠ 0 ∧ (((rec5 [8]).at 0).extractLsb' 0 3 : BitVec 3) = 0 ∧
    ((rec5 []).pair 2).toNat < 2 ^ 52 ∧ ((rec5 []).pair 2).toNat % 4 = 0 ∧ ((rec5 []).pair 4).toNat < 2 ^ 52 ∧ ((rec5 [0, 1]).at 1).getLsbD 0 = true ∧
    (r4.w 1).toNat = 2 ∧ ((rec5 [0, 0x100000]).w 1).toNat = 2 ^ 20 ∧ 2 ^ 20 < ((rec5 [0, 0x100001]).w 1).toNat ∧ ((rec5 []).w 1).toNat = 0 ∧
    pageLevel r4 ≠ 3 ∧ ((r4.at 0).extractLsb' 14 18 : BitVec 18) = 0 := by
  refine ⟨⟨access_with _ _ (by decide +kernel) (by decide +kernel), access_with _ _ (by decide +kernel) (by decide +kernel)⟩,
    ⟨access_ready _, access_ready _, access_ready _, access_ready _⟩, ?_, ?_⟩
  · rintro n (rfl | rfl) <;> exact ⟨by decide +kernel, by decide +kernel, by decide +kernel⟩
  · decide +kernel

/-- A part whose page 0 has a copy at the head of its queue. -/
def copyS (r : Record) (f : CopyJob → CopyJob) : State := { (accS .nop r4) with copies := [(0, [copyJob r f])] }
def kelpieJob (f : KelpieJob → KelpieJob) : KelpieJob :=
  f { replay := false, set := 64, record := r4, space := 0, scope := .region, inst := 0, x := 0, y := 0, unit := 6, id := 0, block := 5, opIndex := 0
      desc := [], done := 0, total := 1, asked := false, reply := none, stall := none, status := 0, ending := false }
def ok1 : Reply := .ok [1] [true] true false
def retire0 : Retire := { space := 5, completion := 64, reqSpace := 0, scope := .dev, inst := 0, die := 0, worked := false }
theorem witness_EnginesAct :
    (∀ r f, (copyJob r f).inst = 0 → (copyS r f).copyHead 0 = some ((accL .nop r4).imaged, copyJob r f)) ∧
    (let j := copyJob (desc 1 0) id
     j.mayRun (accL .nop r4) = true ∧ j.started = false ∧ descDSpace j.desc ≠ 3 ∧ j.row < descRows j.desc ∧ j.misfit (accL .nop r4) = false ∧
     descCount j.desc = false ∧ endCanonical (descSSpace j.desc) (endByte (descSSpace j.desc) (descSrc j.desc) (j.desc.get 6) j.row j.offset) = true ∧
     endCanonical (descDSpace j.desc) (endByte (descDSpace j.desc) (descDst j.desc) (j.desc.get 7) j.row j.offset) = true ∧
     endCanonical 0 (2 ^ 52) = false ∧ endCanonical 0 (2 ^ 52 - 1) = true) ∧
    (let j := copyJob (rec5 [0, 0, 0, 0, 16384, 1, 0, 0, 0x3000]) id
     descDSpace j.desc = 3 ∧ j.register = (0, 0, 0) ∧ targetRecords 0 TileReg.reset * 64 = descRows j.desc * descBytes j.desc ∧
     ((accL .nop r4).mtile 0 0).target 0 = TileReg.reset ∧ TileReg.reset.state = .empty ∧ j.misfit (accL .nop r4) = false ∧
     targetRecords 0 TileReg.reset * 64 ≠ descRows (desc 1 3).words * descBytes (desc 1 3).words ∧ (tileReg .full 1 false).state ≠ .empty) ∧
    stopStatus ok1 = none ∧ stopStatus (.trap .unmapped 0 0) = some 1 ∧
    (let s := (accS .nop r4).setDie 0 { State.reset.die 0 with kelpie := [kelpieJob id] }
     (s.die 0).kelpie = [kelpieJob id] ∧ s.launch? (kelpieJob id).inst = some (accL .nop r4) ∧ (kelpieJob id).replay = false ∧
     (kelpieJob id).desc = [] ∧ (kelpieJob id).done < (kelpieJob id).total ∧ (kelpieJob fun j => { j with desc := [1], done := 1 }).total ≤ 1 ∧
     (accL .nop r4).resident = true) ∧
    (let s := { accS .nop r4 with retires := [retire0] }
     s.retires[0]? = some retire0 ∧ s.spaceLive 5 = false ∧ s.spaceLive 0 = true ∧
     (let s := lineS State.reset
      isOk (s.performNow (mkReq (.ring 0 2) 0 (.glob 64) (.store .s [BitVec.ofNat 32 (2 ^ 31)]) .dev 0 (0, 0) 0)) = true)) := by
  refine ⟨?_, ?_⟩
  · intro r f h
    show (((copyS r f).launch? (copyJob r f).inst).map fun l => (l.imaged, copyJob r f)) = _
    rw [h]; rfl
  · decide +kernel

/-- A page with its root, its tables and its entry, whose frame has a count; a page of 2 MiB beside it. -/
def tabled (leaf : DWord) (level1 : DWord) (count : Byte) : State :=
  let s := (((lineS State.reset).writeWord 0 0x1001).writeWord 0x1000 0x2001).writeWords 0x2000 [lo32 level1, hi32 level1]
  let s := (s.writeWords 0x3000 [lo32 leaf, hi32 leaf]).writeByte 0x10000 count
  s.setDie 0 { s.die 0 with ftBase := 0x10000, ftFrames := 64, frCtl := 0x101, frBase := 64, tbCtl := 1, tbBase := 64
                            cow := [{ space := 0, page := 0, writes := [], frame := none, blocks := [] }] }
def takes {α : Type} : Take α → Bool
  | .got _ _ => true
  | _ => false
theorem witness_PageOperations :
    ((accS (.pageMap (mg .global .vector)) (rec5 [])).AccessReady (accL (.pageMap (mg .global .vector)) (rec5 []))
      ((accL (.pageMap (mg .global .vector)) (rec5 [])).unit 0 0 6) (rec5 []) (.pageMap (mg .global .vector)) ∧
     (accS (.faultFail (mg .global .vector)) (rec5 [])).AccessReady (accL (.faultFail (mg .global .vector)) (rec5 []))
      ((accL (.faultFail (mg .global .vector)) (rec5 [])).unit 0 0 6) (rec5 []) (.faultFail (mg .global .vector))) ∧
    pageLevel (rec5 []) = 0 ∧ ((rec5 []).at 0).extractLsb' 14 18 = (0 : BitVec 18) ∧ pageLevel (rec5 [0x3000]) = 3 ∧
    (effectiveAddr (accL .nop (rec5 [])) (mg .global .vector) 0).toNat = 0 ∧
    ((accS .nop (rec5 [])).releaseWays 0 0 0 .region).1 = true ∧
    [pageMap, pageUnmap, pageShare, pageProt, tlbInvalidate, faultResume, faultFail].all
      (fun op => (op 0 0 0 (rec5 []) (accS .nop (rec5 []))).2.isSome) = true ∧
    (let s := tabled 0x201 0x3001 1
     s.find 0 0 0 = .entry 0x3000 0x201 ∧ (0x201 : DWord) ≠ (rec5 []).pair 4 ∧ pteV 0x201 = true ∧ s.find 0 0 1 = .level 0x3001 ∧
     s.find 0 (2 ^ 30) 0 = .missing ∧ (tabled 3 0x3001 1).find 0 0 0 = .badPte 3 ∧ pteV 0 = false ∧ (tabled 0 0x3001 1).find 0 0 0 = .entry 0x3000 0 ∧
     pteV 0x209 = true ∧ localRun 0x209 = [] ∧ s.pageHeld 0 0 0 0x10000 [] = false ∧ vaDie ((token.setWords 0 [0, 0, 0, 2 ^ 18]).pair 2).toNat ≠ vaDie 0) ∧
    (let s := tabled 0x211 0x3001 2
     s.needsFrame 0 = true ∧ (s.die 0).taking = false ∧ (s.die 0).taken = none ∧ (s.die 0).frCtl.getLsbD 0 = true ∧
     (s.die 0).frSlot 0 = some 64 ∧ ringSlot (s.die 0).tbBase (field (s.die 0).tbCtl 0 20) 0 = some 64 ∧ s.inReset = false ∧
     s.frameCount 0 0 ≠ 0 ∧ s.frameCount 0 1 = 0 ∧ (s.die 0).ftFrames.toNat = 64 ∧
     s.walk 0 0 0 = .leaf 0x3000 0 0x211 ∧ 1 < s.frameCount 0 (leafFrame 0x211) ∧ pteCow 0x211 = true ∧ pteCow 0x201 = false ∧
     ¬ 1 < (tabled 0x211 0x3001 1).frameCount 0 (leafFrame 0x211)) ∧
    (let s := tabled 0x211 0x291 2
     s.walk 0 0 0 = .leaf 0x2000 1 0x291 ∧ takes (s.takeBlock 0) = true) := by
  refine ⟨⟨access_with _ _ (by decide +kernel) (by decide +kernel), access_with _ _ (by decide +kernel) (by decide +kernel)⟩, ?_⟩
  decide +kernel

/-- A region that loads: its loader stands at word 1 of a stream of 64 words at address 0, in a group or outside one. -/
def loadL (f : Loader → Loader) : Launch :=
  { placedLaunch with phase := .loading, units := [], record := { placedRecord with pri := 2 }, loader := some (f { Loader.start 0 64 0 .dev none with pos := 1, inGroup := true }) }
def loadS (f : Loader → Loader) : State :=
  { ((lineS State.reset).setLaunch 0 (loadL f)).focusAt 0 0 0 0 0 0 with featureTaken := true, featureOn := (Vector.replicate 4 0).set 0 0x7FF }
def fetchedOk : Fetched → Bool
  | .ok _ ws => ws.length == 1
  | _ => false
/-- A group that is right: a cell with a sink, and a commit as the last word of its stream. -/
def sinkWrites : List Staged :=
  let w : BitVec 48 := (encodeOp (.sink .plain { shift := 15, a := 0, base := 0, space := .ownTile, scope := .cell, size := .word, hint := .dflt,
                                                 imm8 := 0 })).getD 0
  [(0, w.extractLsb' 0 16), (1, w.extractLsb' 16 16), (2, w.extractLsb' 32 16), (4, (1 : BitVec 16)), (6, 1)].map fun p =>
    { index := 1, px := 0, py := 0, cmd := .fieldWrite 0 7 (BitVec.ofNat 4 p.1) p.2, data := [] }
/-- The group's writes and routes, as the commit reads them. -/
def blame (s : State) (l : Launch) (ld : Loader) : Blame :=
  let writes := s.writes ld.staged
  { writers := writes.foldl (fun (m : SMap Nat) w => SMap.insert m (unitKey w.2.1 w.2.2.1 w.2.2.2.1 * 16 + w.2.2.2.2.1) w.1) ld.writers
    writes := writes, routes := s.stagedRoutes l ld.staged, commit := ld.pos }
theorem witness_LoaderCommands :
    (∀ f, (loadS f).launch? (loadS f).focus.inst = some (loadL f) ∧ (loadL f).loads = true) ∧ (loadL id).loading?.isSome = true ∧
    (let ld := (loadL id).loading?.getD (Loader.start 0 0 0 .dev none)
     ld.inGroup = true ∧ ld.pos + 1 < ld.length ∧ routeCommands ld.staged = [] ∧ ld.failures = [] ∧
     ({ ld with pos := 63 } : Loader).length ≤ 63 + 1 ∧ ({ ld with inGroup := false } : Loader).inGroup = false ∧
     routeCommands [{ index := 0, px := 0, py := 0, cmd := .routeHead 0 0 0 1 0 0, data := [] }] ≠ [] ∧
     (0 : BitVec 4).toNat ≤ (loadL id).record.width.toNat ∧ (loadL id).record.width.toNat < (1 : BitVec 4).toNat ∧
     fetchedOk ((loadS id).streamWords ld 2 1) = true) ∧
    (let f := fun (ld : Loader) => { ld with pos := 63, staged := sinkWrites }
     let l := loadL f
     let ld := l.loading?.getD (Loader.start 0 0 0 .dev none)
     let b := blame (loadS f) l ld
     let new := (l.withWrites b.writes).withRoutes b.routes
     worstFail (ld.failures ++ (loadS f).groupFails l new ld.staged b true false) = none ∧ worstFail (bankFails l new b) = none ∧
     l.drained b (commitBanks (bankChanges l new b) ld.staged) = true ∧ ((loadS f).departWays 0 (bankChanges l new b)).1 = true) ∧
    (let f := fun (ld : Loader) => { ld with pos := 63 }
     let l := loadL f
     let ld := l.loading?.getD (Loader.start 0 0 0 .dev none)
     let b := blame (loadS f) l ld
     (worstFail (ld.failures ++ (loadS f).groupFails l ((l.withWrites b.writes).withRoutes b.routes) ld.staged b true false)).isSome = true) := by
  refine ⟨fun f => ⟨rfl, rfl⟩, ?_⟩; decide +kernel

/-- A launch record that passes its checks. -/
def goodRec : LaunchRec :=
  { placedRecord with domain := 2, cfgLen := 4, trapEntries := 8, kEntries := 1, cfgAddr := 0, doneAddr := 64, statusAddr := 128, kennelAddr := 128, trapAddr := 128 }
def waitingL : Launch := { Launch.new goodRec .child none 0 with phase := .waiting }
theorem witness_LaunchesArrive :
    (let s := (lineS State.reset).setQueue 0 { HostQueue.reset with walking := true, phase := .offer, space := 0 }
     s.noRoom = false ∧ (s.queue 0).phase = .offer ∧ (s.queue 0).stall = none ∧ (s.queue 0).failed = false ∧ isOk (s.readRecord 0 0) = true) ∧
    decodeNode (execLaunchAccept.nodeBits [0x1000000, 0, 0, 0, 0, 0, 0, 0]) = some (.walkRun { node 0 with scope := .cell }) ∧
    goodRec.reportable = true ∧ ({ goodRec with doneAddr := 2 } : LaunchRec).reportable = false ∧ goodRec.ok false = true ∧ goodRec.ok true = true ∧
    ({ goodRec with policy := 3 } : LaunchRec).ok false = false ∧ State.reset.everFits waitingL = true ∧
    State.reset.everFits { waitingL with record := { goodRec with dies := 0, width := 15, height := 7 }, allowed := some (0, 0, 0, 0) } = false ∧
    (let s := State.reset.setDie 0 { State.reset.die 0 with peerQ := [(List.replicate 16 0, 7)] }
     s.noRoom = false ∧ (s.die 0).peerQ = [(List.replicate 16 0, 7)]) ∧
    ({ State.reset with featureTaken := true, featureOn := (Vector.replicate 4 0).set 0 0x80 } : State).feature 7 = true ∧
    State.reset.featureTaken = false ∧
    (let c : Child := { record := goodRec, addr := 0, parent := 0, parentSpace := 0, px := 0, py := 0, w := 0, h := 0 }
     let s := State.reset.setDie 2 { State.reset.die 2 with children := [c] }
     s.childTurn = 0 ∧ (∀ j, j < 2 → (s.die j).children = []) ∧ (s.die 2).children = [c]) ∧
    (let s := (lineS State.reset).setLaunch 0 waitingL
     s.waitingOrder = [] ++ (0, waitingL) :: [] ∧ s.firstFit 0 waitingL [] = some (0, 0) ∧ waitingL.phase = .waiting ∧
     isOk (s.loadWords waitingL.record.space waitingL.record.baseBlk.toNat 32) = true) ∧
    (let l := { waitingL with phase := .away }
     (State.reset.setLaunch 0 l).waitingOrder = [(0, l)]) ∧
    ({ State.reset with retires := [{ retire0 with space := 0 }] } : State).retires.any (·.space == goodRec.space) = true := by
  decide +kernel

/-- A queue that is idle, one whose walk stands at a node in each of its phases, and one that waits at a successor of 0. -/
theorem witness_WalksGo :
    (let s : State := { State.reset with featureTaken := true }
     (s.queue 3).walking = false ∧ s.featureTaken = true ∧ s.inReset = false ∧ State.reset.featureTaken = false) ∧
    (let w : HostQueue := { HostQueue.reset with walking := true, phase := .fetch, node := 64, words := [0, 0, 0, 0, 0, 0, 0, 0] }
     let s := ((lineS State.reset).setQueue 0 w).focusAt 0 0 0 0 0 0
     s.focus.queue = 0 ∧ s.queue 0 = w ∧ w.walking = true ∧ w.stall = none ∧ w.phase = .fetch ∧
     ({ w with phase := .tail 8 } : HostQueue).phase = .tail 8 ∧ w.failed = false ∧
     isOk (s.storeWords w.space w.node.toNat [(w.words.getD 0 0)]) = true ∧ isOk (s.loadWords w.space (w.node.toNat + 8) 2) = true ∧
     isOk (s.loadWords w.space (w.node.toNat + 16) 2) = true ∧ ok1 = .ok [1] [true] true false) := by decide +kernel

/-- A part whose first 64 KiB of space 0 are mapped, readable and writable. -/
def mapped : State := (tabled 0x20203 0x3001 1).setDie 0 { (tabled 0x20203 0x3001 1).die 0 with cow := [] }
/-- A part with time at a quantum's end. -/
def dueS (ls : SMap Launch) : State := { State.reset with now := 65536, launches := ls }
/-- Such a part once its launches have aged. -/
def aged (ls : SMap Launch) : State := ({ dueS ls with quantumMark := (dueS ls).nextQuantum } : State).age.compactOn
/-- A region whose element has YIELD set and a record, in a phase; and one that has nothing in it. -/
def yieldL (phase : Phase) (kEntries : BitVec 16) : Launch :=
  { region [(0, { withOp .nop with fields := ((withOp .nop).fields.set 3 4), ins := [(0, [r4])] })] [wire 0 0 1] with
    phase := phase, record := { placedRecord with kEntries := kEntries } }
def quietL (phase : Phase) : Launch :=
  { placedLaunch with phase := phase, units := [], context := some (0, 1), kennel := { placedLaunch.kennel with ready := true } }
theorem witness_SchedulerActs :
    ((dueS []).quantumDue = true ∧ State.reset.quantumDue = false ∧ (aged []).toCompact = none ∧ (aged []).blockedFirst 3 = none) ∧
    (let blocked := { waitingL with record := { goodRec with width := 15, height := 7 }, blocked := 8 }
     let placed := { placedLaunch with record := goodRec }
     let v := aged [(0, placed), (1, blocked)]
     (v.blockedFirst 3).isSome = true ∧ v.toCompact = none) ∧
    (let apart := { waitingL with record := { goodRec with width := 6, height := 2, seamOk := true }, blocked := 8 }
     let placed := fun (x y : Nat) => { placedLaunch with record := goodRec, px := x, py := y }
     let v := aged ([(0, apart)] ++ [(1, placed 4 2), (2, placed 11 2), (3, placed 4 5), (4, placed 11 5), (5, placed 8 2), (6, placed 8 5)])
     v.toCompact.isSome = true ∧ (v.toCompact.map fun e => ((v.compact e.1 e.2).blockedFirst 3).isSome) = some true) ∧
    (let l := yieldL .preempting 1
     let s := State.reset.setLaunch 0 l
     s.launch? 0 = some l ∧ l.phase = .preempting ∧ l.fatal = none ∧ (l.unit 0 0 0).port 0 = [r4] ∧ (l.unit 0 0 0).held = false ∧
     (l.unit 0 0 0).yields = true ∧
     (let entry : KEntry := { offset := 0, kind := .yieldEntry, x := 0, y := 0, unit := 0, port := 0, seq := 0, granule := 0, opid := 0, record := r4
                              access := none, req := none, failed := false, out := false, words := [] }
      (s.kennelPut 0 entry).isSome = true ∧ ((State.reset.setLaunch 0 (yieldL .preempting 0)).kennelPut 0 entry).isSome = false)) ∧
    (∀ p : Phase, ((mapped.setLaunch 0 (quietL p)).launch? 0).isSome = true) ∧
    (let l := quietL .preempting
     let s := mapped.setLaunch 0 l
     s.quiescent 0 l = true ∧ l.context = some (0, 1) ∧ (s.parkAll 0).launch? 0 = some l ∧ (s.parkAll 0).quiescent 0 l = true ∧
     (∀ e ∈ l.units, e.2.flight = []) ∧ ((s.parkAll 0).flushRegionWays 0 (l.tiles.map (·.1))).1 = true) ∧
    (let l := { quietL .running with wanted := true }
     l.wanted = true ∧ l.phase = .running ∧ l.cfgs = [] ∧ l.fatal = none ∧ l.moving = none ∧
     ({ l with cfgs := [Loader.start 0 1 0 .dev none] } : Launch).cfgs ≠ [] ∧
     ({ mapped with now := 0x100000 } : State).preemptWait.toNat ≤ ({ mapped with now := 0x100000 } : State).now - l.preemptAt) ∧
    (let l := yieldL .preempting 1
     (State.reset.setLaunch 0 l).quiescent 0 l = false) ∧
    (let l := { quietL .restoring with saved := none }
     (State.reset.setLaunch 0 l).presenting 0 l = false ∧ l.saved = none) ∧
    (let s := State.reset.setLaunch 0 placedLaunch
     s.killing = none ∧ s.inReset = false ∧ s.launches = [] ++ (0, placedLaunch) :: [] ∧ placedLaunch.record.doneAddr = 0 ∧
     placedLaunch.phase = .running ∧ (∀ e ∈ s.launches, e.2.record.doneAddr = 4 → e.2.phase = .completing) ∧ waitingL.phase = .waiting) := by
  refine ⟨?_, ?_, ?_, ?_, ?_, ?_, ?_, ?_, ?_, ?_⟩
  · decide +kernel
  · decide +kernel
  · decide +kernel
  · decide +kernel
  · intro p; rfl
  all_goals decide +kernel
/-- The context of a quiet region is written. -/
theorem witness_SchedulerActs_context :
    (let s := mapped.setLaunch 0 (quietL .preempting)
     isOk (s.writeContext (quietL .preempting) 0)) = true := by decide +kernel

/-- A die with a command in progress. -/
def dieS (f : Die → Die) : State := State.reset.setDie 0 (f Die.reset)
theorem witness_DieCommands :
    (let x : Die := { Die.reset with domOp := 1, wbLen := 1 }
     (dieS fun _ => x).die 0 = x ∧ x.rangeOk 0 = true ∧ ({ x with wbLen := 0 } : Die).rangeOk 0 = false ∧ ({ x with wbBase := 64 } : Die).rangeOk 0 = false ∧
     ({ x with wbLen := 0x7FFFFFFF } : Die).rangeOk 0 = true) ∧
    (let x : Die := { Die.reset with domOp := 2 }
     x.phase = .idle ∧ x.stagedOk = true ∧ x.anyAffected = false ∧ ({ x with domMapStaged := 1 } : Die).stagedOk = false ∧
     ({ x with domMapStaged := 1, domCfgStaged := Vector.replicate 8 domCfg0 } : Die).stagedOk = true ∧
     ({ x with domMapStaged := 1, domCfgStaged := Vector.replicate 8 domCfg0 } : Die).anyAffected = true) ∧
    (let x : Die := { Die.reset with domOp := 2, phase := .frozen, domMapStaged := 0x1111111111111111,
                                     domCfgStaged := (Vector.replicate 8 domCfg0).set 1 0x8100000000000000 }
     let s := dieS fun _ => x
     let rq := globReq (.load .c 1)
     s.stillPerforming 0 = false ∧ s.switchBlocked 0 = false ∧
     (s.setSlice 0 { s.slice 0 with waiters := [rq] }).switchBlocked 0 = true) ∧
    (let rq := globReq (.load .plain 1)
     (dieS fun d => { d with catchRefused := [rq] }).die 0 |>.catchRefused[0]?) = some (globReq (.load .plain 1)) ∧
    (globReq (.load .plain 1)).retryAt ≤ State.reset.now := by
  decide +kernel

/-- The window before and in a reset, over mapped memory and over a page that is not; the three kinds of bring-up; histograms of both kinds. -/
theorem witness_HostAndPlatform :
    ({ State.reset with warm := true } : State).inReset = true ∧ State.reset.inReset = false ∧
    (let u := mapped
     (∀ o : BitVec 14, o = 0x3FF8 → (u.swBase + o.zeroExtend 64).toNat % 8 = 0 ∧ (u.swBase + o.zeroExtend 64).toNat < 2 ^ 52) ∧
     isOk (u.performNow (outsideReq 0 (u.swBase + 8) (.load .plain 2))) = true ∧
     isOk (u.performNow (outsideReq 0 (u.swBase + 8) (.store .plain [1, 2]))) = true ∧
     isOk (u.performNow (outsideReq 0 (u.swBase + 8) (.store .s [1]))) = true ∧
     isOk (u.performNow (outsideReq 0 (u.swBase + 8) (.storeEmpty [1]))) = true) ∧
    (match State.reset.performNow (outsideReq 0 0x4000 (.load .plain 1)) with | .fault _ => true | _ => false) = true ∧
    field State.reset.swCtl 0 2 = 0 ∧ State.reset.featureLocked = false ∧
    ((0xFFFFFFFFFFFFC : DWord).toNat < 2 ^ 52 ∧ (0xFFFFFFFFFFFFC : DWord).toNat % 4 = 0 ∧
      (0xFFFFFFFFFFFFC : DWord).toNat / 4 % 16 + (Machine.OutsideOp.home (.read 1)).words ≤ 16) ∧
    State.reset.launches = [] ∧ (State.reset.resetState ≠ 1 ∧ State.reset.resetState ≠ 2) ∧
    (let s : State := { State.reset with resetState := 2 }
     s.resetState = 2 ∧ s.inReset = true ∧ field (2 : DWord) 0 2 = 2 ∧ field (1 : DWord) 0 2 = 1 ∧ State.reset.resetState = 3 ∧
     State.reset.warm = false) ∧
    (let s := { mapped with attBusy := true, attAddr := 0x1000 }
     s.attBusy = true ∧ 0 < s.attSigs.toNat ∧ s.attAddr.toNat % 4096 = 0 ∧ s.attAddr.toNat < 2 ^ 52 ∧
     ({ s with attSigs := 0 } : State).attSigs = 0) ∧
    (let h : Histogram := { Histogram.reset with config := 0x8000000000000001 }
     h.takes 1 0 = true ∧ h.takes 2 0 = false ∧ h.config.getLsbD 62 = false ∧
     ({ h with config := 0xC000000000000001 } : Histogram).takes 1 0 = true ∧ (0xC000000000000001 : DWord).getLsbD 62 = true) ∧
    (let s : State := { State.reset with now := 65536 }
     s.nextPower ≤ s.now ∧ s.now < s.nextPower + 65536) := by
  refine ⟨by decide +kernel, by decide +kernel, ⟨?_, by decide +kernel⟩, ?_⟩
  · intro o h; rw [h]; decide +kernel
  · decide +kernel

theorem witness_EncodeDecodeRoundTrip : (Instr.ffma { ty := .bf16, d := 8, a := 0, b := 4, c := 12, len := .four, round := .rtz, sat := false }).wf = true ∧
    (encode (.ffma { ty := .bf16, d := 8, a := 0, b := 4, c := 12, len := .four, round := .rtz, sat := false })).isSome = true ∧
    (Instr.walkRun (node 64)).wf = true ∧ (encode (.walkRun (node 64))).isSome = true ∧ (encode (.carry 8)).isSome = true ∧
    (encode (.fieldWrite 63 15 15 0xFFFF)).isSome = true := by decide +kernel
theorem witness_DecodedWordsAreCanonical : (decodeOp 0).toOption.isSome = true ∧ (decodeSlot 0x00086000).isSome = true ∧
    (decodeCommand 0x84000000).isSome = true ∧ (decodeNode (BitVec.ofNat 256 (2 ^ 198 + 2 * 2 ^ 24 + 3 * 2 ^ 21))).isSome = true := by decide +kernel

def stepsTo (t : Task) (s : State) : Bool := s.tasks == [t] && s.pick == some t
/-- One task of each kind at hand: an operation, an operator, an event, a command, a node and an input; and none after reset. -/
theorem witness_StepRunsDecoded : State.reset.tasks = [] ∧
    stepsTo (.op 0 0 0 0 0) (State.reset.withFetchWord 48 0x0E0010000642) = true ∧
    stepsTo (.op 0 0 0 8 0) (State.reset.withFetchWord 16 0x4000) = true ∧
    stepsTo (.load 0) (State.reset.withFetchWord 32 0x84000000) = true ∧
    stepsTo (.walk 0) (State.reset.withFetchWord 256 (2 ^ 198 + 2 * 2 ^ 24 + 3 * 2 ^ 21)) = true ∧
    stepsTo (.input 0) { State.reset with inputs := [.warmReset] } = true ∧
    stepsTo (.event (.handlerDeliver 0)) (State.reset.setLaunch 0 { placedLaunch with handlerQ := [r4] }) = true ∧
    (let s := State.reset.withFetchWord 48 0x0E0010000642
     (s.launch? 0).isSome = true ∧ ((s.launch? 0).map fun l =>
       decodeTableWord 48 ((l.unit 0 0 0).fld 2 ++ (l.unit 0 0 0).fld 1 ++ (l.unit 0 0 0).fld 0).toNat) = some (some (.setp .lt 1 (.inl 100)))) ∧
    (let s := State.reset.withFetchWord 16 0x4000
     ((s.launch? 0).map fun l => decodeTableWord 16 ((l.unit 0 0 8).fld 2 ++ (l.unit 0 0 8).fld 0).toNat) = some (some .merge)) ∧
    (let s := State.reset.withFetchWord 32 0x84000000
     ((s.launch? 0).bind fun l => l.loading?.map fun ld =>
       match (s.focusAt 0 0 0 0 0 0).streamWords ld ld.pos 1 with | .ok _ ws => ws | _ => []) = some [0x84000000]) ∧
    (let s := State.reset.withFetchWord 256 (2 ^ 198 + 2 * 2 ^ 24 + 3 * 2 ^ 21)
     (s.queue 0).phase = .fetch ∧ (s.queue 0).node.toNat % 32 = 0 ∧ canonical (s.queue 0).node = true ∧ (s.queue 0).failed = false ∧
     (match (s.focusAt 0 0 0 0 0 0).loadWords (s.queue 0).space (s.queue 0).node.toNat 8 with
      | .ok _ ws => (decodeTableWord 256 (execLaunchAccept.nodeBits ws).toNat).isSome
      | _ => false) = true) ∧
    (match exec .warmReset { State.reset with inputs := [], windowHeld := false } with | .next t => t.windowHeld | _ => true) = false := by
  decide +kernel

theorem witness_MemoryReadsBack : State.reset.Canonical := ⟨rfl, rfl, rfl, rfl, rfl, rfl⟩
theorem witness_StepKeepsMemoryCanonical : State.reset.Canonical ∧
    (match step State.reset with | .next _ => true | _ => false) = true := ⟨⟨rfl, rfl, rfl, rfl, rfl, rfl⟩, rfl⟩
/-- The lines of 4 KiB of space 0 from address 0 on, in their slices. -/
def linesS : State :=
  (List.range 32).foldl (fun (s : State) k =>
    let line : Line := { words := List.replicate 32 0, full := List.replicate 32 true, bad := List.replicate 32 false,
                         parked := [false, false], releases := [none, none], writable := true, dirty := false, uncached := false, pa := 128 * k }
    let sl := s.homeSlice (128 * k)
    s.setSlice sl { s.slice sl with lines := SMap.insert (s.slice sl).lines (lineKey 0 (128 * k)) line }) State.reset
/-- The report's words can all be written at a page that the slices hold. -/
theorem witness_HostAndPlatform_report :
    isOk (linesS.storeReleased 0 0 ({ linesS with attBusy := true, attAddr := 0 } : State).attestation) = true := by decide +kernel
/-! ### More witnesses: the clauses for what waits, what is misfit, and what traps -/

theorem witness_HomesServe_order :
    (let rq := tileReq (.load .plain 1)
     let l := tileL [rq] [rq, rq]
     let s := State.reset.setLaunch 0 l
     s.parkOwes (.tile 0 0 0) rq.key = false ∧ (s.modTile 0 0 0 fun t => { t with reqs := t.reqs.eraseIdx 0 }).savedReply (.tile 0 0 0) rq = none ∧
     (let saved := s.modTile 0 0 0 fun t => { t with replies := [(rq.party, rq.seq, rq.key, ok1)] }
      (saved.savedReply (.tile 0 0 0) rq).isSome = true) ∧
     1 = (l.tile 0 0).reqs.length + 0 ∧ (∀ b ∈ rq.banks, NSet.has (l.tile 0 0).closed b = false) ∧ (∀ r ∈ (l.tile 0 0).network.take 0, rq.behind r = false)) ∧
    (let rq := globReq (.load .w 1)
     let s := sliceS [rq]
     let sl := s.homeSlice 64
     s.replaysAfter rq = false ∧ s.parkOwes (.slice sl) rq.granule = false ∧ s.savedReply (.slice sl) rq = none ∧
     (∀ r ∈ (s.slice sl).reqs.take 0, r.granule ≠ rq.granule)) := by decide +kernel
theorem witness_ParkAndUnpark_owes :
    (let s := sliceS []
     s.parkOwes (homeOf (s.homeSlice 64)) 1 = false ∧ (s.line? (s.homeSlice 64) (granuleSpace 1) (granuleVa 1)).isSome = true ∧
     s.line? (s.homeSlice 64) (granuleSpace 4096) (granuleVa 4096) = none) := by decide +kernel
theorem witness_SliceEvents_rest :
    (let rq := globReq (.load .plain 1)
     let x : Slice := { Slice.reset with missing := [rq], fills := [(rq.seq, 0, true, false)] }
     let v := State.reset.setSlice 0 x
     (x.missing.takeWhile fun r => r.seq != rq.seq) = [] ∧ (v.makeRoom 0 0).isSome = true ∧ x.lines.length < 131072 ∧
     (∀ r ∈ x.quota.take 0, r.inst ≠ rq.inst)) ∧
    (let rq := globReq (.load .plain 1)
     let s := State.reset.setSlice 0 { Slice.reset with reqs := [rq] }
     (s.onLinks (homeOf 0))[0]? = some rq ∧ rq.own = false ∧ rq.resends < 16 ∧ 16 ≤ ({ rq with resends := 16 } : Req).resends) ∧
    ((State.reset.report 2 7 0 1 0 0 0).reports[0]?.map (·.1)) = some 2 ∧
    (∀ v ∈ ([{ slice := 0, req := globReq (.store .f [1]) }] : List WalkReq).take 0, v.req.party.sameAccess (globReq (.store .f [1])).party = false) ∧
    (let g : Granule := { words := [], readers := 1, maskMode := false, gen := 0, inst := 0, since := 0, laggard := false }
     g.laggard = false) := by decide +kernel
theorem witness_CountingSource_break :
    (let l := cntL { UnitState.reset.src with running := false } true [(1, [r4])]
     (l.unit 0 0 7).port 1 = [r4] ∧ breakpoint (l.unit 0 0 7) r4 = some r4 ∧ l.halting = false ∧
     breakpoint { l.unit 0 0 7 with fields := (l.unit 0 0 7).fields.set 3 1 } r4 = none ∧
     ({ l with halting := true } : Launch).halting = true) := by decide +kernel
theorem witness_StreamsMove_idle :
    (let l := sinkL (.sink .plain (mg .global .word)) r4 { UnitState.reset.sink with slots := 4, index := 5 }
     l.sinkIdle 0 0 7 (l.unit 0 0 7) = true) ∧
    (let i : Instr := .sink .plain (mg .global .word)
     let a := access i (.ok [] [] true false)
     let l := region [(7, { withOp i with flight := [a], nextId := 1 })] []
     (l.unit 0 0 7).flight.find? (fun b => b.id == 0) = some a ∧ (l.unit 0 0 7).fields ≠ UnitState.reset.fields ∧ a.record.isToken = false ∧
     a.trapped = false ∧ a.answered = true ∧ (∀ q ∈ a.lanes, q.line? = none) ∧ a.trap? = none) := by decide +kernel
/-- The region's last step, and a ring that a fatal error has ended. -/
theorem witness_RegionsEnd_fatal :
    (let l := endL fun l => { l with phase := .completing, stage := 3, fatal := some 64 }
     l.fatal = some 64 ∧ l.phase = .completing ∧ l.stage = 3 ∧ ({ l with stage := 2 } : Launch).stage ≠ 3) ∧
    (let l := endL fun l => { l with halting := true }
     let s : State := { State.reset.setLaunch 0 l with now := 256 }
     l.phase = .running ∧ l.fatal = none ∧ l.advancing = [] ∧ s.sideLogOf 0 = [] ∧ s.regionWaits 0 l = false ∧
     ({ s.setLaunch 0 { l with spent := true } with now := 256 } : State).mayEnd 0 { l with spent := true } = true) ∧
    (let e : LogEntry := { req := globReq (.store .f [1]), inst := 0, record := r4, addr := 64, x := 0, y := 0, unit := 6, block := 5, opIndex := 0, replaying := false }
     ((State.reset.setLaunch 0 (endL id)).setDie 0 { State.reset.die 0 with sideLog := [e] }).sideLogOf 0 ≠ []) := by decide +kernel
/-- Registers that a firing reads, queues that are full, and step records that BREAK, that never fire, and that have bad codes. -/
theorem witness_MatrixTiles_rest :
    (let t : MatrixTile := { tile8 with firing := some firing0 }
     t.reads 0 = true ∧ t.reads 7 = false ∧ (0 : BitVec 12) = 0) ∧
    (let b : Binding := { target := 2, mask := false, readers := 1 }
     let c : TileCmd := { drain := false, acc := 0, after := 0, fmt := 0, w0 := 0, token := false, blk := 0 }
     4 ≤ (({ MatrixTile.reset with binds := Vector.replicate 4 [b, b, b, b] } : MatrixTile).binds[3]?.getD []).length ∧
     8 ≤ ({ MatrixTile.reset with cmds := List.replicate 8 c } : MatrixTile).queued) ∧
    (let u := (matL tile8 (.mma fire0) []).unit 0 0 12
     breakpoint u step0 = some step0 ∧ firingOp u = some (fire0, .mma) ∧ ({ tile8 with latch := some (token, 0) } : MatrixTile).latch = some (token, 0) ∧
     breakpoint { u with fields := u.fields.set 3 1 } step0 = none ∧ firingOp UnitState.reset = none ∧
     ({ u with fields := u.fields.set 12 1 } : UnitState).strict = true) ∧
    (let g : TileReg := { tileReg .full 1 false with shape := BitVec.ofNat 20 (3 + (Fmt.code .t2).toNat * 2 ^ 16) }
     shapeFmt g.shape = .t2 ∧ g.badCode = none ∧ ({ g with data := [(0, 8)] } : TileReg).badCode = some (0, 1)) ∧
    (tileReg .filling 0 false).filler = none ∧ ({ tileReg .filling 0 false with filler := some (.port 3) } : TileReg).filler = some (.port 3) ∧
    ({ tileReg .filling 0 false with filler := some .copy } : TileReg).filler ≠ some (.port 3) := by decide +kernel
/-- A copy of COUNT, with readers and without; one that the modes of its banks stop, one that a commit holds; a space that lives. -/
theorem witness_EnginesAct_rest :
    (let d := fun (w9 : Word) => (rec5 [0, 0, 64, 0, 64, 1, 0, 0, 0x10000, w9]).words
     descCount (d 0x100) = true ∧ ((d 0x100).get 9).extractLsb' 8 12 ≠ 0 ∧ ((d 0).get 9).extractLsb' 8 12 = 0 ∧
     descDSpace (d 0) = 0 ∧ (accL .nop r4).record.quota = 0 ∧ ({ (accL .nop r4).record with quota := 1 } : LaunchRec).quota ≠ 0) ∧
    (let j := copyJob (rec5 [0, 0, 3, 0, 4, 1, 0, 0, 0x1000]) id
     j.misfit (bankL 2 .nop r4 TileState.reset) = true ∧ j.misfit (bankL 0 .nop r4 TileState.reset) = false ∧
     j.shut (bankL 0 .nop r4 { TileState.reset with closed := [3] }) = true ∧ j.shut (bankL 0 .nop r4 TileState.reset) = false ∧
     j.mayRun (bankL 0 .nop r4 TileState.reset) = true ∧ ¬ descRows j.desc ≤ j.row ∧ descRows j.desc ≤ ({ j with row := 1 } : CopyJob).row) ∧
    (let j := kelpieJob fun j => { j with replay := true, desc := [1], done := 1 }
     j.total ≤ j.done ∧ ({ j with done := 0 } : KelpieJob).done < j.total ∧ (j.record.at 1).getLsbD 0 = false) ∧
    (accS .nop r4).spaceLive 0 = true := by decide +kernel
/-- Addresses of pages that are not aligned or not canonical; a work of the copy-on-write engine at its first step, with a block, with a frame. -/
theorem witness_PageOperations_rest :
    (let l := { accL .nop (rec5 []) with bases := (Vector.replicate 16 0).set 1 (2 ^ 52) }
     (effectiveAddr l { mg .global .vector with base := 1 } 0).toNat % levelBytes 0 = 0 ∧
     2 ^ 52 ≤ (effectiveAddr l { mg .global .vector with base := 1 } 0).toNat ∧
     (effectiveAddr l { mg .global .vector with imm8 := 1 } 0).toNat % levelBytes 0 ≠ 0) ∧
    (let s := tabled 0x201 0x3001 1
     (s.die 0).frSlot (s.die 0).frTail = some 64 ∧ (s.die 0).frCtl.getLsbD 0 = true ∧ (s.die 0).frameReturns = [] ∧
     ({ s.die 0 with frCtl := 0 } : Die).frCtl.getLsbD 0 = false ∧
     isOk (((lineS State.reset).setDie 0 (s.die 0)).performNow (ringReq 0 1 0 64 (.store .s [0]))) = true) ∧
    (let c : CowJob := { space := 0, page := 0, writes := [], frame := none, blocks := [0x4000], begun := true }
     c.blocks = [0x4000] ∧ ({ Die.reset with cow := [c], taken := some 5 } : Die).taken = some 5) ∧
    (let s := tabled 0x211 0x3001 2
     ∀ entry level e, s.walk 0 0 (2 ^ 39) ≠ .leaf entry level e) := by
  refine ⟨by decide +kernel, by decide +kernel, by decide +kernel, ?_⟩
  have h : (tabled 0x211 0x3001 2).walk 0 0 (2 ^ 39) = .missing 8 3 := by decide +kernel
  intro s entry level e g; cases h.symm.trans g
/-- A cfg's group that meets a unit with an access in progress, a bank with a request, and a copy within a row. -/
theorem witness_LoaderCommands_rest :
    (let ld := (loadL fun ld => { ld with inGroup := false }).loading?.getD (Loader.start 0 0 0 .dev none)
     ld.inGroup = false ∧ ld.pos + 1 < ld.length) ∧
    (let cs : List (Nat × Nat × Nat × Nat) := [(0, 0, 3, 2)]
     let b : Blame := { writers := [], writes := [], routes := [], commit := 0 }
     (bankL 0 .nop r4 TileState.reset).drained b (commitBanks cs []) = true ∧
     (bankL 0 .nop r4 { TileState.reset with reqs := [tileReq (.load .plain 16)] }).drained b (commitBanks cs []) = false) ∧
    (let j := copyJob (rec5 [0, 0, 3, 0, 4, 1, 0, 0, 0x1000]) fun j => { j with started := true, phase := 2 }
     let s : State := { (State.reset.setLaunch 0 (accL .nop r4)) with copies := [(0, [j])] }
     s.copyInRow 0 (accL .nop r4) [(0, 0, 3)] = true ∧ s.copyInRow 0 (accL .nop r4) [(1, 0, 3)] = false) := by decide +kernel
/-- A region that offers its quantum, one whose context has grown, and one whose parked entries are being presented. -/
theorem witness_SchedulerActs_rest :
    (let l := { placedLaunch with offered := true }
     let s := State.reset.setLaunch 0 l
     s.quantumDue = false ∧ s.launches = [] ++ (0, l) :: [] ∧ l.offered = true ∧ (∀ e ∈ State.reset.launches, e.2.offered = false)) ∧
    (quietL .running).contextUnits ≤ 1 ∧ 0 < (quietL .running).contextUnits ∧
    (waitingL.waits = true ∧ placedLaunch.waits = false) ∧
    (let e : KEntry := { offset := 0, kind := .park, x := 0, y := 0, unit := 6, port := 0, seq := 0, granule := 64, opid := 0, record := r4
                         access := none, req := some (globReq (.load .c 1)), failed := false, out := true, words := [] }
     let l := { quietL .restoring with saved := none, kennel := { placedLaunch.kennel with entries := [e] } }
     (State.reset.setLaunch 0 l).presenting 0 l = true) := by decide +kernel
theorem witness_DieCommands_rest :
    (let rq := { globReq (.load .plain 1) with retryAt := 5 }
     State.reset.now < rq.retryAt ∧ ({ Die.reset with catchRefused := [rq] } : Die).catchRefused[0]? = some rq) ∧
    ({ Die.reset with domOp := 1 } : Die).domOp ≠ 0 ∧
    (let x : Die := { Die.reset with domOp := 2, phase := .walked }
     x.phase = .walked) := by decide +kernel
/-! ### Witnesses for tokens, completions and what homes, kennels and controllers do -/

/-- An access of a controller within a step was not made. -/
def isFailed {α : Type} : Now α → Bool
  | .ok _ _ | .wait _ => false
  | _ => true
/-- A token before an operation of an access element, beside a queue of its tile with room and one without; a token that waits for another
access, and one that need wait no longer. -/
theorem witness_TokensGo_waits :
    (let i : Instr := .mdrain 0 .fp32
     let l := accL i token
     let c : TileCmd := { drain := false, acc := 0, after := 0, fmt := 0, w0 := 0, token := false, blk := 0 }
     (accS i token).here = some (l, l.unit 0 0 6) ∧ l.takes (l.unit 0 0 6) = true ∧ (l.unit 0 0 6).fields ≠ UnitState.reset.fields ∧
     (l.unit 0 0 6).port 0 = [token] ∧ token.isToken = true ∧ holdsTokens (.gather .plain (mg .global .vector)) = true ∧
     (l.mtile 0 0).cmds.length < 8 ∧ (l.mtile 0 0).drain = none ∧ 8 ≤ (List.replicate 8 c).length) ∧
    (let i : Instr := .ld 0 .plain (mg .global .word)
     let a : Access := { id := 1, record := token, op := i, ea := 0, ranges := [], lanes := [], trapped := false, waitsFor := [0] }
     let l := fun (before : List Access) => region [(6, { withOp i with flight := before ++ [a], nextId := 2 })] [wire 6 0 1]
     (State.reset.setLaunch 0 (l [])).launch? 0 = some (l []) ∧ (l []).acts = true ∧ ((l []).unit 0 0 6).fields ≠ UnitState.reset.fields ∧
     ((l []).unit 0 0 6).flight.find? (fun b => b.id == 1) = some a ∧ (l []).kennel.entries = [] ∧
     (∀ b ∈ ((l []).unit 0 0 6).flight ++ ((l []).unit 0 0 6).resume, b.id ≠ 0) ∧ (l []).canSend 0 0 6 [out0 token] = true ∧
     (∃ b ∈ ((l [access i (.ok [9] [true] true false)]).unit 0 0 6).flight, b.id = 0) ∧
     ((l [access i (.ok [9] [true] true false)]).unit 0 0 6).flight.find? (fun b => b.id == 1) = some a) := by decide +kernel
/-- A launch whose record has been read, before a queue of children with room and one without, and one whose child is queued. -/
theorem witness_AccessCompletion_launch :
    (let i : Instr := .launch (mg .global .vector)
     let a := access i (.ok (List.replicate 16 0) (List.replicate 16 true) true false)
     let l := flightL i (.ok (List.replicate 16 0) (List.replicate 16 true) true false)
     let s := State.reset.setLaunch 0 l
     let c : Child := { record := placedRecord, addr := 0, parent := 0, parentSpace := 0, px := 0, py := 0, w := 0, h := 0 }
     s.launch? 0 = some l ∧ l.acts = true ∧ (l.unit 0 0 6).flight.find? (fun b => b.id == 0) = some a ∧ a.answered = true ∧ a.trap? = none ∧
     (l.unit 0 0 6).fields ≠ UnitState.reset.fields ∧
     (∀ b ∈ (l.unit 0 0 6).flight.takeWhile (fun b => b.id != 0), b.leavesInOrder = false) ∧ l.kennel.entries = [] ∧ l.wayBanks 0 0 = [] ∧
     l.dieOf 0 0 < 4 ∧ a.queued = false ∧ ({ a with queued := true } : Access).queued = true ∧ (s.die (l.dieOf 0 0)).children.length < 256 ∧
     256 ≤ ({ Die.reset with children := List.replicate 256 c } : Die).children.length ∧ l.canSend 0 0 6 [out0 (launchSent a)] = true) := by
  decide +kernel
/-- A gather of two lanes, the states of sixteen words, an access of the side log, and words up to the last. -/
theorem witness_AccessRecords_rest :
    (let lane := fun (n : Nat) => ({ lane := n, addr := 64, reply := some (.ok [9] [true] true (n == 3)) } : LaneState)
     let a := { access (.gather .plain (mg .global .vector)) (.ok [9] [true] true false) with lanes := [lane 0, lane 3] }
     a.lanes = [lane 0] ++ lane 3 :: [] ∧ (∀ b ∈ [lane 0], b.lane ≠ 3) ∧ (∀ q ∈ a.lanes, q.lane ≠ 15)) ∧
    (List.replicate 16 true).length ≤ 16 ∧ (([3] : List Word).getD 0 0).toNat < 4 ∧
    (access (.cas 0 0 .relaxed (mg .global .word)) .logged).lanes = [{ lane := 0, addr := 64, reply := some .logged }] ∧
    (14 : Reg).toNat + (mg .global .pair).size.words ≤ 16 ∧ Sync.plain ≠ .tc ∧ Sync.plain ≠ .tf := by decide +kernel
/-- A granule in mask mode with readers 0 and 2, asked for readers 2, 1 and 12, and for another generation; rows of a tile, filled, empty
with the generation of the last fill, and empty with another. -/
theorem witness_CountedResults_rest :
    (let c : Counted := { words := List.replicate 16 5, readers := 0x005, maskMode := true, gen := 7 }
     let v := { plainView with counted := some c }
     v.normal = true ∧ v.counted = some c ∧ c.gen = (0x207 : Word).extractLsb' 0 8 ∧ c.words.length = 16 ∧
     c.readers.getLsbD ((0x207 : Word).extractLsb' 8 4 : BitVec 4).toNat = true ∧ ((0x207 : Word).extractLsb' 8 4 : BitVec 4).toNat < 12 ∧
     c.readers.getLsbD ((0x107 : Word).extractLsb' 8 4 : BitVec 4).toNat = false ∧ 12 ≤ ((0xC07 : Word).extractLsb' 8 4 : BitVec 4).toNat ∧
     c.gen ≠ (0x208 : Word).extractLsb' 0 8 ∧ ({ v with dropped := [(8, true)] } : View).dropped = [] ++ (8, true) :: [] ∧ 15 + 1 ≤ 16) ∧
    (let v := { plainView with tile := true }
     let empty := { v with full := List.replicate 16 false, rowGen := 7 }
     v.tile = true ∧ (∃ b ∈ v.full, b = true) ∧ (∀ b ∈ empty.full, b = false) ∧ empty.counted = none ∧
     empty.rowGen = (0x207 : Word).extractLsb' 0 8 ∧ empty.rowGen ≠ (0x208 : Word).extractLsb' 0 8 ∧ v.bad.length = 16 ∧ v.dropped = [] ∧
     ({ v with counted := some { words := List.replicate 16 5, readers := 1, maskMode := false, gen := 7 } } : View).counted.isSome = true) := by
  decide +kernel

theorem stirs_of (s : State) (h : Home) (key : Nat) (r : Req) (hk : r.key = key)
    (hv : ((s.viewAt h key r.inst).any fun v => !waits (v.perform r.word r.op)) = true) : s.Stirs h key r := by
  refine ⟨hk, ?_⟩
  cases hs : s.viewAt h key r.inst with
  | none => rw [hs] at hv; cases hv
  | some v =>
    refine ⟨v, rfl, fun e => ?_⟩
    rw [hs] at hv
    simp [e, waits] at hv
theorem holds_slice (s : State) (sl key : Nat) (hl : ((s.line? sl (granuleSpace key) (granuleVa key)).all fun l =>
    l.words.length == 32 && l.full.length == 32 && l.bad.length == 32) = true) : s.HoldsWhole (.slice sl) key := by
  intro l h
  rw [h] at hl
  simpa [and_assoc] using hl
/-- A line that is whole, and a waiter that waits no longer, behind one of another granule. -/
theorem witness_HomePerforms_pass :
    (let s := sliceS []
     let h := Home.slice (s.homeSlice 64)
     let rq := globReq (.load .c 1)
     let other := mkReq (.access 0 0 0 6 0 0) 0 (.glob 192) (.load .c 1) .dev 0 (0, 0) 0
     s.HoldsWhole h 1 ∧ (s.setWaiters h [other, rq]).Stirs h 1 rq ∧ other.key ≠ 1 ∧
     (s.setWaiters h [other, rq]).waiters h = [other] ++ rq :: [] ∧ s.needsWrite h rq = false ∧ (s.tryPerform h rq).isSome = true) := by
  refine ⟨holds_slice _ _ _ (by decide +kernel), stirs_of _ _ _ _ (by decide +kernel) (by decide +kernel), ?_⟩
  decide +kernel
/-- A drop of the last reader, a release that an acquire does not include, buffers with room and without, and a granule that is parked. -/
theorem witness_HomePerforms_rest :
    (let s := sliceS []
     let h := Home.slice (s.homeSlice 64)
     let rq := globReq (.load .c 1)
     let x : Release := { scope := .dev, die := 0, space := 0, inst := 0, cell := (0, 0), outside := false }
     s.parkedAt h 1 = false ∧ (s.setParkedAt h 1 true).parkedAt h 1 = true ∧ s.walks h = [] ∧ (s.waiters h).length < h.capacity ∧
     h.capacity ≤ (List.replicate h.capacity rq).length ∧ rq.party.isRecord = true ∧ ({ rq with party := .copy 0 } : Req).party.isRecord = false ∧
     rq.includes x = true ∧ ({ rq with scope := .region, inst := 1 } : Req).includes x = false ∧
     ((s.setReleaseAt h 1 rq).releaseAt h 1).isSome = true) ∧
    (let g : Granule := { words := List.replicate 16 5, readers := 1, maskMode := false, gen := 7, inst := 0, since := 0, laggard := false }
     let s := sliceS []
     let sl := s.homeSlice 64
     let s := s.setSlice sl { s.slice sl with granules := [(1, g)] }
     SMap.get? (s.slice sl).granules (globReq (.done 0x107)).key = some g ∧
     ((s.viewAt (.slice sl) 1 0).map fun v => match v.perform 0 (.done 0x107) with | .done _ _ _ _ _ (.dropped gen _) => gen == 7 | _ => false) = some true) ∧
    (match plainView.perform 0 (.feGet 1) with | .done _ (.ok [] _ _ _) _ _ _ _ => true | _ => false) = true := by decide +kernel
/-- A read of the granule 1 that is parked: its access, its entry at an offset, and the part whose kennel holds it, with a walk. -/
def parkedRq : Req := globReq (.load .plain 1)
def parkedA : Access := { access (.ld 0 .plain (mg .global .word)) (.ok [9] [true] true false) with lanes := [{ lane := 0, addr := 64, reply := none }] }
def parkedE (at_ : Nat) (r : Record) : KEntry :=
  { offset := at_, kind := .park, x := 0, y := 0, unit := 6, port := 0, seq := 0, granule := 64, opid := 0, record := r,
    access := some { parkedA with record := r }, req := some parkedRq, failed := false, out := false, words := [] }
def parkedL (r : Record) (resume : List Access) : Launch :=
  { region [(6, { withOp (.ld 0 .plain (mg .global .word)) with nextId := 1, resume := resume })] [wire 6 0 1] with
    kennel := { placedLaunch.kennel with entries := [parkedE 0 r] } }
def parkedS (r : Record) (resume : List Access) (walk : ParkWalk → ParkWalk) : State :=
  let s := (lineS State.reset).setLaunch 0 (parkedL r resume)
  let sl := s.homeSlice 64
  let s := s.setSlice sl { s.slice sl with
    directory := [(1, 0)], walks := [walk { granule := 1, collected := true, todo := [(0, 0)], robbed := [(0, 0)], again := false }] }
  s.setParkedAt (.slice sl) 1 true
/-- A granule's line, an access with a free place in its kennel and with none, and a directory that has the pair, that has room, that is
full. -/
theorem witness_ParkAndUnpark_parks :
    (let s := sliceS []
     (SMap.get? (s.slice (s.homeSlice 64)).lines (1 / 2)).map (fun l => l.parked.length) = some 2) ∧
    (let a := parkedA
     let l := fun (n : BitVec 16) => { region [(6, { withOp a.op with flight := [a], nextId := 1 })] [wire 6 0 1] with
       record := { placedRecord with kEntries := n } }
     parkedRq.party = .access 0 0 0 6 0 0 ∧ (State.reset.setLaunch 0 (l 1)).launch? 0 = some (l 1) ∧
     ((l 1).unit 0 0 6).flight.find? (fun b => b.id == 0) = some a ∧ ((l 1).unit 0 0 6).fields ≠ UnitState.reset.fields ∧
     (l 1).kennel.entries = [] ∧ (l 1).freeChain ≠ [] ∧ (l 0).freeChain = []) ∧
    ((1, 0) ∈ [(1, 0)] ∧ (1, 0) ∉ ([] : List (Nat × Nat)) ∧ ([] : List (Nat × Nat)).length < 4096 ∧ 4096 ≤ (List.replicate 4096 (2, 0)).length) := by
  decide +kernel
/-- A walk that collects an entry, presents it, waits for a place, begins again and ends; an entry that loses, one that is spared, and the
last unit of a budget. -/
theorem witness_ParkAndUnpark_walks :
    (let s := parkedS r4 [] id
     let h := Home.slice (s.homeSlice 64)
     let w : ParkWalk := { granule := 1, collected := true, todo := [(0, 0)], robbed := [(0, 0)], again := false }
     (s.walks h).find? (·.granule == 1) = some w ∧ s.parkEntries h 1 (s.parkRegions h 1) = [(0, parkedE 0 r4)] ∧
     w.collected = true ∧ w.todo = (0, 0) :: [] ∧ ({ w with todo := [] } : ParkWalk).todo = [] ∧ s.launch? 0 = some (parkedL r4 []) ∧
     (parkedL r4 []).kennel.entries.find? (fun e => e.offset == 0) = some (parkedE 0 r4) ∧ (parkedE 0 r4).lanes ≠ [] ∧ (parkedE 0 r4).out = false ∧
     (parkedL r4 []).resident = true ∧ (((parkedL r4 []).unit 0 0 6).resume.filter fun a => a.trap?.isNone).length < 8 ∧
     8 ≤ (((parkedL r4 (List.replicate 8 parkedA)).unit 0 0 6).resume.filter fun a => a.trap?.isNone).length ∧
     (let t := (s.readEntry 0 (parkedE 0 r4)).moved 0
      (((s.readEntry 0 (parkedE 0 r4)).launch? 0).map fun l => l.fatal.isNone) = some true ∧ t.needsWrite h parkedRq = false ∧
      ((t.viewAt h 1 0).map fun v => waits (v.perform 0 parkedRq.op)) = some false ∧
      ((t.viewAt h 1 0).map fun v => waits (v.perform 0 (.store .f [1]))) = some true ∧ (t.tryPerform h parkedRq).isSome = true)) ∧
    (let s := parkedS r4 [] id
     let h := Home.slice (s.homeSlice 64)
     (∃ w ∈ s.walks h, w.granule = 1 ∧ w.waited = false ∧ (0, (parkedE 0 r4).offset) ∈ w.robbed) ∧ (parkedE 0 r4).spared = false ∧
     ({ parkedE 0 r4 with spared := true } : KEntry).spared = true ∧ parkedRq.party.accessId? = some 0 ∧
     s.accessAt? 0 0 0 6 0 = some { parkedA with record := r4 } ∧ 1 < r4.ctl.bud.toNat ∧ (r4c fun c => { c with bud := 1 }).ctl.bud.toNat ≤ 1) := by
  decide +kernel
/-- A ring with room and one that is full; a status block that can be read and one that cannot; the places of a trapped record; and a region
whose pre-emption a halt gives up. -/
theorem witness_TrapsAreTaken_ring :
    (let s := trapS 0
     let l := trapL 0
     s.launch? 0 = some l ∧ (match s.readRegion 0 0x30 1 with | .ok _ ws => ws == [3] | _ => false) = true ∧
     l.traps - 3 ≠ l.record.trapEntries.zeroExtend 32 ∧ ({ l with traps := 7 } : Launch).traps - 3 = l.record.trapEntries.zeroExtend 32 ∧
     isOk (s.storeRegion 0 [(8, l.trapLost + 1)]) = true ∧
     isOk (s.storeRegion 0 (placed 0 (trapWords l (s.cycles l) trap0))) = true ∧ isOk (s.storeRegion 0 [(4, l.traps + 1)]) = true ∧
     isFailed (s.storeRegion 0 [(0x100000, 1)]) = true ∧ isFailed ((State.reset.setLaunch 0 l).readRegion 0 0x30 1) = true ∧
     isFailed ((State.reset.setLaunch 0 l).writeTrap 0 trap0) = true) ∧
    (trap0.holder = .latch 0 ∧ ({ trap0 with holder := .access 0 } : TrapInfo).holder = .access 0 ∧
     ({ trap0 with holder := .item } : TrapInfo).holder = .item) ∧
    (({ trapL 1 with phase := .preempting } : Launch).phase = .preempting ∧ ¬ ((trapL 1).phase = .preempting ∨ ((trapL 1).wanted = true ∧ (trapL 1).phase = .running))) ∧
    (let l := { trapL 2 with handlerQ := [r4] }
     l.handlerQ = r4 :: [] ∧ l.acts = true ∧ (l.unit 0 0 5).port 0 = []) := by decide +kernel
/-- A fatal error of a region that runs, of one that ends and has given its trap record, and of one that has not; and a status block that
cannot be written. -/
theorem witness_RegionsEnd_errors :
    (let l := endL fun l => { l with phase := .completing, stage := 2, fatal := some 64 }
     l.fatal = some 64 ∧ l.phase = .completing ∧ ¬ (l.stage = 3 ∨ l.status = 0x09 ∨ l.status = 0x0A) ∧
     ({ l with status := 0x0A } : Launch).status = 0x0A) ∧
    (let l := endL fun l => { l with phase := .completing, stage := 2, committed := true }
     let s := State.reset.setLaunch 0 l
     isFailed (s.storeRegion l.record.space ((l.statusBlock (s.cycles l)).map fun p => (l.record.statusAddr.toNat + p.1, p.2))) = true ∧
     l.committed = true ∧ l.status ≠ 0x09 ∧ l.status ≠ 0x0A) := by decide +kernel
/-- A side-log write of sixteen words before a log with room and one without; a report and a reply on a link. -/
theorem witness_SliceEvents_links :
    (let rq := globReq (.store .f (List.replicate 16 1))
     let v := State.reset.setLaunch 0 (accL .nop r4)
     v.logEntries rq ≠ [] ∧ (v.logEntries rq).length ≤ 4096 ∧ rq.op = .store .f (List.replicate 16 1) ∧ 4096 < 4096 + (v.logEntries rq).length) ∧
    ({ State.reset with reports := [(0, [1])] } : State).reports[0]? = some (0, [1]) ∧
    (let i : Instr := .ld 0 .plain (mg .regionTile .word)
     let a := access i (.ok [9] [true] true false)
     let l := region [(6, { withOp i with flight := [a], nextId := 1 })] [wire 6 0 1]
     let s := State.reset.setLaunch 0 l
     homeOf 256 = .tile 0 0 0 ∧ homeOf 257 = .tile 0 1 0 ∧ s.launch? 0 = some l ∧ s.repliesOnLinks (homeOf 256) = [(6, a)]) := by
  decide +kernel
/-- A finite code's sign, numerator and denominator. -/
def finOf (x : Word) : Option (Bool × Nat × Nat) :=
  match Fmt.value .fp32 x.toNat with
  | .fin neg a b => some (neg, a, b)
  | _ => none
/-- 128, −127, 3, 2.5 and −2.5: from 128 on, below −126, a whole number, and two between whole numbers. -/
theorem witness_FunctionResults_inputs :
    ((finOf 0x43000000).map fun (neg, a, b) => !neg && decide (128 * b ≤ a)) = some true ∧
    ((finOf 0xC2FE0000).map fun (neg, a, b) => neg && decide (126 * b < a)) = some true ∧
    ((finOf 0x40400000).map fun (neg, a, b) => !neg && a == 3 * b && (let e := floorLog2 a b; let m := scaleFrac a b (-e); m.1 != m.2)) = some true ∧
    ((finOf 0x40200000).map fun (neg, a, b) => !neg && a != 0 && decide (a / b = 2) && a % b != 0) = some true ∧
    ((finOf 0xC0200000).map fun (neg, a, b) => neg && decide ((-(a : Int)) / b = -3) && ((-(a : Int)) % b != 0)) = some true := by decide +kernel
/-- A poisoned record before an operation that stops it. -/
theorem witness_AccessTraps_poison :
    (let i : Instr := .scatter .plain { mg .global .vector with shift := 0 }
     let r := r4c fun c => { c with poison := true }
     let l := accL i r
     (accS i r).here = some (l, l.unit 0 0 6) ∧ l.takes (l.unit 0 0 6) = true ∧ (l.unit 0 0 6).port 0 = [r] ∧ r.isToken = false ∧
     breakpoint (l.unit 0 0 6) r = some r ∧ (l.unit 0 0 6).busy i < placesOf i ∧ (memRefOf i).isSome = true ∧ stopsPoison i = true ∧
     r.ctl.poison = true) := by
  refine ⟨rfl, ?_⟩; decide +kernel
/-- A port whose target is filling, at its last record and before it; the head and the tail of a drain; a latch whose step record never fires;
a region whose ports are open. -/
theorem witness_MatrixTileActs_parts :
    (let b : Binding := { target := 2, mask := false, readers := 1 }
     let t : MatrixTile := { MatrixTile.reset with binds := Vector.replicate 4 [b] }
     t.binds[3]? = some (b :: []) ∧ SMap.wf 0 (t.target 2).data = true ∧ (t.target 2).taken < targetRecords 2 (t.target 2) ∧
     (let n := targetRecords 2 (t.target 2)
      n ≠ 0 ∧ ({ t.target 2 with taken := n - 1 } : TileReg).taken + 1 = n)) ∧
    (let d : Drain := { acc := 0, fmt := 1, row := 0, rowEnd := 2, part := 0, blk := 0, integer := false }
     d.part + 1 < 128 / 32 ∧ 128 / 32 ≤ ({ d with part := 3 } : Drain).part + 1 ∧ ({ d with part := 3 } : Drain).row + 1 < d.rowEnd ∧
     d.rowEnd ≤ ({ d with row := 1 } : Drain).row + 1) ∧
    (let l := matL { tile8 with latch := some (step0, 0) } .nop []
     (State.reset.setLaunch 0 l).launch? 0 = some l ∧ l.acts = true ∧ firingOp (l.unit 0 0 12) = none ∧ (l.mtile 0 0).latch = some (step0, 0) ∧
     (l.mtile 0 0).firing = none ∧ (l.unit 0 0 12).held = false ∧ (∀ rt ∈ l.routesOf 0 0 12 0, l.canAccept rt = true)) := by decide +kernel

/-- A bin set of one bin of two entries at address 0x80, its entries at 0x100 and its fill words at 0x180. -/
def setWords (bins : Word) : List Word := [0x100, 0, 0x100, 0, 0x180, 0, 2, bins, 4, 0, 0, 0, 0, 0, 0, 0]
def kelpieS (j : KelpieJob) (ws : List Word) : State :=
  let s := linesS.setLaunch 0 (accL .nop r4)
  let holds := fun (l : Nat × Line) => if l.1 == lineKey 0 128 then (l.1, { l.2 with words := ws ++ l.2.words.drop ws.length }) else l
  let s : State := { s with slices := s.slices.map fun e => (e.1, { e.2 with lines := e.2.lines.map holds }) }
  s.setDie 0 { s.die 0 with kelpie := [j] }
def setJob (f : KelpieJob → KelpieJob) : KelpieJob := kelpieJob fun j => f { j with set := 128 }
/-- A controller's access within a step is made, and none of its words is bad. -/
def reads (s : State) (va n : Nat) : Option (List Word) :=
  match s.accessNow 0 va 0 (.load .plain n) with
  | .ok _ q => if q.poisoned then none else some q.words
  | _ => none
def writes (s : State) (va : Nat) (ws : List Word) : Bool :=
  match s.accessNow 0 va 0 (.store .plain ws) with
  | .ok _ q => !q.poisoned
  | _ => false
/-- Kelpie's head before its bin set, valid and not; its pairs at a bin that exists, one that is full and one that does not; its entries; and
an access that its slices cannot make. -/
theorem witness_EnginesAct_Kelpie :
    (let j := setJob id
     let s := kelpieS j (setWords 1)
     (s.die 0).kelpie = j :: [] ∧ s.launch? j.inst = some (accL .nop r4) ∧ j.desc = [] ∧ reads s j.set.toNat 16 = some (setWords 1) ∧
     binSetBad (setWords 1) = none ∧ binSetBad (setWords 0) = some 7 ∧ reads s 0x180 1 = some [0] ∧
     (let k := setJob fun j => { j with replay := true }
      (k.record.at 0).toNat = 1 ∧ (setWords 1).getD 7 0 = 1 ∧ (k.record.at 1).getLsbD 0 = false)) ∧
    (let j := setJob fun j => { j with desc := setWords 1, total := 1 }
     let s := kelpieS j (setWords 1)
     j.replay = false ∧ j.desc ≠ [] ∧ j.done < j.total ∧ j.asked = false ∧ (1 : Nat) ≤ (j.record.at 2).toNat / 2 ^ 0 ∧
     (j.record.at 2).toNat / 2 ^ ((j.word 8).extractLsb' 0 8).toNat < (j.word 7).toNat ∧
     reads s 0x180 1 = some [0] ∧ (0 : Word) ≠ j.word 6 ∧ writes s 0x100 [3, 4] = true ∧ writes s 0x180 [1] = true ∧
     (j.word 7).toNat ≤ (0x10 : Word).toNat / 2 ^ 4 ∧ reads s (128 + 0x28) 1 = some [0] ∧ writes s (128 + 0x28) [1] = true ∧
     ({ j with asked := true, reply := some ok1 } : KelpieJob).reply = some ok1 ∧ stopStatus ok1 = none ∧
     reads s (128 + 0x24) 1 = some [0] ∧ writes s (128 + 0x24) [1] = true ∧ ({ j with done := 1 } : KelpieJob).total ≤ 1) ∧
    (let j := setJob fun j => { j with replay := true, desc := setWords 2, total := 1 }
     let s := kelpieS j (setWords 2)
     binSetBad (setWords 2) = none ∧ (j.record.at 0).toNat < (j.word 7).toNat ∧ j.replay = true ∧ j.asked = false ∧ j.ending = false ∧ j.done < j.total ∧ (j.record.at 1).getLsbD 0 = false ∧ reads s 0x110 2 = some [0, 0] ∧
     reads s 0x184 1 = some [0] ∧
     ({ j with done := 1 } : KelpieJob).total ≤ 1 ∧ writes s 0x184 [0] = true ∧ stopStatus (.trap .unmapped 0 0) = some 1) ∧
    (match (State.reset.setLaunch 0 (accL .nop r4)).accessNow 0 0x40000 0 (.load .plain 1) with | .fault _ => true | _ => false) = true := by
  decide +kernel

/-- A copy that reads a tile of a region that is away: the row is full, and a tested unit that waits. -/
theorem witness_EnginesAct_saved :
    (let j := copyJob (rec5 [0, 0, 3, 0, 4, 1, 0, 0, 0x100]) fun j => { j with started := true }
     let l := { accL .nop r4 with saved := some { units := [], tiles := [], routes := [] } }
     l.saved ≠ none ∧ descSSpace j.desc = 1 ∧ j.mayRun l = true ∧ j.phase = 0 ∧ j.row < descRows j.desc ∧ j.shut l = false ∧ j.misfit l = false ∧
     endCanonical 1 (j.srcAt l 0) = true ∧ (match endLoc 1 (j.srcAt l 0) with | .tile x y w => x == 0 && y == 0 && w == 0 | _ => false) = true ∧
     (let q := (State.reset.setLaunch 0 l).tileForm l (mkReq (.copy 0) 0 (.tile 0 0 0) (.load .plain 1) .region 0 (0, 0) 0)
      (q.map fun q => (outcome ((l.tileRow 0 0 q.key).perform q.word q.op)).isSome) = some true ∧
      (q.map fun q => waits ((l.tileRow 0 0 q.key).perform q.word (.store .f [1]))) = some true)) := by decide +kernel

/-- The built entry of a page operation, found, with no block at hand, and behind a table that cannot be read. -/
def taken {α : Type} : Take α → Nat
  | .got _ _ => 0
  | .empty _ => 1
  | .wait _ => 2
  | .scope _ _ _ => 3
  | .error _ => 4
/-- The entries and leaves that the page operations meet: changed, changed in its place, given up; frames of each count; and levels to build. -/
theorem witness_PageOperations_results :
    (let s := tabled 0x203 0x3001 1
     s.find 0 0 0 = .entry 0x3000 0x203 ∧ taken (s.entryFor 0 0 0) = 0 ∧ taken (s.entryFor 0 (2 ^ 30) 0) = 1 ∧
     s.find 0 (2 ^ 30) 0 = .missing ∧ s.pageHeld 0 0 0 0x10000 [] = false ∧ s.frameOk 0 0x203 = true ∧ pteOk 0 0x203 = true ∧ pteLeaf 0x203 = true ∧
     localRun 0x203 = [0] ∧ s.pageHeld 0 0 0 0x10000 [0] = false ∧ s.framesParked 0 0 1 = false ∧ s.frameCount 0 0 = 1 ∧
     (let s := s.setFrameCount 0 0 2
      s.frameCount 0 0 = 2) ∧ (s.setFrameCount 0 0 254).frameCount 0 0 = 254 ∧ (s.setFrameCount 0 0 255).frameCount 0 0 = 255 ∧
     pteW 0x203 = true ∧ pteW 0x201 = false ∧ pteD 0x203 = false ∧
     (0x201 : DWord) &&& ~~~(0x1E : DWord) = (0x203 : DWord) &&& ~~~(0x1E : DWord)) ∧
    (tabled 0x201 0x3001 1).find 0 0 0 = .entry 0x3000 0x201 := by decide +kernel
/-- A faulted access of a region, a write that its side log holds and a stalled engine's, in the range of a page. -/
theorem witness_PageOperations_faults :
    (let e := { parkedE 0 r4 with kind := .fault }
     let l := { parkedL r4 [] with kennel := { placedLaunch.kennel with entries := [e] } }
     let s := (lineS State.reset).setLaunch 0 l
     s.faultEntries 0 0 0x10000 = [(0, e)] ∧ s.launch? 0 = some l ∧ l.fatal = none ∧ e.access.isSome = true ∧
     (faultLaneOp parkedA.op r4).isSome = true ∧ (memRefOf parkedA.op).isSome = true ∧ s.readEntry 0 e = s) ∧
    (let e : LogEntry := { req := globReq (.store .f [1]), inst := 0, record := r4, addr := 64, x := 0, y := 0, unit := 6, block := 5, opIndex := 0, replaying := false }
     e.within 0 0 0x10000 = true) ∧
    (let w : WalkReq := { slice := 0, req := { globReq (.load .plain 1) with party := .copy 0 } }
     w.within 0 0 0x10000 = true ∧ w.req.party.fails = true) := by decide +kernel
/-- A child whose two addresses are wrong, and launches that wait while one of them is being compacted for. -/
theorem witness_LaunchesArrive_rest :
    ({ goodRec with doneAddr := 2, statusAddr := 4 } : LaunchRec).reportable = false ∧
    (let s := (State.reset.setLaunch 0 { waitingL with compacting := true }).setLaunch 1 waitingL
     (s.waitingOrder.filter fun e => !e.2.compacting) = [] ++ (1, waitingL) :: [] ∧ s.firstFit 1 waitingL [] = some (0, 0)) ∧
    (64 : Nat) ≤ (List.replicate 64 (([] : List Word), (0 : DWord))).length ∧ State.reset.noRoom = false := by decide +kernel
/-- A region whose context has grown past its run; one whose pre-emption is given up, with a diverted record and a trap before its place; and
contexts and streams that cannot be read. -/
theorem witness_SchedulerActs_contexts :
    (let l := { quietL .preempting with context := some (0, 0) }
     l.context = some (0, 0) ∧ 0 < l.contextUnits ∧ (mapped.setLaunch 0 l).quiescent 0 l = true) ∧
    (let l := { quietL .preempting with moving := some (1, 1) }
     l.moving = some (1, 1) ∧ (quietL .preempting).moving = none) ∧
    (let e : KEntry := { offset := 0, kind := .yieldEntry, x := 0, y := 0, unit := 0, port := 0, seq := 0, granule := 0, opid := 0, record := r4,
                         access := none, req := none, failed := false, out := false, words := [] }
     let l := { yieldL .preempting 1 with trapQ := [trap0], kennel := { placedLaunch.kennel with entries := [e] } }
     l.phase = .preempting ∧ (l.kennel.entries.filter (·.kind == .yieldEntry)) = [e] ∧
     (l.trapQ.any fun t => t.x == e.x && t.y == e.y && t.unit == e.unit && t.holder == .latch e.port) = true ∧ (l.unit 0 0 0).port 0 = r4 :: []) ∧
    (let l := { quietL .restoring with saved := some (quietL .running).saved_ }
     l.saved.isSome = true ∧ isFailed ((State.reset.setLaunch 0 l).readContext (0, 1)) = true) := by decide +kernel
theorem witness_SchedulerActs_stream :
    (let block : List Word := [24, 0, 0, 0, 0x100000, 0]
     let v := (quietL .running).saved_
     let s := (mapped.withLines block).setLaunch 0 { quietL .restoring with saved := some v }
     (match s.readContext (0, 1) with | .ok _ ws => ws == block | _ => false) = true ∧ blockFits v.units block = true ∧
     ((quietL .restoring).restored [] [] v).isSome = true ∧
     isFailed (s.readStream block (((quietL .restoring).restored [] [] v).getD (quietL .running))) = true) := by decide +kernel
/-- The window's registers, a bring-up whose training retires a unit and a link, and an update of LEVEL at the end of a span. -/
theorem witness_HostAndPlatform_rest :
    State.reset.inReset = false ∧ ({ State.reset with now := 10 } : State).nextQuantum > 10 ∧
    ({ State.reset with now := 65536 } : State).nextQuantum ≤ 65536 ∧
    ({ State.reset with resetState := 1 } : State).resetState = 1 ∧ ({ State.reset with resetState := 1 } : State).inReset = true ∧
    (let s : State := { State.reset with now := 65536 * 3 }
     s.nextPower ≤ s.now) ∧ State.reset.now < State.reset.nextPower := by decide +kernel
/-- SHA-256 of "abc", as FIPS 180-4 works it out. -/
theorem test_sha256 : (sha256 [0x61, 0x62, 0x63]).map (·.toNat) =
    [0xBA, 0x78, 0x16, 0xBF, 0x8F, 0x01, 0xCF, 0xEA, 0x41, 0x41, 0x40, 0xDE, 0x5D, 0xAE, 0x22, 0x23,
     0xB0, 0x03, 0x61, 0xA3, 0x96, 0x17, 0x7A, 0x9C, 0xB4, 0x10, 0xFF, 0x61, 0xF2, 0x00, 0x15, 0xAD] := by decide +kernel
end Sys2Proof.Tests
end

section
/-! PROOF. Proofs/MemoryReadsBack.lean: the marks of single words do not decide alone whether a word is uncorrectable; the tag of
its block does too (R328). -/

namespace Sys2Proof.Machine

/-- Marking words leaves the tag of every block as it was. -/
@[simp] theorem State.tagBad_setBad (bs : List Bool) : ∀ (s : State) (key block : Nat),
    (s.setBad key bs).tagBad block = s.tagBad block := by
  induction bs with
  | nil => exact fun _ _ _ => rfl
  | cons b bs ih => exact fun s key block => ih { s with bad := NSet.set s.bad (key / 4) b } (key + 4) block

/-- Under a tag that is not valid a word is uncorrectable, whatever its own mark (R328). -/
theorem State.wordsBad_one_of_tagBad {s : State} {key : Nat} (h : s.tagBad (key / 256) = true) : s.wordsBad key 1 = [true] := by
  simp [State.wordsBad, h]

/-- Refutes O59: memory whose first block has an uncorrectable tag is in canonical form, and a word of that block marked as correct
still reads as uncorrectable, because setBad writes the mark of the word and not the tag (R328). -/
theorem not_memoryReadsBack : ¬ Obligations.MemoryReadsBack := by
  intro h
  obtain ⟨-, -, -, -, -, marks, -⟩ := h { State.reset with badTags := [0] } ⟨rfl, rfl, rfl, rfl, rfl, rfl⟩
  have correct := (marks 0 [false]).2 rfl
  have uncorrectable : (({ State.reset with badTags := [0] } : State).setBad 0 [false]).wordsBad 0 1 = [true] :=
    State.wordsBad_one_of_tagBad ((State.tagBad_setBad _ _ _ _).trans rfl)
  exact absurd (uncorrectable.symm.trans correct) (by decide)

end Sys2Proof.Machine
end

section
/-! PROOF. Proofs/FieldRoundTrips.lean: a word is the concatenation of its fields (R22 to R26), and each code that is not
reserved is the code of what it decodes to (R57, R58). -/

namespace Sys2Proof

/-! ### Slices of a word -/

theorem Fields.pack_unpack (w : BitVec 48) : (Fields.unpack w).pack = w := by
  simp only [Fields.pack, Fields.unpack, BitVec.extractLsb'_append_extractLsb'_eq_extractLsb']
  exact BitVec.extractLsb'_eq_self

theorem T0.pack_unpack (t : BitVec 24) : (T0.unpack t).pack = t := by
  simp only [T0.pack, T0.unpack, BitVec.extractLsb'_append_extractLsb'_eq_extractLsb']
  exact BitVec.extractLsb'_eq_self

theorem T1.pack_unpack (t : BitVec 24) : (T1.unpack t).pack = t := by
  simp only [T1.pack, T1.unpack, BitVec.extractLsb'_append_extractLsb'_eq_extractLsb']
  exact BitVec.extractLsb'_eq_self

theorem T2.pack_unpack (t : BitVec 24) : (T2.unpack t).pack = t := by
  simp only [T2.pack, T2.unpack, BitVec.extractLsb'_append_extractLsb'_eq_extractLsb']
  exact BitVec.extractLsb'_eq_self

theorem T3.pack_unpack (t : BitVec 24) : (T3.unpack t).pack = t := by
  simp only [T3.pack, T3.unpack, BitVec.extractLsb'_append_extractLsb'_eq_extractLsb']
  exact BitVec.extractLsb'_eq_self

/-- Three slices that follow one another down to bit 0 are the value. -/
theorem append_slices {n m k : Nat} (x : BitVec (n + m + k)) :
    x.extractLsb' (k + m) n ++ x.extractLsb' k m ++ x.extractLsb' 0 k = x := by
  rw [BitVec.extractLsb'_append_extractLsb'_eq_extractLsb' rfl, BitVec.extractLsb'_append_extractLsb']

/-- A value whose upper part is zero is its lower part under zeros. -/
theorem zero_append_low {n m : Nat} {x : BitVec (n + m)} (h : x.extractLsb' m n = 0#n) :
    0#n ++ x.extractLsb' 0 m = x := by
  rw [← h, BitVec.extractLsb'_append_extractLsb']

theorem toNat_zero_append {n m : Nat} (x : BitVec m) : (0#n ++ x).toNat = x.toNat := by simp [BitVec.toNat_append]

theorem zero_append_low2 {x : BitVec 4} (h : x.toNat ≤ 3) : 0#2 ++ x.extractLsb' 0 2 = x := by revert x; decide
theorem zero_append_low3 {x : BitVec 4} (h : x.toNat ≤ 7) : 0#1 ++ x.extractLsb' 0 3 = x := by revert x; decide

/-- The immediate of a bit-field operation (R59). -/
theorem fieldImm_eq {x : BitVec 20} (h : x.extractLsb' 10 10 = 0#10) : 0#10 ++ x.extractLsb' 5 5 ++ x.extractLsb' 0 5 = x :=
  h ▸ append_slices (n := 10) (m := 5) (k := 5) x

/-- The immediate of tload (R62). -/
theorem tloadImm_eq {x : BitVec 20} (h : x.extractLsb' 2 6 = 0#6) : x.extractLsb' 8 12 ++ 0#6 ++ x.extractLsb' 0 2 = x :=
  h ▸ append_slices (n := 12) (m := 6) (k := 2) x

/-- The immediate of msca (R62). -/
theorem mscaImm_eq {x : BitVec 20} (h : x.extractLsb' 4 16 = 0#16) : 0#16 ++ x.extractLsb' 2 2 ++ x.extractLsb' 0 2 = x :=
  h ▸ append_slices (n := 16) (m := 2) (k := 2) x

/-- The immediate of emit: the second block, two zero bits and the mode (R58). -/
theorem emitImm_eq {x : BitVec 12} {second : BitVec 8} {mode : BitVec 2} (hsecond : x.extractLsb' 4 8 = second)
    (hzero : x.extractLsb' 2 2 = 0#2) (hmode : x.extractLsb' 0 2 = mode) : second ++ (0#2 ++ mode) = x := by
  rw [← hsecond, ← hzero, ← hmode, BitVec.extractLsb'_append_extractLsb'_eq_extractLsb' (Nat.zero_add 2).symm]
  exact BitVec.extractLsb'_append_extractLsb' (w := 8) (len := 4)

/-! ### Codes -/

@[simp] theorem toNat_eq_zero_iff {n : Nat} {c : BitVec n} : c.toNat = 0 ↔ c = 0#n := BitVec.toNat_inj (y := 0#n)

theorem eq_zero_of_toNat_le {n : Nat} {c : BitVec n} (h : c.toNat ≤ 0) : c = 0#n := toNat_eq_zero_iff.1 (Nat.le_zero.1 h)

@[simp] theorem Len.code_ofCode (c : BitVec 2) : (Len.ofCode c).code = c := by revert c; decide
@[simp] theorem Space.code_ofCode (c : BitVec 2) : (Space.ofCode c).code = c := by revert c; decide
@[simp] theorem Size.code_ofCode (c : BitVec 2) : (Size.ofCode c).code = c := by revert c; decide
@[simp] theorem Hint.code_ofCode (c : BitVec 2) : (Hint.ofCode c).code = c := by revert c; decide
@[simp] theorem Sync.code_ofCode (c : BitVec 3) : (Sync.ofCode c).code = c := by revert c; decide

theorem Lane.code_ofCode {c : BitVec 2} (h : c ≠ 3) : (Lane.ofCode c).code = c := by revert c; decide
theorem Round.code_ofCode {c : BitVec 3} (h : c ≠ 7) : (Round.ofCode c).code = c := by revert c; decide
@[simp] theorem Round.ofCode_zero : Round.ofCode 0#3 = .rne := rfl
theorem Scope.code_ofCode {c : BitVec 3} (h : c.toNat ≤ 4) : (Scope.ofCode c).code = c := by revert c; decide
theorem Order.code_ofCode {c : BitVec 3} (h : c.toNat ≤ 3) : (Order.ofCode c).code = c := by revert c; decide
theorem Fmt.code_ofCode {c : BitVec 4} (h : c.toNat ≤ 14) : (Fmt.ofCode c).code = c := by revert c; decide
theorem FTy.code_ofCode {c : BitVec 4} (h : c.toNat ≤ 2) : (FTy.ofCode c).code = c := by revert c; decide
theorem Cond.code_ofCode {c : BitVec 4} (h : c.toNat ≤ 10) : (Cond.ofCode c).code = c := by revert c; decide
theorem FCond.code_ofCode {c : BitVec 4} (h : c.toNat ≤ 7) : (FCond.ofCode c).code = c := by revert c; decide
theorem SgnForm.code_ofCode {c : BitVec 4} (h : c.toNat ≤ 2) : (SgnForm.ofCode c).code = c := by revert c; decide
theorem AccOp.code_ofCode {c : BitVec 4} (h : c.toNat ≤ 4) : (AccOp.ofCode c).code = c := by revert c; decide
theorem IdSel.code_ofCode {c : BitVec 4} (h : c.toNat ≤ 4) : (IdSel.ofCode c).code = c := by revert c; decide
theorem KSel.code_ofCode {c : BitVec 4} (h : c.toNat ≤ 4) : (KSel.ofCode c).code = c := by revert c; decide
theorem ShufForm.code_ofCode {c : BitVec 4} (h : c.toNat ≤ 3) : (ShufForm.ofCode c).code = c := by revert c; decide

theorem flag4_beq_one {c : BitVec 4} (h : c.toNat ≤ 1) : flag4 (c == 1#4) = c := by revert c; decide
@[simp] theorem flag1_beq_one (c : BitVec 1) : flag1 (c == 1#1) = c := by revert c; decide

/-- Field v, field c and the round field of a reduction are those of the operation that they decode to (R61): field c
holds a type for the floating codes only, the round field a mode for fadd only. -/
theorem RedOp.codes_ofCode {v c : BitVec 4} {r : Round} (hv : v.toNat ≤ 10)
    (hc : if 8 ≤ v.toNat then c.toNat ≤ 2 else c = 0) (hr : v = 8 ∨ r = .rne) :
    (RedOp.ofCode v c r).code = v ∧ (RedOp.ofCode v c r).typeCode = c ∧ (RedOp.ofCode v c r).round = r := by
  revert v c; cases r <;> decide

end Sys2Proof
end

section
/-! PROOF. Proofs/DecodedOperations.lean: the instruction of each row of the opcode map has the fields that the row was
read from (R53 to R65), provided that the row's checks hold; so an operation that decodes is its word's only reading. -/

namespace Sys2Proof

/-! ### Checks -/

/-- Every check of a list holds. -/
def Holds (cs : List Check) : Prop := ∀ c ∈ cs, c.1 = true

@[simp] theorem holds_nil : Holds [] := by simp [Holds]

@[simp] theorem holds_cons {c : Check} {cs : List Check} : Holds (c :: cs) ↔ c.1 = true ∧ Holds cs := by simp [Holds]

@[simp] theorem holds_append {cs ds : List Check} : Holds (cs ++ ds) ↔ Holds cs ∧ Holds ds := by
  simp [Holds, or_imp, forall_and]

theorem worstBit_eq_none {cs : List Check} : worstBit cs = none ↔ Holds cs := by
  induction cs with
  | nil => simp [worstBit]
  | cons c cs ih =>
    obtain ⟨ok, bit⟩ := c
    cases ok
    · cases h : worstBit cs <;> simp [worstBit, h]
    · simp [worstBit, ih]

theorem Instr.wf_iff_holds {i : Instr} : i.wf = true ↔ Holds i.checks := List.all_eq_true

@[simp] theorem zeroBits_holds {n : Nat} {x : BitVec n} {low : Nat} : (zeroBits x low).1 = true ↔ x = 0 := by simp [zeroBits]
@[simp] theorem vMax_holds {f : Fields} {n : Nat} : (vMax f n).1 = true ↔ f.v.toNat ≤ n := by simp [vMax]
@[simp] theorem vMax_zero_holds {f : Fields} : (vMax f 0).1 = true ↔ f.v = 0 := by simp [vMax]
@[simp] theorem vZero_holds {f : Fields} : (vZero f).1 = true ↔ f.v = 0 := by simp [vZero]
@[simp] theorem dZero_holds {f : Fields} : (dZero f).1 = true ↔ f.d = 0 := by simp [dZero]
@[simp] theorem aZero_holds {f : Fields} : (aZero f).1 = true ↔ f.a = 0 := by simp [aZero]
@[simp] theorem bZero_holds {f : Fields} : (bZero f).1 = true ↔ f.b = 0 := by simp [bZero]
@[simp] theorem noRound_holds {t : T0} : (noRound t).1 = true ↔ t.round = 0 := by simp [noRound]
@[simp] theorem t0Checks_hold {t : T0} : Holds (t0Checks t) ↔ t.lane ≠ 3 ∧ t.round ≠ 7 ∧ t.rest = 0 := by
  simp [t0Checks]

/-! ### Fields that agree -/

/-- Fields that agree with a word's one by one are that word's. -/
theorem Fields.eq_of_eqs {f : Fields} {n : Nat} {v d a b : BitVec 4} {tail : BitVec 24} (hop : f.op.toNat = n)
    (hv : v = f.v) (hd : d = f.d) (ha : a = f.a) (hb : b = f.b) (htail : tail = f.tail) :
    ({ op := BitVec.ofNat 8 n, v := v, d := d, a := a, b := b, tail := tail } : Fields) = f := by
  subst hop hv hd ha hb htail
  simp

/-- Parts that agree with those of a T0 tail one by one make that tail. -/
theorem T0.pack_eq_of_eqs {tail : BitVec 24} {t : T0} (hc : t.c = (T0.unpack tail).c) (hlen : t.len = (T0.unpack tail).len)
    (hlane : t.lane = (T0.unpack tail).lane) (hround : t.round = (T0.unpack tail).round)
    (hsat : t.sat = (T0.unpack tail).sat) (hrest : t.rest = (T0.unpack tail).rest) : t.pack = tail := by
  rw [T0.pack, hc, hlen, hlane, hround, hsat, hrest]
  exact T0.pack_unpack tail

/-- Parts that agree with those of a T3 tail one by one make that tail. -/
theorem T3.pack_eq_of_eqs {tail : BitVec 24} {t : T3} (hblock : t.block = (T3.unpack tail).block)
    (hmask : t.mask = (T3.unpack tail).mask) (himm : t.imm = (T3.unpack tail).imm) : t.pack = tail := by
  rw [T3.pack, hblock, hmask, himm]
  exact T3.pack_unpack tail

/-! ### The kinds of rows

For each builder of rows, `hi` names the fields of the row's instruction and `h` says that, where the row's own checks
hold, they are those of the word; what the builder checks by itself makes the rest of the word agree. -/

section Builders

/-- A row is canonical for the fields that it was read from: where its checks hold, its instruction has those fields. -/
def Row.Canonical (f : Fields) (r : Row) : Prop := Holds r.1 → fieldsOf r.2 = some f

variable {f : Fields} {n : Nat} {cs : List Check} {v d a b : BitVec 4}

theorem rowZ_canonical {i : Instr} (hop : f.op.toNat = n) (hi : fieldsOf i = some (zFields (BitVec.ofNat 8 n) v d a b))
    (h : Holds cs → v = f.v ∧ d = f.d ∧ a = f.a ∧ b = f.b) : Row.Canonical f (rowZ f cs i) := by
  intro hc
  obtain ⟨htail, hcs⟩ := holds_cons.1 hc
  obtain ⟨hv, hd, ha, hb⟩ := h hcs
  exact hi.trans (congrArg some (Fields.eq_of_eqs hop hv hd ha hb (zeroBits_holds.1 htail).symm))

theorem rowScalar_canonical {vmax : Nat} {i : Instr} (hop : f.op.toNat = n)
    (hi : fieldsOf i = some (zFields (BitVec.ofNat 8 n) v f.d f.a f.b)) (h : f.v.toNat ≤ vmax → v = f.v) :
    Row.Canonical f (rowScalar f vmax i) := by
  intro hc
  simp [rowScalar] at hc
  obtain ⟨hv, htail⟩ := hc
  exact hi.trans (congrArg some (Fields.eq_of_eqs hop (h hv) rfl rfl rfl htail.symm))

theorem rowT1_canonical {subMax : Nat} {i : T1 → Instr} {imm : BitVec 20} {sub : BitVec 4} (hop : f.op.toNat = n)
    (hi : fieldsOf (i (T1.unpack f.tail)) = some (t1Fields (BitVec.ofNat 8 n) v d a b imm sub))
    (h : (T1.unpack f.tail).sub.toNat ≤ subMax → Holds cs → v = f.v ∧ d = f.d ∧ a = f.a ∧ b = f.b ∧
      imm = (T1.unpack f.tail).imm ∧ sub = (T1.unpack f.tail).sub) : Row.Canonical f (rowT1 f subMax cs i) := by
  intro hc
  simp [rowT1] at hc
  obtain ⟨hmax, hcs⟩ := hc
  obtain ⟨hv, hd, ha, hb, rfl, rfl⟩ := h hmax hcs
  exact hi.trans (congrArg some (Fields.eq_of_eqs hop hv hd ha hb (T1.pack_unpack f.tail)))

theorem rowLanewise_canonical {vmax : Nat} {i : Lanewise → Instr} (hop : f.op.toNat = n)
    (hi : ∀ o, fieldsOf (i o) = some (o.fields (BitVec.ofNat 8 n) v)) (h : f.v.toNat ≤ vmax → v = f.v) :
    Row.Canonical f (rowLanewise f vmax i) := by
  intro hc
  simp [rowLanewise] at hc
  obtain ⟨hv, hc0, hround, hlane, -, hrest⟩ := hc
  exact (hi _).trans (congrArg some (Fields.eq_of_eqs hop (h hv) rfl rfl rfl
    (T0.pack_eq_of_eqs hc0.symm (Len.code_ofCode _) (Lane.code_ofCode hlane) hround.symm (flag1_beq_one _) hrest.symm)))

theorem rowLanewise1_canonical {i : Lanewise1 → Instr} (hop : f.op.toNat = n)
    (hi : ∀ o, fieldsOf (i o) = some (o.fields (BitVec.ofNat 8 n))) : Row.Canonical f (rowLanewise1 f i) := by
  intro hc
  simp [rowLanewise1] at hc
  obtain ⟨hv, hb, hc0, hround, hlane, -, hrest⟩ := hc
  exact (hi _).trans (congrArg some (Fields.eq_of_eqs hop hv.symm rfl rfl hb.symm
    (T0.pack_eq_of_eqs hc0.symm (Len.code_ofCode _) (Lane.code_ofCode hlane) hround.symm (flag1_beq_one _) hrest.symm)))

theorem rowMove_canonical {i : Len → Instr} (hop : f.op.toNat = n)
    (hi : ∀ l, fieldsOf (i l) = some { op := BitVec.ofNat 8 n, v := 0, d := d, a := a, b := b, tail := lenTail l })
    (h : Holds cs → d = f.d ∧ a = f.a ∧ b = f.b) : Row.Canonical f (rowMove f cs i) := by
  intro hc
  simp [rowMove] at hc
  obtain ⟨hv, hc0, hlane, hround, hsat, ⟨-, -, hrest⟩, hcs⟩ := hc
  obtain ⟨hd, ha, hb⟩ := h hcs
  exact (hi _).trans (congrArg some (Fields.eq_of_eqs hop hv.symm hd ha hb
    (T0.pack_eq_of_eqs hc0.symm (Len.code_ofCode _) hlane.symm hround.symm hsat.symm hrest.symm)))

/-- A floating row; where it keeps field c, its operation holds it. -/
theorem rowFloat_canonical {c : T0 → List Check} {i : T0 → FloatOp → Instr} {keepC : Bool} {code : FloatOp → BitVec 4}
    (hop : f.op.toNat = n) (hi : ∀ o, fieldsOf (i (T0.unpack f.tail) o) = some (o.fields (BitVec.ofNat 8 n) (code o)))
    (h : Holds (c (T0.unpack f.tail)) → ∀ o : FloatOp, (keepC = true → o.c = (T0.unpack f.tail).c) →
      code o = (T0.unpack f.tail).c) : Row.Canonical f (rowFloat f c i keepC) := by
  intro hc
  simp [rowFloat] at hc
  obtain ⟨hv, hlane, ⟨-, hround, hrest⟩, hcs⟩ := hc
  exact (hi _).trans (congrArg some (Fields.eq_of_eqs hop (FTy.code_ofCode hv) rfl rfl rfl
    (T0.pack_eq_of_eqs (h hcs _ fun hk => if_pos hk) (Len.code_ofCode _) hlane.symm (Round.code_ofCode hround)
      (flag1_beq_one _) hrest.symm)))

/-- A vector row; where it keeps field c, its operation holds it. -/
theorem rowVec_canonical {c : T0 → List Check} {i : T0 → VecOp → Instr} {keepC : Bool} {code : VecOp → BitVec 4} {r : Round}
    (hop : f.op.toNat = n) (hi : ∀ o, fieldsOf (i (T0.unpack f.tail) o) = some (o.fields (BitVec.ofNat 8 n) v (code o) r))
    (h : Holds (c (T0.unpack f.tail)) → v = f.v ∧ r = Round.ofCode (T0.unpack f.tail).round ∧
      ∀ o : VecOp, (keepC = true → o.c = (T0.unpack f.tail).c) → code o = (T0.unpack f.tail).c) :
    Row.Canonical f (rowVec f c i keepC) := by
  intro hc
  simp [rowVec] at hc
  obtain ⟨hsat, ⟨hlane, hround, hrest⟩, hcs⟩ := hc
  obtain ⟨hv, rfl, hcode⟩ := h hcs
  exact (hi _).trans (congrArg some (Fields.eq_of_eqs hop hv rfl rfl rfl
    (T0.pack_eq_of_eqs (hcode _ fun hk => if_pos hk) (Len.code_ofCode _) (Lane.code_ofCode hlane)
      (Round.code_ofCode hround) hsat.symm hrest.symm)))

theorem rowVec16_canonical {c : T0 → List Check} {i : T0 → Instr} {code : BitVec 4} {r : Round} {sat : Bool}
    (hop : f.op.toNat = n)
    (hi : fieldsOf (i (T0.unpack f.tail)) = some (vec16Fields (BitVec.ofNat 8 n) (Fmt.ofCode f.v).code f.d f.a b code r sat))
    (h : Holds (c (T0.unpack f.tail)) → b = f.b ∧ code = (T0.unpack f.tail).c ∧
      r = Round.ofCode (T0.unpack f.tail).round ∧ sat = ((T0.unpack f.tail).sat == 1)) :
    Row.Canonical f (rowVec16 f c i) := by
  intro hc
  simp [rowVec16] at hc
  obtain ⟨hv, hlen, hlane, ⟨-, hround, hrest⟩, hcs⟩ := hc
  obtain ⟨hb, hcode, rfl, rfl⟩ := h hcs
  exact hi.trans (congrArg some (Fields.eq_of_eqs hop (Fmt.code_ofCode hv) rfl rfl hb
    (T0.pack_eq_of_eqs hcode hlen.symm hlane.symm (Round.code_ofCode hround) (flag1_beq_one _) hrest.symm)))

theorem rowT2_canonical {c : T2 → List Check} {i : T2 → MemRef → Instr} {sync : BitVec 3} (hop : f.op.toNat = n)
    (hi : ∀ m, fieldsOf (i (T2.unpack f.tail) m) = some (m.fields (BitVec.ofNat 8 n) d b sync))
    (h : Holds (c (T2.unpack f.tail)) → d = f.d ∧ b = f.b ∧ sync = (T2.unpack f.tail).sync) :
    Row.Canonical f (rowT2 f c i) := by
  intro hc
  simp [rowT2] at hc
  obtain ⟨hscope, hcs⟩ := hc
  obtain ⟨hd, hb, rfl⟩ := h hcs
  refine (hi _).trans (congrArg some (Fields.eq_of_eqs hop rfl hd rfl hb ?_))
  simpa [memOf, Scope.code_ofCode hscope] using T2.pack_unpack f.tail

theorem rowEngine_canonical {i : MemRef → Instr} (hop : f.op.toNat = n)
    (hi : ∀ m, fieldsOf (i m) = some (m.fields (BitVec.ofNat 8 n) 0 0 0)) : Row.Canonical f (rowEngine f i) :=
  rowT2_canonical hop hi fun h => by
    simp at h
    simp [h]

theorem rowAtomic_canonical {i : Order → MemRef → Instr} (hop : f.op.toNat = n)
    (hi : ∀ o m, fieldsOf (i o m) = some (m.fields (BitVec.ofNat 8 n) f.d f.b o.code)) : Row.Canonical f (rowAtomic f i) :=
  rowT2_canonical hop (hi _) fun h => by
    simp at h
    simp [Order.code_ofCode h]

theorem rowBank_canonical {i : BitVec 4 → Instr} (hop : f.op.toNat = n)
    (hi : ∀ bank, fieldsOf (i bank) = some (bankFields (BitVec.ofNat 8 n) b bank)) (h : Holds cs → b = f.b) :
    Row.Canonical f (rowBank f cs i) := by
  intro hc
  simp [rowBank] at hc
  obtain ⟨hv, hd, ha, hbase, hspace, hsync, hscope, hsize, hhint, hhigh, hcs⟩ := hc
  refine (hi _).trans (congrArg some (Fields.eq_of_eqs hop hv.symm hd.symm ha.symm (h hcs) ?_))
  have hbank := zero_append_low (n := 4) (m := 4) hhigh
  simpa [T2.pack, hbank, hbase, hspace, hsync, hscope, hsize, hhint] using T2.pack_unpack f.tail

end Builders

/-! ### The rows of the opcode map

One case per kind of row; a case names the rows by their place in the group, so that the k-th is the group's first opcode
plus k - 1. -/

theorem rowPrivileged_canonical (f : Fields) : ∀ r, rowPrivileged f = some r → Row.Canonical f r := by
  unfold rowPrivileged
  split <;> rintro _ ⟨⟩ <;> rename_i hop <;> exact rowEngine_canonical hop fun _ => rfl

theorem rowMemory_canonical (f : Fields) : ∀ r, rowMemory f = some r → Row.Canonical f r := by
  unfold rowMemory
  split <;> rintro _ ⟨⟩
  -- pref, copy, binApp, binRpl
  case h_21 hop | h_30 hop | h_31 hop | h_32 hop => exact rowEngine_canonical hop fun _ => rfl
  -- the atomics and cas
  case h_5 hop | h_6 hop | h_7 hop | h_8 hop | h_9 hop | h_10 hop | h_11 hop | h_12 hop | h_13 hop | h_14 hop | h_15 hop
      | h_16 hop | h_17 hop => exact rowAtomic_canonical hop fun _ _ => rfl
  -- ld, st, feSet, feGet, dropN, gather, scatter, src, sink
  case h_1 hop | h_2 hop | h_18 hop | h_19 hop | h_20 hop | h_23 hop | h_24 hop | h_25 hop | h_26 hop =>
    refine rowT2_canonical hop (fun _ => rfl) fun h => ?_
    simp at h
    simp [flag4_beq_one, h]
  -- ldv and stv: code 6 of the sync field is the form .n, which has a field b
  case h_3 hop | h_4 hop =>
    by_cases hs : (T2.unpack f.tail).sync = 6
    · refine rowT2_canonical (d := f.d) (b := f.b) (sync := 6) hop (fun m => ?_) fun _ => ?_
      · rw [if_pos hs]; rfl
      · simp [hs]
    · refine rowT2_canonical (d := f.d) (b := 0) (sync := (Sync.ofCode (T2.unpack f.tail).sync).code) hop (fun m => ?_) fun h => ?_
      · rw [if_neg hs]; rfl
      · simp at h hs
        simp_all
  -- fence
  case h_22 hop =>
    intro h
    simp at h
    obtain ⟨hv, hd, ha, hb, hbase, hspace, hsync, hscope, hsize, hhint, himm⟩ := h
    refine congrArg some (Fields.eq_of_eqs hop hv.symm hd.symm ha.symm hb.symm ?_)
    simpa [T2.pack, Order.code_ofCode hsync, Scope.code_ofCode hscope, hbase, hspace, hsize, hhint, himm]
      using T2.pack_unpack f.tail
  -- fifoPush, fifoPop, reorder
  case h_27 hop | h_28 hop | h_29 hop =>
    refine rowBank_canonical hop (fun _ => rfl) fun h => ?_
    simp at h
    simp [flag4_beq_one, h]

theorem rowVector_canonical (f : Fields) : ∀ r, rowVector f = some r → Row.Canonical f r := by
  unfold rowVector
  dsimp only
  split <;> rintro _ ⟨⟩
  -- vred, vscan
  case h_1 hop | h_2 hop =>
    refine rowVec_canonical hop (fun _ => rfl) fun h => ?_
    simp at h
    obtain ⟨hv, hc, hr⟩ := h
    obtain ⟨hcode, htype, hround⟩ := RedOp.codes_ofCode hv hc (hr.imp_right (congrArg Round.ofCode))
    exact ⟨hcode, hround, fun _ _ => htype⟩
  -- vbcast, vshuf, vsel, vdot, vamax
  case h_3 hop | h_4 hop | h_5 hop | h_6 hop | h_9 hop =>
    refine rowVec_canonical hop (fun _ => rfl) fun h => ?_
    simp at h
    simp [h, ShufForm.code_ofCode, FTy.code_ofCode, Fmt.code_ofCode]
  -- vpack, vunpack, vquant
  case h_7 hop | h_8 hop | h_10 hop =>
    refine rowVec16_canonical hop rfl fun h => ?_
    simp at h
    simp [h]
  -- vmxd
  case h_11 hop =>
    refine rowVec16_canonical hop rfl fun h => ?_
    simp at h
    obtain ⟨hb, hc | hc, hround, hsat⟩ := h <;> simp [hb, hc, hround, hsat]

theorem rowMatrix_canonical (f : Fields) : ∀ r, rowMatrix f = some r → Row.Canonical f r := by
  unfold rowMatrix
  dsimp only
  split <;> rintro _ ⟨⟩
  all_goals
    rename_i hop
    refine rowT1_canonical hop rfl fun hs h => ?_
    simp at h hs
    simp [h, hs, flag4_beq_one, Fmt.code_ofCode, zero_append_low2, zero_append_low3, tloadImm_eq, mscaImm_eq]

theorem rowFloating_canonical (f : Fields) : ∀ r, rowFloating f = some r → Row.Canonical f r := by
  unfold rowFloating
  dsimp only
  split <;> rintro _ ⟨⟩
  -- fsgn and fcmp: field c is a code
  case h_7 hop | h_8 hop =>
    refine rowFloat_canonical hop (fun _ => rfl) fun h o _ => ?_
    simp at h
    simp [SgnForm.code_ofCode, FCond.code_ofCode, h]
  -- fcvt: field c is the source format, which gives the lane view
  case h_9 hop =>
    intro h
    simp at h
    obtain ⟨hv, hc, hb, hlane, ⟨-, hround, hrest⟩⟩ := h
    have hne : (T0.unpack f.tail).c ≠ 15#4 := by rintro h; simp [h] at hc
    simp [hne] at hlane ⊢
    exact congrArg some (Fields.eq_of_eqs hop (Fmt.code_ofCode hv) rfl rfl hb.symm (T0.pack_eq_of_eqs
      (Fmt.code_ofCode hc) (Len.code_ofCode _) hlane.symm (Round.code_ofCode hround) (flag1_beq_one _) hrest.symm))
  all_goals
    rename_i hop
    exact rowFloat_canonical hop (fun _ => rfl) fun _ _ hc => hc rfl

theorem rowInteger_canonical (f : Fields) : ∀ r, rowInteger f = some r → Row.Canonical f r := by
  unfold rowInteger
  dsimp only
  split <;> rintro _ ⟨⟩
  -- the lane-wise operations without a variant
  case h_1 hop | h_2 hop | h_4 hop | h_7 hop | h_8 hop | h_9 hop | h_13 hop | h_14 hop | h_15 hop | h_17 hop =>
    exact rowLanewise_canonical hop (fun _ => rfl) fun h => (eq_zero_of_toNat_le h).symm
  -- mulh, min, max: field v says unsigned
  case h_5 hop | h_21 hop | h_22 hop => exact rowLanewise_canonical hop (fun _ => rfl) flag4_beq_one
  -- clz, ctz, popc, abs
  case h_18 hop | h_19 hop | h_20 hop | h_23 hop => exact rowLanewise1_canonical hop fun _ => rfl
  -- addi, andi, ori, xori, bfx, bfi
  case h_3 hop | h_10 hop | h_11 hop | h_12 hop | h_24 hop | h_25 hop =>
    refine rowT1_canonical hop rfl fun hs h => ?_
    simp at h hs
    simp [h, hs, fieldImm_eq, flag4_beq_one]
  -- mad
  case h_6 hop =>
    intro h
    simp at h
    obtain ⟨hv, hround, hlane, -, hrest⟩ := h
    exact congrArg some (Fields.eq_of_eqs hop hv.symm rfl rfl rfl (T0.pack_eq_of_eqs rfl (Len.code_ofCode _)
      (Lane.code_ofCode hlane) hround.symm (flag1_beq_one _) hrest.symm))
  -- shli, shri, sari: the sub-operation says which
  case h_16 hop =>
    have himm : ∀ {x : BitVec 20}, x.extractLsb' 5 15 = 0#15 → 0#15 ++ x.extractLsb' 0 5 = x :=
      zero_append_low (n := 15) (m := 5)
    by_cases h0 : (T1.unpack f.tail).sub = 0
    · refine rowT1_canonical hop (sub := 0) ((congrArg fieldsOf (if_pos h0)).trans rfl) fun _ h => ?_
      simp at h
      simp [h, h0, himm]
    by_cases h1 : (T1.unpack f.tail).sub = 1
    · refine rowT1_canonical hop (sub := 1) ((congrArg fieldsOf ((if_neg h0).trans (if_pos h1))).trans rfl) fun _ h => ?_
      simp at h
      simp [h, h1, himm]
    · refine rowT1_canonical hop (sub := 2) ((congrArg fieldsOf ((if_neg h0).trans (if_neg h1))).trans rfl) fun hs h => ?_
      simp at h
      have h2 : 2#4 = (T1.unpack f.tail).sub := by bv_omega
      simp [h, h2, himm]
  -- hash, lea
  case h_26 hop => exact rowScalar_canonical hop rfl flag4_beq_one
  case h_27 hop => exact rowScalar_canonical hop rfl zero_append_low3
  -- add64, sub64, shl64
  case h_28 hop | h_29 hop | h_30 hop =>
    exact rowScalar_canonical hop rfl fun h => (eq_zero_of_toNat_le h).symm
  -- chk
  case h_31 hop =>
    intro h
    simp [rowScalar] at h
    obtain ⟨hd, hv, htail⟩ := h
    exact congrArg some (Fields.eq_of_eqs hop (flag4_beq_one hv) hd.symm rfl rfl htail.symm)

theorem rowControl_canonical (f : Fields) : ∀ r, rowControl f = some r → Row.Canonical f r := by
  unfold rowControl
  dsimp only
  split <;> rintro _ ⟨⟩
  -- the rows with a Z tail but ret
  case h_1 hop | h_4 hop | h_6 hop | h_7 hop | h_12 hop | h_13 hop | h_16 hop | h_18 hop | h_19 hop | h_20 hop | h_21 hop
      | h_25 hop | h_30 hop =>
    refine rowZ_canonical hop rfl fun h => ?_
    simp at h
    simp [h, flag4_beq_one, KSel.code_ofCode]
  -- the rows with a T1 tail but setp
  case h_2 hop | h_3 hop | h_17 hop | h_22 hop | h_23 hop | h_26 hop | h_31 hop =>
    refine rowT1_canonical hop rfl fun hs h => ?_
    simp at h hs
    simp [h, hs, IdSel.code_ofCode, zero_append_low2, zero_append_low (n := 16) (m := 4)]
  -- launch, cfg
  case h_24 hop => exact rowEngine_canonical hop fun _ => rfl
  case h_32 hop =>
    refine rowT2_canonical hop (fun _ => rfl) fun h => ?_
    simp at h
    simp [h]
  -- mov, sel, zip, split
  case h_5 hop | h_14 hop | h_27 hop | h_28 hop =>
    refine rowMove_canonical hop (fun _ => rfl) fun h => ?_
    simp at h
    simp [h]
  -- ret and retTrap: field v says which
  case h_9 hop =>
    by_cases hv : f.v = 1
    · refine rowZ_canonical hop (v := 1) ((congrArg fieldsOf (if_pos hv)).trans rfl) fun h => ?_
      simp at h
      simp [h, hv]
    · refine rowZ_canonical hop (v := 0) ((congrArg fieldsOf (if_neg hv)).trans rfl) fun h => ?_
      simp at h
      have h0 : 0#4 = f.v := by bv_omega
      simp [h, h0]
  -- setp: field v says whether the operand is a register or an immediate
  case h_15 hop =>
    by_cases hv : f.v = 1
    · refine rowT1_canonical hop (v := 1) ((congrArg (fun o => fieldsOf (.setp _ _ o)) (if_pos hv)).trans rfl) fun hs h => ?_
      simp [hv] at h
      simp [h, hv, Cond.code_ofCode hs]
    · refine rowT1_canonical hop (v := 0) ((congrArg (fun o => fieldsOf (.setp _ _ o)) (if_neg hv)).trans rfl) fun hs h => ?_
      have h1 : f.v ≠ 1#4 := hv
      simp [h1] at h
      have h0 : 0#4 = f.v := by bv_omega
      simp [h, h0, Cond.code_ofCode hs]
  -- call, fork
  case h_8 hop | h_11 hop =>
    intro h
    simp at h
    obtain ⟨hv, hd, ha, hb, hmask, himm⟩ := h
    exact congrArg some (Fields.eq_of_eqs hop hv.symm hd.symm ha.symm hb.symm
      (T3.pack_eq_of_eqs rfl hmask.symm himm.symm))
  -- acc
  case h_29 hop =>
    intro h
    simp at h
    obtain ⟨hv, hd, hb, hc, hlen, hlane, hsat, -, hround, hrest⟩ := h
    exact congrArg some (Fields.eq_of_eqs hop (AccOp.code_ofCode hv) hd.symm rfl hb.symm
      (T0.pack_eq_of_eqs hc.symm hlen.symm hlane.symm (Round.code_ofCode hround) hsat.symm hrest.symm))
  -- emit: the low bits of the immediate are the mode
  case h_10 hop =>
    intro h
    simp at h
    obtain ⟨hv, hd, ha, hb, ⟨hzero, hne⟩, hsecond, hblock⟩ := h
    have hf : ∀ {tail}, tail = f.tail → _ := Fields.eq_of_eqs hop hv.symm hd.symm ha.symm hb.symm
    dsimp only
    by_cases h0 : (T3.unpack f.tail).imm.extractLsb' 0 2 = 0#2
    · have himm := emitImm_eq (hsecond.resolve_left (by simp [h0])) hzero h0
      exact (congrArg (fun m => fieldsOf (.emit _ m)) (if_pos h0)).trans (congrArg some (hf (T3.pack_eq_of_eqs rfl rfl himm)))
    by_cases h1 : (T3.unpack f.tail).imm.extractLsb' 0 2 = 1#2
    · have himm := emitImm_eq (hsecond.resolve_left (by simp [h1])) hzero h1
      have hblock := hblock.resolve_left (not_not_intro h1)
      exact (congrArg (fun m => fieldsOf (.emit _ m)) ((if_neg h0).trans (if_pos h1))).trans
        (congrArg some (hf (T3.pack_eq_of_eqs hblock.symm rfl himm)))
    · have himm := emitImm_eq (mode := 2#2) rfl hzero (by bv_omega)
      exact (congrArg (fun m => fieldsOf (.emit _ m)) ((if_neg h0).trans (if_neg h1))).trans
        (congrArg some (hf (T3.pack_eq_of_eqs rfl rfl himm)))

/-- The row of every opcode is canonical for the fields that it was read from (R53). -/
theorem rowOf_canonical (f : Fields) : ∀ r, rowOf f = some r → Row.Canonical f r := by
  unfold rowOf
  split
  · exact rowControl_canonical f
  · exact rowInteger_canonical f
  · exact rowFloating_canonical f
  · split
    · exact rowVector_canonical f
    · exact rowMatrix_canonical f
  · exact rowMemory_canonical f
  · exact rowPrivileged_canonical f
  · rintro _ ⟨⟩

end Sys2Proof
end

section
/-! PROOF. Proofs/DecodedWords.lean: every word that decodes is the encoding of what it decodes to (R5, R55, R65), for the
four decoders: element operations, router slots, stream commands and nodes. -/

namespace Sys2Proof

/-! ### Element operations -/

/-- An operation decodes where its opcode has a row, and the row's checks and the instruction's own hold (R65, R67). -/
theorem decodeOp_eq_ok {w : BitVec 48} {i : Instr} (h : decodeOp w = .ok i) :
    ∃ cs, rowOf (Fields.unpack w) = some (cs, i) ∧ Holds cs ∧ Holds i.checks := by
  unfold decodeOp at h
  split at h
  · cases h
  · rename_i cs j hrow
    split at h
    · rename_i hworst
      cases h
      exact ⟨cs, hrow, holds_append.1 (worstBit_eq_none.1 hworst)⟩
    · cases h

theorem encode_of_encodeOp {i : Instr} {w : BitVec 48} (h : encodeOp i = some w) : encode i = some (48, w.toNat) := by
  simp [encode, h]

theorem decodeOp_canonical {w : BitVec 48} {i : Instr} (h : decodeOp w = .ok i) :
    i.wf = true ∧ encode i = some (48, w.toNat) := by
  obtain ⟨cs, hrow, hcs, hi⟩ := decodeOp_eq_ok h
  refine ⟨Instr.wf_iff_holds.2 hi, encode_of_encodeOp ?_⟩
  rw [encodeOp, rowOf_canonical _ _ hrow hcs, Option.map_some, Fields.pack_unpack]

/-! ### Router slots -/

theorem encode_of_encodeSlot {i : Instr} {w : BitVec 32} (hop : encodeOp i = none) (h : encodeSlot i = some w) :
    encode i = some (16, w.toNat) := by simp [encode, hop, h]

theorem wf_carry {l : BitVec 8} : (Instr.carry l).wf = true ↔ 3 ≤ l.toNat := by simp [Instr.wf, Instr.checks]

theorem decodeSlot_canonical {w : BitVec 32} {i : Instr} (h : decodeSlot w = some i) :
    i.wf = true ∧ encode i = some (16, w.toNat) := by
  unfold decodeSlot at h
  dsimp only at h
  have hw := append_slices (n := 16) (m := 3) (k := 13) w
  split at h
  case isTrue => cases h
  case isFalse hrest =>
  rw [Decidable.not_not.1 hrest] at hw
  split at h
  case isTrue hkind =>
    rw [hkind] at hw
    split at h <;> cases h
    rename_i hparam
    rw [← zero_append_low (n := 15) (m := 1) hparam, ← flag1_beq_one (BitVec.extractLsb' 0 1 _)] at hw
    exact ⟨rfl, encode_of_encodeSlot rfl (congrArg some hw)⟩
  split at h
  case isTrue hkind =>
    rw [hkind] at hw
    split at h <;> cases h
    rename_i hparam
    rw [hparam] at hw
    exact ⟨rfl, encode_of_encodeSlot rfl (congrArg some hw)⟩
  split at h
  case isTrue hkind =>
    rw [hkind] at hw
    split at h <;> cases h
    rename_i hparam
    have hl := zero_append_low (n := 8) (m := 8) hparam.1
    refine ⟨wf_carry.2 ?_, encode_of_encodeSlot rfl (congrArg some (hl.symm ▸ hw))⟩
    rw [← toNat_zero_append (n := 8), hl]
    exact hparam.2
  case isFalse => cases h

/-! ### Stream commands -/

theorem encode_of_encodeCommand {i : Instr} {w : BitVec 32} (hop : encodeOp i = none) (hslot : encodeSlot i = none)
    (h : encodeCommand i = some w) : encode i = some (32, w.toNat) := by simp [encode, hop, hslot, h]

/-! The commands' words as their fields, from the kind in bits [31:30] down (R15, R16, R18). -/

theorem fieldWrite_parts (w : BitVec 32) : w.extractLsb' 30 2 ++ w.extractLsb' 24 6 ++ w.extractLsb' 20 4 ++
    w.extractLsb' 16 4 ++ w.extractLsb' 0 16 = w := by
  simp only [BitVec.extractLsb'_append_extractLsb'_eq_extractLsb']
  exact BitVec.extractLsb'_eq_self

theorem routeHead_parts (w : BitVec 32) : w.extractLsb' 30 2 ++ w.extractLsb' 29 1 ++ w.extractLsb' 23 6 ++
    w.extractLsb' 19 4 ++ w.extractLsb' 17 2 ++ w.extractLsb' 15 2 ++ w.extractLsb' 13 2 ++ w.extractLsb' 12 1 ++
    w.extractLsb' 0 12 = w := by
  simp only [BitVec.extractLsb'_append_extractLsb'_eq_extractLsb']
  exact BitVec.extractLsb'_eq_self

theorem routeContinuation_parts (w : BitVec 32) : w.extractLsb' 30 2 ++ w.extractLsb' 29 1 ++ w.extractLsb' 26 3 ++
    w.extractLsb' 0 26 = w := by
  simp only [BitVec.extractLsb'_append_extractLsb'_eq_extractLsb']
  exact BitVec.extractLsb'_eq_self

theorem page_parts (w : BitVec 32) : w.extractLsb' 30 2 ++ w.extractLsb' 26 4 ++ w.extractLsb' 7 19 ++
    w.extractLsb' 4 3 ++ w.extractLsb' 0 4 = w := by
  simp only [BitVec.extractLsb'_append_extractLsb'_eq_extractLsb']
  exact BitVec.extractLsb'_eq_self

theorem checksum_parts (w : BitVec 32) : w.extractLsb' 30 2 ++ w.extractLsb' 26 4 ++ w.extractLsb' 24 2 ++
    w.extractLsb' 0 24 = w := by
  simp only [BitVec.extractLsb'_append_extractLsb'_eq_extractLsb']
  exact BitVec.extractLsb'_eq_self

theorem preload_parts (w : BitVec 32) : w.extractLsb' 30 2 ++ w.extractLsb' 26 4 ++ w.extractLsb' 20 6 ++
    w.extractLsb' 16 4 ++ w.extractLsb' 5 11 ++ w.extractLsb' 0 5 = w := by
  simp only [BitVec.extractLsb'_append_extractLsb'_eq_extractLsb']
  exact BitVec.extractLsb'_eq_self

theorem decodeCommand_canonical {w : BitVec 32} {i : Instr} (h : decodeCommand w = some i) :
    i.wf = true ∧ encode i = some (32, w.toNat) := by
  unfold decodeCommand at h
  dsimp only at h
  split at h
  case isTrue hkind =>
    cases h
    have hw := fieldWrite_parts w
    rw [hkind] at hw
    exact ⟨rfl, encode_of_encodeCommand rfl rfl (congrArg some hw)⟩
  split at h
  case isTrue hkind =>
    split at h
    case isTrue h29 =>
      split at h <;> cases h
      rename_i h12
      have hw := routeHead_parts w
      rw [hkind, h29, h12] at hw
      exact ⟨rfl, encode_of_encodeCommand rfl rfl (congrArg some hw)⟩
    case isFalse h29 =>
      split at h <;> cases h
      rename_i h26
      have hw := routeContinuation_parts w
      rw [hkind, h26, show w.extractLsb' 29 1 = 1 by bv_omega] at hw
      exact ⟨rfl, encode_of_encodeCommand rfl rfl (congrArg some hw)⟩
  split at h
  case isTrue hkind =>
    split at h
    case h_1 hop =>
      split at h <;> cases h
      rename_i hzero
      have hw := page_parts w
      rw [hkind, BitVec.eq_of_toNat_eq (y := 0#4) hop, hzero] at hw
      exact ⟨rfl, encode_of_encodeCommand rfl rfl (congrArg some hw)⟩
    case h_2 hop =>
      split at h <;> cases h
      rename_i hzero
      have hw := append_slices (n := 2) (m := 4) (k := 26) w
      rw [hkind, BitVec.eq_of_toNat_eq (y := 1#4) hop, hzero] at hw
      exact ⟨rfl, encode_of_encodeCommand rfl rfl (congrArg some hw)⟩
    case h_3 hop =>
      split at h <;> cases h
      rename_i hzero
      have hw := append_slices (n := 2) (m := 4) (k := 26) w
      rw [hkind, BitVec.eq_of_toNat_eq (y := 2#4) hop, hzero] at hw
      exact ⟨rfl, encode_of_encodeCommand rfl rfl (congrArg some hw)⟩
    case h_4 hop =>
      split at h <;> cases h
      rename_i hzero
      have hw := checksum_parts w
      rw [hkind, BitVec.eq_of_toNat_eq (y := 3#4) hop, hzero] at hw
      exact ⟨rfl, encode_of_encodeCommand rfl rfl (congrArg some hw)⟩
    case h_5 hop =>
      cases h
      have hw := preload_parts w
      rw [hkind, BitVec.eq_of_toNat_eq (y := 4#4) hop] at hw
      exact ⟨rfl, encode_of_encodeCommand rfl rfl (congrArg some hw)⟩
    case h_6 => cases h
  case isFalse => cases h

/-! ### Nodes -/

theorem encode_of_encodeNode {i : Instr} {w : BitVec 256} (hop : encodeOp i = none) (hslot : encodeSlot i = none)
    (hcommand : encodeCommand i = none) (h : encodeNode i = some w) : encode i = some (256, w.toNat) := by
  simp [encode, hop, hslot, hcommand, h]

/-- A node whose fields are those of a word, of the word's kind, has that word for its bits (R37). -/
theorem Node.bits_eq_of_eqs {n : Node} {kind : BitVec 8} {w : BitVec 256} (hkind : (w.extractLsb' 24 8).toNat = kind.toNat)
    (hscope : n.scope.code = w.extractLsb' 21 3) (hjoin : flag1 n.join = w.extractLsb' 20 1)
    (hiter : n.iter = w.extractLsb' 0 20) (hval : n.val = w.extractLsb' 32 32) (hnext : n.next = w.extractLsb' 64 64)
    (halt : n.alt = w.extractLsb' 128 64) (harg : n.arg = w.extractLsb' 192 64) : n.bits kind = w := by
  simp only [Node.bits, hscope, hjoin, hiter, hval, hnext, halt, harg, ← BitVec.eq_of_toNat_eq hkind,
    BitVec.extractLsb'_append_extractLsb'_eq_extractLsb']
  exact BitVec.extractLsb'_eq_self

theorem decodeNode_canonical {w : BitVec 256} {i : Instr} (h : decodeNode w = some i) :
    i.wf = true ∧ encode i = some (256, w.toNat) := by
  unfold decodeNode at h
  dsimp only at h
  split at h
  case h_2 => cases h
  case h_1 hi =>
    split at h <;> cases h
    rename_i hok
    simp at hok
    obtain ⟨hscope, hwf⟩ := hok
    refine ⟨hwf, ?_⟩
    split at hi
    case h_7 => cases hi
    all_goals
      cases hi
      rename_i hkind
      exact encode_of_encodeNode rfl rfl rfl
        (congrArg some (Node.bits_eq_of_eqs hkind (Scope.code_ofCode hscope) (flag1_beq_one _) rfl rfl rfl rfl rfl))

/-- Settles O56: each of the four decoders reads only well-formed instructions, and only from the words that encode them. -/
theorem decodedWordsAreCanonical : Obligations.DecodedWordsAreCanonical :=
  ⟨fun _ _ => decodeOp_canonical, fun _ _ => decodeSlot_canonical, fun _ _ => decodeCommand_canonical,
    fun _ _ => decodeNode_canonical⟩

end Sys2Proof
end

section
/-! PROOF. Proofs/FifoOrder.lean: what a push into a FIFO bank leaves of the marks of uncorrectable words (R162, R167). -/

namespace Sys2Proof.Machine

/-- A tile that lists the mark of its first word twice; its words and row words are in canonical form. -/
def twiceMarked : TileState := { TileState.reset with bad := [0, 0] }

/-- The entry pushed into bank 0 of that tile reads back with its first word 0: the write removes one of the two marks, and a
marked word reads as 0 (R113). -/
theorem oldestEntry_fifoPut_twiceMarked :
    (twiceMarked.fifoPut 0 (List.replicate 16 1) false).map (fun t => t.bankRowWords 0 ((t.fifoHead 0 + 0) % 128)) =
      some (0 :: List.replicate 15 1) := by decide +kernel

/-- Refutes O36: the statement asks canonical form of the words and row words, and not of the set of uncorrectable words. Where a
word of the new entry stands twice in that set, the push clears one of its marks only, and the word still reads as 0. -/
theorem not_fifoOrder : ¬ Obligations.FifoOrder := by
  intro h
  have order := h twiceMarked 0 (List.replicate 16 1) false rfl rfl (by decide) rfl (by decide) (by decide)
  obtain ⟨push, -⟩ := order
  obtain ⟨t', pushed, -, entry, -⟩ := push (by decide)
  have read := oldestEntry_fifoPut_twiceMarked
  rw [pushed] at read
  have entry' : t'.bankRowWords 0 ((t'.fifoHead 0 + 0) % 128) = List.replicate 16 1 := entry
  rw [Option.map_some, entry'] at read
  exact absurd read (by decide)

end Sys2Proof.Machine
end

section
/-! PROOF. Proofs/RouterSlots.lean: a slot that can take a record and whose output can accept it makes the pass (R155 to R157). -/

namespace Sys2Proof.Machine

/-- A slot passes the record that it can take by an output whose routes can accept it. -/
theorem State.slotPass_of_ready {s : State} {l : Launch} {u : UnitState} {input output : Nat} {r : Record}
    (h : s.SlotReady l u input r) (a : s.accepts l output) : s.slotPass input output = some (s.slotSent l u input output r) := by
  obtain ⟨here, acts, opens, rest, head⟩ := h
  unfold State.slotPass
  simp only [here, head, acts, opens, s.accepts_out l output a r]
  rfl

theorem State.slotStep_of_ready {s : State} {l : Launch} {u : UnitState} {input output : Nat} {r : Record}
    (h : s.SlotReady l u input r) (a : s.accepts l output) : s.slotStep input output = .next (s.slotSent l u input output r) := by
  rw [State.slotStep, State.slotPass_of_ready h a, Option.getD_some]

/-- An input from which a slot can take a record is not empty. -/
theorem State.SlotReady.isEmpty_port {s : State} {l : Launch} {u : UnitState} {input : Nat} {r : Record}
    (h : s.SlotReady l u input r) : (u.port input).isEmpty = false := by
  obtain ⟨-, -, -, rest, head⟩ := h
  rw [head, List.isEmpty_cons]

/-- The output that P and SENSE choose (R155). -/
theorem execSteer_of_ready {s : State} {l : Launch} {u : UnitState} {r : Record} {inv : Bool}
    (h : s.SlotReady l u (2 * s.focus.slot) r) :
    execSteer inv s =
      s.slotStep (2 * s.focus.slot) (if r.ctl.p = !inv then 2 * s.focus.slot else 2 * s.focus.slot + 1) := by
  obtain ⟨here, -, -, rest, head⟩ := h
  unfold execSteer
  simp only [here, head, bne_iff_ne, ne_eq, Bool.eq_not]

/-- The input that a slot served last (R156). -/
def UnitState.servedIn1 (u : UnitState) (slot : Nat) : Bool := if slot = 0 then u.slot0.lastIn1 else u.slot1.lastIn1

/-- A merge takes in1 where it holds a record and in0 holds none, or in0 was served last (R156). -/
theorem execMerge_of_ready {s : State} {l : Launch} {u : UnitState} {r : Record} {input : Nat} {in1 : Bool}
    (h : s.SlotReady l u input r) (a : s.accepts l (2 * s.focus.slot))
    (take : (!(u.port (2 * s.focus.slot + 1)).isEmpty && ((u.port (2 * s.focus.slot)).isEmpty || !u.servedIn1 s.focus.slot)) = in1)
    (source : (if in1 then 2 * s.focus.slot + 1 else 2 * s.focus.slot) = input) :
    execMerge s = .next ((s.slotSent l u input (2 * s.focus.slot) r).setServed in1) := by
  have pass := State.slotPass_of_ready h a
  subst take source
  unfold execMerge
  simp only [h.here]
  unfold UnitState.servedIn1 at pass ⊢
  rw [pass]

/-- A carry sends the record of its loop back first (R157). -/
theorem execCarry_of_loopBack {s : State} {l : Launch} {u : UnitState} {r : Record} (c : BitVec 8)
    (h : s.SlotReady l u (2 * s.focus.slot + 1) r) :
    execCarry c s = s.slotStep (2 * s.focus.slot + 1) (2 * s.focus.slot) := by
  unfold execCarry
  simp only [h.here, h.isEmpty_port, Bool.not_false, if_true]

/-- A carry whose loop sends nothing back admits a record, or nothing, by the loop's occupancy, counted where the records are (R157,
log 51). -/
theorem execCarry_of_noLoopBack {s : State} {l : Launch} {u : UnitState} (c : BitVec 8) (here : s.here = some (l, u))
    (empty : u.port (2 * s.focus.slot + 1) = []) :
    execCarry c s =
      if l.occupancy s.focus.x s.focus.y s.focus.unit s.focus.slot + 2 ≤ c.toNat then s.slotStep (2 * s.focus.slot) (2 * s.focus.slot)
      else .next s := by
  unfold execCarry
  simp only [here, empty]
  rfl

/-- Settles O18: each router operator by the input it takes and the output it takes it to. -/
theorem routerSlots : Obligations.RouterSlots := by
  intro s l u r _
  refine ⟨fun inv ready accepts => ?_, fun accepts => ⟨fun ready alone => ?_, fun ready alone => ?_, fun c ready => ?_,
    fun c ready empty room => ?_, fun c here empty full => ?_⟩⟩
  case refine_1 => exact (execSteer_of_ready ready).trans (State.slotStep_of_ready ready accepts)
  case refine_2 =>
    refine execMerge_of_ready ready accepts ?_ rfl
    obtain empty | served := alone
    · simp [empty]
    · simp [ready.isEmpty_port, UnitState.servedIn1, served]
  case refine_3 =>
    refine execMerge_of_ready ready accepts ?_ rfl
    obtain empty | served := alone
    · simp [ready.isEmpty_port, empty]
    · simp [ready.isEmpty_port, UnitState.servedIn1, served]
  case refine_4 => exact (execCarry_of_loopBack c ready).trans (State.slotStep_of_ready ready accepts)
  case refine_5 =>
    rw [show exec (.carry c) s = execCarry c s from rfl, execCarry_of_noLoopBack c ready.here empty, if_pos room]
    exact State.slotStep_of_ready ready accepts
  case refine_6 => exact (execCarry_of_noLoopBack c here empty).trans (if_neg full)

end Sys2Proof.Machine
end

section
/-! PROOF. Proofs/HomesServe.lean: a request served at its tile or at its slice, once nothing holds it back (R164, R182, R326). -/

namespace Sys2Proof.Machine

/-! ### What holds a request back -/

theorem dropAt_eq_eraseIdx {α : Type} (xs : List α) (k : Nat) : dropAt xs k = xs.eraseIdx k :=
  (List.eraseIdx_eq_take_drop_succ xs k).symm

/-- No older request of a tile's buffer needs a bank (R164). -/
theorem any_contains_banks_eq_false {banks : List Nat} {older : List Req} (h : ∀ b ∈ banks, ∀ r ∈ older, b ∉ r.banks) :
    banks.any (older.flatMap Req.banks).contains = false := by
  simpa [List.any_eq_false] using h

theorem TileState.takesBanks_of_open {t : TileState} {banks : List Nat} (h : ∀ b ∈ banks, NSet.has t.closed b = false) :
    t.takesBanks banks = true := by
  simpa [TileState.takesBanks] using h

theorem Req.queuedAfter_eq_false {rq r : Req}
    (h : r.granule ≠ rq.granule ∨ (r.party.sameAccess rq.party = false ∧ r.first = false)) : rq.queuedAfter r = false := by
  obtain other | ⟨apart, notFirst⟩ := h
  · simp [Req.queuedAfter, other]
  · simp [Req.queuedAfter, apart, notFirst]

/-! ### A tile -/

/-- A request of the buffer that nothing holds back leaves the buffer and is served (R164). -/
theorem execTileRequestServe_of_buffer {s : State} {inst x y k : Nat} {l : Launch} {rq : Req} (hl : s.launch? inst = some l)
    (hk : (l.tile x y).reqs[k]? = some rq) (hbanks : ∀ b ∈ rq.banks, ∀ older ∈ (l.tile x y).reqs.take k, b ∉ older.banks)
    (hwalk : s.walkHolds (.tile inst x y) rq.key = false) (hpark : s.parkOwes (.tile inst x y) rq.key = false) :
    execTileRequestServe inst x y k s =
      .next ((s.modTile inst x y fun t => { t with reqs := t.reqs.eraseIdx k }).serveTile l inst x y rq) := by
  unfold execTileRequestServe
  simp only [hl, hk, any_contains_banks_eq_false hbanks, hwalk, hpark, dropAt_eq_eraseIdx]
  rfl

/-- A request of the network that nothing holds back is taken into the buffer (R164, R170, R174). -/
theorem execTileRequestServe_of_network {s : State} {inst x y j : Nat} {l : Launch} {rq : Req} (hl : s.launch? inst = some l)
    (hj : (l.tile x y).network[j]? = some rq) (hroom : (l.tile x y).reqs.length < 32) (htime : rq.retryAt ≤ s.now)
    (hfirst : ∀ r ∈ (l.tile x y).network.take j, rq.behind r = false) (hopen : ∀ b ∈ rq.banks, NSet.has (l.tile x y).closed b = false) :
    execTileRequestServe inst x y ((l.tile x y).reqs.length + j) s =
      .next (s.modTile inst x y fun t => { t with reqs := t.reqs ++ [rq], network := t.network.eraseIdx j }) := by
  have past : (l.tile x y).reqs[(l.tile x y).reqs.length + j]? = none := List.getElem?_eq_none (Nat.le_add_right _ _)
  have alone : ((l.tile x y).network.take j).any rq.behind = false :=
    List.any_eq_false.2 fun r hr => Bool.eq_false_iff.1 (hfirst r hr)
  unfold execTileRequestServe
  simp only [hl, past, Nat.add_sub_cancel_left, hj, Nat.not_le.2 hroom, Nat.not_lt.2 htime, alone,
    TileState.takesBanks_of_open hopen, dropAt_eq_eraseIdx]
  rfl

theorem State.serveTile_of_saved {s : State} {inst x y : Nat} {rq : Req} {r : Reply} (l : Launch)
    (h : s.savedReply (.tile inst x y) rq = some r) : s.serveTile l inst x y rq = s.deliver rq r := by
  simp only [State.serveTile, h]

/-- A request that has no saved reply is served in the form its tile performs, and traps where it has none (R163, R310). -/
theorem State.serveTile_of_unsaved {s : State} {inst x y : Nat} {rq : Req} (l : Launch)
    (h : s.savedReply (.tile inst x y) rq = none) :
    (∀ there, s.tileForm l rq = some there → s.serveTile l inst x y rq = s.serveAt (.tile inst x y) there) ∧
    (s.tileForm l rq = none → s.serveTile l inst x y rq = s.deliver rq (.trap .illegal 5 0)) := by
  constructor
  · intro there form
    simp only [State.serveTile, h, form]
  · intro misfit
    simp only [State.serveTile, h, misfit]

/-! ### A slice -/

/-- A request that a slice meets behind none that comes before it (R128, R143, R232, R325). -/
structure State.Arrives (s : State) (sl k : Nat) (rq : Req) : Prop where
  here : (s.slice sl).reqs[k]? = some rq
  ahead : ∀ r ∈ (s.slice sl).reqs.take k, r.granule ≠ rq.granule ∨ (r.party.sameAccess rq.party = false ∧ r.first = false)
  logged : s.replaysAfter rq = false

/-- The slice with a request taken from it. -/
def State.sliceTaken (s : State) (sl k : Nat) : State :=
  s.setSlice sl { s.slice sl with reqs := (s.slice sl).reqs.eraseIdx k }

/-- What a slice does with a request that comes next: caught, forwarded, answered again, or brought to its granule (R182, R326). -/
theorem execSliceRequestServe_of_arrives {s : State} {sl k : Nat} {rq : Req} (h : s.Arrives sl k rq) :
    execSliceRequestServe sl k s =
      if s.caught? rq.va then .next ((s.sliceTaken sl k).catchReq rq)
      else if s.homeSlice rq.va ≠ sl then .next ((s.sliceTaken sl k).setSlice (s.homeSlice rq.va)
        { (s.sliceTaken sl k).slice (s.homeSlice rq.va) with
          reqs := ((s.sliceTaken sl k).slice (s.homeSlice rq.va)).reqs ++ [{ rq with forwarded := true }] })
      else
        match s.savedReply (.slice sl) rq with
        | some r => .next ((s.sliceTaken sl k).deliver rq r)
        | none =>
          if s.fillHolds (.slice sl) rq.granule || (s.slice sl).placeHolds rq.granule || s.walkHolds (.slice sl) rq.granule ||
            s.parkOwes (.slice sl) rq.granule then .next s
          else if s.needsWrite (.slice sl) rq then .next ((s.sliceTaken sl k).askWalk sl rq)
          else .next ((s.sliceTaken sl k).serveAt (.slice sl) rq) := by
  obtain ⟨here, ahead, logged⟩ := h
  have first : ((s.slice sl).reqs.take k).any rq.queuedAfter = false :=
    List.any_eq_false.2 fun r hr => Bool.eq_false_iff.1 (Req.queuedAfter_eq_false (ahead r hr))
  unfold execSliceRequestServe State.sliceTaken
  simp only [here, first, logged, dropAt_eq_eraseIdx] <;> rfl

/-- Settles O29: at a tile by the place of the request, in the buffer or in the network; at a slice by what the slice does with it. -/
theorem homesServe : Obligations.HomesServe := by
  refine ⟨fun s inst x y k l rq hl => ⟨fun hk hbanks hwalk hpark => ?_, fun j hk hj hroom htime hfirst hopen => ?_⟩,
    fun s sl k rq here ahead logged => ⟨fun caught => ?_, fun uncaught => ⟨fun away => ?_, fun home => ⟨fun r saved => ?_,
      fun unsaved fill place walk park => ⟨fun write => ?_, fun ready => ?_⟩⟩⟩⟩⟩
  case refine_1 =>
    have served := execTileRequestServe_of_buffer hl hk hbanks hwalk hpark
    refine ⟨fun r saved => ?_, fun unsaved => ⟨fun there form => ?_, fun misfit => ?_⟩⟩
    · exact served.trans (congrArg _ (State.serveTile_of_saved l saved))
    · exact served.trans (congrArg _ ((State.serveTile_of_unsaved l unsaved).1 there form))
    · exact served.trans (congrArg _ ((State.serveTile_of_unsaved l unsaved).2 misfit))
  case refine_2 =>
    subst hk
    exact execTileRequestServe_of_network hl hj hroom htime hfirst hopen
  all_goals
    refine (execSliceRequestServe_of_arrives ⟨here, ahead, logged⟩).trans ?_
  case refine_3 => exact if_pos caught
  all_goals
    rw [if_neg (Bool.eq_false_iff.1 uncaught)]
  case refine_4 => exact if_pos away
  all_goals
    rw [if_neg (not_not_intro home)]
  case refine_5 => simp only [saved]; rfl
  all_goals
    simp only [unsaved, fill, place, walk, park, Bool.or_self, Bool.false_eq_true, if_false]
  case refine_6 => exact if_pos write
  case refine_7 => exact if_neg (Bool.eq_false_iff.1 ready)

end Sys2Proof.Machine
end

section
/-! PROOF. Proofs/RegionsEnd.lean: what REGION_END does at each stage of an ending, and what an idle span does under halt
(R160, R175, R195, R229, R230). -/

namespace Sys2Proof.Machine

/-! ### The pieces of an ending -/

theorem Launch.fatallyEnded_iff {l : Launch} : l.fatallyEnded = true ↔ l.status = 0x09 ∨ l.status = 0x0A := by
  simp [Launch.fatallyEnded]

/-- A launch that has run gives a trap record for its status block, unless its ending has given one (R230). -/
theorem Launch.givesTrap_iff {l : Launch} :
    (l.committed && !l.fatallyEnded) = true ↔ l.committed = true ∧ l.status ≠ 0x09 ∧ l.status ≠ 0x0A := by
  simp [Launch.fatallyEnded]

theorem Launch.withStatus_eq :
    Launch.withStatus = fun l => if l.status = 0 ∧ l.underRead ≠ 0 then { l with status := 0x0B } else l := by
  funext l
  simp [Launch.withStatus]

/-- What follows an access within a step, unless the access waits. -/
def Now.unlessWaiting {α : Type} (x : Now α) (f : State → State) : State :=
  match x with
  | .wait s => s
  | done => f done.state

/-- A launch that ends, after a fatal error at an address has been found (R230). -/
def Launch.withFatal (a : DWord) (l : Launch) : Launch :=
  { l with fatal := none, status := if l.stage = 3 then l.status else 0x0A,
           lastTrap := l.lastTrap.map fun t => if t.1 = .deviceErr then t else (.deviceErr, 2, a) }

/-- A fatal error that is found during the ending gives the trap record, unless one has been given (R230). -/
theorem State.completeFatal_eq (s : State) (inst : Nat) (l : Launch) (a : DWord) :
    s.completeFatal inst l a =
      if l.stage = 3 ∨ l.status = 0x09 ∨ l.status = 0x0A then s.modLaunch inst (Launch.withFatal a)
      else (s.fatalTrap inst l .deviceErr 2 a).unlessWaiting fun v => v.modLaunch inst (Launch.withFatal a) := by
  unfold State.completeFatal Launch.withFatal
  simp only [Launch.fatallyEnded_iff, beq_iff_eq]
  by_cases given : l.stage = 3 ∨ l.status = 0x09 ∨ l.status = 0x0A
  · simp only [if_pos given]
    rfl
  · simp only [if_neg given]
    cases s.fatalTrap inst l .deviceErr 2 a <;> rfl

/-- A residency report is queued at a die, and nothing else changes. -/
theorem State.reportLaunch_only (s : State) (inst event status : Nat) :
    ∃ dies reports, s.reportLaunch inst event status = { s with dies := dies, reports := reports } := by
  unfold State.reportLaunch
  split
  · exact ⟨_, _, rfl⟩
  · split <;> exact ⟨_, _, rfl⟩

/-- The reports of an ending: that of its acceptance too for a launch keyed at or above 2^32, which ended there (R355, R358). -/
def State.endReported (s : State) (inst status : Nat) : State :=
  (if 2 ^ 32 ≤ inst then s.reportLaunch inst 1 0 else s).reportLaunch inst 6 status

theorem State.endReported_only (s : State) (inst status : Nat) :
    ∃ dies reports, s.endReported inst status = { s with dies := dies, reports := reports } := by
  unfold State.endReported
  split
  · obtain ⟨dies, reports, accepted⟩ := s.reportLaunch_only inst 1 0
    rw [accepted]
    exact State.reportLaunch_only _ inst 6 status
  · exact s.reportLaunch_only inst 6 status

/-! ### REGION_END and HALT_IDLE_SPAN -/

section
variable {s : State} {l : Launch} {inst : Nat} (hl : s.launch? inst = some l)
include hl

theorem execRegionEnd_of_fatal {a : DWord} (fatal : l.fatal = some a) :
    execRegionEnd inst s =
      .next (if l.phase = .completing then s.completeFatal inst l a else s.endFatal inst 0x0A .deviceErr 2 a) := by
  unfold execRegionEnd
  simp only [hl, fatal, beq_iff_eq]
  split <;> rfl

theorem execRegionEnd_of_mayEnd (sound : l.fatal = none) (phase : l.phase ≠ .completing) (may : s.mayEnd inst l = true) :
    execRegionEnd inst s = .next (s.beginEnd inst l) := by
  unfold execRegionEnd
  simp only [hl, sound, beq_false_of_ne phase, may]
  rfl

/-- Stage 1: the engine operations end, and then the trap record of a fatal ending is written (R230 steps 3 and 4). -/
theorem execRegionEnd_of_stage_one (sound : l.fatal = none) (phase : l.phase = .completing) (stage : l.stage = 1) :
    execRegionEnd inst s = .next (if (s.killEngines inst).enginesOf inst then s.killEngines inst
      else ((s.killEngines inst).reportFatal inst).unlessWaiting fun v =>
        (v.underRead inst l).modLaunch inst fun l => { l with stage := 2 }) := by
  unfold execRegionEnd
  simp only [hl, sound, phase, stage, beq_self_eq_true, if_true]
  split
  · rfl
  · cases (s.killEngines inst).reportFatal inst <;> rfl

theorem execRegionEnd_of_stage_two (sound : l.fatal = none) (phase : l.phase = .completing) (stage : l.stage = 2) :
    execRegionEnd inst s = .next (s.reportEnd inst l) := by
  unfold execRegionEnd
  simp only [hl, sound, phase, stage]
  rfl

/-- Stage 3: the completion word has been written; the ending is reported, and the launch is gone (R160, R355, R358). -/
theorem execRegionEnd_of_stage_three {r : Reply} (sound : l.fatal = none) (phase : l.phase = .completing) (stage : l.stage = 3)
    (reply : l.doneReply = some r) :
    execRegionEnd inst s = .next { s.endReported inst l.status.toNat with
      launches := SMap.erase s.launches inst, killing := (if s.killing = some inst then none else s.killing),
      warm := s.warm && !(SMap.erase s.launches inst).isEmpty } := by
  have reported : execRegionEnd inst s =
      let v := s.endReported inst l.status.toNat
      .next { v with launches := SMap.erase v.launches inst, killing := (if v.killing = some inst then none else v.killing),
                     warm := v.warm && !(SMap.erase v.launches inst).isEmpty } := by
    unfold execRegionEnd State.endReported unaccepted
    simp only [hl, sound, phase, stage, reply, decide_eq_true_eq]
    rfl
  obtain ⟨dies, reports, only⟩ := s.endReported_only inst l.status.toNat
  rw [reported, only]

/-- After 256 cycles without movement under halt a span advances the reorder banks, or else removes what waits (R175, R229). -/
theorem execHaltIdleSpan_of_idle (halting : l.halting = true) (phase : l.phase = .running) (sound : l.fatal = none)
    (idle : 256 ≤ s.now - l.lastMove) :
    execHaltIdleSpan inst s = .next (if l.advancing ≠ [] then s.advanceBanks inst l.advancing
      else if s.sideLogOf inst = [] ∧ s.regionWaits inst l = false then s.setLaunch inst { l with spent := true }
      else (s.sideLogOf inst).foldl (fun (s : State) e => s.raise inst (sideLogTrap e))
        ((s.removeWaiting inst l).dropSideLog inst)) := by
  have stands : (!l.halting || l.phase != .running || l.fatal.isSome || decide (s.now - l.lastMove < 256)) = false := by
    simp [halting, phase, sound, idle]
  unfold execHaltIdleSpan
  simp only [hl, stands, State.modLaunch_of_some _ hl]
  by_cases still : l.advancing = []
  · by_cases spent : s.sideLogOf inst = [] ∧ s.regionWaits inst l = false
    · simp [still, spent]
    · have remains : (!s.regionWaits inst l && (s.sideLogOf inst).isEmpty) = false := by
        simpa [and_comm] using spent
      simp only [still, spent, remains]
      rfl
  · simp [still]

end

/-- Settles O41: each stage of an ending by what REGION_END does at it, and the span under halt by what it finds. -/
theorem regionsEnd : Obligations.RegionsEnd := by
  intro s l inst hl
  refine ⟨fun a fatal phase => ?_, fun a fatal phase => ⟨fun given => ?_, fun ungiven => ?_⟩, fun sound phase may => ?_,
    fun sound phase stage => ⟨fun busy => ?_, fun ended => ?_⟩, fun sound phase stage => ?_, fun reply sound phase stage done => ?_,
    ?finish, ?postDone, fun halting phase sound idle => ⟨fun advances => ?_, fun still log waits => ?_, fun still remains => ?_⟩⟩
  case refine_1 => exact (execRegionEnd_of_fatal hl fatal).trans (congrArg _ (if_neg phase))
  case refine_2 =>
    exact (execRegionEnd_of_fatal hl fatal).trans
      (congrArg _ ((if_pos phase).trans ((s.completeFatal_eq inst l a).trans (if_pos given))))
  case refine_3 =>
    refine (execRegionEnd_of_fatal hl fatal).trans
      (congrArg _ ((if_pos phase).trans ((s.completeFatal_eq inst l a).trans ((if_neg ungiven).trans ?_))))
    cases s.fatalTrap inst l .deviceErr 2 a <;> rfl
  case refine_4 => exact execRegionEnd_of_mayEnd hl sound phase may
  case refine_5 => exact (execRegionEnd_of_stage_one hl sound phase stage).trans (congrArg _ (if_pos busy))
  case refine_6 =>
    refine (execRegionEnd_of_stage_one hl sound phase stage).trans
      (congrArg _ ((if_neg (Bool.eq_false_iff.1 ended)).trans ?_))
    cases (s.killEngines inst).reportFatal inst <;> rfl
  case refine_7 =>
    rw [← Launch.withStatus_eq]
    exact execRegionEnd_of_stage_two hl sound phase stage
  case refine_8 => exact execRegionEnd_of_stage_three hl sound phase stage done
  case finish =>
    unfold State.finish
    simp only [hl, Launch.givesTrap_iff] <;> rfl
  case postDone =>
    unfold State.postDone
    simp only [hl]
    rfl
  all_goals
    refine (execHaltIdleSpan_of_idle hl halting phase sound idle).trans (congrArg _ ?_)
  case refine_9 => exact if_pos advances
  all_goals
    rw [if_neg (not_not_intro still)]
  case refine_10 => exact if_pos ⟨log, waits⟩
  case refine_11 => exact if_neg fun ⟨log, waits⟩ => remains.elim (fun h => h log) (Bool.eq_false_iff.1 waits)

end Sys2Proof.Machine
end
